-- ==== Sys2Proof/Word.lean ====
section
/-! DEFINITION. The word types of the JLV-410: 32-bit words of both links (02 R14), bytes,
byte strobes, frame numbers that wrap at 4096 (01 R1) and sets of lag classes (08 R153). -/

namespace Sys2Proof

/-- A 32-bit word of a link, or a byte address. -/
abbrev Word := BitVec 32

/-- One byte of a DRAM structure. -/
abbrev Byte := BitVec 8

/-- The four byte strobes of a write beat, bit b for byte b. -/
abbrev Strobes := BitVec 4

/-- A frame number: 12 bits, every sum and difference taken modulo 4096 (R1). -/
abbrev FrameNo := BitVec 12

/-- A 32-bit counter that wraps to 0 (R55, R78, R104). -/
abbrev Counter := BitVec 32

/-- A class set, bit c for lag class c, as FRAMES reports carry it (R153). -/
abbrev ClassSet := BitVec 10

/-- A stream id, 0 to 47 (R7). -/
abbrev StreamId := Fin 48

/-- A tap number, 0 to 7 (R80). -/
abbrev TapNo := Fin 8

/-- An upstream originator tag, 0 to 15 (R14). -/
abbrev Tag := Fin 16

end Sys2Proof
end

