-- ==== Sys2Proof/Config.lean ====
section
/-! DEFINITION. What the part fixes once: capacities, the cursor's end and the default timing
values. The manual leaves no value of an effect open, so there is no free value here. -/

namespace Sys2Proof.Config

/-- Upstream transactions outstanding at most (R14). -/
def maxOutstanding : Nat := 16

/-- Spare stack capacity (R108). -/
def stackCapacity : Nat := 32

/-- Slot table entries in states other than RETURNING at most (R113, R114). -/
def slotCapacity : Nat := 96

/-- Settling list capacity (R94). -/
def settlingCapacity : Nat := 16

/-- Completion queue capacity (R97). -/
def queueCapacity : Nat := 8

/-- Report queue capacity (R141). -/
def reportQueueCapacity : Nat := 32

/-- The landing cursor's end: 960 cells of 8 words (R6). -/
def cursorEnd : Nat := 7680

/-- Claims on a slot entry at which no further repeat is queued (R130, R131). -/
def claimsCap : Nat := 16

/-- Default frame gap limit, in milliseconds (R52). -/
def defaultGapLimit : Nat := 48

/-- Default coast limit, in frames (R52). -/
def defaultCoastLimit : Nat := 16

/-- Interval between expiries after a synthesized frame, in milliseconds (R45, R46). -/
def expiryInterval : Nat := 32

/-- Default summary interval, in frame closes (R148). -/
def defaultSummaryInterval : Nat := 4

end Sys2Proof.Config
end

