-- ==== Sys2Proof/Syntax.lean ====
section
/-! DEFINITION. The commands of the JLV-410: one constructor of Instr for each row of
spec/opcode_table.json, with the row's operands. -/

namespace Sys2Proof

/-- Burst kind of a link transaction (R14). -/
inductive BurstKind where
  | incr
  | fixed
  deriving DecidableEq, Repr

/-- A response of either link (R14). -/
inductive Resp where
  | ok
  | error
  deriving DecidableEq, Repr

/-- One write beat: its data word and its byte strobes (R14). -/
structure WriteBeat where
  data : Word
  strobes : Strobes
  deriving DecidableEq, Repr

/-- The four kinds of own access, in order of preference (R16, R32). -/
inductive OwnKind where
  | fetch
  | refill
  | report
  | status
  deriving DecidableEq, Repr

/-- The four resistor bands of the STRAP pin (R154). -/
inductive StrapBand where
  | band1
  | band2
  | band3
  | band4
  deriving DecidableEq, Repr

/-- The parameter bytes of a CONFIGURE record as fetched (R173). -/
structure ConfigureParams where
  landingMode : Byte
  landingBase : Word
  reportBase : Word
  reportSize : BitVec 16
  freeBase : Word
  freeSize : BitVec 16
  deriving DecidableEq, Repr

/-- The commands, in the order of spec/opcode_table.json. -/
inductive Instr where
  /-- An upstream write is accepted with all its beats (R14). -/
  | upstreamWriteAccept (tag : Tag) (addr : Word) (kind : BurstKind) (beats : List WriteBeat)
  /-- An upstream read of len beats is accepted (R14, R20). -/
  | upstreamReadAccept (tag : Tag) (addr : Word) (kind : BurstKind) (len : Nat)
  /-- A complete transaction's response is delivered (R15). -/
  | upstreamResponseDelivery
  /-- The arbiter grants the downstream link to one burst (R31). -/
  | arbiterGrant
  /-- The DRAM controller answers the oldest forwarded piece of a tag, or brings the next words of a
  read piece ahead of its response (R16, R22, R29). -/
  | forwardedPieceResponse (tag : Tag) (resp : Resp) (data : List Word)
  /-- A directive index value is handed over (R156). -/
  | directiveIndexTaken (value : Word)
  /-- A report index value is handed over (R140). -/
  | reportIndexTaken (value : Word)
  /-- A free index value is handed over (R107). -/
  | freeIndexTaken (value : Word)
  /-- A directive fetch is answered OK with the 64 bytes of a record (R157). -/
  | directiveFetchComplete (bytes : List Byte)
  /-- The oldest unanswered burst of a refill read is answered OK with its entries; the refill ends
  with the last of its bursts (R16, R110). -/
  | refillComplete (data : List Word)
  /-- The reporter tests readiness (R142). -/
  | reportPrepare
  /-- A report write is answered OK (R143). -/
  | reportWriteComplete
  /-- The directive unit tests for a status block write (R171). -/
  | statusBlockWriteStart
  /-- The oldest unanswered burst of a status block write is answered OK; the block counts as written
  with the last of its bursts (R16, R171). -/
  | statusBlockWriteComplete
  /-- The oldest unanswered burst of an own access of a kind is answered ERROR; data is what the
  response to a read carries (R14, R16, R179). -/
  | ownAccessError (kind : OwnKind) (data : List Word)
  /-- The frame gap timer expires (R46, R47). -/
  | frameGapTimerExpiry
  /-- A tap's coalescing timer has reached the summary interval (R145). -/
  | coalescingTimerExpiry (tap : TapNo)
  /-- A tap's ready front completions are judged (R94). -/
  | settledCompletionJudged (tap : TapNo)
  /-- An entry awaiting push whose count is zero is pushed (R116). -/
  | awaitingPushReleased (slot : Word)
  /-- nRESET falls (R182). -/
  | nresetLow
  /-- nRESET rises with the strap band present (R154, R182). -/
  | nresetRise (band : StrapBand)
  /-- CONFIGURE (R163). -/
  | configure (params : ConfigureParams)
  /-- SET_TIMING with its three bytes (R164). -/
  | setTiming (gap coast summary : Byte)
  /-- START (R177). -/
  | start
  /-- STOP (R178). -/
  | stop
  /-- TAP_OPEN with its bytes (R82, R166). -/
  | tapOpen (tap stream policy tolerance repeatLimit floor : Byte)
  /-- TAP_ADJUST with its bytes (R83, R166). -/
  | tapAdjust (tap policy tolerance repeatLimit floor : Byte)
  /-- TAP_CLOSE with the tap byte (R84). -/
  | tapClose (tap : Byte)
  /-- RELEASE with its count byte and the record's addresses (R118, R167). -/
  | release (count : Byte) (addrs : List Word)
  /-- FORCE_RESYNC (R51). -/
  | forceResync
  /-- FORGET_LAYOUT (R76). -/
  | forgetLayout
  /-- CLEAR_FAULTS with its flag set (R169). -/
  | clearFaults (flags : Byte)
  /-- SET_ALERTS with the report alert enable and the pin enable set (R169). -/
  | setAlerts (enable pins : Byte)
  /-- WARM_RESET (R170, R181). -/
  | warmReset
  deriving DecidableEq, Repr

end Sys2Proof
end

