-- ==== Sys2Proof/WellFormed.lean ====
section
/-! DEFINITION. Which commands are well formed: what the upstream link presents (R14), and
operand lists of the row's own shape (a record of 64 bytes, a refill of 1 to 8 entries). -/

namespace Sys2Proof

/-- The link presents bursts of 1 to 16 beats at word-aligned addresses only (R14). -/
def burstWf (addr : Word) (len : Nat) : Bool :=
  addr.toNat % 4 == 0 && 1 ≤ len && len ≤ 16

/-- A command is well formed. -/
def Instr.wf : Instr → Bool
  | .upstreamWriteAccept _ addr _ beats => burstWf addr beats.length
  | .upstreamReadAccept _ addr _ len => burstWf addr len
  | .upstreamResponseDelivery => true
  | .arbiterGrant => true
  | .forwardedPieceResponse _ _ data => data.length ≤ 16
  | .directiveIndexTaken _ => true
  | .reportIndexTaken _ => true
  | .freeIndexTaken _ => true
  | .directiveFetchComplete bytes => bytes.length == 64
  | .refillComplete data => 1 ≤ data.length && data.length ≤ 8
  | .reportPrepare => true
  | .reportWriteComplete => true
  | .statusBlockWriteStart => true
  | .statusBlockWriteComplete => true
  | .ownAccessError _ data => data.length ≤ 16
  | .frameGapTimerExpiry => true
  | .coalescingTimerExpiry _ => true
  | .settledCompletionJudged _ => true
  | .awaitingPushReleased _ => true
  | .nresetLow => true
  | .nresetRise _ => true
  | .configure _ => true
  | .setTiming _ _ _ => true
  | .start => true
  | .stop => true
  | .tapOpen _ _ _ _ _ _ => true
  | .tapAdjust _ _ _ _ _ => true
  | .tapClose _ => true
  | .release count addrs => 12 < count.toNat || count.toNat ≤ addrs.length
  | .forceResync => true
  | .forgetLayout => true
  | .clearFaults _ => true
  | .setAlerts _ _ => true
  | .warmReset => true

end Sys2Proof
end

