-- ==== Sys2Proof/Machine/State.lean ====
section
/-! DEFINITION. The state of the JLV-410, block by block, as plain data; the reasons a step can
stop; and the state after a cold reset. Reset values follow R57, R79, R105, R123, R124, R139,
R141, R148, R149, R150, R151, R156, R171 and R182. -/

namespace Sys2Proof.Machine

/-- Device state (R175). -/
inductive DeviceState where
  | stopped
  | acquiring
  | running
  | coasting
  | halted
  deriving DecidableEq, Repr

/-- The three configured regions (R17, R163). -/
structure Regions where
  landingBase : Word
  reportBase : Word
  reportSize : Nat
  freeBase : Word
  freeSize : Nat
  deriving DecidableEq, Repr

/-! ## The memory path -/

/-- The index words of the directive page (R19). -/
inductive IndexWord where
  | directive
  | report
  | free
  deriving DecidableEq, Repr

/-- A forwarded piece: forwarded unaltered, redirected or linearised (R16, R21). -/
structure Piece where
  /-- The outstanding-transaction entry it belongs to. -/
  txn : Nat
  tag : Tag
  write : Bool
  addr : Word
  kind : BurstKind
  len : Nat
  /-- The upstream beat its first word comes from. -/
  first : Nat
  /-- The beats of a write; empty for a read. -/
  beats : List WriteBeat
  /-- The slot address of the entry a redirected piece names, and its lag class (R24, R28). -/
  redirect : Option (Word × Nat)
  /-- The index word a piece of the directive page carries (R19). -/
  snoop : Option IndexWord
  deriving DecidableEq, Repr

/-- One burst of an own access (R16, R32). -/
structure OwnBurst where
  /-- 16 to 19, one for each kind of own access. -/
  tag : Fin 20
  addr : Word
  kind : BurstKind
  len : Nat
  /-- The beats of a write; empty for a read. -/
  beats : List WriteBeat
  deriving DecidableEq, Repr

/-- What becomes of the result of an issued own burst (R33). -/
inductive Life where
  /-- The owner acts on it. -/
  | live
  /-- Discarded at the entry to HALTED (R179). -/
  | haltDiscarded
  /-- Discarded at a WARM_RESET (R181). -/
  | resetDiscarded
  deriving DecidableEq, Repr

/-- A downstream transaction issued and not yet answered (R16). -/
inductive Issued where
  | piece (p : Piece)
  | own (b : OwnBurst) (life : Life)
  deriving DecidableEq, Repr

/-- An entry of the outstanding-transaction table (R15). -/
structure Txn where
  id : Nat
  tag : Tag
  write : Bool
  len : Nat
  unanswered : Nat
  err : Bool
  /-- The data words gathered so far, one place per beat of a read. -/
  data : List (Option Word)
  /-- Accepted in ACQUIRING, RUNNING or COASTING (R29). -/
  activeAtAccept : Bool
  deriving DecidableEq, Repr

/-- A response as delivered upstream (R15). -/
structure UpResponse where
  tag : Tag
  write : Bool
  resp : Resp
  data : List Word
  deriving DecidableEq, Repr

/-- The side that had the last grant (R31). -/
inductive Side where
  | own
  | forwarded
  deriving DecidableEq, Repr

/-- Both links and the arbiter. -/
structure Link where
  /-- The outstanding-transaction table, in acceptance order. -/
  txns : List Txn
  /-- The next entry's number. -/
  serial : Nat
  /-- Complete entries not yet delivered, in the order in which they completed. -/
  ready : List Nat
  /-- Pieces waiting for a grant, oldest first. -/
  queue : List Piece
  lastGrant : Side
  /-- Issued and unanswered, in issue order. -/
  inFlight : List Issued
  /-- The response last delivered upstream. -/
  delivered : Option UpResponse
  deriving DecidableEq, Repr

/-! ## Frame reception -/

/-- Landing mode (R34). -/
inductive LandingMode where
  | unconfigured
  | linear
  | streamed
  deriving DecidableEq, Repr

/-- The open frame record when present (R34). -/
structure OpenRecord where
  num : FrameNo
  quality : BitVec 2
  cursor : Nat
  deriving DecidableEq, Repr

/-- The reception record (R34). -/
structure Reception where
  openFrame : Option OpenRecord
  current : FrameNo
  expected : Option FrameNo
  coast : Nat
  sealLate : Bool
  /-- Stopped, or the milliseconds from the event that set it to its next expiry. -/
  gapTimer : Option Nat
  mode : LandingMode
  gapLimit : Nat
  coastLimit : Nat
  /-- Pending frame gap limit and coast limit (R52). -/
  pendingTiming : Option (Nat × Nat)
  received : Counter
  lost : Counter
  synthesized : Counter
  stray : Counter
  late : Counter
  deriving DecidableEq, Repr

/-! ## Layout tables -/

/-- Interleave depth of a stream (R7). -/
inductive Depth where
  | d1
  | d5
  | d10
  deriving DecidableEq, Repr

/-- A record assembly buffer and its written-word mask (R58). -/
structure AsmBuffer where
  words : Vector Word 8
  mask : BitVec 8
  deriving DecidableEq, Repr

/-- A present entry of a map (R61). -/
structure MapEntry where
  start : Nat
  count : Nat
  depth : Depth
  collected : Bool
  deriving DecidableEq, Repr

/-- The entries of a map, one place per stream id (R61). -/
abbrev MapEntries := Vector (Option MapEntry) 48

/-- State of the current map (R61). -/
inductive CurrentState where
  | empty
  | collecting
  | verified
  | suspect
  deriving DecidableEq, Repr

/-- State of the pending map (R61). -/
inductive PendingState where
  | none
  | collecting
  | ready
  deriving DecidableEq, Repr

/-- The current map (R61). -/
structure CurrentMap where
  state : CurrentState
  version : Option (Fin 16)
  expCount : Nat
  expSum : BitVec 16
  mismatch : Bool
  entries : MapEntries
  deriving DecidableEq, Repr

/-- The pending map (R61). -/
structure PendingMap where
  state : PendingState
  version : Option (Fin 16)
  switchFrame : FrameNo
  expCount : Nat
  expSum : BitVec 16
  mismatch : Bool
  entries : MapEntries
  deriving DecidableEq, Repr

/-- The layout tables. -/
structure Layout where
  buffers : Vector AsmBuffer 8
  cur : CurrentMap
  pend : PendingMap
  badCheck : Counter
  outOfRange : Counter
  conflict : Counter
  deriving DecidableEq, Repr

/-! ## Taps -/

/-- Tap state (R80). -/
inductive TapState where
  | closed
  | waiting
  | running
  | holding
  | orphaned
  deriving DecidableEq, Repr

/-- Hold policy (R80). -/
inductive Policy where
  | pass
  | repeating
  | silent
  deriving DecidableEq, Repr

/-- The four parameters of a tap (R80). -/
structure TapParams where
  policy : Policy
  tolerance : Nat
  repeatLimit : Nat
  floor : Nat
  deriving DecidableEq, Repr

/-- A tap's instance (R80). -/
structure TapInstance where
  start : FrameNo
  depth : Depth
  startCell : Nat
  count : Nat
  age : Nat
  /-- The instance awaits restart (R88). -/
  restart : Bool
  /-- Instance number (R80). -/
  number : Counter
  /-- Marked ended (R92). -/
  ended : Bool
  /-- Began at the open notice now being taken (R85, R87). -/
  fresh : Bool
  deriving DecidableEq, Repr

/-- An open logical frame: with the slot address of its entry, or starved (R80). -/
structure LogicalFrame where
  frame : FrameNo
  slot : Option Word
  deriving DecidableEq, Repr

/-- What a completion in the settling list is (R91, R93). -/
inductive CompletionKind where
  | slot (addr : Word)
  | starved
  | abandoned
  deriving DecidableEq, Repr

/-- A completion not yet judged (R94). -/
structure Completion where
  frame : FrameNo
  kind : CompletionKind
  run : Nat
  number : Counter
  deriving DecidableEq, Repr

/-- Outcome of a queued completion (R97). -/
inductive FrameOutcome where
  | clean
  /-- PARTIAL. -/
  | partly
  | repeated
  | silent
  | starved
  | abandoned
  deriving DecidableEq, Repr

/-- An entry of a completion queue (R97), with its due mark (R145). -/
structure QueueEntry where
  frame : FrameNo
  slot : Option Word
  outcome : FrameOutcome
  erased : ClassSet
  run : Nat
  number : Counter
  due : Bool
  deriving DecidableEq, Repr

/-- The seven counters of a tap (R104). -/
structure TapCounters where
  clean : Counter
  partly : Counter
  repeated : Counter
  silent : Counter
  starved : Counter
  abandoned : Counter
  discarded : Counter
  deriving DecidableEq, Repr

/-- A tap record (R80, R124). -/
structure Tap where
  state : TapState
  stream : Option StreamId
  params : TapParams
  pendingOpen : Option (StreamId × TapParams)
  pendingAdjust : Option TapParams
  inst : Option TapInstance
  lastNumber : Counter
  openFrames : List LogicalFrame
  settling : List Completion
  queue : List QueueEntry
  /-- Retained slot reference (R124). -/
  retained : Option Word
  repeatCount : Nat
  recovery : Nat
  holdLength : Option Nat
  /-- Coalescing timer (R145). -/
  timer : Option Nat
  counters : TapCounters
  deriving DecidableEq, Repr

/-! ## Slot supply -/

/-- State of a slot entry (R103, R115). -/
inductive SlotState where
  | opened
  | complete
  | posted
  | returning
  deriving DecidableEq, Repr

/-- A slot table entry (R103, R116). -/
structure SlotEntry where
  addr : Word
  owner : TapNo
  frame : FrameNo
  depth : Depth
  count : Nat
  state : SlotState
  arrived : ClassSet
  erased : ClassSet
  silenced : Bool
  posted : Nat
  retained : Bool
  outstanding : Nat
  awaitingPush : Bool
  deriving DecidableEq, Repr

/-- A refill in flight (R109): its first index, the ring entries of its issued bursts, its bursts
waiting for a grant, and the entries that its answered bursts have brought. -/
structure Refill where
  firstIndex : Nat
  issuedEntries : Nat
  waiting : List OwnBurst
  data : List Word
  deriving DecidableEq, Repr

/-- Slot supply. -/
structure Supply where
  consumer : Nat
  recorded : Nat
  /-- The spare stack, top first. -/
  stack : List Word
  refill : Option Refill
  /-- The slot table; RETURNING entries stand in return order. -/
  table : List SlotEntry
  deriving DecidableEq, Repr

/-! ## Reporter -/

/-- Reasons of TAP_STATE reports (R152). -/
inductive TapReason where
  | opened
  | bound
  | instanceRestart
  | streamRemoved
  | streamUnknown
  | resync
  | starvation
  | discard
  | cleanResumed
  | closed
  | stopped
  deriving DecidableEq, Repr

/-- Events of LAYOUT reports (R77). -/
inductive LayoutEvent where
  | announced
  | withdrawn
  | switchedVerified
  | switchedUnverified
  | verified
  | mismatch
  | versionChanged
  deriving DecidableEq, Repr

/-- Events of RECEPTION reports (R56). -/
inductive ReceptionEvent where
  | coastEntered
  | resumed
  | resync
  deriving DecidableEq, Repr

/-- Reasons of DIRECTIVE reports (R161). -/
inductive RejectReason where
  | badCheck
  | unknownKind
  | wrongState
  | badParameter
  | tapBusy
  | unknownSlot
  deriving DecidableEq, Repr

/-- A report handed by another block, its fields fixed at handing (R141). -/
inductive ReportBody where
  | tapState (tap : TapNo) (old new : TapState) (reason : TapReason) (stream : Option StreamId)
  | layout (event : LayoutEvent) (version : Nat) (switchFrame : FrameNo) (lead : Nat)
  | reception (event : ReceptionEvent) (lostFrames : Nat)
  | directive (position : Nat) (kind : Byte) (reason : RejectReason) (addrs : List Word)
  | supply (addrs : List Word)
  deriving DecidableEq, Repr

/-- A report in the report queue. A TAP_STATE report has a flush count (R146), and a mark that is set
while the front entry of its tap's queue is the remainder of an entry written since the handing, which
the report did not count (R145, R147). -/
structure QueuedReport where
  body : ReportBody
  flush : Nat
  pastRemainder : Bool := false
  deriving DecidableEq, Repr

/-- What a prepared report carries (R142). -/
inductive ReportContent where
  | frames (tap : TapNo) (entries : List QueueEntry)
  | queued (body : ReportBody)
  | returned (addrs : List Word)
  deriving DecidableEq, Repr

/-- A report write in flight: the content and the record fixed at preparation, its burst while it
waits for a grant (R142), and the reports dropped since its preparation, which its header does not
carry (R141). -/
structure ReportWrite where
  content : ReportContent
  record : List Byte
  waiting : List OwnBurst
  droppedSince : Nat
  deriving DecidableEq, Repr

/-- The reporter. -/
structure Reporter where
  producer : Nat
  recorded : Nat
  queue : List QueuedReport
  dropped : Nat
  write : Option ReportWrite
  interval : Nat
  pendingInterval : Option Nat
  /-- The eight latched flags, bits as in R173. -/
  flags : BitVec 8
  alertEnable : Bool
  /-- Pin enables, bits as in R173; bit 1 is unused and clear. -/
  pinEnables : BitVec 8
  /-- nREPORT is driven low. -/
  nReportLow : Bool
  /-- nFAULT is driven low. -/
  nFaultLow : Bool
  deriving DecidableEq, Repr

/-! ## Directive unit -/

/-- Batch state (R156). -/
inductive BatchState where
  | idle
  | inProgress
  deriving DecidableEq, Repr

/-- The directive unit (09 section 9.2). The outer option of fetch and status says whether the
access is in flight; the list holds its bursts not yet issued. -/
structure DirectiveUnit where
  recorded : Fin 32
  consumer : Fin 32
  batch : BatchState
  fetch : Option (List OwnBurst)
  statusRequest : Bool
  statusEnable : Bool
  sequence : BitVec 8
  status : Option (List OwnBurst)
  deriving DecidableEq, Repr

/-! ## The whole state -/

/-- The state of the part and the queue of commands waiting for it. -/
structure State where
  /-- nRESET is low. -/
  nResetLow : Bool
  /-- The strap band kept since the last cold reset (R154). -/
  strap : StrapBand
  device : DeviceState
  /-- Absent until a CONFIGURE (R162). -/
  regions : Option Regions
  link : Link
  reception : Reception
  layout : Layout
  taps : Vector Tap 8
  supply : Supply
  reporter : Reporter
  directive : DirectiveUnit
  /-- Commands waiting, first in, first out. -/
  pending : List Instr
  deriving DecidableEq, Repr

/-- Reasons a step faults. -/
inductive Fault where
  /-- A downstream response answers no burst that the part has issued and that awaits an answer.
  Raised by the response commands. Safe: R16 expects responses to issued transactions only. -/
  | nothingToAnswer
  deriving DecidableEq, Repr

/-- Reasons a step refuses a command. -/
inductive Refusal where
  /-- The arm of exec has no meaning yet. Raised by Dispatch only. Safe. -/
  | notModelled (mnemonic : String)
  /-- A transaction the link does not present (R14). Raised by the two acceptances. Safe. -/
  | notPresented
  /-- Operand lists that are not the shape of the row. Raised by the commands that carry data. Safe. -/
  | badShape
  deriving DecidableEq, Repr

/-! ## Reset values -/

/-- No transaction outstanding, waiting or in flight; own side last granted (R15, R31). -/
def Link.reset : Link :=
  { txns := [], serial := 0, ready := [], queue := [], lastGrant := .own, inFlight := [],
    delivered := none }

/-- R57. -/
def Reception.reset : Reception :=
  { openFrame := none, current := 0, expected := none, coast := 0, sealLate := false,
    gapTimer := none, mode := .unconfigured, gapLimit := Config.defaultGapLimit,
    coastLimit := Config.defaultCoastLimit, pendingTiming := none, received := 0, lost := 0,
    synthesized := 0, stray := 0, late := 0 }

/-- An empty assembly buffer (R60). -/
def AsmBuffer.clear : AsmBuffer := { words := Vector.replicate 8 0, mask := 0 }

/-- All eight buffers empty (R60). -/
def clearBuffers : Vector AsmBuffer 8 := Vector.replicate 8 AsmBuffer.clear

/-- A map with every entry absent. -/
def MapEntries.absent : MapEntries := Vector.replicate 48 none

/-- The EMPTY current map (R76, R79). -/
def CurrentMap.empty : CurrentMap :=
  { state := .empty, version := none, expCount := 0, expSum := 0, mismatch := false,
    entries := MapEntries.absent }

/-- The NONE pending map (R76, R79). -/
def PendingMap.none : PendingMap :=
  { state := .none, version := Option.none, switchFrame := 0, expCount := 0, expSum := 0,
    mismatch := false, entries := MapEntries.absent }

/-- R79. -/
def Layout.reset : Layout :=
  { buffers := clearBuffers, cur := CurrentMap.empty, pend := PendingMap.none, badCheck := 0,
    outOfRange := 0, conflict := 0 }

/-- All seven counters 0. -/
def TapCounters.zero : TapCounters :=
  { clean := 0, partly := 0, repeated := 0, silent := 0, starved := 0, abandoned := 0,
    discarded := 0 }

/-- R105 and R124. -/
def Tap.reset : Tap :=
  { state := .closed, stream := none,
    params := { policy := .pass, tolerance := 0, repeatLimit := 1, floor := 0 },
    pendingOpen := none, pendingAdjust := none, inst := none, lastNumber := 0, openFrames := [],
    settling := [], queue := [], retained := none, repeatCount := 0, recovery := 0,
    holdLength := none, timer := none, counters := TapCounters.zero }

/-- R123. -/
def Supply.reset : Supply :=
  { consumer := 0, recorded := 0, stack := [], refill := none, table := [] }

/-- R139, R141, R148, R149, R150, R151, with the latched flags given. -/
def Reporter.reset (flags : BitVec 8) : Reporter :=
  { producer := 0, recorded := 0, queue := [], dropped := 0, write := none,
    interval := Config.defaultSummaryInterval, pendingInterval := none, flags := flags,
    alertEnable := true, pinEnables := 0x0C, nReportLow := false, nFaultLow := false }

/-- R156 and R171, cold reset. -/
def DirectiveUnit.reset : DirectiveUnit :=
  { recorded := 0, consumer := 0, batch := .idle, fetch := none, statusRequest := false,
    statusEnable := false, sequence := 0, status := none }

/-- Every block at its cold reset values, the band kept as given (R182). -/
def State.coldReset (band : StrapBand) : State :=
  { nResetLow := false, strap := band, device := .stopped, regions := none, link := Link.reset,
    reception := Reception.reset, layout := Layout.reset, taps := Vector.replicate 8 Tap.reset,
    supply := Supply.reset, reporter := Reporter.reset 0x01, directive := DirectiveUnit.reset,
    pending := [] }

/-- The machine right after a cold reset. DESIGN CHOICE: strap band 1 (log 7). -/
def State.reset : State := State.coldReset .band1

end Sys2Proof.Machine
end

