-- ==== Sys2Proof/Machine/Operands.lean ====
section
/-! DEFINITION. Operand forms: beats and their addresses, bytes and words, class sets, lag
classes, frame arithmetic, address ranges and the two check computations. -/

namespace Sys2Proof.Machine

/-! ## The blocks of the state -/

/-- The links changed. -/
def State.updLink (s : State) (f : Link → Link) : State := { s with link := f s.link }

/-- The reception record changed. -/
def State.updReception (s : State) (f : Reception → Reception) : State :=
  { s with reception := f s.reception }

/-- The layout tables changed. -/
def State.updLayout (s : State) (f : Layout → Layout) : State := { s with layout := f s.layout }

/-- Slot supply changed. -/
def State.updSupply (s : State) (f : Supply → Supply) : State := { s with supply := f s.supply }

/-- The reporter changed. -/
def State.updReporter (s : State) (f : Reporter → Reporter) : State :=
  { s with reporter := f s.reporter }

/-- The directive unit changed. -/
def State.updDirective (s : State) (f : DirectiveUnit → DirectiveUnit) : State :=
  { s with directive := f s.directive }

/-! ## Device state and enumeration -/

/-- ACQUIRING, RUNNING or COASTING: the part interprets traffic (R18). -/
def DeviceState.active : DeviceState → Bool
  | .acquiring | .running | .coasting => true
  | .stopped | .halted => false

/-- The eight taps in ascending number. -/
def allTaps : List TapNo := [0, 1, 2, 3, 4, 5, 6, 7]

/-- The 48 stream ids in ascending order. -/
def allStreams : List StreamId := List.finRange 48

/-- Every place of a fixed-length table changed by one function. -/
def mapPlaces {α : Type} {n : Nat} (v : Vector α n) (f : α → α) : Vector α n :=
  ⟨⟨v.toList.map f⟩, by simp⟩

/-! ## Beats (R14) -/

/-- The address of beat b of a burst (R14). -/
def beatAddr (addr : Word) (kind : BurstKind) (b : Nat) : Word :=
  match kind with
  | .incr => addr + BitVec.ofNat 32 (4 * b)
  | .fixed => addr

/-- All four byte strobes set. -/
def allStrobes (b : WriteBeat) : Bool := b.strobes == 0xF

/-- The link presents a transaction of this address and length (R14). -/
def linkPresents (addr : Word) (len : Nat) : Bool :=
  addr.toNat % 4 == 0 && 1 ≤ len && len ≤ 16

/-! ## Bytes, little-endian (00 Conventions) -/

/-- A word's four bytes, lowest address first. -/
def wordBytes (w : Word) : List Byte :=
  [w.extractLsb' 0 8, w.extractLsb' 8 8, w.extractLsb' 16 8, w.extractLsb' 24 8]

/-- A 16-bit value's two bytes. -/
def halfBytes (h : BitVec 16) : List Byte :=
  [h.extractLsb' 0 8, h.extractLsb' 8 8]

/-- A number as one byte. -/
def byteOf (n : Nat) : Byte := BitVec.ofNat 8 n

/-- A number as two bytes. -/
def half (n : Nat) : List Byte := halfBytes (BitVec.ofNat 16 n)

/-- The byte at an offset of a record; 0 beyond its end. -/
def byteAt (bs : List Byte) (i : Nat) : Byte := bs.getD i 0

/-- The 16-bit field at an offset. -/
def halfAt (bs : List Byte) (i : Nat) : BitVec 16 := byteAt bs (i + 1) ++ byteAt bs i

/-- The 32-bit field at an offset. -/
def wordAt (bs : List Byte) (i : Nat) : Word := halfAt bs (i + 2) ++ halfAt bs i

/-- A byte string as link words. -/
def toWords : List Byte → List Word
  | a :: b :: c :: d :: rest => (d ++ c ++ b ++ a) :: toWords rest
  | _ => []

/-- A byte string filled with zero bytes up to a length. -/
def padTo (n : Nat) (bs : List Byte) : List Byte :=
  (bs ++ List.replicate (n - bs.length) 0).take n

/-! ## Class sets (R103) and lag classes (R9, R10) -/

/-- Class c belongs to the set. -/
def hasClass (s : ClassSet) (c : Nat) : Bool := s.getLsbD c

/-- The set of class c alone. -/
def onlyClass (c : Nat) : ClassSet := (1 : ClassSet) <<< c

/-- Class c joins the set. -/
def joinClass (s : ClassSet) (c : Nat) : ClassSet := s ||| onlyClass c

/-- Class c leaves the set. -/
def leaveClass (s : ClassSet) (c : Nat) : ClassSet := s &&& ~~~(onlyClass c)

/-- The number of classes in the set (R126). -/
def classCount (s : ClassSet) : Nat := ((List.range 10).filter (hasClass s)).length

/-- D (R7). -/
def Depth.frames : Depth → Nat
  | .d1 => 1
  | .d5 => 5
  | .d10 => 10

/-- The depth a code names (R7, R11). -/
def Depth.ofCode (n : Nat) : Option Depth :=
  if n = 1 then some .d1 else if n = 5 then some .d5 else if n = 10 then some .d10 else none

/-- The full class set 0 to D - 1 (R9). -/
def Depth.classes (d : Depth) : ClassSet := BitVec.ofNat 10 (2 ^ d.frames - 1)

/-- L_D(c), the lag of class c in frames (R9). -/
def Depth.lag : Depth → Nat → Nat
  | .d1, _ => 0
  | .d5, c => 3 * c % 5
  | .d10, c => 7 * c % 10

/-- The class a payload frame brings to the logical frame k frames before it (R10). -/
def Depth.classAt (d : Depth) (k : Nat) : Option Nat :=
  (List.range d.frames).find? (fun c => d.lag c == k)

/-- Word index w of cell word (k, j) of a stream starting at cell s (R8). -/
def wordIndex (s k j : Nat) : Nat := 8 * (k - s) + j

/-- Lag class of word w (R9). -/
def Depth.classOf (d : Depth) (w : Nat) : Nat := w % d.frames

/-- The logical frame that class c of payload frame f belongs to (R10). -/
def Depth.logicalFrame (d : Depth) (f : FrameNo) (c : Nat) : FrameNo :=
  f - BitVec.ofNat 12 (d.lag c)

/-! ## Address ranges -/

/-- An address lies in a range of a base and a size in bytes. -/
def inRange (a base : Word) (size : Nat) : Bool :=
  base.toNat ≤ a.toNat && a.toNat < base.toNat + size

/-- Two ranges share a byte. -/
def rangesMeet (base₁ size₁ base₂ size₂ : Nat) : Bool :=
  base₁ < base₂ + size₂ && base₂ < base₁ + size₁

/-- The directive page base of a band (R154). -/
def pageBase : StrapBand → Word
  | .band1 => 0x3FFFF000
  | .band2 => 0x7FFFF000
  | .band3 => 0xBFFFF000
  | .band4 => 0xFFFFF000

/-! ## Check computations -/

/-- One step of the CRC-16 register (R12). -/
def crc16Step (r : BitVec 16) : BitVec 16 :=
  if r.msb then (r <<< 1) ^^^ 0x1021 else r <<< 1

/-- One byte into the CRC-16 register (R12). -/
def crc16Byte (r : BitVec 16) (b : Byte) : BitVec 16 :=
  Nat.repeat crc16Step 8 (r ^^^ (b ++ (0 : BitVec 8)))

/-- The CRC-16 of a byte string, started at 0xFFFF (R12). -/
def crc16 (bs : List Byte) : BitVec 16 := bs.foldl crc16Byte 0xFFFF

/-- One step of the CRC-8 register (R160). -/
def crc8Step (r : BitVec 8) : BitVec 8 :=
  if r.msb then (r <<< 1) ^^^ 0x07 else r <<< 1

/-- One byte into the CRC-8 register (R160). -/
def crc8Byte (r : BitVec 8) (b : Byte) : BitVec 8 := Nat.repeat crc8Step 8 (r ^^^ b)

/-- The CRC-8 of a byte string, started at 0xFF (R160). -/
def crc8 (bs : List Byte) : BitVec 8 := bs.foldl crc8Byte 0xFF

end Sys2Proof.Machine
end

