-- ==== Sys2Proof/Machine/Flags.lean ====
section
/-! DEFINITION. The eight latched condition flags (R149) and the two alert lines (R150, R151). -/

namespace Sys2Proof.Machine

/-- The latched flags, named as in R149. -/
inductive Flag where
  | powerOn
  | busError
  | layoutMismatch
  | badSlot
  | reportsBlocked
  | starvation
  | landingOverrun
  | directiveRejected
  deriving DecidableEq, Repr

/-- Bit position of a flag (R173). -/
def Flag.bit : Flag → Nat
  | .powerOn => 0
  | .busError => 1
  | .layoutMismatch => 2
  | .badSlot => 3
  | .reportsBlocked => 4
  | .starvation => 5
  | .landingOverrun => 6
  | .directiveRejected => 7

/-- The set of one flag. -/
def Flag.mask (f : Flag) : BitVec 8 := (1 : BitVec 8) <<< f.bit

/-- A flag is set. -/
def Reporter.flagSet (r : Reporter) (f : Flag) : Bool := r.flags.getLsbD f.bit

/-- nFAULT's level from flags and pin enables: BUS_ERROR has no enable (R151). -/
def faultLevelLow (flags pins : BitVec 8) : Bool :=
  (flags &&& (pins ||| Flag.busError.mask)) != 0

/-- nFAULT judged again (R151). -/
def Reporter.judgeFault (r : Reporter) : Reporter :=
  { r with nFaultLow := faultLevelLow r.flags r.pinEnables }

/-- nREPORT's level (R150). -/
def reportLevelLow (configured enabled : Bool) (producer recorded : Nat) : Bool :=
  configured && enabled && producer != recorded

/-- nREPORT judged again (R150). -/
def State.judgeReport (s : State) : State :=
  s.updReporter fun r => { r with
    nReportLow := reportLevelLow s.regions.isSome r.alertEnable r.producer r.recorded }

/-- A flag latched, nFAULT judged again (R149, R151). -/
def Reporter.latch (r : Reporter) (f : Flag) : Reporter :=
  ({ r with flags := r.flags ||| f.mask }).judgeFault

/-- A flag latched. -/
def State.latch (s : State) (f : Flag) : State := s.updReporter fun r => r.latch f

/-- The flags left by a CLEAR_FAULTS: in HALTED BUS_ERROR stays (R149). -/
def clearedFlags (device : DeviceState) (flags named : BitVec 8) : BitVec 8 :=
  let kept := if device = .halted then Flag.busError.mask else 0
  flags &&& (~~~named ||| kept)

end Sys2Proof.Machine
end

