-- ==== Sys2Proof/Machine/Ops.lean ====
section
/-! DEFINITION. The named operations every block uses: reading and changing a tap, a slot entry
and the blocks of the state. -/

namespace Sys2Proof.Machine

/-! ## Gates -/

/-- While nRESET is low the part takes nothing but its rise (R182): any other command leaves the
state as it is. -/
def State.whileUp (s : State) (k : Host.Outcome State Fault Refusal) :
    Host.Outcome State Fault Refusal :=
  if s.nResetLow then .next s else k

/-! ## Taps -/

/-- Tap t's record. -/
def State.tap (s : State) (t : TapNo) : Tap := s.taps[t]

/-- Tap t's record replaced. -/
def State.setTap (s : State) (t : TapNo) (tp : Tap) : State :=
  { s with taps := s.taps.set t tp }

/-- Tap t's record changed. -/
def State.updTap (s : State) (t : TapNo) (f : Tap → Tap) : State := s.setTap t (f (s.tap t))

/-- A tap is bound while it is RUNNING or HOLDING (R80). -/
def Tap.bound (tp : Tap) : Bool := tp.state == .running || tp.state == .holding

/-- The tap takes a new stream name or waits for one: WAITING or ORPHANED. -/
def Tap.seeking (tp : Tap) : Bool := tp.state == .waiting || tp.state == .orphaned

/-- The taps are served in ascending tap number (R85). -/
def State.eachTap (s : State) (f : State → TapNo → State) : State := allTaps.foldl f s

/-! ## Slot table -/

/-- The slot entry of an address, if the table holds one (R114). -/
def State.slot (s : State) (a : Word) : Option SlotEntry :=
  s.supply.table.find? (fun e => e.addr == a)

/-- The entry of an address changed. -/
def changeEntry (a : Word) (f : SlotEntry → SlotEntry) (e : SlotEntry) : SlotEntry :=
  if e.addr == a then f e else e

/-- The entry of an address changed. -/
def State.updSlot (s : State) (a : Word) (f : SlotEntry → SlotEntry) : State :=
  s.updSupply fun p => { p with table := p.table.map (changeEntry a f) }

/-- The entry of an address removed (R115). -/
def State.removeSlot (s : State) (a : Word) : State :=
  s.updSupply fun p => { p with table := p.table.filter (fun e => e.addr != a) }

/-- The entry whose 4 KiB an address lies in (R29). -/
def State.slotOver (s : State) (a : Word) : Option SlotEntry :=
  s.supply.table.find? (fun e => inRange a e.addr 4096)

/-- Addresses of the RETURNING entries in return order (R117). -/
def State.returning (s : State) : List Word :=
  (s.supply.table.filter (fun e => e.state == .returning)).map (·.addr)

/-- Entries in states other than RETURNING (R114). -/
def State.workingSlots (s : State) : Nat :=
  (s.supply.table.filter (fun e => e.state != .returning)).length

/-- Every slot address the part holds on the stack or in the table (R121). -/
def State.heldAddrs (s : State) : List Word :=
  s.supply.stack ++ s.supply.table.map (·.addr)

/-- The unavailable set of an entry: its erased set and, while OPEN, every class not arrived (R29). -/
def SlotEntry.unavailable (e : SlotEntry) : ClassSet :=
  if e.state = .opened then e.erased ||| (e.depth.classes &&& ~~~e.arrived) else e.erased

/-! ## Maps -/

/-- Stream i's entry in a map. -/
def entryOf (m : MapEntries) (i : StreamId) : Option MapEntry := m[i]

/-- Stream i's entry in the current map (R61). -/
def State.curEntry (s : State) (i : StreamId) : Option MapEntry := entryOf s.layout.cur.entries i

/-- A tap's stream is present in the current map. -/
def State.streamEntry (s : State) (t : TapNo) : Option MapEntry :=
  match (s.tap t).stream with
  | some i => s.curEntry i
  | none => none

/-! ## Own accesses (R16, R32) -/

/-- The tag of an own access kind (R16). -/
def ownTag : OwnKind → Fin 20
  | .fetch => 16
  | .refill => 17
  | .report => 18
  | .status => 19

/-- A read burst of an own access (R16). -/
def ownRead (k : OwnKind) (addr : Word) (len : Nat) : OwnBurst :=
  { tag := ownTag k, addr := addr, kind := .incr, len := len, beats := [] }

/-- A beat with all strobes set (R16). -/
def fullBeat (w : Word) : WriteBeat := { data := w, strobes := 0xF }

/-- A write burst of 16 beats of an own access (R16, R32). -/
def ownWrite (k : OwnKind) (addr : Word) (words : List Word) : OwnBurst :=
  { tag := ownTag k, addr := addr, kind := .incr, len := 16, beats := words.map fullBeat }

/-- An issued transaction carries the tag of an own access kind. -/
def Issued.hasTag (k : OwnKind) : Issued → Bool
  | .own b _ => b.tag == ownTag k
  | .piece _ => false

/-- An issued transaction is a burst of this kind with this fate. -/
def Issued.isOwn (k : OwnKind) (l : Life) : Issued → Bool
  | .own b life => b.tag == ownTag k && life == l
  | .piece _ => false

/-- Bursts of a kind and fate in flight. -/
def State.ownInFlight (s : State) (k : OwnKind) (l : Life) : Nat :=
  (s.link.inFlight.filter (Issued.isOwn k l)).length

/-- The oldest unanswered burst of a kind taken out of flight by its answer (R16). -/
def State.answerOwn (s : State) (k : OwnKind) : State :=
  s.updLink fun x => { x with inFlight := x.inFlight.eraseP (Issued.hasTag k) }

/-- An issued transaction as a burst of this kind with its fate. -/
def Issued.ownOf (k : OwnKind) : Issued → Option (OwnBurst × Life)
  | .own b life => if b.tag = ownTag k then some (b, life) else none
  | .piece _ => none

/-- The oldest unanswered burst of a kind with its fate (R16). -/
def State.oldestBurst (s : State) (k : OwnKind) : Option (OwnBurst × Life) :=
  s.link.inFlight.findSome? (Issued.ownOf k)

/-- The fate of the oldest unanswered burst of a kind. -/
def State.oldestOwn (s : State) (k : OwnKind) : Option Life := (s.oldestBurst k).map (·.2)

/-- The device state set, nothing else. -/
def State.setDevice (s : State) (d : DeviceState) : State := { s with device := d }

end Sys2Proof.Machine
end

