-- ==== Sys2Proof/Machine/Records.lean ====
section
/-! DEFINITION. The byte layouts: layout records (01 section 1.7, R11, R13), directive records
(R173), report records (R152, R153) and the status block (R174). -/

namespace Sys2Proof.Machine

/-! ## Layout records -/

/-- A STREAM record taken (R11). -/
structure StreamRecord where
  version : Fin 16
  next : Bool
  id : StreamId
  start : Nat
  count : Nat
  depth : Depth
  deriving DecidableEq, Repr

/-- The next part of a SUMMARY record with the next-present flag 1 (R69). -/
structure NextPart where
  version : Fin 16
  switchFrame : FrameNo
  count : Nat
  checksum : BitVec 16
  deriving DecidableEq, Repr

/-- A SUMMARY record taken (R11). -/
structure SummaryRecord where
  version : Fin 16
  count : Nat
  checksum : BitVec 16
  next : Option NextPart
  deriving DecidableEq, Repr

/-- The classes of R11. -/
inductive RecordClass where
  | empty
  | badCheck
  | unknownKind
  | outOfRangeStream
  | stream (r : StreamRecord)
  | outOfRangeSummary
  | summary (r : SummaryRecord)
  deriving DecidableEq, Repr

/-- A version byte in its range 0 to 15. -/
def versionOf (b : Byte) : Option (Fin 16) :=
  if h : b.toNat < 16 then some ⟨b.toNat, h⟩ else none

/-- A stream id byte in its range 0 to 47. -/
def streamOf (b : Byte) : Option StreamId :=
  if h : b.toNat < 48 then some ⟨b.toNat, h⟩ else none

/-- A flag byte, 0 or 1. -/
def flagOf (b : Byte) : Option Bool :=
  if b = 0 then some false else if b = 1 then some true else none

/-- A stream run in range: a cell count of 1 to 128 within the 960 cells (R7). -/
def runInRange (start count : Nat) : Bool := 1 ≤ count && count ≤ 128 && start + count ≤ 960

/-- The fields of a STREAM record in range, or none (R11). -/
def readStream (bs : List Byte) : Option StreamRecord :=
  match versionOf (byteAt bs 1), flagOf (byteAt bs 2), streamOf (byteAt bs 3),
    Depth.ofCode (byteAt bs 7).toNat with
  | some v, some n, some i, some d =>
    let start := (halfAt bs 4).toNat
    let count := (byteAt bs 6).toNat
    if runInRange start count then
      some { version := v, next := n, id := i, start := start, count := count, depth := d }
    else none
  | _, _, _, _ => none

/-- The next part of a SUMMARY record in range, or none (R11). -/
def readNext (bs : List Byte) : Option NextPart :=
  match versionOf (byteAt bs 6) with
  | some v =>
    if (byteAt bs 9).toNat ≤ 48 then
      some { version := v, switchFrame := (halfAt bs 7).extractLsb' 0 12,
             count := (byteAt bs 9).toNat, checksum := halfAt bs 10 }
    else none
  | none => none

/-- The fields of a SUMMARY record in range, or none (R11). -/
def readSummary (bs : List Byte) : Option SummaryRecord :=
  match versionOf (byteAt bs 1), flagOf (byteAt bs 5) with
  | some v, some present =>
    if (byteAt bs 2).toNat ≤ 48 then
      let cur : SummaryRecord := { version := v, count := (byteAt bs 2).toNat,
                                   checksum := halfAt bs 3, next := none }
      if present then (readNext bs).map (fun n => { cur with next := some n }) else some cur
    else none
  | _, _ => none

/-- A record's class, by the first matching row of R11. -/
def classify (bs : List Byte) : RecordClass :=
  if byteAt bs 0 = 0 then .empty
  else if crc16 (bs.take 30) ≠ halfAt bs 30 then .badCheck
  else if byteAt bs 0 = 0x31 then
    match readStream bs with
    | some r => .stream r
    | none => .outOfRangeStream
  else if byteAt bs 0 = 0x32 then
    match readSummary bs with
    | some r => .summary r
    | none => .outOfRangeSummary
  else .unknownKind

/-- The depth code (R13, R174). -/
def depthCode (d : Depth) : Nat := d.frames

/-- The six bytes of a stream in the map checksum (R13). -/
def checksumBytes (version : Nat) (i : StreamId) (e : MapEntry) : List Byte :=
  byteOf i.val :: half e.start ++ [byteOf e.count, byteOf (depthCode e.depth), byteOf version]

/-- The map checksum over the entries that satisfy p, in ascending stream id (R13). -/
def mapChecksum (version : Nat) (m : MapEntries) (p : MapEntry → Bool) : BitVec 16 :=
  crc16 (allStreams.flatMap fun i =>
    match entryOf m i with
    | some e => if p e then checksumBytes version i e else []
    | none => [])

/-! ## Directive records -/

/-- A directive's kind and parameters as fetched (R173). -/
inductive Directive where
  | configure (p : ConfigureParams)
  | setTiming (gap coast summary : Byte)
  | start
  | stop
  | tapOpen (tap stream policy tolerance repeatLimit floor : Byte)
  | tapAdjust (tap policy tolerance repeatLimit floor : Byte)
  | tapClose (tap : Byte)
  | release (count : Byte) (addrs : List Word)
  | forceResync
  | forgetLayout
  | clearFaults (flags : Byte)
  | setAlerts (enable pins : Byte)
  | warmReset
  deriving DecidableEq, Repr

/-- The kind code of a directive (R173). -/
def Directive.code : Directive → Byte
  | .configure _ => 0x10
  | .setTiming _ _ _ => 0x11
  | .start => 0x12
  | .stop => 0x13
  | .tapOpen _ _ _ _ _ _ => 0x20
  | .tapAdjust _ _ _ _ _ => 0x21
  | .tapClose _ => 0x22
  | .release _ _ => 0x30
  | .forceResync => 0x40
  | .forgetLayout => 0x41
  | .clearFaults _ => 0x50
  | .setAlerts _ _ => 0x51
  | .warmReset => 0x5A

/-- The parameters of a CONFIGURE record (R173). -/
def readConfigure (bs : List Byte) : ConfigureParams where
  landingMode := byteAt bs 2
  landingBase := wordAt bs 4
  reportBase := wordAt bs 8
  reportSize := halfAt bs 12
  freeBase := wordAt bs 16
  freeSize := halfAt bs 20

/-- The directive a 64-byte record holds; none for a kind byte outside the table (R173). -/
def readDirective (bs : List Byte) : Option Directive :=
  let b := byteAt bs
  match (b 0).toNat with
  | 0x10 => some (.configure (readConfigure bs))
  | 0x11 => some (.setTiming (b 2) (b 3) (b 4))
  | 0x12 => some .start
  | 0x13 => some .stop
  | 0x20 => some (.tapOpen (b 1) (b 2) (b 3) (b 4) (b 5) (b 6))
  | 0x21 => some (.tapAdjust (b 1) (b 3) (b 4) (b 5) (b 6))
  | 0x22 => some (.tapClose (b 1))
  | 0x30 => some (.release (b 2) ((List.range 12).map fun a => wordAt bs (4 + 4 * a)))
  | 0x40 => some .forceResync
  | 0x41 => some .forgetLayout
  | 0x50 => some (.clearFaults (b 2))
  | 0x51 => some (.setAlerts (b 2) (b 3))
  | 0x5A => some .warmReset
  | _ => none

/-- A record passes its check (R160). -/
def directiveCheck (bs : List Byte) : Bool := crc8 (bs.take 63) == byteAt bs 63

/-! ## Report records -/

/-- Outcome codes (R152). -/
def FrameOutcome.code : FrameOutcome → Nat
  | .clean => 1
  | .partly => 2
  | .repeated => 3
  | .silent => 4
  | .starved => 5
  | .abandoned => 6

/-- Tap state codes (R152). -/
def TapState.code : TapState → Nat
  | .closed => 0
  | .waiting => 1
  | .running => 2
  | .holding => 3
  | .orphaned => 4

/-- TAP_STATE reason codes (R152). -/
def TapReason.code : TapReason → Nat
  | .opened => 1
  | .bound => 2
  | .instanceRestart => 3
  | .streamRemoved => 4
  | .streamUnknown => 5
  | .resync => 6
  | .starvation => 7
  | .discard => 8
  | .cleanResumed => 9
  | .closed => 10
  | .stopped => 11

/-- LAYOUT event codes (R152). -/
def LayoutEvent.code : LayoutEvent → Nat
  | .announced => 1
  | .withdrawn => 2
  | .switchedVerified => 3
  | .switchedUnverified => 4
  | .verified => 5
  | .mismatch => 6
  | .versionChanged => 7

/-- RECEPTION event codes (R152). -/
def ReceptionEvent.code : ReceptionEvent → Nat
  | .coastEntered => 1
  | .resumed => 2
  | .resync => 3

/-- DIRECTIVE reason codes (R152). -/
def RejectReason.code : RejectReason → Nat
  | .badCheck => 1
  | .unknownKind => 2
  | .wrongState => 3
  | .badParameter => 4
  | .tapBusy => 5
  | .unknownSlot => 6

/-- The byte of a stream id, 0xFF for none (R153, R174). -/
def streamByte : Option StreamId → Byte
  | some i => byteOf i.val
  | none => 0xFF

/-- A frame number as two bytes, bits 12 to 15 zero. -/
def frameBytes (f : FrameNo) : List Byte := half f.toNat

/-- The eight bytes of a FRAMES entry (R153). -/
def entryBytes (e : QueueEntry) : List Byte :=
  wordBytes (e.slot.getD 0 ||| e.frame.setWidth 32) ++ half e.erased.toNat ++
    [byteOf e.outcome.code, byteOf e.run]

/-- Kind code of a prepared report (R152). -/
def ReportContent.code : ReportContent → Nat
  | .frames _ _ => 1
  | .queued (.tapState _ _ _ _ _) => 2
  | .queued (.layout _ _ _ _) => 3
  | .queued (.reception _ _) => 4
  | .queued (.directive _ _ _ _) => 5
  | .returned _ => 6
  | .queued (.supply _) => 7

/-- A report's bytes from offset 4 (R153). -/
def ReportContent.bytes : ReportContent → List Byte
  | .frames t es => [byteOf t.val, byteOf es.length, 0, 0] ++ es.flatMap entryBytes
  | .queued (.tapState t old new reason stream) =>
    [byteOf t.val, byteOf old.code, byteOf new.code, byteOf reason.code, streamByte stream]
  | .queued (.layout event version switchFrame lead) =>
    [byteOf event.code, byteOf version] ++ frameBytes switchFrame ++ half lead
  | .queued (.reception event lostFrames) => [byteOf event.code, byteOf lostFrames]
  | .queued (.directive position kind reason addrs) =>
    [byteOf position, kind, byteOf reason.code, byteOf addrs.length] ++ addrs.flatMap wordBytes
  | .returned addrs => [byteOf addrs.length, 0, 0, 0] ++ addrs.flatMap wordBytes
  | .queued (.supply addrs) => [byteOf addrs.length, 0, 0, 0] ++ addrs.flatMap wordBytes

/-- The 64-byte record of a report with its common header (R152). -/
def reportRecord (c : ReportContent) (dropped : Nat) (frame : FrameNo) : List Byte :=
  padTo 64 ([byteOf c.code, byteOf dropped] ++ frameBytes frame ++ c.bytes)

/-! ## Status block -/

/-- Device state codes; HALTED is never shown (R174). -/
def DeviceState.code : DeviceState → Nat
  | .stopped => 0
  | .acquiring => 1
  | .running => 2
  | .coasting => 3
  | .halted => 4

/-- Landing mode codes (R174). -/
def LandingMode.code : LandingMode → Nat
  | .unconfigured => 0
  | .linear => 1
  | .streamed => 2

/-- Current map state codes (R174). -/
def CurrentState.code : CurrentState → Nat
  | .empty => 0
  | .collecting => 1
  | .verified => 2
  | .suspect => 3

/-- Pending map state codes (R174). -/
def PendingState.code : PendingState → Nat
  | .none => 0
  | .collecting => 1
  | .ready => 2

/-- A version byte, 0xFF for none. -/
def versionByte : Option (Fin 16) → Byte
  | some v => byteOf v.val
  | none => 0xFF

/-- A bit of a byte. -/
def bitByte (b : Bool) (i : Nat) : Byte := if b then (1 : Byte) <<< i else 0

/-- The 24 bytes of a tap record (R174). -/
def tapBytes (tp : Tap) : List Byte :=
  [byteOf tp.state.code, streamByte tp.stream] ++
  (match tp.inst with
    | some i => frameBytes i.start
    | none => [0xFF, 0xFF]) ++
  half tp.recovery ++ [byteOf tp.queue.length, byteOf tp.settling.length] ++
  [tp.counters.clean, tp.counters.partly, tp.counters.repeated, tp.counters.silent,
    tp.counters.starved, tp.counters.abandoned, tp.counters.discarded].flatMap
      (fun c => half c.toNat) ++
  [match tp.inst with
    | some i => byteOf (depthCode i.depth)
    | none => 0,
   bitByte tp.pendingOpen.isSome 0 ||| bitByte tp.pendingAdjust.isSome 1 |||
    bitByte (tp.inst.any (·.restart)) 2]

/-- The number of collected entries of a map (R61). -/
def collectedCount (m : MapEntries) : Nat :=
  (allStreams.filter fun i => (entryOf m i).any (·.collected)).length

/-- The 256 bytes of the status block from the state, with a sequence number (R172, R174). -/
def statusBytes (s : State) (sequence : BitVec 8) : List Byte :=
  let r := s.reception
  let l := s.layout
  padTo 255
    ([byteOf s.device.code, s.reporter.flags, byteOf s.directive.consumer.val,
      byteOf s.reporter.producer] ++ half s.supply.consumer ++ frameBytes r.current ++
     [sequence, byteOf r.gapLimit, byteOf r.coastLimit, byteOf s.reporter.interval,
      byteOf r.mode.code, byteOf r.coast, 0, 0] ++
     [r.received, r.lost, r.synthesized, r.stray, r.late].flatMap wordBytes ++
     [byteOf l.cur.state.code, versionByte l.cur.version, byteOf (collectedCount l.cur.entries),
      byteOf l.pend.state.code, versionByte l.pend.version, 0] ++
     frameBytes l.pend.switchFrame ++
     [l.badCheck, l.outOfRange, l.conflict].flatMap wordBytes ++
     s.taps.toList.flatMap tapBytes) ++ [sequence]

end Sys2Proof.Machine
end

