-- ==== Sys2Proof/Machine/Reporter.lean ====
section
/-! DEFINITION. The reporter: readiness and preparation (R142), the report queue (R141), due marks
and flush points (R145, R146), and a written report's effects (R143, R147). -/

namespace Sys2Proof.Machine

/-! ## The report ring (R139) -/

/-- Reports outstanding in a ring of this size (R139). -/
def ringDistance (ahead behind size : Nat) : Nat := (ahead + size - behind % size) % size

/-- Reports outstanding (R139). -/
def State.reportsOutstanding (s : State) (r : Regions) : Nat :=
  ringDistance s.reporter.producer s.reporter.recorded r.reportSize

/-- The report ring has room (R139, R142). -/
def State.reportRoom (s : State) (r : Regions) : Bool := s.reportsOutstanding r + 1 < r.reportSize

/-! ## Readiness (R142, R145) -/

/-- A queued report is a TAP_STATE report of tap t. -/
def QueuedReport.isTapState (t : TapNo) (r : QueuedReport) : Bool :=
  match r.body with
  | .tapState u _ _ _ _ => decide (u = t)
  | _ => false

/-- Tap t has a TAP_STATE report waiting in the report queue (R145). -/
def State.tapStateWaiting (s : State) (t : TapNo) : Bool :=
  s.reporter.queue.any (QueuedReport.isTapState t)

/-- Most entries in one FRAMES report: one with a summary interval of 0, six otherwise (R142). -/
def State.framesLimit (s : State) : Nat := if s.reporter.interval = 0 then 1 else 6

/-- Tap t's writable due front entries (R145). -/
def State.writableDue (s : State) (t : TapNo) : List QueueEntry :=
  let due := (s.tap t).queue.takeWhile (·.due)
  match s.reporter.queue.find? (QueuedReport.isTapState t) with
  | some r => due.take r.flush
  | none => due

/-- The entries a TAP_STATE report at the front is held for (R142 case 1). -/
def State.heldFor (s : State) (r : QueuedReport) : Option (TapNo × List QueueEntry) :=
  match r.body with
  | .tapState t _ _ _ _ =>
    match ((s.tap t).queue.take r.flush).take s.framesLimit with
    | [] => none
    | es => some (t, es)
  | _ => none

/-- The lowest-numbered tap's writable due entries, as case 4 of R142 carries them. -/
def State.dueFrames (s : State) : Option ReportContent :=
  allTaps.findSome? fun t =>
    match (s.writableDue t).take s.framesLimit with
    | [] => none
    | es => some (.frames t es)

/-- The report prepared next, by the order of preference of R142; none when none is ready. -/
def State.nextReport (s : State) : Option ReportContent :=
  match s.reporter.queue with
  | r :: _ =>
    match s.heldFor r with
    | some (t, es) => some (.frames t es)
    | none => some (.queued r.body)
  | [] =>
    match s.returning with
    | [] => s.dueFrames
    | addrs => some (.returned (addrs.take 12))

/-- A report prepared: every field fixed, its write started at the producer index (R142). -/
def State.startReport (s : State) (r : Regions) (c : ReportContent) : State :=
  let record := reportRecord c s.reporter.dropped s.reception.current
  let addr := r.reportBase + BitVec.ofNat 32 (64 * s.reporter.producer)
  let burst := ownWrite .report addr (toWords record)
  let write : ReportWrite :=
    { content := c, record := record, waiting := [burst], droppedSince := 0 }
  s.updReporter fun x => { x with write := some write }

/-- The readiness test of R142: prepares the next ready report, or latches REPORTS_BLOCKED when
the ring is full. -/
def State.testReports (s : State) : State :=
  if s.device = .halted then s
  else match s.regions with
    | none => s
    | some r =>
      if s.reporter.write.isSome then s
      else match s.nextReport with
        | none => s
        | some c => if s.reportRoom r then s.startReport r c else s.latch .reportsBlocked

/-! ## Due marks and flush points (R145, R146) -/

/-- Every entry of a completion queue due, the coalescing timer absent. -/
def Tap.allDue (tp : Tap) : Tap :=
  { tp with queue := tp.queue.map (fun e => { e with due := true }), timer := none }

/-- Tap t holds an entry that is not due. -/
def Tap.hasUndue (tp : Tap) : Bool := tp.queue.any (fun e => !e.due)

/-- Every entry of tap t becomes due; when one was not, readiness is tested (R142, R145). -/
def State.makeDue (s : State) (t : TapNo) : State :=
  let s' := s.updTap t Tap.allDue
  if (s.tap t).hasUndue then s'.testReports else s'

/-- Every entry of every tap becomes due (R146). -/
def State.makeAllDue (s : State) : State := s.eachTap State.makeDue

/-- Tap t's entries become due when its timer is at or above the interval in force (R145, R148). -/
def State.timerCheck (s : State) (t : TapNo) : State :=
  match (s.tap t).timer with
  | some n => if s.reporter.interval ≤ n then s.makeDue t else s
  | none => s

/-- At a close notice tap t's timer rises by one and is compared (R145). -/
def State.raiseTimer (s : State) (t : TapNo) : State :=
  (s.updTap t fun tp => { tp with timer := tp.timer.map (· + 1) }).timerCheck t

/-- The reporter's part of a close notice (R145). -/
def State.reporterClose (s : State) : State := s.eachTap State.raiseTimer

/-- The reporter's part of an open notice: a pending summary interval adopted (R148). -/
def State.reporterOpen (s : State) : State :=
  match s.reporter.pendingInterval with
  | some n =>
    (s.updReporter fun r => { r with interval := n, pendingInterval := none }).eachTap
      State.timerCheck
  | none => s

/-! ## Handing (R141) -/

/-- One more report dropped since a report write's preparation (R141). -/
def ReportWrite.countDrop (w : ReportWrite) : ReportWrite :=
  { w with droppedSince := min 255 (w.droppedSince + 1) }

/-- A report joins the queue at the back, or is dropped from a full one (R141). -/
def Reporter.accept (r : Reporter) (b : ReportBody) (flush : Nat) : Reporter :=
  if r.queue.length < Config.reportQueueCapacity then
    { r with queue := r.queue ++ [{ body := b, flush := flush }] }
  else
    ({ r with
      dropped := min 255 (r.dropped + 1)
      write := r.write.map ReportWrite.countDrop }).latch .reportsBlocked

/-- A report handed with a flush count; in HALTED it is discarded (R141). -/
def State.handWith (s : State) (b : ReportBody) (flush : Nat) : State :=
  if s.device = .halted then s
  else (s.updReporter fun r => r.accept b flush).testReports

/-- A report other than TAP_STATE handed (R141). -/
def State.hand (s : State) (b : ReportBody) : State := s.handWith b 0

/-- A TAP_STATE report handed for tap t: its queued entries become due, and the flush count is
their number (R146). -/
def State.handTapState (s : State) (t : TapNo) (old new : TapState) (reason : TapReason) : State :=
  let s' := s.updTap t Tap.allDue
  s'.handWith (.tapState t old new reason (s'.tap t).stream) (s'.tap t).queue.length

/-! ## A written report (R143, R147) -/

/-- A carried entry leaves the front of a queue; what merged into it since preparation stays as a
due remainder (R147). -/
def dropWritten (carried : QueueEntry) : List QueueEntry → List QueueEntry
  | [] => []
  | e :: rest =>
    if carried.run < e.run then
      { e with frame := e.frame + BitVec.ofNat 12 carried.run, run := e.run - carried.run,
               due := true } :: rest
    else rest

/-- A slot entry posted once more (R147). -/
def SlotEntry.post (e : SlotEntry) : SlotEntry :=
  { e with posted := e.posted + 1, state := if e.state = .complete then .posted else e.state }

/-- The slot an entry names is posted. -/
def State.postSlot (s : State) (slot : Option Word) : State :=
  match slot with
  | some a => s.updSlot a SlotEntry.post
  | none => s

/-- A carried entry leaves a remainder at the front of a queue (R147). -/
def leavesRemainder (carried : QueueEntry) (queue : List QueueEntry) : Bool :=
  queue.head?.any fun e => decide (carried.run < e.run)

/-- A waiting TAP_STATE report of tap t after the front entry of the tap's queue is written: the flush
count falls by one when the report counted that entry, which it did unless the entry is a remainder
made since the handing (R145). -/
def QueuedReport.lower (t : TapNo) (remainder : Bool) (r : QueuedReport) : QueuedReport :=
  if r.isTapState t then
    { r with
      flush := if r.pastRemainder then r.flush else r.flush - 1
      pastRemainder := remainder }
  else r

/-- One entry of a written FRAMES report (R145, R147). DEDUCED (log 41): a counted entry that leaves a
remainder is written, and lowers the flush counts that counted it; the remainder is an entry they did
not count. With no counted entry behind it, it may follow a TAP_STATE report that was handed after its
frames had merged, although R146 has all queued before the report written before it. -/
def State.entryWritten (t : TapNo) (s : State) (e : QueueEntry) : State :=
  let remainder := leavesRemainder e (s.tap t).queue
  let s' := s.updTap t fun tp => { tp with queue := dropWritten e tp.queue }
  let s' := s'.updReporter fun r =>
    { r with queue := r.queue.map (QueuedReport.lower t remainder) }
  s'.postSlot e.slot

/-- The effects of a written report's kind, but for slot supply's refill test (R143). -/
def State.reportWritten (s : State) : ReportContent → State
  | .frames t es => es.foldl (State.entryWritten t) s
  | .queued _ => s.updReporter fun r => { r with queue := r.queue.tail }
  | .returned addrs => addrs.foldl State.removeSlot s

/-- The drops that the header of the report write in flight does not carry (R141). -/
def Reporter.uncarried (r : Reporter) : Nat :=
  match r.write with
  | some w => w.droppedSince
  | none => 0

/-- The producer index advances, the drops that the written report carried leave the dropped count,
and nREPORT is judged again (R141, R143). DEDUCED (log 33): the drops counted since the report's
preparation stay in the count, for the next report prepared to carry. -/
def State.advanceProducer (s : State) (size : Nat) : State :=
  (s.updReporter fun r =>
    { r with
      producer := (r.producer + 1) % size, dropped := r.uncarried, write := none }).judgeReport

/-! ## Index values (R140) -/

/-- A report index value taken (R140). -/
def State.takeReportIndex (s : State) (v : Word) : State :=
  if s.device = .halted then s
  else match s.regions with
    | none => s
    | some r =>
      (s.updReporter fun x =>
        { x with recorded := v.toNat % r.reportSize }).judgeReport.testReports

/-! ## The meanings of the reporter's commands -/

/-- REPORT_INDEX_TAKEN (R140). -/
def execReportIndexTaken (value : Word) (s : State) : Host.Outcome State Fault Refusal :=
  s.whileUp (.next (s.takeReportIndex value))

/-- REPORT_PREPARE: the readiness test taken alone (R142). -/
def execReportPrepare (s : State) : Host.Outcome State Fault Refusal :=
  s.whileUp (.next s.testReports)

/-- COALESCING_TIMER_EXPIRY (R145); in HALTED the timers are frozen (R148). -/
def execCoalescingTimerExpiry (tap : TapNo) (s : State) : Host.Outcome State Fault Refusal :=
  s.whileUp (.next (if s.device = .halted then s else s.timerCheck tap))

end Sys2Proof.Machine
end

