-- ==== Sys2Proof/Machine/Supply.lean ====
section
/-! DEFINITION. Slot supply: the free ring and refill (R106 to R112), the spare stack and pushes
(R108, R116), allocation (R113), release (R118) and the end of retention (R120). -/

namespace Sys2Proof.Machine

/-! ## Refill (R109) -/

/-- Entries available in the free ring (R106). -/
def State.freeAvailable (s : State) (r : Regions) : Nat :=
  ringDistance s.supply.recorded s.supply.consumer r.freeSize

/-- The bursts of a refill of n entries from an index (R109). -/
def refillBursts (r : Regions) (index n : Nat) : List OwnBurst :=
  let burst := fun (i len : Nat) => ownRead .refill (r.freeBase + BitVec.ofNat 32 (4 * i)) len
  if index + n ≤ r.freeSize then [burst index n]
  else [burst index (r.freeSize - index), burst 0 (n - (r.freeSize - index))]

/-- A refill of n entries from the consumer index, none of its bursts issued (R109). -/
def Supply.startRefill (p : Supply) (r : Regions) (n : Nat) : Supply :=
  let refill : Refill :=
    { firstIndex := p.consumer, issuedEntries := 0, waiting := refillBursts r p.consumer n,
      data := [] }
  { p with refill := some refill }

/-- The refill conditions tested, and a refill issued when they hold (R109). -/
def State.testRefill (s : State) : State :=
  match s.regions with
  | none => s
  | some r =>
    let n := min (8 - s.supply.stack.length) (s.freeAvailable r)
    if s.device ≠ .halted ∧ s.supply.stack.length < 4 ∧ 1 ≤ s.freeAvailable r ∧
        s.supply.refill = none ∧ s.returning = [] then
      s.updSupply fun p => p.startRefill r n
    else s

/-- A free index value taken (R107). -/
def State.takeFreeIndex (s : State) (v : Word) : State :=
  if s.device = .halted then s
  else match s.regions with
    | none => s
    | some r =>
      (s.updSupply fun p => { p with recorded := v.toNat % r.freeSize }).testRefill

/-! ## Pushes (R108, R116) -/

/-- A RETURNING entry: its address, its other fields cleared (R117). -/
def returningEntry (a : Word) : SlotEntry :=
  { addr := a, owner := 0, frame := 0, depth := .d1, count := 0, state := .returning, arrived := 0,
    erased := 0, silenced := false, posted := 0, retained := false, outstanding := 0,
    awaitingPush := false }

/-- An address placed on the spare stack, or made a RETURNING entry by a full one (R108). -/
def Supply.place (p : Supply) (a : Word) : Supply :=
  if p.stack.length < Config.stackCapacity then { p with stack := a :: p.stack }
  else { p with table := p.table ++ [returningEntry a] }

/-- An address pushed; a new RETURNING entry is handed to the reporter (R108, R117). -/
def State.push (s : State) (a : Word) : State :=
  let s' := s.updSupply fun p => p.place a
  if s.supply.stack.length < Config.stackCapacity then s' else s'.testReports

/-- An entry removed and its address pushed (R116). -/
def State.removeAndPush (s : State) (a : Word) : State := (s.removeSlot a).push a

/-- A push request for the entry of an address (R116). -/
def State.pushRequest (s : State) (a : Word) : State :=
  match s.slot a with
  | none => s
  | some e =>
    if e.awaitingPush then s
    else if e.outstanding = 0 then s.removeAndPush a
    else s.updSlot a fun e => { e with awaitingPush := true }

/-- An entry awaiting push whose count is zero removed and pushed (R116). -/
def State.releaseAwaiting (s : State) (a : Word) : State :=
  match s.slot a with
  | none => s
  | some e => if e.awaitingPush ∧ e.outstanding = 0 then s.removeAndPush a else s

/-! ## Refill completion (R110) -/

/-- The 4 KiB from an address share a byte with a region or the directive page (R110 test 3). -/
def State.meetsRegions (s : State) (r : Regions) (base size : Nat) : Bool :=
  rangesMeet base size r.landingBase.toNat 32768 ||
  rangesMeet base size (pageBase s.strap).toNat 4096 ||
  rangesMeet base size r.reportBase.toNat (64 * r.reportSize) ||
  rangesMeet base size r.freeBase.toNat (4 * r.freeSize)

/-- The four tests of R110. -/
def State.validSlot (s : State) (r : Regions) (a : Word) : Bool :=
  a != 0 && a.toNat % 4096 == 0 && !s.meetsRegions r a.toNat 4096 && !s.heldAddrs.contains a

/-- Addresses checked and pushed in ring order; with the state, the addresses skipped (R110). -/
def State.takeAddrs (s : State) (r : Regions) : List Word → State × List Word
  | [] => (s, [])
  | a :: rest =>
    if s.validSlot r a then (s.push a).takeAddrs r rest
    else
      let (s', skipped) := s.takeAddrs r rest
      (s', a :: skipped)

/-- A SUPPLY report for skipped addresses, BAD_SLOT latched (R110). -/
def State.reportSkipped (s : State) (skipped : List Word) : State :=
  if skipped = [] then s else (s.latch .badSlot).hand (.supply skipped)

/-- A refill's addresses taken, the consumer index advanced and the refill ended (R110). -/
def State.finishRefill (s : State) (r : Regions) (data : List Word) : State :=
  let (s', skipped) := s.takeAddrs r data
  let s' := s'.updSupply fun p => { p with consumer := (p.consumer + data.length) % r.freeSize }
  let s' := s'.reportSkipped skipped
  (s'.updSupply fun p => { p with refill := none }).testRefill

/-- A refill with every burst issued and answered OK has its addresses taken (R33, R110, R111). -/
def State.refillAnswered (s : State) : State :=
  match s.supply.refill, s.regions with
  | some f, some r =>
    if f.waiting = [] ∧ s.ownInFlight .refill .live = 0 then s.finishRefill r f.data else s
  | _, _ => s

/-! ## Allocation (R113) -/

/-- A new OPEN entry for a logical frame (R87). -/
def openEntry (a : Word) (t : TapNo) (f : FrameNo) (i : TapInstance) : SlotEntry :=
  { addr := a, owner := t, frame := f, depth := i.depth, count := i.count, state := .opened,
    arrived := 0, erased := 0, silenced := false, posted := 0, retained := false, outstanding := 0,
    awaitingPush := false }

/-- A slot granted for logical frame f of tap t, or none (R113). A grant tests for a refill. -/
def State.allocate (s : State) (t : TapNo) (f : FrameNo) (i : TapInstance) : State × Option Word :=
  match s.supply.stack with
  | [] => (s, none)
  | a :: rest =>
    if s.workingSlots < Config.slotCapacity then
      ((s.updSupply fun p =>
        { p with stack := rest, table := p.table ++ [openEntry a t f i] }).testRefill, some a)
    else (s, none)

/-! ## Release (R118) -/

/-- A completion queue entry names an address. -/
def QueueEntry.names (a : Word) (e : QueueEntry) : Bool := e.slot == some a

/-- An entry of some completion queue names an address (R120, R138). -/
def State.namedInQueues (s : State) (a : Word) : Bool :=
  allTaps.any fun t => (s.tap t).queue.any (QueueEntry.names a)

/-- One address of a RELEASE taken by R118; false when it is rejected. DEDUCED (log 22): an
entry that a completion queue entry still names stays, by R120 (row 3) and R138 (bullets 3 and 4). -/
def State.releaseOne (s : State) (a : Word) : State × Bool :=
  match s.slot a with
  | some e =>
    if e.state = .posted ∧ 2 ≤ e.posted then
      (s.updSlot a fun e => { e with posted := e.posted - 1 }, true)
    else if e.state = .posted ∧ e.posted = 1 then
      if e.retained ∨ s.namedInQueues a = true then
        (s.updSlot a fun e => { e with posted := 0 }, true)
      else (s.removeSlot a, true)
    else (s, false)
  | none => (s, false)

/-- The addresses of a RELEASE taken in order; with the state, the rejected ones (R118). -/
def State.releaseAll (s : State) : List Word → State × List Word
  | [] => (s, [])
  | a :: rest =>
    let (s₁, taken) := s.releaseOne a
    let (s₂, rejected) := s₁.releaseAll rest
    (s₂, if taken then rejected else a :: rejected)

/-! ## Retention (R120) -/

/-- The retention of tap t's retained slot ends (R120, R133). -/
def State.endRetention (s : State) (t : TapNo) : State :=
  match (s.tap t).retained with
  | none => s
  | some a =>
    let s := s.updTap t fun tp => { tp with retained := none, repeatCount := 0 }
    let s := s.updSlot a fun e => { e with retained := false }
    match s.slot a with
    | some e =>
      if e.state = .posted ∧ e.posted = 0 ∧ s.namedInQueues a = false then s.pushRequest a else s
    | none => s

/-- A tap's claims on an entry: its posted count and the queue entries that name it (R131). -/
def State.claims (s : State) (e : SlotEntry) : Nat :=
  e.posted + ((s.tap e.owner).queue.filter (QueueEntry.names e.addr)).length

/-! ## The meanings of slot supply's commands -/

/-- FREE_INDEX_TAKEN (R107). -/
def execFreeIndexTaken (value : Word) (s : State) : Host.Outcome State Fault Refusal :=
  s.whileUp (.next (s.takeFreeIndex value))

/-- AWAITING_PUSH_RELEASED (R116); in HALTED the slot table is frozen (R122). -/
def execAwaitingPushReleased (slot : Word) (s : State) : Host.Outcome State Fault Refusal :=
  s.whileUp (.next (if s.device = .halted then s else s.releaseAwaiting slot))

/-- The entries of an answered burst joined to those of the refill's earlier bursts (R16, R110). -/
def State.gatherRefill (s : State) (data : List Word) : State :=
  s.updSupply fun p => { p with refill := p.refill.map fun f => { f with data := f.data ++ data } }

/-- REFILL_COMPLETE (R110): the oldest unanswered burst of the kind is answered OK (R16). The
addresses of a refill discarded at HALTED or at a WARM_RESET are discarded (R33). -/
def execRefillComplete (data : List Word) (s : State) : Host.Outcome State Fault Refusal :=
  s.whileUp <|
    match s.oldestBurst .refill with
    | none => .fault .nothingToAnswer
    | some (b, life) =>
      if data.length ≠ b.len then .refused .badShape
      else if life = .live then
        .next ((s.answerOwn .refill).gatherRefill data).refillAnswered
      else .next (s.answerOwn .refill)

/-- REPORT_WRITE_COMPLETE (R143): the effects of the report's kind, then readiness again. -/
def State.reportAnswered (s : State) : State :=
  match s.reporter.write, s.regions with
  | some w, some r =>
    let s' := (s.advanceProducer r.reportSize).reportWritten w.content
    let s' := match w.content with
      | .returned _ => if s'.returning = [] then s'.testRefill else s'
      | _ => s'
    s'.testReports
  | _, _ => s

/-- REPORT_WRITE_COMPLETE (R143). A discarded report's result is dropped (R33). -/
def execReportWriteComplete (s : State) : Host.Outcome State Fault Refusal :=
  s.whileUp <|
    match s.oldestOwn .report with
    | none => .fault .nothingToAnswer
    | some .live => .next (s.answerOwn .report).reportAnswered
    | some _ => .next (s.answerOwn .report)

end Sys2Proof.Machine
end

