-- ==== Sys2Proof/Machine/Taps.lean ====
section
/-! DEFINITION. Taps and reassembly (05) with the hold policies (07): state changes, completion
queues, judgment, completion, instance ends, abandonment, and the tap table's part of each notice. -/

namespace Sys2Proof.Machine

/-! ## State changes (R81, R135) -/

/-- The tap record in a new state: the hold length starts at 0 in HOLDING and is absent elsewhere
(R124, R135). -/
def Tap.enter (tp : Tap) (new : TapState) : Tap :=
  { tp with state := new, holdLength := if new = .holding then some 0 else none }

/-- Tap t's state changed for a reason, with its TAP_STATE report; nothing when it holds that state
already (R81). -/
def State.setTapState (s : State) (t : TapNo) (new : TapState) (reason : TapReason) : State :=
  if (s.tap t).state = new then s
  else (s.updTap t fun tp => tp.enter new).handTapState t (s.tap t).state new reason

/-- A RUNNING tap becomes HOLDING with reason DISCARD; another keeps its state (R94, R98). -/
def State.holdAfterDiscard (s : State) (t : TapNo) : State :=
  if (s.tap t).state = .running then s.setTapState t .holding .discard else s

/-! ## The completion queue (R95 to R98, R145) -/

/-- A tap counter raised by an outcome (R104). -/
def TapCounters.count (c : TapCounters) (o : FrameOutcome) (run : Nat) : TapCounters :=
  let n := BitVec.ofNat 32 run
  match o with
  | .clean => { c with clean := c.clean + 1 }
  | .partly => { c with partly := c.partly + 1 }
  | .repeated => { c with repeated := c.repeated + 1 }
  | .silent => { c with silent := c.silent + 1 }
  | .starved => { c with starved := c.starved + n }
  | .abandoned => { c with abandoned := c.abandoned + n }

/-- The discarded counter raised (R104). -/
def TapCounters.discard (c : TapCounters) (run : Nat) : TapCounters :=
  { c with discarded := c.discarded + BitVec.ofNat 32 run }

/-- An entry queued for tap t is due at once (R145). -/
def State.dueAtOnce (s : State) (t : TapNo) : Bool :=
  s.reporter.interval == 0 || s.device == .stopped || s.device == .acquiring || s.tapStateWaiting t

/-- An entry joins the back of a queue with its due mark; a sixth undue entry makes all due
(R145). -/
def Tap.enqueue (tp : Tap) (e : QueueEntry) (due : Bool) : Tap :=
  let queue := tp.queue ++ [{ e with due := due }]
  if due then { tp with queue := queue }
  else
    let tp' := { tp with queue := queue, timer := some (tp.timer.getD 0) }
    if 6 ≤ (queue.filter (fun e => !e.due)).length then tp'.allDue else tp'

/-- The tap has an entry due. -/
def Tap.hasDue (tp : Tap) : Bool := tp.queue.any (·.due)

/-- A completion queued for tap t, its counter raised, readiness tested when entries became due
(R95, R104, R142). -/
def State.enqueue (s : State) (t : TapNo) (e : QueueEntry) : State :=
  let due := s.dueAtOnce t
  let s' := s.updTap t fun tp =>
    { tp.enqueue e due with counters := tp.counters.count e.outcome e.run }
  if due || !(s'.tap t).hasUndue then s'.testReports else s'

/-- A completion discarded: its slot is pushed and the discarded counter rises (R94, R98). -/
def State.discard (s : State) (t : TapNo) (kind : CompletionKind) (run : Nat) : State :=
  let s' := match kind with
    | .slot a => s.pushRequest a
    | _ => s
  s'.updTap t fun tp => { tp with counters := tp.counters.discard run }

/-- A completion discarded from a full completion queue (R98). -/
def State.discardFull (s : State) (t : TapNo) (kind : CompletionKind) (run : Nat) : State :=
  ((s.discard t kind run).latch .reportsBlocked).holdAfterDiscard t

/-- A STARVED completion merges into a last entry (R96). -/
def mergesInto (last : QueueEntry) (c : Completion) : Bool :=
  c.kind == .starved && last.outcome == .starved && last.number == c.number && last.run < 255 &&
    last.frame + BitVec.ofNat 12 last.run == c.frame

/-- A queue entry of a completion. -/
def Completion.entry (c : Completion) (outcome : FrameOutcome) (slot : Option Word)
    (erased : ClassSet) : QueueEntry :=
  { frame := c.frame, slot := slot, outcome := outcome, erased := erased, run := c.run,
    number := c.number, due := false }

/-- A STARVED completion merged into the last entry, the run beyond 255 as a new entry or discarded
(R96). -/
def State.merge (s : State) (t : TapNo) (last : QueueEntry) (c : Completion) : State :=
  let total := last.run + c.run
  let taken := min 255 total - last.run
  let s' := s.updTap t fun tp =>
    { tp with
      queue := tp.queue.dropLast ++ [{ last with run := min 255 total }],
      counters := tp.counters.count .starved taken }
  if total ≤ 255 then s'
  else
    let rest : Completion := { c with
      frame := last.frame + 255, run := total - 255 }
    if (s'.tap t).queue.length < Config.queueCapacity then
      s'.enqueue t (rest.entry .starved none 0)
    else s'.discardFull t .starved rest.run

/-! ## The hold policy unit (07) -/

/-- What the hold policy unit decides of a CLEAN or PARTIAL completion (R126 to R130, R134). -/
inductive HoldDecision where
  /-- CLEAN, its own slot. -/
  | clean
  /-- PARTIAL, its own slot: acceptable, or damaged under PASS. -/
  | partly
  /-- SILENT, its own slot silenced. -/
  | silence
  /-- REPEATED, naming the retained slot. -/
  | repeating (retained : Word)
  deriving DecidableEq, Repr

/-- The acceptable-completion test (R126). -/
def Tap.accepts (tp : Tap) (erased : ClassSet) : Bool :=
  erased == 0 || (tp.state != .holding && classCount erased ≤ tp.params.tolerance)

/-- A completion belongs to the tap's current instance (R134). -/
def Tap.isCurrent (tp : Tap) (number : Counter) : Bool :=
  match tp.inst with
  | some i => tp.bound && !i.ended && i.number == number
  | none => false

/-- The retained slot may be repeated once more: R130's three conditions. -/
def State.repeatable (s : State) (t : TapNo) : Option Word :=
  match (s.tap t).retained with
  | some a =>
    let claims := match s.slot a with
      | some e => s.claims e
      | none => 0
    if (s.tap t).repeatCount < (s.tap t).params.repeatLimit ∧ claims < Config.claimsCap then some a
    else none
  | none => none

/-- The hold policy unit's decision (R126 to R130, R134). -/
def State.decide (s : State) (t : TapNo) (erased : ClassSet) (number : Counter) : HoldDecision :=
  let tp := s.tap t
  if tp.accepts erased then (if erased = 0 then .clean else .partly)
  else match tp.params.policy with
    | .pass => .partly
    | .silent => .silence
    | .repeating =>
      if tp.isCurrent number then
        match s.repeatable t with
        | some a => .repeating a
        | none => .silence
      else .silence

/-- A clean completion of the current instance becomes the retained slot (R127 steps 1 to 3). -/
def State.retain (s : State) (t : TapNo) (a : Word) : State :=
  let s := s.endRetention t
  let s := s.updSlot a fun e => { e with retained := true }
  s.updTap t fun tp => { tp with retained := some a, repeatCount := 0 }

/-- A HOLDING tap returns to RUNNING (R127 step 4). -/
def State.resume (s : State) (t : TapNo) : State :=
  if (s.tap t).state = .holding then
    (s.updTap t fun tp => { tp with recovery := tp.holdLength.getD 0 }).setTapState t .running
      .cleanResumed
  else s

/-- A clean completion queued (R127, R134). -/
def State.queueClean (s : State) (t : TapNo) (c : Completion) (a : Word) : State :=
  if (s.tap t).isCurrent c.number then
    ((s.retain t a).enqueue t (c.entry .clean (some a) 0)).resume t
  else s.enqueue t (c.entry .clean (some a) 0)

/-- A CLEAN or PARTIAL completion queued as the hold policy unit decides (R127 to R132). -/
def State.queueSlot (s : State) (t : TapNo) (c : Completion) (a : Word) (erased : ClassSet) :
    State :=
  match s.decide t erased c.number with
  | .clean => s.queueClean t c a
  | .partly => s.enqueue t (c.entry .partly (some a) erased)
  | .silence =>
    (s.updSlot a fun e => { e with silenced := true }).enqueue t (c.entry .silent (some a) erased)
  | .repeating r =>
    ((s.updTap t fun tp => { tp with repeatCount := tp.repeatCount + 1 }).enqueue t
      (c.entry .repeated (some r) erased)).pushRequest a

/-! ## Judgment (R94, R95) -/

/-- A judged completion queued, merged or discarded (R95, R96, R98). -/
def State.judge (s : State) (t : TapNo) (c : Completion) : State :=
  let queue := (s.tap t).queue
  match queue.getLast?.filter (fun last => mergesInto last c) with
  | some last => s.merge t last c
  | none =>
    if Config.queueCapacity ≤ queue.length then s.discardFull t c.kind c.run
    else match c.kind with
      | .starved => s.enqueue t (c.entry .starved none 0)
      | .abandoned => s.enqueue t (c.entry .abandoned none 0)
      | .slot a =>
        match s.slot a with
        | some e => s.queueSlot t c a e.erased
        | none => s

/-- A completion is ready: its entry has no write outstanding (R94). -/
def State.ready (s : State) (c : Completion) : Bool :=
  match c.kind with
  | .slot a => (s.slot a).all (·.outstanding == 0)
  | _ => true

/-- At most n front completions judged in turn while the front is ready (R94). -/
def State.judgeFront : Nat → State → TapNo → State
  | 0, s, _ => s
  | n + 1, s, t =>
    match (s.tap t).settling with
    | [] => s
    | c :: rest =>
      if s.ready c then
        State.judgeFront n ((s.updTap t fun tp => { tp with settling := rest }).judge t c) t
      else s

/-- The front completions of tap t judged until the front is not ready (R94). -/
def State.settle (s : State) (t : TapNo) : State := s.judgeFront (s.tap t).settling.length t

/-- A completion appended to the settling list, or discarded from a full one (R94). -/
def State.append (s : State) (t : TapNo) (c : Completion) : State :=
  if (s.tap t).settling.length < Config.settlingCapacity then
    (s.updTap t fun tp => { tp with settling := tp.settling ++ [c] }).settle t
  else (s.discard t c.kind c.run).holdAfterDiscard t

/-! ## Completion, instance end, abandonment -/

/-- The number recorded in a completion of tap t (R80). -/
def Tap.number (tp : Tap) : Counter :=
  match tp.inst with
  | some i => i.number
  | none => tp.lastNumber

/-- An OPEN entry becomes COMPLETE, more classes erased (R91, R92). -/
def SlotEntry.finish (more : SlotEntry → ClassSet) (e : SlotEntry) : SlotEntry :=
  if e.state = .opened then { e with state := .complete, erased := e.erased ||| more e } else e

/-- A logical frame of tap t completed: its entry COMPLETE with more classes erased, its completion
appended (R91, R92). -/
def State.completeFrame (s : State) (t : TapNo) (more : SlotEntry → ClassSet) (l : LogicalFrame) :
    State :=
  let number := (s.tap t).number
  match l.slot with
  | some a =>
    (s.updSlot a (SlotEntry.finish more)).append t
      { frame := l.frame, kind := .slot a, run := 1, number := number }
  | none => s.append t { frame := l.frame, kind := .starved, run := 1, number := number }

/-- The classes not in the arrived set (R92). -/
def SlotEntry.notArrived (e : SlotEntry) : ClassSet := e.depth.classes &&& ~~~e.arrived

/-- An instance end: the instance marked ended, retention ended, every open logical frame completed
in order (R92). -/
def State.instanceEnd (s : State) (t : TapNo) : State :=
  let frames := (s.tap t).openFrames
  let s := s.updTap t fun tp =>
    { tp with inst := tp.inst.map (fun i => { i with ended := true }), openFrames := [] }
  frames.foldl (fun s l => s.completeFrame t SlotEntry.notArrived l) (s.endRetention t)

/-- The slots of some logical frames given to slot supply in order (R84, R93). -/
def State.pushFrames (s : State) (frames : List LogicalFrame) : State :=
  frames.foldl (fun s l => match l.slot with
    | some a => s.pushRequest a
    | none => s) s

/-- An abandonment, but for the end of retention (R93). -/
def State.abandon (s : State) (t : TapNo) : State :=
  let frames := (s.tap t).openFrames
  let s := (s.updTap t fun tp => { tp with openFrames := [] }).pushFrames frames
  match frames with
  | [] => s
  | l :: _ =>
    s.append t { frame := l.frame, kind := .abandoned, run := frames.length,
                 number := (s.tap t).number }

/-- The instance removed. -/
def State.dropInstance (s : State) (t : TapNo) : State := s.updTap t fun tp => { tp with inst := none }

/-- A new instance at frame f with a map entry: next instance number, age 0, mark clear, repeat
count 0 (R80, R86, R124). -/
def Tap.begin (tp : Tap) (f : FrameNo) (e : MapEntry) : Tap :=
  let number := tp.lastNumber + 1
  { tp with
    inst := some
      { start := f, depth := e.depth, startCell := e.start, count := e.count, age := 0,
        restart := false, number := number, ended := false, fresh := true }
    lastNumber := number
    openFrames := []
    repeatCount := 0 }

/-- A new instance begun and the tap HOLDING for a reason (R74, R86, R88). -/
def State.beginInstance (s : State) (t : TapNo) (f : FrameNo) (e : MapEntry) (reason : TapReason) :
    State :=
  (s.updTap t fun tp => tp.begin f e).setTapState t .holding reason

/-- The tap loses its instance and takes a state (R74, R75, R88, R102). -/
def State.unbind (s : State) (t : TapNo) (new : TapState) (reason : TapReason) : State :=
  (s.dropInstance t).setTapState t new reason

/-! ## At a frame open (R85 to R88) -/

/-- A pending adjust adopted (R85 step 1). -/
def State.adoptAdjust (s : State) (t : TapNo) : State :=
  match (s.tap t).pendingAdjust with
  | some p => s.updTap t fun tp => { tp with params := p, pendingAdjust := none }
  | none => s

/-- A tap's record at the adoption of a pending open (R85 step 1, R124). -/
def Tap.opened (tp : Tap) (i : StreamId) (p : TapParams) : Tap :=
  { tp with stream := some i, params := p, pendingOpen := none, counters := TapCounters.zero,
            retained := none, repeatCount := 0, recovery := 0 }

/-- A pending open adopted: the tap WAITING, then ORPHANED when a VERIFIED map lacks its stream
(R85 step 1). -/
def State.adoptOpen (s : State) (t : TapNo) : State :=
  match (s.tap t).pendingOpen with
  | none => s
  | some (i, p) =>
    let s := (s.updTap t fun tp => tp.opened i p).setTapState t .waiting .opened
    if s.layout.cur.state = .verified ∧ s.streamEntry t = none then
      s.setTapState t .orphaned .streamRemoved
    else s

/-- Step 1 of R85: pending changes adopted. -/
def State.adopt (s : State) (t : TapNo) : State := (s.adoptAdjust t).adoptOpen t

/-- A bound tap whose stream has gone leaves for ORPHANED or WAITING (R74, R88). -/
def State.loseStream (s : State) (t : TapNo) : State :=
  if s.layout.cur.state = .verified then s.unbind t .orphaned .streamRemoved
  else s.unbind t .waiting .streamUnknown

/-- A bound tap's instance restarted (R88). -/
def State.restart (s : State) (t : TapNo) (f : FrameNo) : State :=
  let s := s.instanceEnd t
  match s.streamEntry t with
  | some e => s.beginInstance t f e .instanceRestart
  | none => s.loseStream t

/-- Step 2 of R85. -/
def State.restartStep (s : State) (t : TapNo) (f : FrameNo) (first : Bool) : State :=
  match (s.tap t).inst with
  | some i =>
    if (s.tap t).bound && !i.fresh && (i.restart || first) then s.restart t f else s
  | none => s

/-- The retained slot's shape differs from an entry's (R133). -/
def State.retainedDiffers (s : State) (t : TapNo) (e : MapEntry) : Bool :=
  match (s.tap t).retained with
  | some a =>
    match s.slot a with
    | some r => r.depth != e.depth || r.count != e.count
    | none => true
  | none => false

/-- Step 3 of R85: a seeking tap whose stream is present binds (R86, R133). -/
def State.bindStep (s : State) (t : TapNo) (f : FrameNo) : State :=
  if (s.tap t).seeking then
    match s.streamEntry t with
    | some e =>
      let s := if s.retainedDiffers t e then s.endRetention t else s
      s.beginInstance t f e .bound
    | none => s
  else s

/-- The age of an instance at its allocation (R87). -/
def TapInstance.advance (i : TapInstance) : TapInstance :=
  if i.fresh then { i with fresh := false }
  else if i.age + 1 < i.depth.frames then { i with age := i.age + 1 } else i

/-- Step 4 of R85: a bound tap takes a slot for frame f or starves it (R87). -/
def State.allocateStep (s : State) (t : TapNo) (f : FrameNo) : State :=
  match (s.tap t).inst with
  | some i =>
    if (s.tap t).bound then
      let s := s.updTap t fun tp => { tp with inst := some i.advance }
      let (s, slot) := s.allocate t f i
      let s := s.updTap t fun tp =>
        { tp with openFrames := tp.openFrames ++ [{ frame := f, slot := slot }] }
      match slot with
      | some _ => s
      | none => (s.latch .starvation).setTapState t .holding .starvation
    else s
  | none => s

/-- The four steps of R85 for one tap. -/
def State.tapOpenNotice (f : FrameNo) (first : Bool) (s : State) (t : TapNo) : State :=
  (((s.adopt t).restartStep t f first).bindStep t f).allocateStep t f

/-- The tap table's part of an open notice (R85). -/
def State.tapsOpen (s : State) (f : FrameNo) (first : Bool) : State :=
  s.eachTap (State.tapOpenNotice f first)

/-! ## At a frame close (R89 to R91, R136) -/

/-- The class a frame brings is judged arrived (R44, R88). -/
def classArrives (q : BitVec 2) (floor : Nat) (restart : Bool) : Bool :=
  q != 0 && floor ≤ q.toNat && !restart

/-- One class of an entry marked (R89): a class erased before stays erased. -/
def SlotEntry.markClass (c : Nat) (arrives : Bool) (e : SlotEntry) : SlotEntry :=
  if arrives then (if hasClass e.erased c then e else { e with arrived := joinClass e.arrived c })
  else { e with arrived := leaveClass e.arrived c, erased := joinClass e.erased c }

/-- The class frame f brings to an open logical frame marked in its entry (R89). -/
def State.markFrame (s : State) (d : Depth) (f : FrameNo) (arrives : Bool) (l : LogicalFrame) :
    State :=
  match l.slot, d.classAt (f - l.frame).toNat with
  | some a, some c => s.updSlot a (SlotEntry.markClass c arrives)
  | _, _ => s

/-- The front logical frame completed when it is due (R91). -/
def State.completeDue (s : State) (t : TapNo) (i : TapInstance) : State :=
  if i.age + 1 = i.depth.frames then
    match (s.tap t).openFrames with
    | [] => s
    | l :: rest =>
      (s.updTap t fun tp => { tp with openFrames := rest }).completeFrame t (fun _ => 0) l
  else s

/-- One tap's part of a close notice: hold length, class marks, completion (R89, R91, R136). -/
def State.tapCloseNotice (f : FrameNo) (q : BitVec 2) (s : State) (t : TapNo) : State :=
  match (s.tap t).inst with
  | some i =>
    if (s.tap t).bound then
      let s := s.updTap t fun tp =>
        { tp with holdLength := tp.holdLength.map (fun n => min 65535 (n + 1)) }
      let arrives := classArrives q (s.tap t).params.floor i.restart
      let s := (s.tap t).openFrames.foldl (fun s l => s.markFrame i.depth f arrives l) s
      s.completeDue t i
    else s
  | none => s

/-- The tap table's part of a close notice. -/
def State.tapsClose (s : State) (f : FrameNo) (q : BitVec 2) : State :=
  s.eachTap (State.tapCloseNotice f q)

/-! ## Notices of resync, forget and stop (R99, R101, R102) -/

/-- One tap's part of the resync notice (R99). -/
def State.tapResync (s : State) (t : TapNo) : State :=
  if (s.tap t).bound then
    let s := (s.abandon t).endRetention t
    let s := s.updTap t fun tp => { tp with inst := tp.inst.map (fun i => { i with restart := true }) }
    s.setTapState t .holding .resync
  else s

/-- The resync notice, after which every queued entry is due (R99, R146). -/
def State.resyncNotice (s : State) : State := (s.eachTap State.tapResync).makeAllDue

/-- One tap's part of the forget notice (R101). -/
def State.tapForget (s : State) (t : TapNo) : State :=
  if (s.tap t).bound then ((s.abandon t).endRetention t).unbind t .waiting .streamUnknown
  else if (s.tap t).state = .orphaned then s.setTapState t .waiting .streamUnknown
  else s

/-- The forget notice (R101). -/
def State.forgetNotice (s : State) : State := s.eachTap State.tapForget

/-- One tap's part of the stop notice: retention kept (R102, R133). -/
def State.tapStop (s : State) (t : TapNo) : State :=
  if (s.tap t).bound then (s.abandon t).unbind t .waiting .stopped
  else if (s.tap t).state = .orphaned then s.setTapState t .waiting .stopped
  else s

/-- The stop notice, after which every queued entry is due (R102, R146). -/
def State.stopNotice (s : State) : State := (s.eachTap State.tapStop).makeAllDue

/-! ## Layout notices (R74, R75) -/

/-- A bound tap's outcome at the switch (R74). -/
def State.switchBound (s : State) (t : TapNo) (f : FrameNo) (i : TapInstance) : State :=
  match s.streamEntry t with
  | some e =>
    if i.restart = false ∧ e.count = i.count ∧ e.depth = i.depth then
      s.updTap t fun tp => { tp with inst := some { i with startCell := e.start } }
    else (s.instanceEnd t).beginInstance t f e .instanceRestart
  | none => (s.instanceEnd t).loseStream t

/-- A tap's outcome at the switch (R74). -/
def State.tapSwitch (f : FrameNo) (s : State) (t : TapNo) : State :=
  match (s.tap t).state, (s.tap t).inst with
  | .running, some i => s.switchBound t f i
  | .holding, some i => s.switchBound t f i
  | .waiting, _ =>
    if s.streamEntry t = none ∧ s.layout.cur.state = .verified then
      s.setTapState t .orphaned .streamRemoved
    else s
  | .orphaned, _ =>
    if s.streamEntry t = none ∧ s.layout.cur.state ≠ .verified then
      s.setTapState t .waiting .streamUnknown
    else s
  | _, _ => s

/-- The switch notice at the open of f (R74). -/
def State.switchNotice (s : State) (f : FrameNo) : State := s.eachTap (State.tapSwitch f)

/-- One tap's part of the version notice (R75). -/
def State.tapVersion (s : State) (t : TapNo) : State :=
  if (s.tap t).bound then (s.instanceEnd t).unbind t .waiting .streamUnknown
  else if (s.tap t).state = .orphaned then s.setTapState t .waiting .streamUnknown
  else s

/-- The version notice (R75). -/
def State.versionNotice (s : State) : State := s.eachTap State.tapVersion

/-- A tap's stream is one of a list. -/
def Tap.streamIn (tp : Tap) (ids : List StreamId) : Bool :=
  match tp.stream with
  | some i => ids.contains i
  | none => false

/-- One tap's part of the verification notice, with the streams made absent by the check (R75). -/
def State.tapVerified (removed : List StreamId) (s : State) (t : TapNo) : State :=
  if (s.tap t).bound then
    if (s.tap t).streamIn removed then (s.instanceEnd t).unbind t .orphaned .streamRemoved else s
  else if (s.tap t).state = .waiting ∧ s.streamEntry t = none then
    s.setTapState t .orphaned .streamRemoved
  else s

/-- The verification notice (R75). -/
def State.verificationNotice (s : State) (removed : List StreamId) : State :=
  s.eachTap (State.tapVerified removed)

/-- A bound tap of the stream awaits restart (R75, R88). -/
def State.tapReplaced (i : StreamId) (s : State) (t : TapNo) : State :=
  if (s.tap t).bound ∧ (s.tap t).stream = some i then
    s.updTap t fun tp => { tp with inst := tp.inst.map (fun n => { n with restart := true }) }
  else s

/-- The replacement notice of a stream (R66, R75). -/
def State.replacementNotice (s : State) (i : StreamId) : State := s.eachTap (State.tapReplaced i)

/-- A bound tap of a removed stream ends its instance (R67, R75). -/
def State.tapRemoved (i : StreamId) (s : State) (t : TapNo) : State :=
  if (s.tap t).bound ∧ (s.tap t).stream = some i then
    (s.instanceEnd t).unbind t .waiting .streamUnknown
  else s

/-- The removal notice of a stream (R67, R75). -/
def State.removalNotice (s : State) (i : StreamId) : State := s.eachTap (State.tapRemoved i)

/-! ## The meaning of the tap table's own step -/

/-- SETTLED_COMPLETION_JUDGED (R94); in HALTED the settling list is frozen. -/
def execSettledCompletionJudged (tap : TapNo) (s : State) : Host.Outcome State Fault Refusal :=
  s.whileUp (.next (if s.device = .halted then s else s.settle tap))

end Sys2Proof.Machine
end

