-- ==== Sys2Proof/Machine/LayoutTables.lean ====
section
/-! DEFINITION. The layout tables (04): record assembly, the current and pending maps, their
checks, the switch and FORGET_LAYOUT's clearing. -/

namespace Sys2Proof.Machine

/-! ## Maps -/

/-- The entries of the current map replaced. -/
def State.setEntries (s : State) (m : MapEntries) : State :=
  s.updLayout fun l => { l with cur := { l.cur with entries := m } }

/-- The current map replaced. -/
def State.setCurrent (s : State) (m : CurrentMap) : State :=
  s.updLayout fun l => { l with cur := m }

/-- The pending map replaced. -/
def State.setPending (s : State) (m : PendingMap) : State :=
  s.updLayout fun l => { l with pend := m }

/-- One stream's place of a map set. -/
def setEntry (m : MapEntries) (i : StreamId) (e : Option MapEntry) : MapEntries := m.set i e

/-- The conflict counter raised (R78). -/
def State.countConflict (s : State) : State :=
  s.updLayout fun l => { l with conflict := l.conflict + 1 }

/-- The out-of-range counter raised (R78). -/
def State.countOutOfRange (s : State) : State :=
  s.updLayout fun l => { l with outOfRange := l.outOfRange + 1 }

/-- The version of a map as a number; 0 for none. -/
def versionNat (v : Option (Fin 16)) : Nat :=
  match v with
  | some v => v.val
  | none => 0

/-- Two cell runs share a cell (R65). -/
def runsMeet (start₁ count₁ start₂ count₂ : Nat) : Bool := rangesMeet start₁ count₁ start₂ count₂

/-- Stream j's entry satisfies p and its run meets a run, and j is not i. -/
def meetsRun (m : MapEntries) (p : MapEntry → Bool) (i : StreamId) (start count : Nat)
    (j : StreamId) : Bool :=
  decide (j ≠ i) && (entryOf m j).any (fun e => p e && runsMeet start count e.start e.count)

/-- Another entry that satisfies p shares a cell with a record's run (R65, R71). -/
def overlaps (m : MapEntries) (p : MapEntry → Bool) (r : StreamRecord) : Bool :=
  allStreams.any (meetsRun m p r.id r.start r.count)

/-- An entry equals a record's descriptor (R65). -/
def sameDescriptor (e : MapEntry) (r : StreamRecord) : Bool :=
  e.start == r.start && e.count == r.count && e.depth == r.depth

/-- The entry a record fills, collected (R65). -/
def StreamRecord.entry (r : StreamRecord) : MapEntry :=
  { start := r.start, count := r.count, depth := r.depth, collected := true }

/-- Every collected flag cleared (R63). -/
def clearCollected (m : MapEntries) : MapEntries :=
  mapPlaces m (fun e => e.map (fun e => { e with collected := false }))

/-- Every uncollected entry absent (R63). -/
def keepCollected (m : MapEntries) : MapEntries :=
  mapPlaces m (fun e => e.filter (·.collected))

/-- The streams whose entries are present and not collected. -/
def uncollected (m : MapEntries) : List StreamId :=
  allStreams.filter (fun i => (entryOf m i).any (fun e => !e.collected))

/-! ## The check of the current map (R63) -/

/-- A LAYOUT report of an event of the current map, lead 0 (R77). -/
def State.handCurrent (s : State) (event : LayoutEvent) (f : FrameNo) : State :=
  s.hand (.layout event (versionNat s.layout.cur.version) f 0)

/-- The current map matches (R63). -/
def State.currentMatch (s : State) (f : FrameNo) : State :=
  let removed := uncollected s.layout.cur.entries
  let s := s.setCurrent { s.layout.cur with
    state := .verified, entries := keepCollected s.layout.cur.entries }
  (s.handCurrent .verified f).verificationNotice removed

/-- The current map mismatches (R63). -/
def State.currentMismatch (s : State) (f : FrameNo) : State :=
  let marked := s.layout.cur.mismatch
  let s := s.setCurrent { s.layout.cur with
    state := .suspect, mismatch := true, entries := clearCollected s.layout.cur.entries }
  let s := s.latch .layoutMismatch
  if marked then s else s.handCurrent .mismatch f

/-- The current map checked when its collected entries number its expected count (R63). -/
def State.checkCurrent (s : State) (f : FrameNo) : State :=
  let m := s.layout.cur
  if collectedCount m.entries = m.expCount then
    if mapChecksum (versionNat m.version) m.entries (·.collected) = m.expSum then s.currentMatch f
    else s.currentMismatch f
  else s

/-! ## SUMMARY records (R62, R64, R69, R70) -/

/-- A COLLECTING current map with expectations and no entry. -/
def CurrentMap.fresh (v : Fin 16) (n : Nat) (k : BitVec 16) : CurrentMap :=
  { state := .collecting, version := some v, expCount := n, expSum := k, mismatch := false,
    entries := MapEntries.absent }

/-- A version change (R64). -/
def State.versionChange (s : State) (r : SummaryRecord) (f : FrameNo) : State :=
  let s := s.setCurrent (CurrentMap.fresh r.version r.count r.checksum)
  let s := (s.handCurrent .versionChanged f).versionNotice
  if r.count = 0 then s.checkCurrent f else s

/-- The current part of a SUMMARY taken (R62). -/
def State.takeCurrentPart (s : State) (r : SummaryRecord) (f : FrameNo) : State :=
  let m := s.layout.cur
  if m.state = .empty then
    let s := s.setCurrent (CurrentMap.fresh r.version r.count r.checksum)
    if r.count = 0 then s.checkCurrent f else s
  else if m.version = some r.version then
    if m.expCount = r.count ∧ m.expSum = r.checksum then s else s.countConflict
  else s.versionChange r f

/-- The lead of the pending map at frame f (R69). -/
def leadOf (switchFrame f : FrameNo) : Nat := (switchFrame - f).toNat

/-- A LAYOUT report of an event of the pending map (R77). -/
def State.handPending (s : State) (event : LayoutEvent) (f : FrameNo) : State :=
  s.hand (.layout event (versionNat s.layout.pend.version) s.layout.pend.switchFrame
    (leadOf s.layout.pend.switchFrame f))

/-- The pending map checked when its present entries number its expected count (R72). -/
def State.checkPending (s : State) (f : FrameNo) : State :=
  let m := s.layout.pend
  if collectedCount m.entries = m.expCount then
    if mapChecksum (versionNat m.version) m.entries (fun _ => true) = m.expSum then
      (s.setPending { m with state := .ready }).handPending .verified f
    else
      let s := s.setPending { m with
        state := .collecting, mismatch := true, entries := MapEntries.absent }
      let s := s.latch .layoutMismatch
      if m.mismatch then s else s.handPending .mismatch f
  else s

/-- The same announcement as the pending map's (R69). -/
def PendingMap.announces (m : PendingMap) (n : NextPart) : Bool :=
  m.state != .none && m.version == some n.version && m.switchFrame == n.switchFrame &&
    m.expCount == n.count && m.expSum == n.checksum

/-- A COLLECTING pending map with an announcement and no entry (R69). -/
def PendingMap.fresh (n : NextPart) : PendingMap :=
  { state := .collecting, version := some n.version, switchFrame := n.switchFrame,
    expCount := n.count, expSum := n.checksum, mismatch := false, entries := MapEntries.absent }

/-- An announcement taken (R69). -/
def State.announce (s : State) (n : NextPart) (f : FrameNo) : State :=
  let lead := leadOf n.switchFrame f
  if lead < 1 ∨ 1024 < lead then s.countConflict
  else if s.layout.pend.announces n then s
  else
    let s := (s.setPending (PendingMap.fresh n)).handPending .announced f
    if n.count = 0 then s.checkPending f else s

/-- A withdrawal taken (R70). -/
def State.withdraw (s : State) (f : FrameNo) : State :=
  if s.layout.pend.state = .none then s
  else (s.handPending .withdrawn f).setPending PendingMap.none

/-- The next part of a SUMMARY taken (R69, R70). -/
def State.takeNextPart (s : State) (r : SummaryRecord) (f : FrameNo) : State :=
  match r.next with
  | some n => s.announce n f
  | none => s.withdraw f

/-! ## STREAM records (R65 to R68, R71) -/

/-- One uncollected entry that the record overlaps removed, with its notice (R67). -/
def State.dropUncollected (r : StreamRecord) (s : State) (j : StreamId) : State :=
  if meetsRun s.layout.cur.entries (fun e => !e.collected) r.id r.start r.count j then
    (s.setEntries (setEntry s.layout.cur.entries j none)).removalNotice j
  else s

/-- In SUSPECT the uncollected entries that the record overlaps are removed (R67). -/
def State.clearWay (s : State) (r : StreamRecord) : State :=
  if s.layout.cur.state = .suspect then allStreams.foldl (State.dropUncollected r) s else s

/-- The flag of an entry was clear or the entry absent. -/
def newlyCollected : Option MapEntry → Bool
  | some e => !e.collected
  | none => true

/-- An accepted STREAM record fills its entry (R65, R66). -/
def State.fillEntry (s : State) (r : StreamRecord) : State :=
  let old := s.curEntry r.id
  let s := s.setEntries (setEntry s.layout.cur.entries r.id (some r.entry))
  match old with
  | some e => if sameDescriptor e r then s else s.replacementNotice r.id
  | none => s

/-- A STREAM record collected in COLLECTING or SUSPECT (R65); a map of expected count 0 stays without
entries (R63, log 35). -/
def State.collect (s : State) (r : StreamRecord) (f : FrameNo) : State :=
  if s.layout.cur.expCount = 0 then s
  else if overlaps s.layout.cur.entries (·.collected) r then s.countConflict
  else
    let new := newlyCollected (s.curEntry r.id)
    let s := (s.clearWay r).fillEntry r
    if new then s.checkCurrent f else s

/-- A STREAM record for a VERIFIED map (R68). -/
def State.confirm (s : State) (r : StreamRecord) : State :=
  match s.curEntry r.id with
  | some e => if sameDescriptor e r then s else s.countConflict
  | none => s.countConflict

/-- A STREAM record offered to the current map (R65, R68). -/
def State.offerCurrent (s : State) (r : StreamRecord) (f : FrameNo) : State :=
  if s.layout.cur.version = some r.version then
    match s.layout.cur.state with
    | .empty => s
    | .collecting => s.collect r f
    | .suspect => s.collect r f
    | .verified => s.confirm r
  else s

/-- A STREAM record collected into a COLLECTING pending map (R71); a map of expected count 0 stays
without entries (R72, log 35). -/
def State.collectPending (s : State) (r : StreamRecord) (f : FrameNo) : State :=
  let m := s.layout.pend
  if m.expCount = 0 then s
  else if overlaps m.entries (fun _ => true) r then s.countConflict
  else
    let s := s.setPending { m with entries := setEntry m.entries r.id (some r.entry) }
    match entryOf m.entries r.id with
    | some _ => s
    | none => s.checkPending f

/-- A STREAM record for a READY pending map (R71). -/
def State.confirmPending (s : State) (r : StreamRecord) : State :=
  match entryOf s.layout.pend.entries r.id with
  | some e => if sameDescriptor e r then s else s.countConflict
  | none => s.countConflict

/-- A STREAM record offered to the pending map (R71). -/
def State.offerPending (s : State) (r : StreamRecord) (f : FrameNo) : State :=
  if s.layout.pend.version = some r.version then
    match s.layout.pend.state with
    | .none => s
    | .collecting => s.collectPending r f
    | .ready => s.confirmPending r
  else s

/-! ## Record assembly (R58 to R60) -/

/-- A completed record taken by its class, f the open frame's number (R59). -/
def State.takeRecord (s : State) (c : RecordClass) (f : FrameNo) : State :=
  match c with
  | .empty => s
  | .badCheck => s.updLayout fun l => { l with badCheck := l.badCheck + 1 }
  | .unknownKind => s
  | .outOfRangeStream => s.countOutOfRange
  | .outOfRangeSummary => s.countOutOfRange
  | .stream r => if r.next then s.offerPending r f else s.offerCurrent r f
  | .summary r => (s.takeCurrentPart r f).takeNextPart r f

/-- Word i copied into a buffer and marked written (R11, R58). -/
def AsmBuffer.write (b : AsmBuffer) (i : Fin 8) (data : Word) : AsmBuffer :=
  { words := b.words.set i data, mask := b.mask ||| ((1 : BitVec 8) <<< i.val) }

/-- The 32 bytes of a buffer (R58). -/
def AsmBuffer.bytes (b : AsmBuffer) : List Byte := b.words.toList.flatMap wordBytes

/-- A buffer stored at a position. -/
def State.setBuffer (s : State) (p : Fin 8) (b : AsmBuffer) : State :=
  s.updLayout fun l => { l with buffers := l.buffers.set p b }

/-- A word offered to the buffer of position p while frame f is open (R58, R59). -/
def State.offerWord (s : State) (p i : Fin 8) (data : Word) (f : FrameNo) : State :=
  let b := s.layout.buffers[p].write i data
  if b.mask = 0xFF then (s.setBuffer p AsmBuffer.clear).takeRecord (classify b.bytes) f
  else s.setBuffer p b

/-- The layout tables' part of a close notice (R60). -/
def State.layoutClose (s : State) : State :=
  s.updLayout fun l => { l with buffers := clearBuffers }

/-! ## The switch (R73) and FORGET_LAYOUT (R76) -/

/-- The switch takes place at the open of f (R73). -/
def PendingMap.switchesAt (m : PendingMap) (f : FrameNo) : Bool :=
  m.state != .none && (leadOf m.switchFrame f == 0 || 1024 < leadOf m.switchFrame f)

/-- The current map a pending map becomes (R73). -/
def PendingMap.becomeCurrent (m : PendingMap) : CurrentMap :=
  { state := if m.state = .ready then .verified else .collecting, version := m.version,
    expCount := m.expCount, expSum := m.expSum, mismatch := m.mismatch, entries := m.entries }

/-- The switch at the open of f (R73). -/
def State.switchMaps (s : State) (f : FrameNo) : State :=
  let p := s.layout.pend
  let s := (s.setCurrent p.becomeCurrent).setPending PendingMap.none
  let event : LayoutEvent := if p.state = .ready then .switchedVerified else .switchedUnverified
  let s := (s.hand (.layout event (versionNat p.version) p.switchFrame 0)).switchNotice f
  if s.layout.cur.state = .collecting ∧ s.layout.cur.expCount = 0 then s.checkCurrent f else s

/-- The layout tables' part of an open notice (R73). -/
def State.layoutOpen (s : State) (f : FrameNo) : State :=
  if s.layout.pend.switchesAt f then s.switchMaps f else s

/-- FORGET_LAYOUT's clearing of both maps, then the forget notice (R76). -/
def State.forgetMaps (s : State) : State :=
  ((s.setCurrent CurrentMap.empty).setPending PendingMap.none).forgetNotice

end Sys2Proof.Machine
end

