-- ==== Sys2Proof/Machine/StatusBlock.lean ====
section
/-! DEFINITION. The status block's requests and writes (R171). -/

namespace Sys2Proof.Machine

/-- The four bursts of a status block write (R32, R171). -/
def statusBursts (page : Word) (bytes : List Byte) : List OwnBurst :=
  (List.range 4).map fun b =>
    ownWrite .status (page + BitVec.ofNat 32 (0x40 + 64 * b))
      (toWords ((bytes.drop (64 * b)).take 64))

/-- The write started when the request mark and the enable mark are set, none is in flight and the
device is not HALTED: the sequence number rises and every field is fixed (R171). -/
def State.testStatus (s : State) : State :=
  let d := s.directive
  if s.device ≠ .halted ∧ d.statusRequest ∧ d.statusEnable ∧ d.status = none then
    let sequence := d.sequence + 1
    let bursts := statusBursts (pageBase s.strap) (statusBytes s sequence)
    s.updDirective fun d =>
      { d with statusRequest := false, sequence := sequence, status := some bursts }
  else s

/-- A status block write requested; ignored in HALTED and while the enable mark is clear (R171). -/
def State.requestStatus (s : State) : State :=
  if s.device = .halted ∨ s.directive.statusEnable = false then s
  else (s.updDirective fun d => { d with statusRequest := true }).testStatus

/-- The device state changed; a change requests a status block write (R171, R175). -/
def State.changeDevice (s : State) (d : DeviceState) : State :=
  if s.device = d then s else (s.setDevice d).requestStatus

/-- STATUS_BLOCK_WRITE_START (R171). -/
def execStatusBlockWriteStart (s : State) : Host.Outcome State Fault Refusal :=
  s.whileUp (.next s.testStatus)

/-- Once every burst of the write is issued and answered the block counts as written, and the mark
is tested again (R33, R171). -/
def State.statusAnswered (s : State) : State :=
  if s.directive.status = some [] ∧ s.ownInFlight .status .live = 0 then
    (s.updDirective fun d => { d with status := none }).testStatus
  else s

/-- STATUS_BLOCK_WRITE_COMPLETE (R171): the oldest unanswered burst of the kind is answered OK
(R16). A discarded write's result is dropped (R33). -/
def execStatusBlockWriteComplete (s : State) : Host.Outcome State Fault Refusal :=
  s.whileUp <|
    match s.oldestOwn .status with
    | none => .fault .nothingToAnswer
    | some .live => .next (s.answerOwn .status).statusAnswered
    | some _ => .next (s.answerOwn .status)

end Sys2Proof.Machine
end

