-- ==== Sys2Proof/Machine/FrameReception.lean ====
section
/-! DEFINITION. Frame reception (03): frame opens and closes, missed and synthesized frames, the
frame gap timer, resync, and reception's part of START and STOP. -/

namespace Sys2Proof.Machine

/-! ## Notices (R38, R40) -/

/-- The open notice of frame f: layout tables, reporter, tap table, in that order (R38). -/
def State.openNotice (s : State) (f : FrameNo) (first : Bool) : State :=
  ((s.layoutOpen f).reporterOpen).tapsOpen f first

/-- The close notice of frame f: layout tables, reporter, tap table, and then the directive unit's
request, which takes effect once every block has taken the notice (R40, R145, R171). -/
def State.closeNotice (s : State) (f : FrameNo) (q : BitVec 2) : State :=
  (((s.layoutClose).reporterClose).tapsClose f q).requestStatus

/-- The open frame, if any, closed (R40). -/
def State.closeFrame (s : State) : State :=
  match s.reception.openFrame with
  | some r =>
    (s.updReception fun x => { x with openFrame := none }).closeNotice r.num r.quality
  | none => s

/-- A RECEPTION report handed (R56). -/
def State.handReception (s : State) (e : ReceptionEvent) (lostFrames : Nat) : State :=
  s.hand (.reception e lostFrames)

/-! ## Opens (R35 to R38, R52) -/

/-- Pending timing values adopted (R52). -/
def Reception.adoptTiming (r : Reception) : Reception :=
  match r.pendingTiming with
  | some (gap, coast) => { r with gapLimit := gap, coastLimit := coast, pendingTiming := none }
  | none => r

/-- The record after an accepted open of f (R38 steps 2 to 6). -/
def Reception.accept (r : Reception) (f : FrameNo) (q : BitVec 2) : Reception :=
  { r with
    openFrame := some { num := f, quality := q, cursor := 0 }
    current := f
    expected := some (f + 1)
    coast := 0
    sealLate := false
    gapTimer := some r.gapLimit
    received := r.received + 1
    lost := if q = 0 then r.lost + 1 else r.lost }

/-- An accepted frame open; resumed carries the count of a "resumed" report to hand before the open
notice (R38, R49). -/
def State.acceptOpen (s : State) (f : FrameNo) (q : BitVec 2) (first : Bool)
    (resumed : Option Nat) : State :=
  let s := (s.closeFrame.updReception fun r => r.accept f q).changeDevice .running
  let s := match resumed with
    | some n => s.handReception .resumed n
    | none => s
  s.openNotice f first

/-- The record at a lost frame n: it is the last frame opened (R37, R46). -/
def Reception.passFrame (r : Reception) (n : FrameNo) : Reception :=
  { r with current := n, expected := some (n + 1), sealLate := false, lost := r.lost + 1 }

/-- A lost frame opened and closed at once (R43). -/
def State.lostFrame (s : State) (n : FrameNo) : State :=
  (s.openNotice n false).closeNotice n 0

/-- A missed frame (R37). -/
def State.missFrame (s : State) (n : FrameNo) : State :=
  (s.updReception fun r => r.passFrame n).lostFrame n

/-- d missed frames from e on, in ascending order (R37). -/
def State.missFrames : Nat → State → FrameNo → State
  | 0, s, _ => s
  | d + 1, s, e => State.missFrames d (s.missFrame e) (e + 1)

/-- A jump over d frames to f (R37, R49). -/
def State.jump (s : State) (e : FrameNo) (d : Nat) (f : FrameNo) (q : BitVec 2) : State :=
  let coast := s.reception.coast
  let was := s.device
  let s := s.closeFrame.missFrames d e
  let s := if was = .coasting then s.handReception .resumed (coast + d) else s
  s.acceptOpen f q false none

/-- A resync (R50). -/
def State.resync (s : State) : State :=
  let s := s.closeFrame
  let s := (s.handReception .resync s.reception.coast).resyncNotice
  let s := s.updReception fun r => { r with expected := none, coast := 0, gapTimer := none }
  s.changeDevice .acquiring

/-- What an open of f is, by the first row of R35 that applies. -/
inductive OpenKind where
  | rewrite
  | first
  | expected
  | jump (e : FrameNo) (d : Nat)
  | discontinuity
  deriving DecidableEq, Repr

/-- R35's table, after adoption. -/
def State.judgeOpen (s : State) (f : FrameNo) : OpenKind :=
  let r := s.reception
  if r.openFrame.any (fun o => o.num == f) then .rewrite
  else if s.device = .acquiring then .first
  else match r.expected with
    | none => .discontinuity
    | some e =>
      let d := (f - e).toNat
      if d = 0 then .expected
      else if d ≤ r.coastLimit - r.coast then .jump e d
      else .discontinuity

/-- A frame open taken (R35). -/
def State.frameOpen (s : State) (f : FrameNo) (q : BitVec 2) : State :=
  let s := s.updReception Reception.adoptTiming
  match s.judgeOpen f with
  | .rewrite => s
  | .first => s.acceptOpen f q true none
  | .expected =>
    s.acceptOpen f q false (if s.device = .coasting then some s.reception.coast else none)
  | .jump e d => s.jump e d f q
  | .discontinuity => s.resync.acceptOpen f q true none

/-! ## Seal and timer (R39, R45 to R47) -/

/-- A seal taken (R39). -/
def State.seal (s : State) : State :=
  match s.reception.openFrame with
  | some _ => s.closeFrame.updReception fun r => { r with sealLate := true }
  | none => s

/-- Lost frame e synthesized (R46). DEDUCED (log 40): the seal-late mark ends clear in both orders of
R48, as R46 step 4 has it. -/
def State.synthesize (s : State) (e : FrameNo) : State :=
  let was := s.device
  let s := s.closeFrame.updReception fun r =>
    { r.passFrame e with
      coast := r.coast + 1, synthesized := r.synthesized + 1, gapTimer := some Config.expiryInterval }
  let s := s.lostFrame e
  if was = .running then (s.changeDevice .coasting).handReception .coastEntered 1 else s

/-- An expiry of the frame gap timer; it does not occur while the timer is stopped (R45 to R48). -/
def State.timerExpiry (s : State) : State :=
  if s.reception.gapTimer = none then s
  else if s.device = .running ∨ s.device = .coasting then
    let s := s.updReception Reception.adoptTiming
    if s.reception.coast < s.reception.coastLimit then
      match s.reception.expected with
      | some e => s.synthesize e
      | none => s
    else s.resync
  else s

/-- FRAME_GAP_TIMER_EXPIRY (R46, R47). -/
def execFrameGapTimerExpiry (s : State) : Host.Outcome State Fault Refusal :=
  s.whileUp (.next s.timerExpiry)

/-! ## START and STOP (R53, R177, R178) -/

/-- START taken in STOPPED (R53, R177). -/
def State.startDevice (s : State) : State :=
  (s.updReception fun r =>
    { r with openFrame := none, expected := none, coast := 0, sealLate := false,
             gapTimer := none }).changeDevice .acquiring

/-- STOP taken in ACQUIRING, RUNNING or COASTING (R53, R102, R178). -/
def State.stopDevice (s : State) : State :=
  (s.closeFrame.stopNotice.updReception fun r =>
    { r with expected := none, coast := 0, sealLate := false, gapTimer := none }).changeDevice
      .stopped

/-! ## Counters of cell writes (R41) -/

/-- A beat counted late or stray by the seal-late mark (R41). -/
def Reception.countOutside (r : Reception) : Reception :=
  if r.sealLate then { r with late := r.late + 1 } else { r with stray := r.stray + 1 }

/-- A stray beat counted (R41). -/
def Reception.countStray (r : Reception) : Reception := { r with stray := r.stray + 1 }

/-- The landing cursor advanced by one (R42). -/
def Reception.advanceCursor (r : Reception) : Reception :=
  { r with openFrame := r.openFrame.map fun o => { o with cursor := o.cursor + 1 } }

end Sys2Proof.Machine
end

