-- ==== Sys2Proof/Machine/Directives.lean ====
section
/-! DEFINITION. The directive unit (09): batches, the tests and effects of the thirteen directives,
the entry to HALTED (10 R179) and the two resets (10 R181, R182). -/

namespace Sys2Proof.Machine

/-! ## Batches (R156, R157) -/

/-- The fetch of the record at the consumer index: one read of 16 beats (R157). -/
def fetchBurst (page : Word) (consumer : Fin 32) : OwnBurst :=
  ownRead .fetch (page + BitVec.ofNat 32 (0x800 + 64 * consumer.val)) 16

/-- A batch in progress with its next fetch started; behind a fetch discarded at the entry to
HALTED the fetch waits for that one's answer (R32, log 26). -/
def State.startFetch (s : State) : State :=
  let started := s.ownInFlight .fetch .haltDiscarded = 0
  s.updDirective fun d =>
    { d with
      batch := .inProgress
      fetch := if started then some [fetchBurst (pageBase s.strap) d.consumer] else none }

/-- The fetch that waited for a discarded one is started (R32, R159, log 26). -/
def State.resumeFetch (s : State) : State :=
  if s.directive.batch = .inProgress ∧ s.directive.fetch = none then s.startFetch else s

/-- A directive index value taken, in every device state (R156). -/
def State.takeDirectiveIndex (s : State) (v : Word) : State :=
  let s := s.updDirective fun d => { d with recorded := Fin.ofNat 32 v.toNat }
  if s.directive.batch = .idle ∧ s.directive.recorded ≠ s.directive.consumer then s.startFetch
  else s

/-- The batch ends; outside HALTED it requests a status block write with the enable mark set
(R157, R159, R171). -/
def State.endBatch (s : State) : State :=
  let s := s.updDirective fun d => { d with batch := .idle }
  if s.device = .halted then s
  else (s.updDirective fun d => { d with statusEnable := true }).requestStatus

/-- The consumer index advances, and the next fetch starts or the batch ends (R157). -/
def State.nextRecord (s : State) : State :=
  let s := s.updDirective fun d => { d with consumer := d.consumer + 1 }
  if s.directive.consumer = s.directive.recorded then s.endBatch else s.startFetch

/-! ## Rejection (R161) -/

/-- A record rejected: a DIRECTIVE report of the ring position, kind byte and reason, and
DIRECTIVE_REJECTED latched (R161). -/
def State.reject (s : State) (kind : Byte) (reason : RejectReason) (addrs : List Word) : State :=
  (s.hand (.directive s.directive.consumer.val kind reason addrs)).latch .directiveRejected

/-- The first of tests 3, 4 and 5 that fails (R161). -/
def firstFailure (wrongState badParameter tapBusy : Bool) : Option RejectReason :=
  if wrongState then some .wrongState
  else if badParameter then some .badParameter
  else if tapBusy then some .tapBusy
  else none

/-- A directive run: rejected for its first failure, or executed (R161). -/
def State.runUnless (s : State) (kind : Byte) (failure : Option RejectReason) (executed : State) :
    State :=
  match failure with
  | some r => s.reject kind r []
  | none => executed

/-- The device is HALTED. -/
def State.isHalted (s : State) : Bool := s.device == .halted

/-! ## CONFIGURE (R163) -/

/-- The landing mode a byte names (R173). -/
def landingModeOf (b : Byte) : Option LandingMode :=
  if b = 1 then some .linear else if b = 2 then some .streamed else none

/-- Base and size in bytes of the landing window, the report ring and the free ring. -/
def configureRanges (p : ConfigureParams) : List (Nat × Nat) :=
  [(p.landingBase.toNat, 32768), (p.reportBase.toNat, 64 * p.reportSize.toNat),
    (p.freeBase.toNat, 4 * p.freeSize.toNat)]

/-- No two ranges of a list share a byte. -/
def rangesApart : List (Nat × Nat) → Bool
  | [] => true
  | (b, n) :: rest => rest.all (fun r => !rangesMeet b n r.1 r.2) && rangesApart rest

/-- Every parameter of a CONFIGURE lies in its range (R163). -/
def State.configureGood (s : State) (p : ConfigureParams) : Bool :=
  p.landingBase.toNat % 32768 == 0 && (landingModeOf p.landingMode).isSome &&
  p.reportBase.toNat % 64 == 0 && [16, 32, 64, 128, 256].contains p.reportSize.toNat &&
  p.freeBase.toNat % 4 == 0 && [32, 64, 128, 256, 512, 1024].contains p.freeSize.toNat &&
  (configureRanges p).all (fun r => r.1 + r.2 ≤ 2 ^ 32) &&
  rangesApart (((pageBase s.strap).toNat, 4096) :: (configureRanges p)) &&
  (configureRanges p).all (fun r => s.heldAddrs.all fun a => !rangesMeet r.1 r.2 a.toNat 4096)

/-- CONFIGURE's first failing test (R161, R162, R163). -/
def State.configureFailure (s : State) (p : ConfigureParams) : Option RejectReason :=
  firstFailure
    (s.device != .stopped || s.supply.refill.isSome || s.reporter.write.isSome)
    (!s.configureGood p) false

/-- The regions of a CONFIGURE. -/
def configureRegions (p : ConfigureParams) : Regions :=
  { landingBase := p.landingBase, reportBase := p.reportBase, reportSize := p.reportSize.toNat,
    freeBase := p.freeBase, freeSize := p.freeSize.toNat }

/-- The regions, landing mode and ring indices set (R106, R139, R163). -/
def State.setRegions (s : State) (p : ConfigureParams) : State :=
  { s with
    regions := some (configureRegions p)
    reception := { s.reception with mode := (landingModeOf p.landingMode).getD .unconfigured }
    reporter := { s.reporter with producer := 0, recorded := 0 }
    supply := { s.supply with consumer := 0, recorded := 0 } }

/-- An executed CONFIGURE (R163). -/
def State.configure (s : State) (p : ConfigureParams) : State :=
  (s.setRegions p).testReports.judgeReport

/-- CONFIGURE run (R161, R163). -/
def State.runConfigure (s : State) (p : ConfigureParams) : State :=
  s.runUnless 0x10 (s.configureFailure p) (s.configure p)

/-! ## SET_TIMING, START, STOP (R164, R165) -/

/-- SET_TIMING's parameters in range (R164). -/
def timingGood (gap coast summary : Byte) : Bool :=
  36 ≤ gap.toNat && gap.toNat ≤ 60 && 1 ≤ coast.toNat && coast.toNat ≤ 64 && summary.toNat ≤ 63

/-- An executed SET_TIMING: pending values for frame reception and the reporter (R164). -/
def State.setTiming (s : State) (gap coast summary : Byte) : State :=
  { s with
    reception := { s.reception with pendingTiming := some (gap.toNat, coast.toNat) }
    reporter := { s.reporter with pendingInterval := some summary.toNat } }

/-- SET_TIMING run. -/
def State.runSetTiming (s : State) (gap coast summary : Byte) : State :=
  s.runUnless 0x11 (firstFailure s.isHalted (!timingGood gap coast summary) false)
    (s.setTiming gap coast summary)

/-- START run (R162, R177). -/
def State.runStart (s : State) : State :=
  s.runUnless 0x12 (firstFailure (s.device != .stopped || s.regions.isNone) false false)
    s.startDevice

/-- STOP run; in STOPPED it is accepted and changes nothing (R165, R178). -/
def State.runStop (s : State) : State :=
  s.runUnless 0x13 (firstFailure s.isHalted false false)
    (if s.device = .stopped then s else s.stopDevice)

/-! ## The tap directives (R82 to R84, R166) -/

/-- The tap a byte names (R82). -/
def tapOf (b : Byte) : Option TapNo := if h : b.toNat < 8 then some ⟨b.toNat, h⟩ else none

/-- The policy a code names (R166). -/
def policyOf (b : Byte) : Option Policy :=
  if b = 0 then some .pass else if b = 1 then some .repeating else if b = 2 then some .silent
  else none

/-- The four parameters in their ranges (R82). -/
def paramsOf (policy tolerance repeatLimit floor : Byte) : Option TapParams :=
  match policyOf policy with
  | some p =>
    if tolerance.toNat ≤ 9 ∧ 1 ≤ repeatLimit.toNat ∧ repeatLimit.toNat ≤ 15 ∧ floor.toNat ≤ 3 then
      some { policy := p, tolerance := tolerance.toNat, repeatLimit := repeatLimit.toNat,
             floor := floor.toNat }
    else none
  | none => none

/-- A tap that is not CLOSED, or has a pending open, names stream i (R82). -/
def Tap.namesStream (tp : Tap) (i : StreamId) : Bool :=
  (tp.state != .closed && tp.stream == some i) || tp.pendingOpen.any (fun o => o.1 == i)

/-- Another tap names stream i (R82). -/
def State.streamTaken (s : State) (t : TapNo) (i : StreamId) : Bool :=
  allTaps.any fun u => u != t && (s.tap u).namesStream i

/-- A TAP_OPEN that passes test 4: its tap, stream and parameters (R82). -/
def State.readOpen (s : State) (tap stream policy tolerance repeatLimit floor : Byte) :
    Option (TapNo × StreamId × TapParams) :=
  match tapOf tap, streamOf stream, paramsOf policy tolerance repeatLimit floor with
  | some t, some i, some p => if s.streamTaken t i then none else some (t, i, p)
  | _, _, _ => none

/-- The tap is busy for a TAP_OPEN (R82). -/
def Tap.busyForOpen (tp : Tap) : Bool := tp.state != .closed || tp.pendingOpen.isSome

/-- A pending open recorded (R82). -/
def State.openTap (s : State) (t : TapNo) (i : StreamId) (p : TapParams) : State :=
  s.updTap t fun tp => { tp with pendingOpen := some (i, p) }

/-- TAP_OPEN run (R82, R161). -/
def State.runTapOpen (s : State) (tap stream policy tolerance repeatLimit floor : Byte) : State :=
  match s.readOpen tap stream policy tolerance repeatLimit floor with
  | some (t, i, p) =>
    s.runUnless 0x20 (firstFailure s.isHalted false (s.tap t).busyForOpen) (s.openTap t i p)
  | none => s.reject 0x20 (if s.isHalted then .wrongState else .badParameter) []

/-- A TAP_ADJUST that passes test 4: its tap and parameters (R83). -/
def readAdjust (tap policy tolerance repeatLimit floor : Byte) : Option (TapNo × TapParams) :=
  match tapOf tap, paramsOf policy tolerance repeatLimit floor with
  | some t, some p => some (t, p)
  | _, _ => none

/-- The tap is busy for a TAP_ADJUST: CLOSED with no pending open (R83). -/
def Tap.busyForAdjust (tp : Tap) : Bool := tp.state == .closed && tp.pendingOpen.isNone

/-- The parameters go into the pending open, or become the pending adjust (R83). -/
def Tap.adjust (tp : Tap) (p : TapParams) : Tap :=
  match tp.pendingOpen with
  | some o => { tp with pendingOpen := some (o.1, p) }
  | none => { tp with pendingAdjust := some p }

/-- An executed TAP_ADJUST (R83). -/
def State.adjustTap (s : State) (t : TapNo) (p : TapParams) : State :=
  s.updTap t fun tp => tp.adjust p

/-- TAP_ADJUST run (R83, R161). -/
def State.runTapAdjust (s : State) (tap policy tolerance repeatLimit floor : Byte) : State :=
  match readAdjust tap policy tolerance repeatLimit floor with
  | some (t, p) =>
    s.runUnless 0x21 (firstFailure s.isHalted false (s.tap t).busyForAdjust) (s.adjustTap t p)
  | none => s.reject 0x21 (if s.isHalted then .wrongState else .badParameter) []

/-- Step 1 of R84: the open logical frames removed and their slots pushed. -/
def State.dropFrames (s : State) (t : TapNo) : State :=
  (s.updTap t fun tp => { tp with openFrames := [] }).pushFrames (s.tap t).openFrames

/-- Step 2 of R84: the settling completions discarded. -/
def State.dropSettling (s : State) (t : TapNo) : State :=
  (s.tap t).settling.foldl (fun s c => s.discard t c.kind c.run)
    (s.updTap t fun tp => { tp with settling := [] })

/-- Step 5 of R84: instance, pending adjust and stream removed, and the tap CLOSED. -/
def State.shutTap (s : State) (t : TapNo) : State :=
  (s.updTap t fun tp => { tp with inst := none, pendingAdjust := none, stream := none }).setTapState
    t .closed .closed

/-- An executed TAP_CLOSE (R84). -/
def State.closeTap (s : State) (t : TapNo) : State :=
  if (s.tap t).state = .closed then
    s.updTap t fun tp => { tp with pendingOpen := none, pendingAdjust := none }
  else ((((s.dropFrames t).dropSettling t).makeDue t).endRetention t).shutTap t

/-- TAP_CLOSE run (R84, R161). -/
def State.runTapClose (s : State) (tap : Byte) : State :=
  match tapOf tap with
  | some t => s.runUnless 0x22 (firstFailure s.isHalted false false) (s.closeTap t)
  | none => s.reject 0x22 (if s.isHalted then .wrongState else .badParameter) []

/-! ## RELEASE (R118, R161, R167) -/

/-- An executed RELEASE: its addresses in order, and one report of the rejected ones (R118,
R161). -/
def State.releaseList (s : State) (addrs : List Word) : State :=
  let (s', rejected) := s.releaseAll addrs
  if rejected = [] then s' else s'.reject 0x30 .unknownSlot rejected

/-- RELEASE run (R161, R167). -/
def State.runRelease (s : State) (count : Byte) (addrs : List Word) : State :=
  s.runUnless 0x30 (firstFailure s.isHalted (count.toNat < 1 || 12 < count.toNat) false)
    (s.releaseList (addrs.take count.toNat))

/-! ## FORCE_RESYNC, FORGET_LAYOUT, CLEAR_FAULTS, SET_ALERTS (R51, R76, R149, R169) -/

/-- FORCE_RESYNC run (R51, R162). -/
def State.runForceResync (s : State) : State :=
  s.runUnless 0x40 (firstFailure (!s.device.active) false false) s.resync

/-- FORGET_LAYOUT run (R76, R162). -/
def State.runForgetLayout (s : State) : State :=
  s.runUnless 0x41 (firstFailure s.isHalted false false) s.forgetMaps

/-- CLEAR_FAULTS, executed in every device state (R149, R169). -/
def State.runClearFaults (s : State) (flags : Byte) : State :=
  s.updReporter fun r => ({ r with flags := clearedFlags s.device r.flags flags }).judgeFault

/-- An executed SET_ALERTS (R150, R151, R169). -/
def State.setAlerts (s : State) (enable pins : Byte) : State :=
  (s.updReporter fun r => ({ r with
    alertEnable := enable == 1, pinEnables := pins &&& ~~~Flag.busError.mask }).judgeFault).judgeReport

/-- SET_ALERTS run (R161, R169). -/
def State.runSetAlerts (s : State) (enable pins : Byte) : State :=
  s.runUnless 0x51 (firstFailure s.isHalted (1 < enable.toNat) false) (s.setAlerts enable pins)

/-! ## WARM_RESET (R170, R181) -/

/-- A piece names no slot entry after WARM_RESET (R27). -/
def Piece.forgetSlot (p : Piece) : Piece := { p with redirect := none }

/-- What an issued burst becomes at WARM_RESET (R33). -/
def Issued.resetDiscard : Issued → Issued
  | .piece p => .piece p.forgetSlot
  | .own b _ => .own b .resetDiscarded

/-- The links across WARM_RESET: transactions kept, own results discarded (R33, R181). -/
def Link.warmReset (l : Link) : Link :=
  { l with
    queue := l.queue.map Piece.forgetSlot, lastGrant := .own,
    inFlight := l.inFlight.map Issued.resetDiscard }

/-- The blocks at their WARM_RESET values, before the status block write is requested (R181). -/
def State.warmValues (s : State) : State :=
  { s with
    device := .stopped
    regions := none
    link := s.link.warmReset
    reception := Reception.reset
    layout := Layout.reset
    taps := Vector.replicate 8 Tap.reset
    supply := Supply.reset
    reporter := Reporter.reset 0
    directive := { DirectiveUnit.reset with statusEnable := true } }

/-- WARM_RESET, executed in every device state (R170, R181). -/
def State.runWarmReset (s : State) : State := s.warmValues.requestStatus

/-! ## A fetched record (R157, R159 to R161) -/

/-- A directive run against the present state (R161, R162). -/
def State.runDirective (s : State) : Directive → State
  | .configure p => s.runConfigure p
  | .setTiming gap coast summary => s.runSetTiming gap coast summary
  | .start => s.runStart
  | .stop => s.runStop
  | .tapOpen tap stream policy tolerance repeatLimit floor =>
    s.runTapOpen tap stream policy tolerance repeatLimit floor
  | .tapAdjust tap policy tolerance repeatLimit floor =>
    s.runTapAdjust tap policy tolerance repeatLimit floor
  | .tapClose tap => s.runTapClose tap
  | .release count addrs => s.runRelease count addrs
  | .forceResync => s.runForceResync
  | .forgetLayout => s.runForgetLayout
  | .clearFaults flags => s.runClearFaults flags
  | .setAlerts enable pins => s.runSetAlerts enable pins
  | .warmReset => s.runWarmReset

/-- A fetched record checked, and executed or rejected; all but a WARM_RESET go on to the next
record (R157, R160, R161, R170). -/
def State.takeDirectiveRecord (s : State) (bytes : List Byte) : State :=
  if directiveCheck bytes then
    match readDirective bytes with
    | some .warmReset => s.runWarmReset
    | some d => (s.runDirective d).nextRecord
    | none => (s.reject (byteAt bytes 0) .unknownKind []).nextRecord
  else (s.reject (byteAt bytes 0) .badCheck []).nextRecord

/-- The fetch in flight is answered: it leaves the directive unit. -/
def State.fetchAnswered (s : State) : State := s.updDirective fun d => { d with fetch := none }

/-- DIRECTIVE_FETCH_COMPLETE (R157). A discarded fetch's record is dropped (R33, R159). -/
def execDirectiveFetchComplete (bytes : List Byte) (s : State) :
    Host.Outcome State Fault Refusal :=
  s.whileUp <|
    if bytes.length ≠ 64 then .refused .badShape
    else match s.oldestOwn .fetch with
      | none => .fault .nothingToAnswer
      | some .live =>
        if s.directive.fetch = some [] then
          .next ((s.answerOwn .fetch).fetchAnswered.takeDirectiveRecord bytes)
        else .fault .nothingToAnswer
      | some .haltDiscarded => .next (s.answerOwn .fetch).resumeFetch
      | some .resetDiscarded => .next (s.answerOwn .fetch)

/-- DIRECTIVE_INDEX_TAKEN (R156). -/
def execDirectiveIndexTaken (value : Word) (s : State) : Host.Outcome State Fault Refusal :=
  s.whileUp (.next (s.takeDirectiveIndex value))

/-! ## The entry to HALTED (R33, R111, R159, R179) -/

/-- The result of a live burst that satisfies p is discarded (R33). -/
def Issued.haltDiscard (p : OwnBurst → Bool) : Issued → Issued
  | .own b .live => if p b then .own b .haltDiscarded else .own b .live
  | i => i

/-- A burst is a refill's. -/
def OwnBurst.ofRefill (b : OwnBurst) : Bool := b.tag == ownTag .refill

/-- A refill at the entry to HALTED: withdrawn when it erred or none of its bursts was issued, its
unissued burst withdrawn otherwise (R111). -/
def haltedRefill (erring : OwnKind) (refill : Option Refill) : Option Refill :=
  match refill with
  | some r =>
    if erring = .refill ∨ r.issuedEntries = 0 then none else some { r with waiting := [] }
  | none => none

/-- What the entry to HALTED sets at an ERROR response to an own access of a kind; of the own bursts
in flight only those of a refill that goes on stay live (R33, R111, R179). -/
def State.haltAt (s : State) (erring : OwnKind) : State :=
  let refill := haltedRefill erring s.supply.refill
  { s with
    device := .halted
    link := { s.link with
      inFlight := s.link.inFlight.map
        (Issued.haltDiscard fun b => !(refill.isSome && b.ofRefill)) }
    reception := { s.reception with gapTimer := none }
    supply := { s.supply with refill := refill }
    reporter := { s.reporter.latch .busError with write := none }
    directive := { s.directive with
      batch := .idle, fetch := none, statusRequest := false, status := none } }

/-- The entry to HALTED at an ERROR response to an own access of a kind; a refill whose issued bursts
are all answered by then, its second burst withdrawn, ends with it (R111, R179, log 11). -/
def State.enterHalted (s : State) (erring : OwnKind) : State := (s.haltAt erring).refillAnswered

/-- An ERROR response in HALTED to a burst whose access goes on: a fetch's batch ends, a refill's
addresses, and no other access, are discarded (R111, R159). -/
def State.haltedError (s : State) (kind : OwnKind) : State :=
  match kind with
  | .fetch => s.updDirective fun d => { d with batch := .idle, fetch := none }
  | .refill =>
    { s with
      supply := { s.supply with refill := none }
      link := { s.link with
        inFlight := s.link.inFlight.map (Issued.haltDiscard OwnBurst.ofRefill) } }
  | .report => s
  | .status => s

/-- An ERROR response to an own burst of a kind and fate, the burst answered already (R33, R179). -/
def State.ownError (s : State) (kind : OwnKind) (life : Life) : State :=
  match life with
  | .resetDiscarded => s
  | .haltDiscarded => if kind = .fetch then s.resumeFetch else s
  | .live => if s.device = .halted then s.haltedError kind else s.enterHalted kind

/-- OWN_ACCESS_ERROR: the oldest unanswered burst of the kind is answered ERROR (R16, R179). The words
that came with it are not looked at: no record is checked and no address taken (R111, R159). -/
def execOwnAccessError (kind : OwnKind) (_data : List Word) (s : State) :
    Host.Outcome State Fault Refusal :=
  s.whileUp <|
    match s.oldestOwn kind with
    | none => .fault .nothingToAnswer
    | some life => .next ((s.answerOwn kind).ownError kind life)

/-! ## nRESET (R154, R182) -/

/-- nRESET falls: every transaction in flight is lost, the part issues nothing, both lines are
released (R182). -/
def State.resetLow (s : State) : State :=
  { s with
    nResetLow := true
    link := { s.link with txns := [], ready := [], queue := [], inFlight := [], delivered := none }
    supply := { s.supply with refill := none }
    reporter := { s.reporter with write := none, nReportLow := false, nFaultLow := false }
    directive := { s.directive with batch := .idle, fetch := none, status := none } }

/-- NRESET_LOW (R182). -/
def execNresetLow (s : State) : Host.Outcome State Fault Refusal := .next s.resetLow

/-- NRESET_RISE: the band is kept and every block holds its cold reset values; without a fall
before it there is no rise (R154, R182). -/
def execNresetRise (band : StrapBand) (s : State) : Host.Outcome State Fault Refusal :=
  .next (if s.nResetLow then { State.coldReset band with pending := s.pending } else s)

/-! ## The meanings of the directive commands -/

/-- CONFIGURE (R163). -/
def execConfigure (params : ConfigureParams) (s : State) : Host.Outcome State Fault Refusal :=
  s.whileUp (.next (s.runConfigure params))

/-- SET_TIMING (R164). -/
def execSetTiming (gap coast summary : Byte) (s : State) : Host.Outcome State Fault Refusal :=
  s.whileUp (.next (s.runSetTiming gap coast summary))

/-- START (R177). -/
def execStart (s : State) : Host.Outcome State Fault Refusal := s.whileUp (.next s.runStart)

/-- STOP (R178). -/
def execStop (s : State) : Host.Outcome State Fault Refusal := s.whileUp (.next s.runStop)

/-- TAP_OPEN (R82). -/
def execTapOpen (tap stream policy tolerance repeatLimit floor : Byte) (s : State) :
    Host.Outcome State Fault Refusal :=
  s.whileUp (.next (s.runTapOpen tap stream policy tolerance repeatLimit floor))

/-- TAP_ADJUST (R83). -/
def execTapAdjust (tap policy tolerance repeatLimit floor : Byte) (s : State) :
    Host.Outcome State Fault Refusal :=
  s.whileUp (.next (s.runTapAdjust tap policy tolerance repeatLimit floor))

/-- TAP_CLOSE (R84). -/
def execTapClose (tap : Byte) (s : State) : Host.Outcome State Fault Refusal :=
  s.whileUp (.next (s.runTapClose tap))

/-- RELEASE (R118); the operand list holds the addresses the count names. -/
def execRelease (count : Byte) (addrs : List Word) (s : State) :
    Host.Outcome State Fault Refusal :=
  s.whileUp <|
    if count.toNat ≤ 12 ∧ addrs.length < count.toNat then .refused .badShape
    else .next (s.runRelease count addrs)

/-- FORCE_RESYNC (R51). -/
def execForceResync (s : State) : Host.Outcome State Fault Refusal :=
  s.whileUp (.next s.runForceResync)

/-- FORGET_LAYOUT (R76). -/
def execForgetLayout (s : State) : Host.Outcome State Fault Refusal :=
  s.whileUp (.next s.runForgetLayout)

/-- CLEAR_FAULTS (R169). -/
def execClearFaults (flags : Byte) (s : State) : Host.Outcome State Fault Refusal :=
  s.whileUp (.next (s.runClearFaults flags))

/-- SET_ALERTS (R169). -/
def execSetAlerts (enable pins : Byte) (s : State) : Host.Outcome State Fault Refusal :=
  s.whileUp (.next (s.runSetAlerts enable pins))

/-- WARM_RESET (R181). -/
def execWarmReset (s : State) : Host.Outcome State Fault Refusal :=
  s.whileUp (.next s.runWarmReset)

end Sys2Proof.Machine
end

