-- ==== Sys2Proof/Machine/MemoryPath.lean ====
section
/-! DEFINITION. The memory path (02): the region decoder, the resolution of cell words, pieces, the
outstanding-transaction table, read substitution, the snoop and the arbiter. -/

namespace Sys2Proof.Machine

/-! ## Regions and areas (R3, R17, R18) -/

/-- The regions and their areas, as the region decoder tells them apart (R3, R17). -/
inductive Area where
  | index (w : IndexWord)
  | page
  | header
  | layoutBlock
  | unused
  | cells
  | tail
  | reportRing
  | freeRing
  | slot (addr : Word)
  | dram
  deriving DecidableEq, Repr

/-- The area of an offset in the directive page (R17, R19). -/
def pageArea (off : Nat) : Area :=
  if off < 4 then .index .directive
  else if off < 8 then .index .report
  else if off < 12 then .index .free
  else .page

/-- The area of an offset in the landing window (R3). -/
def landingArea (off : Nat) : Area :=
  if off < 64 then .header
  else if off < 320 then .layoutBlock
  else if off < 1024 then .unused
  else if off < 31744 then .cells
  else .tail

/-- A slot, or ordinary DRAM (R17). -/
def State.slotArea (s : State) (a : Word) : Area :=
  match s.slotOver a with
  | some e => .slot e.addr
  | none => .dram

/-- The area of an address among the configured regions, the slots and DRAM (R17). -/
def State.workArea (s : State) (a : Word) : Area :=
  match s.regions with
  | some r =>
    if inRange a r.landingBase 32768 then landingArea (a - r.landingBase).toNat
    else if inRange a r.reportBase (64 * r.reportSize) then .reportRing
    else if inRange a r.freeBase (4 * r.freeSize) then .freeRing
    else s.slotArea a
  | none => s.slotArea a

/-- The area of an address; in STOPPED and HALTED only the directive page is told apart (R17,
R18). -/
def State.areaOf (s : State) (a : Word) : Area :=
  let page := pageBase s.strap
  if inRange a page 4096 then pageArea (a - page).toNat
  else if s.device.active then s.workArea a
  else .dram

/-- The landing window base; 0 while unconfigured. -/
def State.landingBase (s : State) : Word :=
  match s.regions with
  | some r => r.landingBase
  | none => 0

/-! ## Cell words (R23) -/

/-- How a beat is handled (R21). -/
inductive Handling where
  | forwarded
  | linearised
  | redirected
  | absorbed
  deriving DecidableEq, Repr

/-- What the region decoder decides of one beat: enough to cut pieces by R21. -/
structure BeatPlan where
  area : Area
  handling : Handling
  /-- The downstream address. -/
  addr : Word
  /-- The stream of a cell word. -/
  stream : Option StreamId
  /-- Lag class and logical frame of a cell word of a tapped stream. -/
  tapped : Option (Nat × FrameNo)
  /-- The slot entry and class of a redirected word. -/
  redirect : Option (Word × Nat)
  deriving DecidableEq, Repr

/-- A beat forwarded unaltered (R20). -/
def BeatPlan.forward (area : Area) (a : Word) : BeatPlan :=
  { area := area, handling := .forwarded, addr := a, stream := none, tapped := none,
    redirect := none }

/-- A cell area beat absorbed as no cell word (R23 steps 1 and 2). -/
def BeatPlan.absorb (a : Word) : BeatPlan :=
  { area := .cells, handling := .absorbed, addr := a, stream := none, tapped := none,
    redirect := none }

/-- The present stream of the current map whose cell run contains k (R23). -/
def State.streamAt (s : State) (k : Nat) : Option (StreamId × MapEntry) :=
  allStreams.findSome? fun i =>
    match s.curEntry i with
    | some e => if e.start ≤ k ∧ k < e.start + e.count then some (i, e) else none
    | none => none

/-- The bound tap of a stream with its instance (R23). -/
def State.boundTap (s : State) (i : StreamId) : Option (TapNo × TapInstance) :=
  allTaps.findSome? fun t =>
    if (s.tap t).bound ∧ (s.tap t).stream = some i then (s.tap t).inst.map (fun n => (t, n))
    else none

/-- The slot of logical frame g of a tap, when g is open with an entry (R23 steps 8 and 9). -/
def Tap.slotFor (tp : Tap) (g : FrameNo) : Option Word :=
  match tp.openFrames.find? (fun l => l.frame == g) with
  | some l => l.slot
  | none => none

/-- Where cell word (k, j) of open frame f goes: R23 from step 4 on, with the address an untapped
word has and its handling there. -/
def State.wordPlan (s : State) (f : FrameNo) (k j : Nat) (untapped : Handling) (a : Word) :
    BeatPlan :=
  match s.streamAt k with
  | none =>
    { area := .cells, handling := untapped, addr := a, stream := none, tapped := none,
      redirect := none }
  | some (i, e) =>
    match s.boundTap i with
    | none =>
      { area := .cells, handling := untapped, addr := a, stream := some i, tapped := none,
        redirect := none }
    | some (t, n) =>
      let w := wordIndex e.start k j
      let c := n.depth.classOf w
      let g := n.depth.logicalFrame f c
      let gone : BeatPlan :=
        { area := .cells, handling := .absorbed, addr := a, stream := some i,
          tapped := some (c, g), redirect := none }
      if n.restart then gone
      else if n.age < (f - g).toNat then gone
      else match (s.tap t).slotFor g with
        | some slot =>
          { gone with
            handling := .redirected, addr := slot + BitVec.ofNat 32 (4 * w),
            redirect := some (slot, c) }
        | none => gone

/-- The LINEAR offset of a cell word (R5). -/
def linearOffset (k j : Nat) : Nat := 1024 + 32 * k + 4 * j

/-- A cell area write beat in STREAMED mode (R23 steps 1, 2 and 4 to 9, R41, R42). -/
def State.streamedBeat (s : State) (off : Nat) (a : Word) : State × BeatPlan :=
  if 1056 ≤ off then (s.updReception Reception.countStray, BeatPlan.absorb a)
  else match s.reception.openFrame with
    | none => (s.updReception Reception.countOutside, BeatPlan.absorb a)
    | some o =>
      if Config.cursorEnd ≤ o.cursor then
        ((s.updReception Reception.countStray).latch .landingOverrun, BeatPlan.absorb a)
      else
        let k := o.cursor / 8
        let j := o.cursor % 8
        (s.updReception Reception.advanceCursor,
          s.wordPlan o.num k j .linearised
            (s.landingBase + BitVec.ofNat 32 (linearOffset k j)))

/-- A LINEAR cell word with no open frame: forwarded unaltered (R23 step 3), with the stream and, of
a tapped stream, the class and logical frame that R21 rules 4 and 5 tell words apart by, reckoned
from the current frame number (log 32). -/
def State.latePlan (s : State) (k j : Nat) (a : Word) : BeatPlan :=
  { s.wordPlan s.reception.current k j .forwarded a with
    handling := .forwarded, addr := a, redirect := none }

/-- A cell area write beat in LINEAR mode (R5, R23 steps 3 to 9, R41). -/
def State.linearBeat (s : State) (off : Nat) (a : Word) : State × BeatPlan :=
  let k := (off - 1024) / 32
  let j := (off - 1024) % 32 / 4
  match s.reception.openFrame with
  | none => (s.updReception Reception.countOutside, s.latePlan k j a)
  | some o => (s, s.wordPlan o.num k j .forwarded a)

/-- A cell area write beat (R23). -/
def State.cellBeat (s : State) (off : Nat) (a : Word) : State × BeatPlan :=
  match s.reception.mode with
  | .streamed => s.streamedBeat off a
  | .linear => s.linearBeat off a
  | .unconfigured => s.linearBeat off a

/-! ## Header and layout words (R4, R11, R58) -/

/-- A header beat: a frame open, a seal, or neither (R4). -/
def State.headerBeat (s : State) (off : Nat) (b : WriteBeat) : State :=
  if allStrobes b && b.data.msb then
    if off = 0 then s.frameOpen (b.data.extractLsb' 0 12) (b.data.extractLsb' 12 2)
    else if off = 60 then s.seal
    else s
  else s

/-- A layout block beat offered to its assembly buffer (R11, R58). -/
def State.layoutBeat (s : State) (off : Nat) (b : WriteBeat) : State :=
  match s.reception.openFrame with
  | some o =>
    if allStrobes b then
      s.offerWord (Fin.ofNat 8 ((off - 64) / 32)) (Fin.ofNat 8 ((off - 64) % 32 / 4)) b.data o.num
    else s
  | none => s

/-- One write beat taken at acceptance (R14, R20). -/
def State.writeBeat (s : State) (a : Word) (b : WriteBeat) : State × BeatPlan :=
  let off := (a - s.landingBase).toNat
  match s.areaOf a with
  | .header => (s.headerBeat off b, BeatPlan.forward .header a)
  | .layoutBlock => (s.layoutBeat off b, BeatPlan.forward .layoutBlock a)
  | .cells => s.cellBeat off a
  | area => (s, BeatPlan.forward area a)

/-! ## Pieces (R21) -/

/-- A beat with its plan, its number in the transaction and its data if it is a write's. -/
structure PlannedBeat where
  plan : BeatPlan
  number : Nat
  beat : Option WriteBeat
  deriving DecidableEq, Repr

/-- The beats of a write taken in beat order, from beat n on (R14). -/
def State.writeBeats (s : State) (addr : Word) (kind : BurstKind) :
    Nat → List WriteBeat → State × List PlannedBeat
  | _, [] => (s, [])
  | n, b :: rest =>
    let (s₁, plan) := s.writeBeat (beatAddr addr kind n) b
    let (s₂, plans) := s₁.writeBeats addr kind (n + 1) rest
    (s₂, { plan := plan, number := n, beat := some b } :: plans)

/-- The beats of a read: forwarded unaltered, told apart by area (R20, R21). -/
def State.readBeats (s : State) (addr : Word) (kind : BurstKind) (len : Nat) : List PlannedBeat :=
  (List.range len).map fun n =>
    let a := beatAddr addr kind n
    { plan := BeatPlan.forward (s.areaOf a) a, number := n, beat := none }

/-- The kind of a piece: the upstream kind when forwarded unaltered, INCR otherwise (R16). -/
def pieceKind (kind : BurstKind) (h : Handling) : BurstKind :=
  if h = .forwarded then kind else .incr

/-- The address that follows in one piece (R21 rule 6). -/
def nextAddr (kind : BurstKind) (p : BeatPlan) : Word :=
  match pieceKind kind p.handling with
  | .incr => p.addr + 4
  | .fixed => p.addr

/-- A beat goes on with the piece of the beat before it: none of R21's rules 2 to 6 holds. -/
def sameArea (kind : BurstKind) (p q : BeatPlan) : Bool :=
  p.area == q.area && p.handling == q.handling && p.stream == q.stream && p.tapped == q.tapped &&
    (p.handling == .absorbed || q.addr == nextAddr kind p)

/-- The beats cut into pieces (R21). -/
def cutBeats (kind : BurstKind) : List PlannedBeat → List (List PlannedBeat)
  | [] => []
  | b :: rest =>
    match cutBeats kind rest with
    | (c :: g) :: gs =>
      if sameArea kind b.plan c.plan then (b :: c :: g) :: gs else [b] :: (c :: g) :: gs
    | gs => [b] :: gs

/-- The index word a write piece carries (R19). -/
def Area.snooped : Area → Option IndexWord
  | .index w => some w
  | _ => none

/-- The downstream piece of a run of beats; an absorbed run has none (R16, R21, R25). -/
def pieceOf (txn : Nat) (tag : Tag) (write : Bool) (kind : BurstKind) :
    List PlannedBeat → Option Piece
  | [] => none
  | b :: rest =>
    if b.plan.handling = .absorbed then none
    else some
      { txn := txn, tag := tag, write := write, addr := b.plan.addr,
        kind := pieceKind kind b.plan.handling, len := rest.length + 1, first := b.number,
        beats := (b :: rest).filterMap (·.beat), redirect := b.plan.redirect,
        snoop := if write then b.plan.area.snooped else none }

/-- The downstream pieces of a transaction in beat order (R16, R21). -/
def piecesOf (txn : Nat) (tag : Tag) (write : Bool) (kind : BurstKind) (beats : List PlannedBeat) :
    List Piece :=
  (cutBeats kind beats).filterMap (pieceOf txn tag write kind)

/-! ## Acceptance (R14, R15, R27) -/

/-- The outstanding count of a redirected piece's entry raised (R27). -/
def State.raiseOutstanding (s : State) (p : Piece) : State :=
  match p.redirect with
  | some (a, _) => s.updSlot a fun e => { e with outstanding := e.outstanding + 1 }
  | none => s

/-- A transaction enters the outstanding-transaction table and its pieces the arbiter's queue; one
without a piece is complete at once (R15, R22, R31). -/
def Link.enter (l : Link) (t : Txn) (pieces : List Piece) : Link :=
  { l with
    txns := l.txns ++ [t]
    serial := l.serial + 1
    ready := if pieces = [] then l.ready ++ [t.id] else l.ready
    queue := l.queue ++ pieces }

/-- A write accepted (R14, R20 to R27). -/
def State.acceptWrite (s : State) (tag : Tag) (addr : Word) (kind : BurstKind)
    (beats : List WriteBeat) : State :=
  let (s', planned) := s.writeBeats addr kind 0 beats
  let pieces := piecesOf s.link.serial tag true kind planned
  let txn : Txn :=
    { id := s.link.serial, tag := tag, write := true, len := beats.length,
      unanswered := pieces.length, err := false, data := [], activeAtAccept := s.device.active }
  (pieces.foldl State.raiseOutstanding s').updLink fun l => l.enter txn pieces

/-- A read accepted (R14, R20, R21). -/
def State.acceptRead (s : State) (tag : Tag) (addr : Word) (kind : BurstKind) (len : Nat) :
    State :=
  let pieces := piecesOf s.link.serial tag false kind (s.readBeats addr kind len)
  let txn : Txn :=
    { id := s.link.serial, tag := tag, write := false, len := len, unanswered := pieces.length,
      err := false, data := List.replicate len none, activeAtAccept := s.device.active }
  s.updLink fun l => l.enter txn pieces

/-- The upstream link accepts a further transaction (R14). -/
def State.linkOpen (s : State) : Bool := s.link.txns.length < Config.maxOutstanding

/-- UPSTREAM_WRITE_ACCEPT (R14); while 16 transactions are outstanding nothing is accepted. -/
def execUpstreamWriteAccept (tag : Tag) (addr : Word) (kind : BurstKind) (beats : List WriteBeat)
    (s : State) : Host.Outcome State Fault Refusal :=
  s.whileUp <|
    if linkPresents addr beats.length then
      .next (if s.linkOpen then s.acceptWrite tag addr kind beats else s)
    else .refused .notPresented

/-- UPSTREAM_READ_ACCEPT (R14, R20). -/
def execUpstreamReadAccept (tag : Tag) (addr : Word) (kind : BurstKind) (len : Nat) (s : State) :
    Host.Outcome State Fault Refusal :=
  s.whileUp <|
    if linkPresents addr len then
      .next (if s.linkOpen then s.acceptRead tag addr kind len else s)
    else .refused .notPresented

/-! ## Delivery (R15) -/

/-- The entry of a number in the outstanding-transaction table. -/
def Link.txn (l : Link) (id : Nat) : Option Txn := l.txns.find? (fun t => t.id == id)

/-- No earlier undelivered transaction shares an entry's tag (R15). -/
def Link.firstOfTag (l : Link) (t : Txn) : Bool :=
  match l.txns.find? (fun u => u.tag == t.tag) with
  | some u => u.id == t.id
  | none => false

/-- The next transaction to be answered: the first complete one that per-tag order allows (R15). -/
def Link.nextDelivery (l : Link) : Option Txn :=
  l.ready.findSome? fun id =>
    match l.txn id with
    | some t => if l.firstOfTag t then some t else none
    | none => none

/-- The single response of a complete transaction (R15, R22). -/
def Txn.response (t : Txn) : UpResponse :=
  { tag := t.tag, write := t.write, resp := if t.err then .error else .ok,
    data := t.data.map (·.getD 0) }

/-- A response delivered frees its entry (R15). -/
def Link.deliver (l : Link) : Link :=
  match l.nextDelivery with
  | some t =>
    { l with
      txns := l.txns.filter (fun u => u.id != t.id), ready := l.ready.filter (· != t.id),
      delivered := some t.response }
  | none => l

/-- UPSTREAM_RESPONSE_DELIVERY (R15); with nothing to deliver the state stays. -/
def execUpstreamResponseDelivery (s : State) : Host.Outcome State Fault Refusal :=
  s.whileUp (.next (s.updLink Link.deliver))

/-! ## The arbiter (R31, R32) -/

/-- The next burst of an access whose unissued bursts are listed, with the rest of them. -/
def nextBurst : Option (List OwnBurst) → Option (OwnBurst × List OwnBurst)
  | some (b :: rest) => some (b, rest)
  | _ => none

/-- A refill after one of its bursts is issued (R109). -/
def Refill.issue (r : Refill) (b : OwnBurst) (rest : List OwnBurst) : Refill :=
  { r with issuedEntries := r.issuedEntries + b.len, waiting := rest }

/-- The unissued bursts of a kind's access in flight (R32). -/
def State.unissued (s : State) : OwnKind → Option (List OwnBurst)
  | .fetch => s.directive.fetch
  | .refill => s.supply.refill.map (·.waiting)
  | .report => s.reporter.write.map (·.waiting)
  | .status => s.directive.status

/-- A burst of a kind taken from its access, the rest left waiting (R32). -/
def State.takeBurst (s : State) (b : OwnBurst) (rest : List OwnBurst) : OwnKind → State
  | .fetch => s.updDirective fun d => { d with fetch := some rest }
  | .refill =>
    s.updSupply fun p => { p with refill := p.refill.map (fun r => r.issue b rest) }
  | .report =>
    s.updReporter fun r => { r with write := r.write.map (fun w => { w with waiting := rest }) }
  | .status => s.updDirective fun d => { d with status := some rest }

/-- The next unissued own burst of the most preferred kind, with the state it leaves (R32). -/
def State.ownWaiting (s : State) : Option (OwnBurst × State) :=
  [OwnKind.fetch, .refill, .report, .status].findSome? fun k =>
    (nextBurst (s.unissued k)).map fun x => (x.1, s.takeBurst x.1 x.2 k)

/-- An own burst issued whole (R31). -/
def State.issueOwn (s : State) (b : OwnBurst) : State :=
  s.updLink fun l => { l with lastGrant := .own, inFlight := l.inFlight ++ [.own b .live] }

/-- The oldest forwarded piece issued whole (R31). -/
def Link.issuePiece (l : Link) (p : Piece) (rest : List Piece) : Link :=
  { l with lastGrant := .forwarded, queue := rest, inFlight := l.inFlight ++ [.piece p] }

/-- One grant: the sides alternate while both have a burst waiting (R31). -/
def State.grant (s : State) : State :=
  match s.link.queue, s.ownWaiting with
  | [], none => s
  | [], some (b, s') => s'.issueOwn b
  | p :: rest, none => s.updLink fun l => l.issuePiece p rest
  | p :: rest, some (b, s') =>
    if s.link.lastGrant = .own then s.updLink fun l => l.issuePiece p rest
    else s'.issueOwn b

/-- ARBITER_GRANT (R31); with nothing waiting nothing is issued. -/
def execArbiterGrant (s : State) : Host.Outcome State Fault Refusal :=
  s.whileUp (.next s.grant)

/-! ## Read substitution (R29) -/

/-- The word delivered for a slot entry's word w (R29). -/
def SlotEntry.deliver (e : SlotEntry) (w : Nat) (data : Word) : Word :=
  if e.state = .returning then data
  else if 8 * e.count ≤ w then data
  else if e.silenced then 0
  else if hasClass e.unavailable (e.depth.classOf w) then 0
  else data

/-- The word delivered for an address, against the slot table as it stands (R29). -/
def State.substitute (s : State) (a data : Word) : Word :=
  match s.slotOver a with
  | some e => e.deliver ((a - e.addr).toNat / 4) data
  | none => data

/-- The words of a read piece that arrive at one command, as delivered (R18, R29). -/
def State.pieceData (s : State) (examined : Bool) (p : Piece) (data : List Word) : List Word :=
  if examined then
    data.mapIdx fun i d => s.substitute (beatAddr p.addr p.kind i) d
  else data

/-! ## Piece responses (R15, R22, R27, R28) -/

/-- Words placed in a transaction's gathered data from a beat on (R16). -/
def placeWords (gathered : List (Option Word)) (first : Nat) (data : List Word) :
    List (Option Word) :=
  gathered.mapIdx fun i old =>
    if first ≤ i ∧ i < first + data.length then data[i - first]? else old

/-- A piece's response recorded in its transaction's entry (R15). -/
def Txn.answer (t : Txn) (p : Piece) (resp : Resp) (data : List Word) : Txn :=
  { t with
    unanswered := t.unanswered - 1
    err := t.err || resp == .error
    data := placeWords t.data p.first data }

/-- The entry of a piece's transaction after its response; complete when none is unanswered
(R15). -/
def Link.answer (l : Link) (p : Piece) (resp : Resp) (data : List Word) : Link :=
  let txns := l.txns.map fun t => if t.id == p.txn then t.answer p resp data else t
  { l with
    txns := txns
    ready := if txns.any (fun t => t.id == p.txn && t.unanswered == 0) then l.ready ++ [p.txn]
      else l.ready }

/-- A class marked erased by an ERROR response (R28). -/
def SlotEntry.erase (c : Nat) (e : SlotEntry) : SlotEntry :=
  { e with arrived := leaveClass e.arrived c, erased := joinClass e.erased c }

/-- An entry after the response to a redirected piece (R27, R28). -/
def SlotEntry.writeAnswered (c : Nat) (resp : Resp) (e : SlotEntry) : SlotEntry :=
  let e := { e with outstanding := e.outstanding - 1 }
  match resp with
  | .ok => e
  | .error => e.erase c

/-- What waited for an entry's writes goes on once the count is zero: the push, or the settling
completions of its owner (R27, R94, R116). -/
def State.drained (s : State) (a : Word) : State :=
  match s.slot a with
  | some e =>
    if e.outstanding = 0 then (if e.awaitingPush then s.releaseAwaiting a else s.settle e.owner)
    else s
  | none => s

/-- The response to a redirected piece; in HALTED the slot table is frozen (R27, R28). -/
def State.redirectAnswered (s : State) (resp : Resp) : Option (Word × Nat) → State
  | some (a, c) =>
    if s.device = .halted then s
    else (s.updSlot a (SlotEntry.writeAnswered c resp)).drained a
  | none => s

/-- One snooped value handed to its owner (R19). -/
def State.handIndex (w : IndexWord) (s : State) (b : WriteBeat) : State :=
  if allStrobes b then
    match w with
    | .directive => s.takeDirectiveIndex b.data
    | .report => s.takeReportIndex b.data
    | .free => s.takeFreeIndex b.data
  else s

/-- The values of a piece answered OK handed over in beat order (R19). -/
def State.snoop (s : State) (resp : Resp) (p : Piece) : State :=
  match resp, p.snoop with
  | .ok, some w => p.beats.foldl (State.handIndex w) s
  | _, _ => s

/-- An issued transaction is a forwarded piece of this tag. -/
def Issued.isPiece (tag : Tag) : Issued → Bool
  | .piece p => p.tag == tag
  | .own _ _ => false

/-- The oldest forwarded piece of a tag taken out of flight (R16). -/
def Link.answerPiece (l : Link) (tag : Tag) : Link :=
  { l with inFlight := l.inFlight.eraseP (Issued.isPiece tag) }

/-- The oldest forwarded piece of a tag in flight (R16). -/
def State.oldestPiece (s : State) (tag : Tag) : Option Piece :=
  s.link.inFlight.findSome? fun
    | .piece p => if p.tag = tag then some p else none
    | .own _ _ => none

/-- The data of a piece's read is examined (R29). -/
def State.examines (s : State) (p : Piece) : Bool :=
  s.device.active && (s.link.txn p.txn).any (·.activeAtAccept)

/-- The effects of a forwarded piece's response (R15, R19, R22, R27 to R29). -/
def State.pieceAnswered (s : State) (p : Piece) (resp : Resp) (data : List Word) : State :=
  let words := s.pieceData (s.examines p) p data
  (((s.updLink fun l => (l.answerPiece p.tag).answer p resp words).redirectAnswered resp
    p.redirect).snoop resp p)

/-- A read piece of which n words have arrived: the words still to come (R29, R30). -/
def Piece.after (p : Piece) (n : Nat) : Piece :=
  { p with addr := beatAddr p.addr p.kind n, first := p.first + n, len := p.len - n }

/-- Words that arrive for a read piece ahead of its response are gathered in its transaction's
entry; the piece stays in its place, unanswered, with the words still to come (R15, R16). -/
def Link.gather (l : Link) (p : Piece) (data : List Word) : Link :=
  { l with
    txns := l.txns.map fun t =>
      if t.id == p.txn then { t with data := placeWords t.data p.first data } else t
    inFlight := l.inFlight.replace (.piece p) (.piece (p.after data.length)) }

/-- The first words of a read piece arrive and are judged against the slot table as it stands, the
rest later, so that an event between them may treat them differently (R29, R30). -/
def State.wordsArrived (s : State) (p : Piece) (data : List Word) : State :=
  let words := s.pieceData (s.examines p) p data
  s.updLink fun l => l.gather p words

/-- FORWARDED_PIECE_RESPONSE (R22). DESIGN CHOICE (log 39): for a read piece, a command with fewer
words than are still to come brings words alone; the one that brings the last carries the response. -/
def execForwardedPieceResponse (tag : Tag) (resp : Resp) (data : List Word) (s : State) :
    Host.Outcome State Fault Refusal :=
  s.whileUp <|
    match s.oldestPiece tag with
    | none => .fault .nothingToAnswer
    | some p =>
      if data.length = (if p.write then 0 else p.len) then .next (s.pieceAnswered p resp data)
      else if p.write = false ∧ data ≠ [] ∧ data.length < p.len then
        .next (s.wordsArrived p data)
      else .refused .badShape

end Sys2Proof.Machine
end

