-- ==== Sys2Proof/Machine/Dispatch.lean ====
section
/-! DEFINITION. The meaning of every command: one arm for each constructor of Instr. -/

namespace Sys2Proof.Machine

def exec (i : Instr) (s : State) : Host.Outcome State Fault Refusal :=
  match i with
  | .upstreamWriteAccept tag addr kind beats => Sys2Proof.Machine.execUpstreamWriteAccept tag addr kind beats s
  | .upstreamReadAccept tag addr kind len => Sys2Proof.Machine.execUpstreamReadAccept tag addr kind len s
  | .upstreamResponseDelivery => Sys2Proof.Machine.execUpstreamResponseDelivery s
  | .arbiterGrant => Sys2Proof.Machine.execArbiterGrant s
  | .forwardedPieceResponse tag resp data => Sys2Proof.Machine.execForwardedPieceResponse tag resp data s
  | .directiveIndexTaken value => Sys2Proof.Machine.execDirectiveIndexTaken value s
  | .reportIndexTaken value => Sys2Proof.Machine.execReportIndexTaken value s
  | .freeIndexTaken value => Sys2Proof.Machine.execFreeIndexTaken value s
  | .directiveFetchComplete bytes => Sys2Proof.Machine.execDirectiveFetchComplete bytes s
  | .refillComplete data => Sys2Proof.Machine.execRefillComplete data s
  | .reportPrepare => Sys2Proof.Machine.execReportPrepare s
  | .reportWriteComplete => Sys2Proof.Machine.execReportWriteComplete s
  | .statusBlockWriteStart => Sys2Proof.Machine.execStatusBlockWriteStart s
  | .statusBlockWriteComplete => Sys2Proof.Machine.execStatusBlockWriteComplete s
  | .ownAccessError kind data => Sys2Proof.Machine.execOwnAccessError kind data s
  | .frameGapTimerExpiry => Sys2Proof.Machine.execFrameGapTimerExpiry s
  | .coalescingTimerExpiry tap => Sys2Proof.Machine.execCoalescingTimerExpiry tap s
  | .settledCompletionJudged tap => Sys2Proof.Machine.execSettledCompletionJudged tap s
  | .awaitingPushReleased slot => Sys2Proof.Machine.execAwaitingPushReleased slot s
  | .nresetLow => Sys2Proof.Machine.execNresetLow s
  | .nresetRise band => Sys2Proof.Machine.execNresetRise band s
  | .configure params => Sys2Proof.Machine.execConfigure params s
  | .setTiming gap coast summary => Sys2Proof.Machine.execSetTiming gap coast summary s
  | .start => Sys2Proof.Machine.execStart s
  | .stop => Sys2Proof.Machine.execStop s
  | .tapOpen tap stream policy tolerance repeatLimit floor => Sys2Proof.Machine.execTapOpen tap stream policy tolerance repeatLimit floor s
  | .tapAdjust tap policy tolerance repeatLimit floor => Sys2Proof.Machine.execTapAdjust tap policy tolerance repeatLimit floor s
  | .tapClose tap => Sys2Proof.Machine.execTapClose tap s
  | .release count addrs => Sys2Proof.Machine.execRelease count addrs s
  | .forceResync => Sys2Proof.Machine.execForceResync s
  | .forgetLayout => Sys2Proof.Machine.execForgetLayout s
  | .clearFaults flags => Sys2Proof.Machine.execClearFaults flags s
  | .setAlerts enable pins => Sys2Proof.Machine.execSetAlerts enable pins s
  | .warmReset => Sys2Proof.Machine.execWarmReset s

end Sys2Proof.Machine
end

