-- ==== Sys2Proof/Machine/Step.lean ====
section
/-! DEFINITION. One step of the block: the command at the front of the queue is taken. -/

namespace Sys2Proof.Machine

/-- The state whose queue is what is left of it. -/
def State.withPending (s : State) (rest : List Instr) : State := { s with pending := rest }

/-- The command at the front of the queue taken on the state with the queue's rest; with an empty
queue the part idles (log 3). -/
def step (s : State) : Host.Outcome State Fault Refusal :=
  match s.pending with
  | [] => .next s
  | c :: rest => exec c (s.withPending rest)

/-- The command a table word spells put at the front of the queue; no row gives bits, so no word
spells one. -/
def State.withFetchWord (s : State) (nbits w : Nat) : State :=
  match decodeTableWord nbits w with
  | some c => s.withPending (c :: s.pending)
  | none => s

end Sys2Proof.Machine
end

