-- ==== Sys2Proof/Safety.lean ====
section
/-! DEFINITION. What claims about runs are stated in: what a command leaves alone, and the
invariants of the state. -/

namespace Sys2Proof.Machine

/-! ## What is left alone -/

/-- Nothing but the reporter differs. -/
def State.OnlyReporter (s t : State) : Prop := t = { s with reporter := t.reporter }

/-- Nothing but slot supply and the reporter differs. -/
def State.OnlySupply (s t : State) : Prop :=
  t = { s with supply := t.supply, reporter := t.reporter }

/-- Nothing but the tap table, slot supply and the reporter differs. -/
def State.OnlyTaps (s t : State) : Prop :=
  t = { s with taps := t.taps, supply := t.supply, reporter := t.reporter }

/-- Nothing but the layout tables, the tap table, slot supply and the reporter differs. -/
def State.OnlyLayout (s t : State) : Prop :=
  t = { s with layout := t.layout, taps := t.taps, supply := t.supply, reporter := t.reporter }

/-- The pins, the strap band, the regions, the links and the queue of commands are as before. -/
def State.SameOutside (s t : State) : Prop :=
  t.nResetLow = s.nResetLow ∧ t.strap = s.strap ∧ t.regions = s.regions ∧ t.link = s.link ∧
    t.pending = s.pending

/-- Nothing but the directive unit differs. -/
def State.OnlyDirective (s t : State) : Prop := t = { s with directive := t.directive }

/-- Nothing but the links and the arbiter differs. -/
def State.OnlyLink (s t : State) : Prop := t = { s with link := t.link }

/-- Nothing but the links and slot supply differs. -/
def State.OnlyLinkSupply (s t : State) : Prop := t = { s with link := t.link, supply := t.supply }

/-! ## Terms of the statements -/

/-- An accepted write of one beat leaves one piece behind those waiting, with this address, kind,
beat and slot entry (R16, R31). -/
def State.QueuesPiece (s t : State) (addr : Word) (kind : BurstKind) (b : WriteBeat)
    (redirect : Option (Word × Nat)) : Prop :=
  ∃ p, t.link.queue = s.link.queue ++ [p] ∧ p.write = true ∧ p.addr = addr ∧ p.kind = kind ∧
    p.beats = [b] ∧ p.redirect = redirect

/-- A tap has begun a new instance at frame f with a map entry and is HOLDING (R74, R86, R88, R124). -/
def Tap.BeganAt (old new : Tap) (f : FrameNo) (e : MapEntry) : Prop :=
  new.inst = some
    { start := f, depth := e.depth, startCell := e.start, count := e.count, age := 0,
      restart := false, number := old.lastNumber + 1, ended := false, fresh := true } ∧
  new.lastNumber = old.lastNumber + 1 ∧ new.state = .holding ∧ new.openFrames = [] ∧
  new.repeatCount = 0 ∧ new.stream = old.stream ∧ new.params = old.params

/-- A tap has lost its instance for want of its stream: ORPHANED by a VERIFIED map, WAITING by
another (R74, R88). -/
def State.LostStream (s : State) (new : Tap) : Prop :=
  new.inst = none ∧ new.openFrames = [] ∧ new.retained = none ∧
    new.state = if s.layout.cur.state = .verified then .orphaned else .waiting

/-- A record's run shares a cell with that of another stream's entry that satisfies p (R65, R71). -/
def StreamRecord.Meets (r : StreamRecord) (m : MapEntries) (p : MapEntry → Prop) : Prop :=
  ∃ j e, j ≠ r.id ∧ entryOf m j = some e ∧ p e ∧ r.start < e.start + e.count ∧
    e.start < r.start + r.count

/-- The descriptor of a record equals that of an entry (R65). -/
def StreamRecord.Describes (r : StreamRecord) (e : MapEntry) : Prop :=
  e.start = r.start ∧ e.count = r.count ∧ e.depth = r.depth

/-- An accepted write leaves no piece and its response is ready (R22, R25). -/
def State.Absorbs (s t : State) : Prop :=
  t.link.queue = s.link.queue ∧ t.link.ready = s.link.ready ++ [s.link.serial]

/-- The oldest unanswered burst with a tag, b, has left flight, and nothing else of the links has
changed (R16). -/
def Link.AnswersOldest (l m : Link) (tag : Fin 20) (b : OwnBurst) : Prop :=
  ∃ pre life post, l.inFlight = pre ++ .own b life :: post ∧ b.tag = tag ∧
    (∀ c fate, .own c fate ∈ pre → c.tag ≠ tag) ∧ m = { l with inFlight := pre ++ post }

/-- nRESET is high: the part takes commands. -/
def State.Up (s : State) : Prop := s.nResetLow = false

/-- The addresses of a piece's beats (R14). -/
def Piece.addrs (p : Piece) : List Word := (List.range p.len).map (beatAddr p.addr p.kind)

/-- A write beat outside the cell area that only passes: it opens and seals no frame and is offered to
no assembly buffer (R4, R11, R20). -/
structure State.PassesBeat (s : State) (a : Word) (b : WriteBeat) : Prop where
  cells : s.areaOf a ≠ .cells
  header : s.areaOf a = .header → b.strobes = 0xF → b.data.msb = true →
    (a - s.landingBase).toNat ≠ 0 ∧ (a - s.landingBase).toNat ≠ 60
  layout : s.areaOf a = .layoutBlock → s.reception.openFrame = none ∨ b.strobes ≠ 0xF

/-- An accepted write forwarded unaltered: its pieces carry its beats, in order, at their own
addresses and with its burst kind, those of an index word to be snooped, and nothing but the links
changes (R16, R18 to R20). -/
def State.ForwardsWrite (s t : State) (tag : Tag) (addr : Word) (kind : BurstKind)
    (beats : List WriteBeat) : Prop :=
  s.OnlyLink t ∧ ∃ pieces, t.link.queue = s.link.queue ++ pieces ∧
    pieces.flatMap (·.beats) = beats ∧
    pieces.flatMap Piece.addrs = (List.range beats.length).map (beatAddr addr kind) ∧
    ∀ p ∈ pieces, p.redirect = none ∧ p.write = true ∧ p.tag = tag ∧ p.kind = kind ∧
      p.snoop =
        if p.addr = pageBase s.strap then some .directive
        else if p.addr = pageBase s.strap + 4 then some .report
        else if p.addr = pageBase s.strap + 8 then some .free
        else none

/-- Two beats in turn lie in one piece: none of rules 2 to 6 of R21 parts them. -/
def BeatPlan.Joins (kind : BurstKind) (p q : BeatPlan) : Prop :=
  q.area = p.area ∧ q.handling = p.handling ∧ q.stream = p.stream ∧ q.tapped = p.tapped ∧
    (p.handling ≠ .absorbed →
      q.addr = if kind = .fixed ∧ p.handling = .forwarded then p.addr else p.addr + 4)

/-- The beats of a transaction parted into pieces by R21: every beat that its predecessor does not
join starts a new piece, and no other does but the first. -/
structure CutInto (kind : BurstKind) (beats : List PlannedBeat) (groups : List (List PlannedBeat)) :
    Prop where
  flatten : groups.flatten = beats
  nonempty : ∀ g ∈ groups, g ≠ []
  joined : ∀ g ∈ groups, g.IsChain fun p q => p.plan.Joins kind q.plan
  parted : groups.IsChain fun g h => ∀ p q, g.getLast? = some p → h.head? = some q →
    ¬ p.plan.Joins kind q.plan

/-- The plan of cell word (k, j) of frame f by steps 4 to 9 of R23, with the handling and address
that an untapped word has (R8 to R10, R24, R25). -/
structure BeatPlan.ResolvesWord (p : BeatPlan) (s : State) (f : FrameNo) (k j : Nat)
    (untapped : Handling) (a : Word) : Prop where
  noStream : s.streamAt k = none → p =
    { area := .cells, handling := untapped, addr := a, stream := none, tapped := none,
      redirect := none }
  noTap : ∀ i e, s.streamAt k = some (i, e) → s.boundTap i = none → p =
    { area := .cells, handling := untapped, addr := a, stream := some i, tapped := none,
      redirect := none }
  absorbed : ∀ i e u n, s.streamAt k = some (i, e) → s.boundTap i = some (u, n) →
    let c := (8 * (k - e.start) + j) % n.depth.frames
    let g := f - BitVec.ofNat 12 (n.depth.lag c)
    (n.restart = true ∨ n.age < n.depth.lag c ∨ (s.tap u).slotFor g = none) → p =
      { area := .cells, handling := .absorbed, addr := a, stream := some i, tapped := some (c, g),
        redirect := none }
  redirected : ∀ i e u n slot, s.streamAt k = some (i, e) → s.boundTap i = some (u, n) →
    let w := 8 * (k - e.start) + j
    let c := w % n.depth.frames
    let g := f - BitVec.ofNat 12 (n.depth.lag c)
    n.restart = false → n.depth.lag c ≤ n.age → (s.tap u).slotFor g = some slot → p =
      { area := .cells, handling := .redirected, addr := slot + BitVec.ofNat 32 (4 * w),
        stream := some i, tapped := some (c, g), redirect := some (slot, c) }

/-- The preference of an own access kind at a grant (R32). -/
def ownPreference : OwnKind → Nat
  | .fetch => 1
  | .refill => 2
  | .report => 3
  | .status => 4

/-- The command of a directive (R173). -/
def Directive.command : Directive → Instr
  | .configure p => .configure p
  | .setTiming gap coast summary => .setTiming gap coast summary
  | .start => .start
  | .stop => .stop
  | .tapOpen tap stream policy tolerance repeatLimit floor =>
    .tapOpen tap stream policy tolerance repeatLimit floor
  | .tapAdjust tap policy tolerance repeatLimit floor =>
    .tapAdjust tap policy tolerance repeatLimit floor
  | .tapClose tap => .tapClose tap
  | .release count addrs => .release count addrs
  | .forceResync => .forceResync
  | .forgetLayout => .forgetLayout
  | .clearFaults flags => .clearFaults flags
  | .setAlerts enable pins => .setAlerts enable pins
  | .warmReset => .warmReset

/-- The table of R162: a kind is executed in the present device state; for CONFIGURE also no refill
read and no report write in flight (R161). -/
def Directive.executedIn (s : State) : Directive → Prop
  | .configure _ => s.device = .stopped ∧ s.supply.refill = none ∧ s.reporter.write = none
  | .start => s.device = .stopped ∧ s.regions ≠ none
  | .forceResync => s.device = .acquiring ∨ s.device = .running ∨ s.device = .coasting
  | .clearFaults _ => True
  | .warmReset => True
  | .setTiming _ _ _ => s.device ≠ .halted
  | .stop => s.device ≠ .halted
  | .tapOpen _ _ _ _ _ _ => s.device ≠ .halted
  | .tapAdjust _ _ _ _ _ => s.device ≠ .halted
  | .tapClose _ => s.device ≠ .halted
  | .release _ _ => s.device ≠ .halted
  | .forgetLayout => s.device ≠ .halted
  | .setAlerts _ _ => s.device ≠ .halted

/-- One or more status block writes are requested: with the enable mark clear the requests are
ignored; otherwise the request mark is set, or the write has been started with the next sequence
number (R171). -/
def State.StatusRequested (s t : State) : Prop :=
  if s.directive.statusEnable = false then t.directive = s.directive
  else t.directive.statusRequest = true ∨
    (t.directive.sequence = s.directive.sequence + 1 ∧ t.directive.status ≠ none)

/-- The four bursts of a status block write of some bytes: 16 full beats with tag 19 each, from
offset 0x40 of the page on (R16, R32, R171, R172). -/
def WritesStatus (page : Word) (bytes : List Byte) (bs : List OwnBurst) : Prop :=
  bs.length = 4 ∧ ∀ i (h : i < bs.length), bs[i] =
    { tag := 19, addr := page + BitVec.ofNat 32 (0x40 + 64 * i), kind := .incr, len := 16
      beats := (toWords ((bytes.drop (64 * i)).take 64)).map (fun w => { data := w, strobes := 0xF }) }

/-- A status block write requested once, outside HALTED, of a directive unit d that leaves state t:
with the enable mark clear it is ignored, behind a write in flight the mark is set, and otherwise a
write with the next sequence number starts, of the bytes of this moment (R171). -/
def DirectiveUnit.RequestedOnce (d : DirectiveUnit) (t : State) : Prop :=
  if d.statusEnable = false then t.directive = d
  else if d.status = none then
    ∃ bs, WritesStatus (pageBase t.strap) (statusBytes t (d.sequence + 1)) bs ∧
      t.directive = { d with
        statusRequest := false, sequence := d.sequence + 1, status := some bs }
  else t.directive = { d with statusRequest := true }

/-- A directive fetch whose read has been issued and awaits its answer, in the batch in progress
(R157). -/
def State.FetchEnds (s : State) : Prop :=
  s.oldestOwn .fetch = some .live ∧ s.directive.fetch = some []

/-- The state in which a fetched record is checked and run: the fetch is no longer in flight. -/
def State.fetched (s : State) : State := (s.answerOwn .fetch).fetchAnswered

/-- A CONFIGURE's parameters pass every line of R163. -/
def State.ConfigureAllowed (s : State) (p : ConfigureParams) : Prop :=
  let page := (pageBase s.strap).toNat
  let l := p.landingBase.toNat
  let r := p.reportBase.toNat
  let rn := 64 * p.reportSize.toNat
  let f := p.freeBase.toNat
  let fn := 4 * p.freeSize.toNat
  l % 32768 = 0 ∧ (p.landingMode = 1 ∨ p.landingMode = 2) ∧ r % 64 = 0 ∧
    p.reportSize.toNat ∈ [16, 32, 64, 128, 256] ∧ f % 4 = 0 ∧
    p.freeSize.toNat ∈ [32, 64, 128, 256, 512, 1024] ∧
    l + 32768 ≤ 2 ^ 32 ∧ r + rn ≤ 2 ^ 32 ∧ f + fn ≤ 2 ^ 32 ∧
    rangesMeet page 4096 l 32768 = false ∧ rangesMeet page 4096 r rn = false ∧
    rangesMeet page 4096 f fn = false ∧ rangesMeet l 32768 r rn = false ∧
    rangesMeet l 32768 f fn = false ∧ rangesMeet r rn f fn = false ∧
    ∀ a ∈ s.heldAddrs, rangesMeet l 32768 a.toNat 4096 = false ∧
      rangesMeet r rn a.toNat 4096 = false ∧ rangesMeet f fn a.toNat 4096 = false

/-- The code of a policy (R166). -/
def Policy.code : Policy → Nat
  | .pass => 0
  | .repeating => 1
  | .silent => 2

/-- The four parameter bytes lie in their ranges (R82). -/
def ParamsInRange (policy tolerance repeatLimit floor : Byte) : Prop :=
  policy.toNat ≤ 2 ∧ tolerance.toNat ≤ 9 ∧ 1 ≤ repeatLimit.toNat ∧ repeatLimit.toNat ≤ 15 ∧
    floor.toNat ≤ 3

/-- Four parameter bytes stand for these tap parameters. -/
def TapParams.Spells (p : TapParams) (policy tolerance repeatLimit floor : Byte) : Prop :=
  p.policy.code = policy.toNat ∧ p.tolerance = tolerance.toNat ∧
    p.repeatLimit = repeatLimit.toNat ∧ p.floor = floor.toNat

/-- A tap that is not CLOSED, or has a pending open, names the stream of a byte (R82). -/
def Tap.NamesByte (tp : Tap) (stream : Byte) : Prop :=
  (tp.state ≠ .closed ∧ tp.stream.map (·.val) = some stream.toNat) ∨
    tp.pendingOpen.map (·.1.val) = some stream.toNat

/-- A completion queue entry without its due mark. -/
def QueueEntry.facts (e : QueueEntry) : FrameNo × Option Word × FrameOutcome × ClassSet × Nat :=
  (e.frame, e.slot, e.outcome, e.erased, e.run)

/-- A STREAMED or LINEAR header write that is interpreted (R4): one beat to a header word of the
landing window with every strobe and bit 31 set, while the link accepts it. -/
structure State.HeaderWrite (s : State) (addr : Word) (off : Nat) (b : WriteBeat) : Prop where
  up : s.Up
  accepts : s.linkOpen = true
  aligned : addr.toNat % 4 = 0
  area : s.areaOf addr = .header
  offset : (addr - s.landingBase).toNat = off
  strobes : b.strobes = 0xF
  mark : b.data.msb = true

/-! ## Terms for reports -/

/-- A flag is latched and nFAULT judged again, and nothing else changes (R149, R151). -/
def State.Latches (s t : State) (f : Flag) : Prop :=
  t = { s with reporter := { s.reporter with
    flags := t.reporter.flags, nFaultLow := t.reporter.nFaultLow } } ∧
  (∀ g : Flag, t.reporter.flagSet g = (s.reporter.flagSet g || g == f)) ∧
  (t.reporter.nFaultLow = true ↔ ∃ g : Flag, t.reporter.flagSet g = true ∧
    (g = .busError ∨ s.reporter.pinEnables.getLsbD g.bit = true))

/-- Readiness tested: outside HALTED, with the ring configured, no report write in flight and a report
ready, the report is prepared at the producer index with every field fixed when the ring has room, its
write one burst of 16 full beats with tag 18, and REPORTS_BLOCKED is latched when it has none; otherwise
nothing changes (R16, R139, R142). -/
def State.TestsReports (s t : State) : Prop :=
  ((s.device = .halted ∨ s.regions = none ∨ s.reporter.write ≠ none ∨ s.nextReport = none) →
    t = s) ∧
  ∀ r c, s.device ≠ .halted → s.regions = some r → s.reporter.write = none →
    s.nextReport = some c →
    let size := r.reportSize
    let outstanding := (s.reporter.producer + size - s.reporter.recorded % size) % size
    let record := reportRecord c s.reporter.dropped s.reception.current
    let burst : OwnBurst :=
      { tag := 18, addr := r.reportBase + BitVec.ofNat 32 (64 * s.reporter.producer)
        kind := .incr, len := 16
        beats := (toWords record).map (fun w => { data := w, strobes := 0xF }) }
    let write : ReportWrite :=
      { content := c, record := record, waiting := [burst], droppedSince := 0 }
    (outstanding + 1 < size → t = { s with reporter := { s.reporter with write := some write } }) ∧
    (size ≤ outstanding + 1 → s.Latches t .reportsBlocked)

/-- A report handed with a flush count: discarded in HALTED; otherwise it joins the report queue at
the back, or is dropped by a full one with REPORTS_BLOCKED latched, counted in the dropped count and
behind a report in flight (R141). Then readiness is tested (R142), at each handing (log 16). -/
def State.Hands (s t : State) (body : ReportBody) (flush : Nat) : Prop :=
  if s.device = .halted then t = s
  else ∃ m : State,
    (s.reporter.queue.length < 32 → m = { s with reporter := { s.reporter with
      queue := s.reporter.queue ++ [{ body := body, flush := flush }] } }) ∧
    (32 ≤ s.reporter.queue.length → State.Latches
      { s with reporter := { s.reporter with
        dropped := min 255 (s.reporter.dropped + 1)
        write := s.reporter.write.map fun w =>
          { w with droppedSince := min 255 (w.droppedSince + 1) } } } m .reportsBlocked) ∧
    m.TestsReports t

/-- A directive rejected: a DIRECTIVE report with the ring position, the kind byte and the reason is
handed, which HALTED discards, and DIRECTIVE_REJECTED is latched; nothing but the reporter changes
(R141, R161). -/
def State.RejectedAs (s t : State) (kind : Byte) (reason : RejectReason) (addrs : List Word) :
    Prop :=
  ∃ m : State, s.Hands m (.directive s.directive.consumer.val kind reason addrs) 0 ∧
    m.Latches t .directiveRejected

/-- Every entry of tap u's completion queue made due and its coalescing timer absent; when one was not
due, readiness is tested (R142, R145, R146). -/
def State.MakesDue (s t : State) (u : TapNo) : Prop :=
  let m := s.setTap u { s.tap u with
    queue := (s.tap u).queue.map (fun e => { e with due := true }), timer := none }
  ((∃ e ∈ (s.tap u).queue, e.due = false) → m.TestsReports t) ∧
  ((∀ e ∈ (s.tap u).queue, e.due = true) → t = m)

/-- The entries of the taps of a list made due, one tap after another (R146). -/
def State.MakesAllDue (t : State) : State → List TapNo → Prop
  | s, [] => t = s
  | s, u :: rest => ∃ v : State, s.MakesDue v u ∧ State.MakesAllDue t v rest

/-! ## Terms for taps and slots -/

/-- Tap u changes state for a reason, or keeps everything when it holds that state: its hold length
starts at 0 in HOLDING and is absent elsewhere, its queued entries become due, and its TAP_STATE
report is handed with their number as the flush count; nothing but the tap and the reporter changes
(R81, R135, R146). -/
def State.Enters (s t : State) (u : TapNo) (new : TapState) (reason : TapReason) : Prop :=
  if (s.tap u).state = new then t = s
  else State.Hands
    (s.setTap u { s.tap u with
      state := new
      holdLength := if new = .holding then some 0 else none
      queue := (s.tap u).queue.map (fun e => { e with due := true })
      timer := none })
    t (.tapState u (s.tap u).state new reason (s.tap u).stream) (s.tap u).queue.length

/-- The entry at an address changed by f. -/
def State.ChangesSlot (s t : State) (a : Word) (f : SlotEntry → SlotEntry) : Prop :=
  t = { s with supply := { s.supply with
    table := s.supply.table.map fun e => if e.addr = a then f e else e } }

/-- An address pushed: placed on the spare stack, or made a RETURNING entry by a full one, which
tests readiness (R108, R117, R142). -/
def State.Pushes (s t : State) (a : Word) : Prop :=
  (s.supply.stack.length < 32 →
    t = { s with supply := { s.supply with stack := a :: s.supply.stack } }) ∧
  (32 ≤ s.supply.stack.length → State.TestsReports
    { s with supply := { s.supply with table := s.supply.table ++ [returningEntry a] } } t)

/-- The entry of an address removed from the slot table and the address pushed (R108, R116). -/
def State.RemovesAndPushes (s t : State) (a : Word) : Prop :=
  State.Pushes
    { s with supply := { s.supply with
      table := s.supply.table.filter (fun e => e.addr != a) } } t a

/-- The slot at an address given to slot supply: with no write outstanding its entry is removed and
the address pushed, with writes outstanding it awaits push, and one that awaits push already, or an
address of no entry, is left alone (R116). -/
def State.GivesBack (s t : State) (a : Word) : Prop :=
  ((∀ e, s.slot a = some e → e.awaitingPush = true) → t = s) ∧
  ∀ e, s.slot a = some e → e.awaitingPush = false →
    (e.outstanding = 0 → s.RemovesAndPushes t a) ∧
    (e.outstanding ≠ 0 → s.ChangesSlot t a fun x => { x with awaitingPush := true })

/-- The slots at some addresses given to slot supply in order (R116). -/
def State.GivesBackAll (t : State) : State → List Word → Prop
  | s, [] => t = s
  | s, a :: rest => ∃ v : State, s.GivesBack v a ∧ State.GivesBackAll t v rest

/-- The retention of tap u's retained slot ends: the reference and the repeat count are cleared, the
entry's flag is cleared, and a POSTED entry with no claim left is given back to slot supply (R120,
R133). -/
def State.EndsRetention (s t : State) (u : TapNo) : Prop :=
  ((s.tap u).retained = none → t = s) ∧
  ∀ a, (s.tap u).retained = some a → ∃ v : State,
    State.ChangesSlot (s.setTap u { s.tap u with retained := none, repeatCount := 0 }) v a
      (fun e => { e with retained := false }) ∧
    let free := ∃ e, s.slot a = some e ∧ e.state = .posted ∧ e.posted = 0 ∧
      ∀ w q, q ∈ (s.tap w).queue → q.slot ≠ some a
    (free → v.GivesBack t a) ∧ (¬ free → t = v)

/-- A completion of tap u discarded: its slot given back, the discarded counter raised (R94, R98). -/
def State.Discards (s t : State) (u : TapNo) (kind : CompletionKind) (run : Nat) : Prop :=
  ∃ v : State, ((∀ a, kind ≠ .slot a) → v = s) ∧ (∀ a, kind = .slot a → s.GivesBack v a) ∧
    t = v.setTap u { v.tap u with counters := { (v.tap u).counters with
      discarded := (v.tap u).counters.discarded + BitVec.ofNat 32 run } }

/-- The completions of a list discarded one after another (R84, R94). -/
def State.DiscardsAll (u : TapNo) (t : State) : State → List Completion → Prop
  | s, [] => t = s
  | s, c :: rest => ∃ v : State, s.Discards v u c.kind c.run ∧ State.DiscardsAll u t v rest

/-- A RUNNING tap becomes HOLDING with reason DISCARD, any other keeps its state (R94, R98). -/
def State.HoldsAfterDiscard (s t : State) (u : TapNo) : Prop :=
  if (s.tap u).state = .running then s.Enters t u .holding .discard else t = s

/-- A completion appended to tap u's settling list, whose ready front completions are then judged;
a list that holds 16 has it discarded (R94). -/
def State.Appends (s t : State) (u : TapNo) (c : Completion) : Prop :=
  ((s.tap u).settling.length < 16 → s.Up → s.device ≠ .halted →
    exec (.settledCompletionJudged u)
      (s.setTap u { s.tap u with settling := (s.tap u).settling ++ [c] }) = .next t) ∧
  (16 ≤ (s.tap u).settling.length →
    ∃ v : State, s.Discards v u c.kind c.run ∧ v.HoldsAfterDiscard t u)

/-- Open logical frame l of tap u completed at an instance end: its OPEN entry is COMPLETE with every
class that has not arrived erased, and a completion of run 1 is appended, STARVED for a frame without
a slot (R92). -/
def State.CompletesEarly (s t : State) (u : TapNo) (l : LogicalFrame) : Prop :=
  ∃ v : State,
    v = { s with supply := { s.supply with table := v.supply.table } } ∧
    (∀ a x, s.slot a = some x → ∃ y, v.slot a = some y ∧
      (¬ (l.slot = some a ∧ x.state = .opened) → y = x) ∧
      (l.slot = some a → x.state = .opened →
        y = { x with state := .complete, erased := y.erased } ∧
        ∀ c, hasClass y.erased c =
          (hasClass x.erased c || (Decidable.decide (c < x.depth.frames) && !hasClass x.arrived c)))) ∧
    v.Appends t u
      { frame := l.frame
        kind := match l.slot with
          | some a => .slot a
          | none => .starved
        run := 1
        number := (s.tap u).number }

/-- The open logical frames of a list completed one after another at an instance end (R92). -/
def State.CompleteEarly (u : TapNo) (t : State) : State → List LogicalFrame → Prop
  | s, [] => t = s
  | s, l :: rest => ∃ v : State, s.CompletesEarly v u l ∧ State.CompleteEarly u t v rest

/-- An instance end of tap u: the instance marked ended and the open list emptied, retention ended,
then every frame that was open completed in order (R92, R133). -/
def State.EndsInstance (s t : State) (u : TapNo) : Prop :=
  ∃ v : State,
    (s.setTap u { s.tap u with
      inst := (s.tap u).inst.map (fun i => { i with ended := true })
      openFrames := [] }).EndsRetention v u ∧
    State.CompleteEarly u t v (s.tap u).openFrames

/-- Tap u loses its instance and changes state for a reason (R74, R75, R88, R101, R102). -/
def State.Unbinds (s t : State) (u : TapNo) (new : TapState) (reason : TapReason) : Prop :=
  (s.setTap u { s.tap u with inst := none }).Enters t u new reason

/-- Tap u's instance ends for want of its stream: the tap becomes ORPHANED under a VERIFIED map,
WAITING under another (R74, R88). -/
def State.EndsWithoutStream (s t : State) (u : TapNo) : Prop :=
  ∃ v : State, s.EndsInstance v u ∧
    if s.layout.cur.state = .verified then v.Unbinds t u .orphaned .streamRemoved
    else v.Unbinds t u .waiting .streamUnknown

/-- Tap u begins a new instance at frame f with a map entry and enters HOLDING for a reason (R74,
R86, R88, R124). -/
def State.Begins (s t : State) (u : TapNo) (f : FrameNo) (e : MapEntry) (reason : TapReason) :
    Prop :=
  (s.setTap u { s.tap u with
    inst := some
      { start := f, depth := e.depth, startCell := e.start, count := e.count, age := 0,
        restart := false, number := (s.tap u).lastNumber + 1, ended := false, fresh := true }
    lastNumber := (s.tap u).lastNumber + 1
    openFrames := []
    repeatCount := 0 }).Enters t u .holding reason

/-- Tap u's instance ends and a new one begins at frame f with reason INSTANCE_RESTART (R74, R88). -/
def State.Restarts (s t : State) (u : TapNo) (f : FrameNo) (e : MapEntry) : Prop :=
  ∃ v : State, s.EndsInstance v u ∧ v.Begins t u f e .instanceRestart

/-- An abandonment of tap u, but for its retention: the open frames leave, each slot among them is
given back in their order, and where a frame was removed one ABANDONED completion with the lowest frame
and their number is appended (R93). -/
def State.Abandons (s t : State) (u : TapNo) : Prop :=
  let frames := (s.tap u).openFrames
  match frames with
  | [] => t = s
  | l :: _ => ∃ v : State,
    State.GivesBackAll v (s.setTap u { s.tap u with openFrames := [] })
      (frames.filterMap (·.slot)) ∧
    v.Appends t u
      { frame := l.frame, kind := .abandoned, run := frames.length, number := (s.tap u).number }

/-- The counter of an outcome raised: by one, and for STARVED and ABANDONED by the run (R104). -/
def TapCounters.raised (c : TapCounters) (outcome : FrameOutcome) (run : Nat) : TapCounters :=
  match outcome with
  | .clean => { c with clean := c.clean + 1 }
  | .partly => { c with partly := c.partly + 1 }
  | .repeated => { c with repeated := c.repeated + 1 }
  | .silent => { c with silent := c.silent + 1 }
  | .starved => { c with starved := c.starved + BitVec.ofNat 32 run }
  | .abandoned => { c with abandoned := c.abandoned + BitVec.ofNat 32 run }

/-- A completion queued for tap u, its counter raised: due at once with a summary interval of 0, in
STOPPED or ACQUIRING, and behind a waiting TAP_STATE report of the tap; otherwise not due, starting an
absent timer, and the sixth entry not due makes all due (R104, R145). An entry that becomes due tests
readiness (R142), at each such entry (log 16). -/
def State.Enqueues (s t : State) (u : TapNo) (e : QueueEntry) : Prop :=
  let old := s.tap u
  let atOnce := s.reporter.interval = 0 ∨ s.device = .stopped ∨ s.device = .acquiring ∨
    ∃ r from' to' reason stream, r ∈ s.reporter.queue ∧
      r.body = .tapState u from' to' reason stream
  let undue := (old.queue.filter (fun q => !q.due)).length
  let queued := fun queue timer =>
    s.setTap u { old with
      queue := queue, timer := timer, counters := old.counters.raised e.outcome e.run }
  (atOnce → (queued (old.queue ++ [{ e with due := true }]) old.timer).TestsReports t) ∧
  (¬ atOnce → undue < 5 →
    t = queued (old.queue ++ [{ e with due := false }]) (some (old.timer.getD 0))) ∧
  (¬ atOnce → 5 ≤ undue → State.TestsReports
    (queued ((old.queue ++ [e]).map fun q => { q with due := true }) none) t)

/-- The reads of a refill of n entries of the free ring from an index on: one burst, or two where
the ring's end lies between (R16, R109). -/
def refillReads (r : Regions) (index n : Nat) : List OwnBurst :=
  let read := fun i len : Nat =>
    ({ tag := 17, addr := r.freeBase + BitVec.ofNat 32 (4 * i), kind := .incr, len := len,
       beats := [] } : OwnBurst)
  if index + n ≤ r.freeSize then [read index n]
  else [read index (r.freeSize - index), read 0 (n - (r.freeSize - index))]

/-- The refill of slot supply as R109 tests it with no refill in flight: the next entries of the ring
are read when the stack holds fewer than 4 addresses, an entry is available and none is RETURNING. -/
def State.RefillTested (t : State) (r : Regions) : Prop :=
  let available :=
    (t.supply.recorded + r.freeSize - t.supply.consumer % r.freeSize) % r.freeSize
  let n := min (8 - t.supply.stack.length) available
  let holds := t.device ≠ .halted ∧ t.supply.stack.length < 4 ∧ 1 ≤ available ∧ t.returning = []
  (holds → t.supply.refill = some
    { firstIndex := t.supply.consumer, issuedEntries := 0,
      waiting := refillReads r t.supply.consumer n, data := [] }) ∧
  (¬ holds → t.supply.refill = none)

/-- The open frame, if any, closed: its close notice follows on the record without it (R40). -/
def State.ClosesFrame (s t : State) : Prop :=
  (s.reception.openFrame = none → t = s) ∧
  ∀ o, s.reception.openFrame = some o →
    t = State.closeNotice { s with reception := { s.reception with openFrame := none } } o.num
      o.quality

/-- The device state changes, and a change requests a status block write (R171, R175). -/
def State.ChangesDevice (s t : State) (d : DeviceState) : Prop :=
  t = { s with device := d, directive := t.directive } ∧
  (s.device = d → t.directive = s.directive) ∧
  (s.device ≠ d → s.directive.RequestedOnce t)

/-- An open of frame f accepted: the open frame closed, the record and the device as R38 has them, a
"resumed" report handed where coasting ends, then the open notice (R38, R40, R49). -/
def State.Accepts (s t : State) (f : FrameNo) (q : BitVec 2) (first : Bool)
    (resumed : Option Nat) : Prop :=
  ∃ c v w : State, s.ClosesFrame c ∧
    State.ChangesDevice
      { c with reception := { c.reception with
        openFrame := some { num := f, quality := q, cursor := 0 }
        current := f
        expected := some (f + 1)
        coast := 0
        sealLate := false
        gapTimer := some c.reception.gapLimit
        received := c.reception.received + 1
        lost := c.reception.lost + (if q = 0 then 1 else 0) } } v .running ∧
    (resumed = none → w = v) ∧
    (∀ n, resumed = some n → v.Hands w (.reception .resumed n) 0) ∧
    t = w.openNotice f first

/-- d missed frames from e on, in ascending order, each opened and closed as lost (R37, R43). -/
def State.Misses (t : State) : Nat → State → FrameNo → Prop
  | 0, s, _ => t = s
  | d + 1, s, e =>
    let m := { s with reception := { s.reception with
      current := e, expected := some (e + 1), sealLate := false,
      lost := s.reception.lost + 1 } }
    State.Misses t d ((m.openNotice e false).closeNotice e 0) (e + 1)

/-- A jump over d frames from e on to frame f: the open frame closed, each missed frame's notices, a
"resumed" report where coasting ends, then the open of f (R37, R43, R49). -/
def State.Jumps (s t : State) (e : FrameNo) (d : Nat) (f : FrameNo) (q : BitVec 2) : Prop :=
  ∃ c m w : State, s.ClosesFrame c ∧ State.Misses m d c e ∧
    (s.device ≠ .coasting → w = m) ∧
    (s.device = .coasting → m.Hands w (.reception .resumed (s.reception.coast + d)) 0) ∧
    w.Accepts t f q false none

/-- A resync: the open frame closed, the "resync" report handed with the coast count, the resync
notice to each tap in turn, every queued entry due and every timer absent, tap by tap, and the device
ACQUIRING with no frame expected (R50, R99, R146). -/
def State.Resyncs (s t : State) : Prop :=
  ∃ c v n : State, s.ClosesFrame c ∧ c.Hands v (.reception .resync c.reception.coast) 0 ∧
    State.MakesAllDue n (([0, 1, 2, 3, 4, 5, 6, 7] : List TapNo).foldl State.tapResync v)
      [0, 1, 2, 3, 4, 5, 6, 7] ∧
    State.ChangesDevice
      { n with reception := { n.reception with expected := none, coast := 0, gapTimer := none } }
      t .acquiring

/-! ## Invariants -/

/-- No two places of the spare stack and the slot table hold one address (R121). -/
def State.SlotsApart (s : State) : Prop := s.heldAddrs.Nodup

/-- Six capacities: outstanding transactions, the spare stack, slot table entries other than
RETURNING, settling lists, completion queues and the report queue (R14, R94, R97, R108, R114,
R141). -/
structure State.WithinCapacity (s : State) : Prop where
  txns : s.link.txns.length ≤ Config.maxOutstanding
  stack : s.supply.stack.length ≤ Config.stackCapacity
  table : s.workingSlots ≤ Config.slotCapacity
  settling : ∀ t : TapNo, (s.tap t).settling.length ≤ Config.settlingCapacity
  queue : ∀ t : TapNo, (s.tap t).queue.length ≤ Config.queueCapacity
  reports : s.reporter.queue.length ≤ Config.reportQueueCapacity

/-- Both alert lines stand as their functions say, released while nRESET is low (R150, R151,
R182). -/
structure State.LinesTrue (s : State) : Prop where
  fault : s.reporter.nFaultLow =
    (!s.nResetLow && faultLevelLow s.reporter.flags s.reporter.pinEnables)
  report : s.reporter.nReportLow =
    (!s.nResetLow && reportLevelLow s.regions.isSome s.reporter.alertEnable s.reporter.producer
      s.reporter.recorded)

/-- The runs of a map's present entries are in range (R7), and no two share a cell (R65). -/
structure MapEntries.Apart (m : MapEntries) : Prop where
  inRange : ∀ i e, entryOf m i = some e → runInRange e.start e.count = true
  apart : ∀ i j e f, i ≠ j → entryOf m i = some e → entryOf m j = some f →
    runsMeet e.start e.count f.start f.count = false

/-- Every present entry of a map is collected (R63, R71). -/
def MapEntries.AllCollected (m : MapEntries) : Prop :=
  ∀ i e, entryOf m i = some e → e.collected = true

/-- Both maps have runs apart; only a SUSPECT current map holds uncollected entries (R63, R65,
R67, R71). -/
structure State.MapsSound (s : State) : Prop where
  current : MapEntries.Apart s.layout.cur.entries
  pending : MapEntries.Apart s.layout.pend.entries
  collected : s.layout.cur.state ≠ .suspect → MapEntries.AllCollected s.layout.cur.entries
  pendingCollected : MapEntries.AllCollected s.layout.pend.entries

/-- What HALTED freezes (R54, R122, R180): everything but the links, the recorded directive index,
the directive consumer index, the batch and its fetch, the latched flags, and what a refill in
flight at the entry changes. -/
structure State.Frozen (s t : State) : Prop where
  nResetLow : t.nResetLow = s.nResetLow
  strap : t.strap = s.strap
  device : t.device = s.device
  regions : t.regions = s.regions
  reception : t.reception = s.reception
  layout : t.layout = s.layout
  taps : t.taps = s.taps
  working : t.supply.table.filter (fun e => e.state != .returning) =
    s.supply.table.filter (fun e => e.state != .returning)
  recordedFree : t.supply.recorded = s.supply.recorded
  reports : t.reporter.queue = s.reporter.queue
  dropped : t.reporter.dropped = s.reporter.dropped
  producer : t.reporter.producer = s.reporter.producer
  recordedReport : t.reporter.recorded = s.reporter.recorded
  interval : t.reporter.interval = s.reporter.interval
  pendingInterval : t.reporter.pendingInterval = s.reporter.pendingInterval
  alertEnable : t.reporter.alertEnable = s.reporter.alertEnable
  pinEnables : t.reporter.pinEnables = s.reporter.pinEnables
  nReportLow : t.reporter.nReportLow = s.reporter.nReportLow
  busError : s.reporter.flagSet .busError = true → t.reporter.flagSet .busError = true
  sequence : t.directive.sequence = s.directive.sequence
  statusEnable : t.directive.statusEnable = s.directive.statusEnable

/-- The commands that leave HALTED or reset the part: a fetched or given WARM_RESET and nRESET
(R180 to R182). -/
def resetsPart : Instr → Bool
  | .warmReset => true
  | .directiveFetchComplete bytes =>
    directiveCheck bytes && readDirective bytes == some .warmReset
  | .nresetLow => true
  | .nresetRise _ => true
  | _ => false

/-- In HALTED no report write and no status block write is in flight, no status block is requested
and the frame gap timer is stopped (R45, R142, R171, R179). -/
def State.HaltedQuiet (s : State) : Prop :=
  s.device = .halted →
    s.reporter.write = none ∧ s.directive.status = none ∧ s.directive.statusRequest = false ∧
      s.reception.gapTimer = none

end Sys2Proof.Machine
end

