-- ==== Sys2Proof/Certificates/Slice0/Obligations.lean ====
section
/-! DEFINITION. The statements for the provers, from the numbered rules of the spec. -/

open Sys2Proof Sys2Proof.Machine

/-! ## The queue, reset and the whole machine -/

/-- A step takes the command at the front of the queue on the state with the queue's rest, the queue
being the model's form of the events the spec lists one by one (95); on an empty queue the part
idles, the model's choice (log 3), for the spec gives no tick. The queue's order is the order of the
events, first in, first out, the model's choice (log 18). -/
def Obligations.StepTakesFrontCommand : Prop :=
  (∀ (s : State) (c : Instr) (rest : List Instr),
    s.pending = c :: rest → step s = exec c (s.withPending rest)) ∧
  (∀ (s : State) (rest : List Instr), s.withPending rest = { s with pending := rest }) ∧
  ∀ s : State, s.pending = [] → step s = .next s

/-- No command changes the queue, and only the rise of nRESET samples the strap (R154). -/
def Obligations.QueueAndStrapKept : Prop :=
  ∀ (c : Instr) (s t : State), exec c s = .next t →
    t.pending = s.pending ∧ ((∀ band, c ≠ .nresetRise band) → t.strap = s.strap)

/-- The values after a cold reset that R15, R31, R57, R60, R79, R105, R123, R124, R139, R141, R148 to
R151, R156 and R171 state: of R151 the pin enables of LAYOUT_MISMATCH and BAD_SLOT are set and the
other five clear. -/
def Obligations.ColdResetValues : Prop :=
  ∀ band : StrapBand,
    let s := State.coldReset band
    s.strap = band ∧ s.device = .stopped ∧ s.regions = none ∧ s.nResetLow = false ∧
    s.link.txns = [] ∧ s.link.ready = [] ∧ s.link.queue = [] ∧ s.link.inFlight = [] ∧
    s.link.lastGrant = .own ∧
    s.reception.openFrame = none ∧ s.reception.current = 0 ∧ s.reception.expected = none ∧
    s.reception.coast = 0 ∧ s.reception.sealLate = false ∧ s.reception.gapTimer = none ∧
    s.reception.mode = .unconfigured ∧ s.reception.gapLimit = 48 ∧ s.reception.coastLimit = 16 ∧
    s.reception.pendingTiming = none ∧ s.reception.received = 0 ∧ s.reception.lost = 0 ∧
    s.reception.synthesized = 0 ∧ s.reception.stray = 0 ∧ s.reception.late = 0 ∧
    s.layout.cur.state = .empty ∧ s.layout.cur.version = none ∧ s.layout.cur.mismatch = false ∧
    s.layout.pend.state = .none ∧ s.layout.pend.version = none ∧ s.layout.pend.mismatch = false ∧
    (∀ i, s.curEntry i = none ∧ entryOf s.layout.pend.entries i = none) ∧
    (∀ p i : Fin 8, s.layout.buffers[p].mask = 0 ∧ s.layout.buffers[p].words[i] = 0) ∧
    s.layout.badCheck = 0 ∧ s.layout.outOfRange = 0 ∧ s.layout.conflict = 0 ∧
    (∀ u : TapNo, (s.tap u).state = .closed ∧ (s.tap u).stream = none ∧ (s.tap u).inst = none ∧
      (s.tap u).lastNumber = 0 ∧
      (s.tap u).params = { policy := .pass, tolerance := 0, repeatLimit := 1, floor := 0 } ∧
      (s.tap u).pendingOpen = none ∧ (s.tap u).pendingAdjust = none ∧
      (s.tap u).openFrames = [] ∧ (s.tap u).settling = [] ∧ (s.tap u).queue = [] ∧
      (s.tap u).counters =
        { clean := 0, partly := 0, repeated := 0, silent := 0, starved := 0, abandoned := 0,
          discarded := 0 } ∧
      (s.tap u).retained = none ∧ (s.tap u).repeatCount = 0 ∧ (s.tap u).recovery = 0 ∧
      (s.tap u).holdLength = none ∧ (s.tap u).timer = none) ∧
    s.supply.consumer = 0 ∧ s.supply.recorded = 0 ∧ s.supply.stack = [] ∧
    s.supply.refill = none ∧ s.supply.table = [] ∧
    s.reporter.producer = 0 ∧ s.reporter.recorded = 0 ∧ s.reporter.queue = [] ∧
    s.reporter.dropped = 0 ∧ s.reporter.write = none ∧ s.reporter.interval = 4 ∧
    s.reporter.pendingInterval = none ∧
    (∀ f : Flag, s.reporter.flagSet f = decide (f = .powerOn)) ∧
    s.reporter.alertEnable = true ∧
    (∀ f : Flag, s.reporter.pinEnables.getLsbD f.bit =
      decide (f = .layoutMismatch ∨ f = .badSlot)) ∧
    s.reporter.nReportLow = false ∧ s.reporter.nFaultLow = false ∧
    s.directive.recorded = 0 ∧ s.directive.consumer = 0 ∧ s.directive.batch = .idle ∧
    s.directive.fetch = none ∧ s.directive.statusRequest = false ∧
    s.directive.statusEnable = false ∧ s.directive.sequence = 0 ∧ s.directive.status = none

/-- The state after reset meets every invariant of Safety. State.reset holds the values of a cold
reset with the first strap band, the model's choice (log 7). -/
def Obligations.InvariantsHoldAtReset : Prop :=
  State.reset.SlotsApart ∧ State.reset.WithinCapacity ∧ State.reset.LinesTrue ∧
    State.reset.MapsSound ∧ State.reset.HaltedQuiet

/-- No step brings a slot address into two places of the spare stack and the slot table (R121). -/
def Obligations.SlotAddressesStayApart : Prop :=
  ∀ s t : State, s.SlotsApart → step s = .next t → t.SlotsApart

/-- Every step keeps six capacities: 16 outstanding transactions, 32 addresses on the
spare stack, 96 slot table entries in states other than RETURNING, 16 completions in each settling
list, 8 entries in each completion queue and 32 reports in the report queue (R14, R94, R97, R108,
R114, R141). -/
def Obligations.CapacitiesKept : Prop :=
  ∀ s t : State, s.WithinCapacity → step s = .next t → t.WithinCapacity

/-- Every step keeps nREPORT and nFAULT at the levels that R150 and R151 give them. -/
def Obligations.AlertLinesStayTrue : Prop :=
  ∀ s t : State, s.LinesTrue → step s = .next t → t.LinesTrue

/-- Every step keeps the runs of both maps in range and apart (R7, R65, R71). -/
def Obligations.MapsStaySound : Prop :=
  ∀ s t : State, s.MapsSound → step s = .next t → t.MapsSound

/-- Every step keeps HALTED quiet: no report and no status block in flight or requested, no frame
gap timer running (R45, R142, R171, R179). -/
def Obligations.HaltedStaysQuiet : Prop :=
  ∀ s t : State, s.HaltedQuiet → step s = .next t → t.HaltedQuiet

/-- In HALTED no command but a reset changes anything R180 freezes, and the device stays HALTED. With
no refill in flight slot supply keeps everything, and with one in flight only a refill's answer changes
more of it than the refill itself (R122). A flag is newly set by a directive rejected, given or fetched,
or by the addresses that a refill skips, and one is cleared by an executed CLEAR_FAULTS that names it
and is not BUS_ERROR (R149, R180). -/
def Obligations.HaltedFreezesState : Prop :=
  ∀ (c : Instr) (s t : State), s.device = .halted → s.HaltedQuiet → resetsPart c = false →
    exec c s = .next t →
    s.Frozen t ∧
    -- Slot supply (R111, R122).
    (s.supply.refill = none → t.supply = s.supply) ∧
    ((∀ data, c ≠ .refillComplete data) →
      t.supply = { s.supply with refill := t.supply.refill }) ∧
    -- The flags (R149, R180).
    (∀ f : Flag, s.reporter.flagSet f = false → t.reporter.flagSet f = true →
      (f = .directiveRejected ∧
        ((∃ d : Directive, c = d.command) ∨ ∃ bytes, c = .directiveFetchComplete bytes)) ∨
      (f = .badSlot ∧ s.supply.refill ≠ none ∧ ∃ data, c = .refillComplete data)) ∧
    (∀ f : Flag, s.reporter.flagSet f = true → t.reporter.flagSet f = false →
      f ≠ .busError ∧ ∃ flags : Byte, flags.getLsbD f.bit = true ∧
        (c = .clearFaults flags ∨ ∃ bytes, c = .directiveFetchComplete bytes ∧
          directiveCheck bytes = true ∧ readDirective bytes = some (.clearFaults flags))) ∧
    -- nFAULT stays low (R180).
    (s.reporter.flagSet .busError = true → s.reporter.nFaultLow = true →
      t.reporter.nFaultLow = true)

/-- When nRESET falls every transaction in flight is lost and both lines are
released, and while it is low nothing is issued (R182). That the part then takes no command but the
rise, and keeps the rest of its state until it, is the model's choice (log 6). -/
def Obligations.ResetFallLosesTransactions : Prop :=
  (∀ s : State, ∃ t, exec .nresetLow s = .next t ∧ t.nResetLow = true ∧
    t.link.txns = [] ∧ t.link.queue = [] ∧ t.link.inFlight = [] ∧ t.link.ready = [] ∧
    t.reporter.nReportLow = false ∧ t.reporter.nFaultLow = false ∧ t.ownWaiting = none ∧
    t.strap = s.strap ∧ t.pending = s.pending) ∧
  ∀ (c : Instr) (s : State), s.nResetLow = true → c ≠ .nresetLow →
    (∀ band, c ≠ .nresetRise band) → exec c s = .next s

/-- When nRESET rises every block holds its cold reset values and the band present is kept; the
directive page bases are those of R154 (R154, R182). -/
def Obligations.ResetRiseGivesColdReset : Prop :=
  ∀ (s : State) (band : StrapBand), s.nResetLow = true →
    exec (.nresetRise band) s = .next { State.coldReset band with pending := s.pending } ∧
    pageBase .band1 = 0x3FFFF000 ∧ pageBase .band2 = 0x7FFFF000 ∧
    pageBase .band3 = 0xBFFFF000 ∧ pageBase .band4 = 0xFFFFF000

/-! ## The upstream link -/

/-- A write accepted in STOPPED or HALTED reaches DRAM with the address and data it arrived with:
its pieces carry its beats, in order, at their own addresses, and nothing but the links changes
(R18). So does, in ACQUIRING, RUNNING and COASTING, a write of any length with no beat in the cell
area, no header beat that opens or seals a frame and no layout beat offered to a buffer: to the
other header words or forms, the unused part, the tail, the directive page, the rings, a slot or
ordinary DRAM (R4, R17, R20). Pieces to an index word are marked to be snooped in every device state
(R19). The area of every address: the directive page by offset in every device state; in ACQUIRING,
RUNNING and COASTING then the landing window by offset, the two rings over their configured sizes,
and a slot over 4 KiB at its entry's address; else ordinary DRAM (R3, R17, R18). Beat addresses are
32-bit sums, so the address after 0xFFFFFFFC is 0, the model's choice (log 13). -/
def Obligations.StoppedWritePassesUnaltered : Prop :=
  (∀ (s : State) (tag : Tag) (addr : Word) (kind : BurstKind) (beats : List WriteBeat),
    s.Up → s.device.active = false → linkPresents addr beats.length = true → s.linkOpen = true →
    ∃ t, exec (.upstreamWriteAccept tag addr kind beats) s = .next t ∧
      s.ForwardsWrite t tag addr kind beats) ∧
  (∀ (s : State) (tag : Tag) (addr : Word) (kind : BurstKind) (beats : List WriteBeat),
    s.Up → s.device.active = true → linkPresents addr beats.length = true → s.linkOpen = true →
    (∀ n b, beats[n]? = some b → s.PassesBeat (beatAddr addr kind n) b) →
    ∃ t, exec (.upstreamWriteAccept tag addr kind beats) s = .next t ∧
      s.ForwardsWrite t tag addr kind beats) ∧
  (∀ s : State, (s.device.active = true ↔
      s.device = .acquiring ∨ s.device = .running ∨ s.device = .coasting) ∧
    ∀ r, s.regions = some r → s.landingBase = r.landingBase) ∧
  -- The areas of the region decoder (R3, R17).
  ∀ (s : State) (a : Word),
    let within := fun (base : Word) (size : Nat) =>
      base.toNat ≤ a.toNat ∧ a.toNat < base.toNat + size
    let page := pageBase s.strap
    let off := a.toNat - page.toNat
    let slotOrDram :=
      ((∃ e ∈ s.supply.table, within e.addr 4096) →
        ∃ e ∈ s.supply.table, within e.addr 4096 ∧ s.areaOf a = .slot e.addr) ∧
      ((∀ e ∈ s.supply.table, ¬ within e.addr 4096) → s.areaOf a = .dram)
    (within page 4096 →
      (off < 4 → s.areaOf a = .index .directive) ∧
      (4 ≤ off → off < 8 → s.areaOf a = .index .report) ∧
      (8 ≤ off → off < 12 → s.areaOf a = .index .free) ∧
      (12 ≤ off → s.areaOf a = .page)) ∧
    (¬ within page 4096 → s.device.active = false → s.areaOf a = .dram) ∧
    (¬ within page 4096 → s.device.active = true → s.regions = none → slotOrDram) ∧
    ∀ r, ¬ within page 4096 → s.device.active = true → s.regions = some r →
      let off := a.toNat - r.landingBase.toNat
      (within r.landingBase 32768 →
        (off < 64 → s.areaOf a = .header) ∧
        (64 ≤ off → off < 320 → s.areaOf a = .layoutBlock) ∧
        (320 ≤ off → off < 1024 → s.areaOf a = .unused) ∧
        (1024 ≤ off → off < 31744 → s.areaOf a = .cells) ∧
        (31744 ≤ off → s.areaOf a = .tail)) ∧
      (¬ within r.landingBase 32768 → within r.reportBase (64 * r.reportSize) →
        s.areaOf a = .reportRing) ∧
      (¬ within r.landingBase 32768 → ¬ within r.reportBase (64 * r.reportSize) →
        within r.freeBase (4 * r.freeSize) → s.areaOf a = .freeRing) ∧
      (¬ within r.landingBase 32768 → ¬ within r.reportBase (64 * r.reportSize) →
        ¬ within r.freeBase (4 * r.freeSize) → slotOrDram)

/-- A read is forwarded to DRAM with its own addresses in every device state, and its entry joins
the outstanding-transaction table, with whether it was accepted in ACQUIRING, RUNNING or COASTING
(R14, R15, R20, R29). Its beats, each forwarded at its own address, are cut by R21, where only the
first beat, a change of area and an address that does not follow start a piece; a piece keeps the
burst kind and the number of its first beat (R16, R21). Beat addresses are 32-bit sums, so the
address after 0xFFFFFFFC is 0, the model's choice (log 13). That an entry is numbered by a serial
count is the model's choice (log 29). -/
def Obligations.ReadIsForwarded : Prop :=
  ∀ (s : State) (tag : Tag) (addr : Word) (kind : BurstKind) (len : Nat),
    s.Up → linkPresents addr len = true → s.linkOpen = true →
    ∃ t x planned groups pieces, exec (.upstreamReadAccept tag addr kind len) s = .next t ∧
      s.OnlyLink t ∧
      planned = (List.range len).map (fun n =>
        { plan := BeatPlan.forward (s.areaOf (beatAddr addr kind n)) (beatAddr addr kind n)
          number := n, beat := none }) ∧
      CutInto kind planned groups ∧
      (∀ p q : PlannedBeat, p ∈ planned → q ∈ planned →
        (p.plan.Joins kind q.plan ↔ s.areaOf q.plan.addr = s.areaOf p.plan.addr ∧
          q.plan.addr = if kind = .fixed then p.plan.addr else p.plan.addr + 4)) ∧
      pieces = groups.filterMap (fun g => match g with
        | [] => none
        | b :: _ => some
          { txn := s.link.serial, tag := tag, write := false, addr := b.plan.addr, kind := kind
            len := g.length, first := b.number, beats := [], redirect := none, snoop := none }) ∧
      t.link = { s.link with
        queue := s.link.queue ++ pieces, txns := s.link.txns ++ [x]
        serial := s.link.serial + 1 } ∧
      x.id = s.link.serial ∧
      pieces.flatMap Piece.addrs = (List.range len).map (beatAddr addr kind) ∧
      (∀ p ∈ pieces, p.redirect = none ∧ p.snoop = none ∧ p.write = false ∧ p.tag = tag ∧
        p.txn = x.id) ∧
      x.tag = tag ∧ x.write = false ∧ x.len = len ∧
      x.unanswered = pieces.length ∧ x.err = false ∧ x.data = List.replicate len none ∧
      x.activeAtAccept = s.device.active

/-- An accepted write's entry joins the outstanding-transaction table with every downstream piece
unanswered; a write of absorbed beats alone is ready at once (R15, R22). Its beats are resolved at
the acceptance in beat order, each against the state the beats before it leave (R14), and cut by R21
into forwarded, redirected, linearised and absorbed pieces: an absorbed one reaches no link, any
other takes the address, kind, beats and slot entry of its beats, and each redirected one raises the
outstanding count of its entry (R16, R19, R25, R27). A beat outside the cell area is forwarded at
its own address (R20). Beat addresses are 32-bit sums, so the address after 0xFFFFFFFC is 0, the
model's choice (log 13). That an entry is numbered by a serial count is the model's choice (log 29).
-/
def Obligations.WriteEntersTable : Prop :=
  (∀ (s : State) (tag : Tag) (addr : Word) (kind : BurstKind) (beats : List WriteBeat),
    s.Up → linkPresents addr beats.length = true → s.linkOpen = true →
    ∃ t x pieces, exec (.upstreamWriteAccept tag addr kind beats) s = .next t ∧
      t.link.txns = s.link.txns ++ [x] ∧ x.tag = tag ∧ x.write = true ∧
      x.id = s.link.serial ∧ t.link.serial = s.link.serial + 1 ∧ x.len = beats.length ∧
      x.data = [] ∧ t.link.delivered = s.link.delivered ∧
      x.unanswered = pieces.length ∧ x.err = false ∧ x.activeAtAccept = s.device.active ∧
      t.link.queue = s.link.queue ++ pieces ∧ (∀ p ∈ pieces, p.txn = x.id ∧ p.tag = tag) ∧
      t.link.ready = s.link.ready ++ (if pieces = [] then [x.id] else []) ∧
      t.link.inFlight = s.link.inFlight ∧ t.link.lastGrant = s.link.lastGrant ∧
      t.nResetLow = s.nResetLow ∧ t.strap = s.strap ∧ t.regions = s.regions) ∧
  -- The beats cut into pieces (R21).
  (∀ (s : State) (tag : Tag) (addr : Word) (kind : BurstKind) (beats : List WriteBeat),
    s.Up → linkPresents addr beats.length = true → s.linkOpen = true →
    ∃ t u planned groups pieces, exec (.upstreamWriteAccept tag addr kind beats) s = .next t ∧
      s.writeBeats addr kind 0 beats = (u, planned) ∧ CutInto kind planned groups ∧
      pieces = groups.filterMap (fun g => match g with
        | [] => none
        | b :: _ =>
          if b.plan.handling = .absorbed then none
          else some
            { txn := s.link.serial, tag := tag, write := true, addr := b.plan.addr
              kind := if b.plan.handling = .forwarded then kind else .incr
              len := g.length, first := b.number, beats := g.filterMap (·.beat)
              redirect := b.plan.redirect
              snoop := match b.plan.area with
                | .index w => some w
                | _ => none }) ∧
      t.link.queue = s.link.queue ++ pieces ∧
      t = { u with link := t.link, supply := { u.supply with table := t.supply.table } } ∧
      ∀ a, t.slot a = (u.slot a).map (fun e => { e with
        outstanding := e.outstanding +
          (pieces.filter (fun p => p.redirect.map (·.1) == some a)).length })) ∧
  -- The beats resolved in order, and a beat outside the cell area (R14, R20).
  ∀ (s : State) (addr : Word) (kind : BurstKind) (n : Nat) (b : WriteBeat) (rest : List WriteBeat),
    s.writeBeats addr kind n [] = (s, []) ∧
    (∃ u v plan plans, s.writeBeat (beatAddr addr kind n) b = (u, plan) ∧
      u.writeBeats addr kind (n + 1) rest = (v, plans) ∧
      s.writeBeats addr kind n (b :: rest) =
        (v, { plan := plan, number := n, beat := some b } :: plans)) ∧
    ∀ a u plan, s.writeBeat a b = (u, plan) →
      (s.areaOf a ≠ .cells → plan =
        { area := s.areaOf a, handling := .forwarded, addr := a, stream := none, tapped := none,
          redirect := none }) ∧
      (s.PassesBeat a b → u = s)

/-- While 16 transactions are outstanding no further one is accepted (R14), and a transaction the
link does not present is turned away by name (log 8, log 9: the model's form of both). The link
presents word-aligned addresses and 1 to 16 beats; beat b of an INCR burst is at address + 4b, every
beat of a FIXED one at the address (R14). That this sum is modulo 2^32, so that the address after
0xFFFFFFFC is 0, is the model's choice (log 13). -/
def Obligations.LinkTurnsAway : Prop :=
  (∀ (s : State) (tag : Tag) (addr : Word) (kind : BurstKind) (beats : List WriteBeat) (len : Nat),
    s.Up →
    (linkPresents addr beats.length = true → 16 ≤ s.link.txns.length →
      exec (.upstreamWriteAccept tag addr kind beats) s = .next s) ∧
    (linkPresents addr len = true → 16 ≤ s.link.txns.length →
      exec (.upstreamReadAccept tag addr kind len) s = .next s) ∧
    (linkPresents addr beats.length = false →
      exec (.upstreamWriteAccept tag addr kind beats) s = .refused .notPresented) ∧
    (linkPresents addr len = false →
      exec (.upstreamReadAccept tag addr kind len) s = .refused .notPresented)) ∧
  (∀ (addr : Word) (len : Nat),
    linkPresents addr len = true ↔ addr.toNat % 4 = 0 ∧ 1 ≤ len ∧ len ≤ 16) ∧
  (∀ s : State, s.linkOpen = true ↔ s.link.txns.length < 16) ∧
  ∀ (addr : Word) (b : Nat),
    beatAddr addr .incr b = addr + BitVec.ofNat 32 (4 * b) ∧ beatAddr addr .fixed b = addr

/-- A response is delivered for a complete transaction that no earlier undelivered one shares its
tag with, ERROR if and only if its error mark is set, and its entry is freed; of the complete ones
in the order of completion the first that no earlier one of its tag holds back is delivered (R15).
That a delivery with nothing to deliver leaves the state, and the field that keeps what was last
delivered, are the model's choice (log 5, log 28). Nothing is delivered exactly when every complete
transaction is held back by an earlier one of its tag (R15); entries are told apart by a serial
number, the model's choice (log 29). -/
def Obligations.ResponseDelivered : Prop :=
  (∀ s : State, s.Up → ∃ t, exec .upstreamResponseDelivery s = .next t ∧ s.OnlyLink t ∧
    ((s.link.nextDelivery = none ∧ t = s) ∨
      ∃ x pre post, s.link.txns = pre ++ x :: post ∧ x.id ∈ s.link.ready ∧
        (∀ u ∈ pre, u.tag ≠ x.tag) ∧
        t.link.delivered = some
          { tag := x.tag, write := x.write, resp := if x.err then .error else .ok,
            data := x.data.map (·.getD 0) } ∧
        t.link.txns = s.link.txns.filter (fun u => u.id != x.id) ∧
        t.link.ready = s.link.ready.filter (fun i => i != x.id) ∧
        t.link.queue = s.link.queue ∧ t.link.inFlight = s.link.inFlight ∧
        t.link.serial = s.link.serial ∧ t.link.lastGrant = s.link.lastGrant)) ∧
  (∀ (s : State) (x : Txn) (pre post : List Txn) (blocked rest : List Nat),
    s.Up → s.link.txns = pre ++ x :: post → (s.link.txns.map (·.id)).Nodup →
    s.link.ready = blocked ++ x.id :: rest → (∀ u ∈ pre, u.tag ≠ x.tag) →
    (∀ i ∈ blocked, ∃ y before after, s.link.txns = before ++ y :: after ∧ y.id = i ∧
      ∃ u ∈ before, u.tag = y.tag) →
    ∃ t, exec .upstreamResponseDelivery s = .next t ∧
      t.link.delivered = some x.response ∧ x ∉ t.link.txns) ∧
  ∀ s : State, (s.link.txns.map (·.id)).Nodup →
    (s.link.nextDelivery = none ↔ ∀ x pre post, s.link.txns = pre ++ x :: post →
      x.id ∈ s.link.ready → ∃ u ∈ pre, u.tag = x.tag)

/-! ## The region decoder -/

/-- A LINEAR cell word of a bound stream, whose logical frame is open with a slot, is written to
that slot at offset 4w and raises its outstanding count (R5, R8, R9, R10, R23 step 9, R24, R27). The
names of R23 that this and the statements beside it use: the lag of a class is 0, 3c mod 5 or 7c mod
10 and takes every value below the depth once (R9); the stream of cell k is the present stream of the
current map whose cell run contains k (R7); the tap of a stream is a RUNNING or HOLDING tap naming it,
with its instance (R80); the slot of a logical frame is that of the open frame of its number, none
when no frame of that number is open (R23 steps 8 and 9). -/
def Obligations.CellWordRedirected : Prop :=
  (∀ (s : State) (tag : Tag) (addr : Word) (kind : BurstKind) (b : WriteBeat) (o : OpenRecord)
    (k j : Nat) (i : StreamId) (e : MapEntry) (u : TapNo) (n : TapInstance) (a : Word),
    s.Up → s.linkOpen = true → addr.toNat % 4 = 0 → s.areaOf addr = .cells →
    s.reception.mode = .linear → s.reception.openFrame = some o →
    (addr - s.landingBase).toNat = 1024 + 32 * k + 4 * j → j < 8 →
    s.streamAt k = some (i, e) → s.boundTap i = some (u, n) → n.restart = false →
    n.depth.lag ((8 * (k - e.start) + j) % n.depth.frames) ≤ n.age →
    (s.tap u).slotFor
      (o.num - BitVec.ofNat 12 (n.depth.lag ((8 * (k - e.start) + j) % n.depth.frames))) = some a →
    ∃ t p, exec (.upstreamWriteAccept tag addr kind [b]) s = .next t ∧
      s.OnlyLinkSupply t ∧ t.link.queue = s.link.queue ++ [p] ∧
      p.addr = a + BitVec.ofNat 32 (4 * (8 * (k - e.start) + j)) ∧ p.beats = [b] ∧
      p.kind = .incr ∧ p.redirect = some (a, (8 * (k - e.start) + j) % n.depth.frames) ∧
      t.slot a = (s.slot a).map (fun x => { x with outstanding := x.outstanding + 1 }) ∧
      ∀ a', a' ≠ a → t.slot a' = s.slot a') ∧
  -- The lag classes of each depth (R9).
  (∀ c : Nat, Depth.d1.lag c = 0 ∧ Depth.d5.lag c = 3 * c % 5 ∧ Depth.d10.lag c = 7 * c % 10) ∧
  (Depth.d1.frames = 1 ∧ Depth.d5.frames = 5 ∧ Depth.d10.frames = 10) ∧
  (∀ (d : Depth) (l : Nat), l < d.frames →
    ∃ c, c < d.frames ∧ d.lag c = l ∧ ∀ c', c' < d.frames → d.lag c' = l → c' = c) ∧
  -- The stream of a cell (R7).
  (∀ (s : State) (k : Nat),
    (∀ i e, s.streamAt k = some (i, e) →
      s.layout.cur.entries[i] = some e ∧ e.start ≤ k ∧ k < e.start + e.count) ∧
    ∀ i e, s.layout.cur.entries[i] = some e → e.start ≤ k → k < e.start + e.count →
      s.streamAt k ≠ none ∧
      ((∀ j f, j ≠ i → s.layout.cur.entries[j] = some f →
        ¬ (f.start ≤ k ∧ k < f.start + f.count)) → s.streamAt k = some (i, e))) ∧
  -- The tap bound to a stream (R23, R80).
  (∀ (s : State) (i : StreamId),
    let names := fun (u : TapNo) (n : TapInstance) =>
      ((s.tap u).state = .running ∨ (s.tap u).state = .holding) ∧ (s.tap u).stream = some i ∧
        (s.tap u).inst = some n
    (∀ u n, s.boundTap i = some (u, n) → names u n) ∧
    ∀ u n, names u n → s.boundTap i ≠ none ∧
      ((∀ v m, names v m → v = u) → s.boundTap i = some (u, n))) ∧
  -- The slot of a logical frame (R23 steps 8 and 9).
  ∀ (tp : Tap) (g : FrameNo),
    ((∀ l ∈ tp.openFrames, l.frame ≠ g) → tp.slotFor g = none) ∧
    ∀ l pre post, tp.openFrames = pre ++ l :: post → l.frame = g →
      (∀ m ∈ pre, m.frame ≠ g) → tp.slotFor g = l.slot

/-- A LINEAR cell word of a bound stream whose instance awaits restart, or whose
logical frame is earlier than the instance start or starved, is absorbed: no piece, no slot entry
changed (R23 steps 6 to 8, R25). That a logical frame neither early nor open is absorbed with the
starved ones is the model's choice (log 24). -/
def Obligations.CellWordAbsorbed : Prop :=
  ∀ (s : State) (tag : Tag) (addr : Word) (kind : BurstKind) (b : WriteBeat) (o : OpenRecord)
    (k j : Nat) (i : StreamId) (e : MapEntry) (u : TapNo) (n : TapInstance),
    s.Up → s.linkOpen = true → addr.toNat % 4 = 0 → s.areaOf addr = .cells →
    s.reception.mode = .linear → s.reception.openFrame = some o →
    (addr - s.landingBase).toNat = 1024 + 32 * k + 4 * j → j < 8 →
    s.streamAt k = some (i, e) → s.boundTap i = some (u, n) →
    (n.restart = true ∨ n.age < n.depth.lag ((8 * (k - e.start) + j) % n.depth.frames) ∨
      (s.tap u).slotFor
        (o.num - BitVec.ofNat 12 (n.depth.lag ((8 * (k - e.start) + j) % n.depth.frames))) =
          none) →
    ∃ t, exec (.upstreamWriteAccept tag addr kind [b]) s = .next t ∧ s.OnlyLink t ∧
      t.link.queue = s.link.queue ∧ t.link.ready = s.link.ready ++ [s.link.serial]

/-- What becomes of one cell area beat. In LINEAR mode with no frame open it is forwarded unaltered
and counted late or stray by the seal-late mark; a word of no present stream, or of a stream no tap
is bound to, is forwarded unaltered. In STREAMED mode a beat outside the port is absorbed and
stray; a port beat with no frame open is absorbed and counted late or stray; at cursor 7680 it is
absorbed, stray and latches LANDING_OVERRUN; below it, it takes k = cursor / 8 and j = cursor mod 8
and the cursor rises by one: an untapped word is linearised to the landing base + 1024 + 32k + 4j as
INCR, and a tapped word is absorbed, or redirected to its slot at 4w, by that k and j (R5, R6, R8 to
R10, R23, R24 to R27, R41, R42). A beat of a longer write is resolved in the same way, and its plan is
what R21 tells words apart by: the handling, the downstream address, the stream, and in a tapped
stream the lag class and logical frame. That a logical frame neither early nor open is absorbed is the
model's choice (log 24), and so is the current frame number for the logical frame of a LINEAR word
with no frame open, which tells words apart and no more (log 32). -/
def Obligations.PortBeatAdvancesCursor : Prop :=
  (∀ (s : State) (tag : Tag) (addr : Word) (kind : BurstKind) (b : WriteBeat),
    s.Up → s.linkOpen = true → addr.toNat % 4 = 0 → s.areaOf addr = .cells →
    let off := (addr - s.landingBase).toNat
    let r := s.reception
    let stray := { r with stray := r.stray + 1 }
    let outside := if r.sealLate then { r with late := r.late + 1 } else stray
    let untapped := fun k => s.streamAt k = none ∨
      ∃ i e, s.streamAt k = some (i, e) ∧ s.boundTap i = none
    ∃ t, exec (.upstreamWriteAccept tag addr kind [b]) s = .next t ∧
      t = { s with
        link := t.link, reception := t.reception, supply := t.supply, reporter := t.reporter } ∧
      (r.mode = .linear → r.openFrame = none →
        t.reception = outside ∧ t.supply = s.supply ∧ t.reporter = s.reporter ∧
        s.QueuesPiece t addr kind b none) ∧
      (∀ o k j, r.mode = .linear → r.openFrame = some o → off = 1024 + 32 * k + 4 * j → j < 8 →
        untapped k → s.OnlyLink t ∧ s.QueuesPiece t addr kind b none) ∧
      (r.mode = .streamed → 1056 ≤ off →
        t.reception = stray ∧ t.supply = s.supply ∧ t.reporter = s.reporter ∧ s.Absorbs t) ∧
      (r.mode = .streamed → off < 1056 → r.openFrame = none →
        t.reception = outside ∧ t.supply = s.supply ∧ t.reporter = s.reporter ∧ s.Absorbs t) ∧
      ∀ o, r.mode = .streamed → off < 1056 → r.openFrame = some o →
        (7680 ≤ o.cursor → t.reception = stray ∧ t.supply = s.supply ∧
          t.reporter = { s.reporter with
            flags := t.reporter.flags, nFaultLow := t.reporter.nFaultLow } ∧
          (∀ f : Flag, t.reporter.flagSet f = (s.reporter.flagSet f || f == .landingOverrun)) ∧
          s.Absorbs t) ∧
        (o.cursor < 7680 →
          let k := o.cursor / 8
          let j := o.cursor % 8
          t.reception = { r with openFrame := some { o with cursor := o.cursor + 1 } } ∧
          t.reporter = s.reporter ∧
          (untapped k → t.supply = s.supply ∧
            s.QueuesPiece t (s.landingBase + BitVec.ofNat 32 (1024 + 32 * k + 4 * j)) .incr b
              none) ∧
          ∀ i e u n, s.streamAt k = some (i, e) → s.boundTap i = some (u, n) →
            let w := 8 * (k - e.start) + j
            let c := w % n.depth.frames
            let g := o.num - BitVec.ofNat 12 (n.depth.lag c)
            ((n.restart = true ∨ n.age < n.depth.lag c ∨ (s.tap u).slotFor g = none) →
              t.supply = s.supply ∧ s.Absorbs t) ∧
            ∀ a, n.restart = false → n.depth.lag c ≤ n.age → (s.tap u).slotFor g = some a →
              s.QueuesPiece t (a + BitVec.ofNat 32 (4 * w)) .incr b (some (a, c)) ∧
              t.slot a = (s.slot a).map (fun x => { x with outstanding := x.outstanding + 1 }) ∧
              ∀ a', a' ≠ a → t.slot a' = s.slot a')) ∧
  -- The plan of a cell area beat, which R21 cuts by, and what the beat does to the state.
  ∀ (s v : State) (a : Word) (b : WriteBeat) (p : BeatPlan),
    s.areaOf a = .cells → s.writeBeat a b = (v, p) →
    let off := (a - s.landingBase).toNat
    let r := s.reception
    let stray := { r with stray := r.stray + 1 }
    let outside := if r.sealLate then { r with late := r.late + 1 } else stray
    let gone := p =
      { area := .cells, handling := .absorbed, addr := a, stream := none, tapped := none,
        redirect := none }
    (∀ o k j, r.mode = .linear → r.openFrame = some o → off = 1024 + 32 * k + 4 * j → j < 8 →
      v = s ∧ p.ResolvesWord s o.num k j .forwarded a) ∧
    (∀ k j, r.mode = .linear → r.openFrame = none → off = 1024 + 32 * k + 4 * j → j < 8 →
      v = { s with reception := outside } ∧ ∃ q : BeatPlan,
        q.ResolvesWord s r.current k j .forwarded a ∧
        p = { q with handling := .forwarded, addr := a, redirect := none }) ∧
    (r.mode = .streamed → 1056 ≤ off → v = { s with reception := stray } ∧ gone) ∧
    (r.mode = .streamed → off < 1056 → r.openFrame = none →
      v = { s with reception := outside } ∧ gone) ∧
    ∀ o, r.mode = .streamed → off < 1056 → r.openFrame = some o →
      (7680 ≤ o.cursor → gone ∧
        v = State.latch { s with reception := stray } .landingOverrun) ∧
      (o.cursor < 7680 →
        v = { s with reception :=
          { r with openFrame := some { o with cursor := o.cursor + 1 } } } ∧
        p.ResolvesWord s o.num (o.cursor / 8) (o.cursor % 8) .linearised
          (s.landingBase + BitVec.ofNat 32 (1024 + 32 * (o.cursor / 8) + 4 * (o.cursor % 8))))

/-! ## The arbiter -/

/-- The oldest forwarded piece is granted when no own burst waits or the own side had
the last grant; the next burst of the most preferred waiting own access is granted when no forwarded
piece waits or the forwarded side had the last grant (R31, R32). That a grant with nothing waiting
leaves the state is the model's choice (log 5). The waiting bursts are those of the fetch, the
refill, the report write and the status block write, in the preference of R32's table. The grant of an
own burst takes it from its access and changes nothing else but the link; a refill counts the entries
of its issued bursts, by which R111 judges it (R31, R32, R111). -/
def Obligations.GrantsAlternate : Prop :=
  (∀ (s : State) (p : Piece) (rest : List Piece),
    s.Up → s.link.queue = p :: rest →
    ((∀ k b bs, s.unissued k ≠ some (b :: bs)) ∨ s.link.lastGrant = .own) →
    ∃ t, exec .arbiterGrant s = .next t ∧ s.OnlyLink t ∧
      t.link = { s.link with
        lastGrant := .forwarded, queue := rest, inFlight := s.link.inFlight ++ [.piece p] }) ∧
  (∀ (s : State) (k : OwnKind) (b : OwnBurst) (rest : List OwnBurst),
    s.Up → s.unissued k = some (b :: rest) →
    (∀ k' b' bs', ownPreference k' < ownPreference k → s.unissued k' ≠ some (b' :: bs')) →
    (s.link.queue = [] ∨ s.link.lastGrant = .forwarded) →
    let link := { s.link with lastGrant := .own, inFlight := s.link.inFlight ++ [.own b .live] }
    ∃ t, exec .arbiterGrant s = .next t ∧
      t.unissued k = some rest ∧ (∀ k', k' ≠ k → t.unissued k' = s.unissued k') ∧
      (k = .fetch →
        t = { s with link := link, directive := { s.directive with fetch := some rest } }) ∧
      (k = .refill → ∃ f, s.supply.refill = some f ∧
        t = { s with link := link, supply := { s.supply with
          refill := some
            { f with issuedEntries := f.issuedEntries + b.len, waiting := rest } } }) ∧
      (k = .report → ∃ w, s.reporter.write = some w ∧
        t = { s with
          link := link, reporter := { s.reporter with write := some { w with waiting := rest } } }) ∧
      (k = .status →
        t = { s with link := link, directive := { s.directive with status := some rest } })) ∧
  (∀ s : State, s.Up → s.link.queue = [] → (∀ k b bs, s.unissued k ≠ some (b :: bs)) →
    exec .arbiterGrant s = .next s) ∧
  ∀ s : State,
    s.unissued .fetch = s.directive.fetch ∧
    s.unissued .refill = s.supply.refill.map (fun f => f.waiting) ∧
    s.unissued .report = s.reporter.write.map (fun w => w.waiting) ∧
    s.unissued .status = s.directive.status

/-! ## Responses to forwarded pieces -/

/-- A response answers the oldest unanswered piece of its tag: the transaction's unanswered count
falls by one and an ERROR sets its error mark; at the moment the count reaches zero the transaction
is complete, behind those complete before it (R15, R16, R22). The oldest unanswered piece of a tag,
and the oldest unanswered burst of an own access kind, whose tags are 16 to 19, is the first of them
in the order they were issued (R16). -/
def Obligations.PieceResponseRecorded : Prop :=
  (∀ (s : State) (tag : Tag) (resp : Resp) (data : List Word) (p : Piece) (pre post : List Issued),
    s.Up → s.link.inFlight = pre ++ .piece p :: post → p.tag = tag →
    (∀ q, .piece q ∈ pre → q.tag ≠ tag) → data.length = (if p.write then 0 else p.len) →
    ∃ t, exec (.forwardedPieceResponse tag resp data) s = .next t ∧
      t.link = { s.link with
        inFlight := pre ++ post, txns := t.link.txns, ready := t.link.ready } ∧
      t.link.txns.map (fun x => (x.id, x.tag, x.len, x.unanswered, x.err)) =
        s.link.txns.map (fun x =>
          if x.id = p.txn then (x.id, x.tag, x.len, x.unanswered - 1, x.err || resp == .error)
          else (x.id, x.tag, x.len, x.unanswered, x.err)) ∧
      ((∃ x ∈ s.link.txns, x.id = p.txn ∧ x.unanswered - 1 = 0) →
        t.link.ready = s.link.ready ++ [p.txn]) ∧
      ((∀ x ∈ s.link.txns, x.id = p.txn → x.unanswered - 1 ≠ 0) →
        t.link.ready = s.link.ready) ∧
      (p.redirect = none → p.snoop = none → s.OnlyLink t)) ∧
  (∀ (s : State) (tag : Tag) (p : Piece), s.oldestPiece tag = some p ↔
    ∃ pre post, s.link.inFlight = pre ++ .piece p :: post ∧ p.tag = tag ∧
      ∀ q, .piece q ∈ pre → q.tag ≠ tag) ∧
  (ownTag .fetch = 16 ∧ ownTag .refill = 17 ∧ ownTag .report = 18 ∧ ownTag .status = 19) ∧
  (∀ (s : State) (k : OwnKind) (b : OwnBurst) (life : Life), s.oldestBurst k = some (b, life) ↔
    ∃ pre post, s.link.inFlight = pre ++ .own b life :: post ∧ b.tag = ownTag k ∧
      ∀ b' l, .own b' l ∈ pre → b'.tag ≠ ownTag k) ∧
  (∀ (s : State) (k : OwnKind), s.oldestOwn k = (s.oldestBurst k).map (fun x => x.2)) ∧
  ∀ (s : State) (k : OwnKind) (life : Life), s.ownInFlight k life =
    (s.link.inFlight.filter (fun x => match x with
      | .own b l => b.tag == ownTag k && l == life
      | .piece _ => false)).length

/-- A read word returned while interpretation is on, for a read accepted while it was on, is
delivered as the slot table stands when it arrives; otherwise as DRAM returned it. It is gathered at
its beat, and no other word and no other transaction's entry changes (R15, R16, R18, R29). Words may
arrive ahead of the response: they are gathered and judged in the same way, and the piece stays
unanswered in its place with the words still to come, so that an event between them may give words
of one class different treatment (R29, R30). That such words are a command of fewer words than are
still to come, whose response is not read, is the model's choice (log 39). Beat addresses are 32-bit
sums, so the address after 0xFFFFFFFC is 0, the model's choice (log 13). -/
def Obligations.ReadWordsPlaced : Prop :=
  (∀ (s : State) (tag : Tag) (resp : Resp) (data : List Word) (p : Piece) (x : Txn)
    (pre post : List Txn),
    s.Up → s.oldestPiece tag = some p → p.write = false → data.length = p.len →
    s.link.txns = pre ++ x :: post → x.id = p.txn → (∀ u ∈ pre ++ post, u.id ≠ p.txn) →
    p.first + p.len ≤ x.data.length →
    ∃ t y, exec (.forwardedPieceResponse tag resp data) s = .next t ∧
      t.link.txns = pre ++ y :: post ∧
      y = { x with
        unanswered := x.unanswered - 1, err := x.err || resp == .error, data := y.data } ∧
      (∀ n w, data[n]? = some w → y.data[p.first + n]? = some (some
        (if s.device.active && x.activeAtAccept then s.substitute (beatAddr p.addr p.kind n) w
         else w))) ∧
      ∀ m, (m < p.first ∨ p.first + p.len ≤ m) → y.data[m]? = x.data[m]?) ∧
  -- Words that arrive ahead of the response (R29, R30).
  ∀ (s : State) (tag : Tag) (resp : Resp) (data : List Word) (p : Piece) (x : Txn)
    (pre post : List Txn) (before after : List Issued),
    s.Up → s.link.inFlight = before ++ .piece p :: after → p.tag = tag →
    (∀ q, .piece q ∈ before → q.tag ≠ tag) →
    p.write = false → data ≠ [] → data.length < p.len →
    s.link.txns = pre ++ x :: post → x.id = p.txn → (∀ u ∈ pre ++ post, u.id ≠ p.txn) →
    p.first + p.len ≤ x.data.length →
    ∃ t words, exec (.forwardedPieceResponse tag resp data) s = .next t ∧
      t = { s with link := { s.link with
        inFlight := before ++ .piece { p with
          addr := beatAddr p.addr p.kind data.length, first := p.first + data.length
          len := p.len - data.length } :: after
        txns := pre ++ { x with data := words } :: post } } ∧
      (∀ n w, data[n]? = some w → words[p.first + n]? = some (some
        (if s.device.active && x.activeAtAccept then s.substitute (beatAddr p.addr p.kind n) w
         else w))) ∧
      ∀ m, (m < p.first ∨ p.first + data.length ≤ m) → words[m]? = x.data[m]?

/-- The table of R29 for a word of a slot entry: unchanged in a RETURNING entry or beyond 8·C, zero
in a silenced entry or for an unavailable class, unchanged otherwise, and unchanged in no entry. The
entry is the one whose 4 KiB hold the address (R29); the entry of a slot address is the one of that
address (R103). Bit c of a class set is class c (R103). -/
def Obligations.SubstitutionTable : Prop :=
  (∀ (s : State) (a d : Word),
    (s.slotOver a = none → s.substitute a d = d) ∧
    ∀ e, s.slotOver a = some e →
      let w := (a - e.addr).toNat / 4
      let c := w % e.depth.frames
      let open_ := e.state = .opened ∧ c < e.depth.frames ∧ hasClass e.arrived c = false
      (e.state = .returning → s.substitute a d = d) ∧
      (e.state ≠ .returning → 8 * e.count ≤ w → s.substitute a d = d) ∧
      (e.state ≠ .returning → w < 8 * e.count →
        (e.silenced = true ∨ hasClass e.erased c = true ∨ open_) → s.substitute a d = 0) ∧
      (e.state ≠ .returning → w < 8 * e.count →
        ¬ (e.silenced = true ∨ hasClass e.erased c = true ∨ open_) → s.substitute a d = d)) ∧
  (∀ (m : ClassSet) (c : Nat), hasClass m c = m.getLsbD c) ∧
  ∀ (s : State) (a : Word),
    let holds := fun (e : SlotEntry) => e.addr.toNat ≤ a.toNat ∧ a.toNat < e.addr.toNat + 4096
    (∀ e, s.slotOver a = some e → e ∈ s.supply.table ∧ holds e) ∧
    (∀ e ∈ s.supply.table, holds e → s.slotOver a ≠ none ∧
      ((∀ x ∈ s.supply.table, holds x → x = e) → s.slotOver a = some e)) ∧
    (∀ e, s.slot a = some e → e ∈ s.supply.table ∧ e.addr = a) ∧
    ∀ e ∈ s.supply.table, e.addr = a → s.slot a ≠ none ∧
      ((∀ x ∈ s.supply.table, x.addr = a → x = e) → s.slot a = some e)

/-- A response to a redirected piece lowers the outstanding count of the entry it names by one; an
OK changes no class, and an ERROR marks the piece's class erased. The response that takes the count
to zero releases what waits for it: the push of an entry awaiting push, or the judgment of its
owner's settling completions. In HALTED, and when no entry stands at the address, the slot table
stays as it is (R27, R28, R94, R116). That the step happens inside the command that brings it about,
and as a row of its own too, is the model's choice (log 1). -/
def Obligations.RedirectErrorErases : Prop :=
  ∀ (s : State) (tag : Tag) (resp : Resp) (p : Piece) (a : Word) (c : Nat),
    s.Up → s.oldestPiece tag = some p → p.write = true → p.redirect = some (a, c) →
    p.snoop = none → c < 10 →
    ((s.device = .halted ∨ s.slot a = none) →
      ∃ t, exec (.forwardedPieceResponse tag resp []) s = .next t ∧ s.OnlyLink t) ∧
    ∀ e, s.device ≠ .halted → s.slot a = some e → 1 ≤ e.outstanding →
      ∃ t v x, exec (.forwardedPieceResponse tag resp []) s = .next t ∧ s.OnlyLinkSupply v ∧
        v.slot a = some x ∧
        x = { e with
          outstanding := e.outstanding - 1, arrived := x.arrived, erased := x.erased } ∧
        (resp = .ok → x.arrived = e.arrived ∧ x.erased = e.erased) ∧
        (resp = .error → hasClass x.erased c = true ∧ hasClass x.arrived c = false ∧
          ∀ c', c' ≠ c → hasClass x.erased c' = hasClass e.erased c' ∧
            hasClass x.arrived c' = hasClass e.arrived c') ∧
        (∀ a', a' ≠ a → v.slot a' = s.slot a') ∧
        (2 ≤ e.outstanding → t = v) ∧
        (e.outstanding = 1 → e.awaitingPush = true → exec (.awaitingPushReleased a) v = .next t) ∧
        (e.outstanding = 1 → e.awaitingPush = false →
          exec (.settledCompletionJudged e.owner) v = .next t)

/-- The beats of an index word answered OK are handed to the owner in beat order, those with every
strobe set alone; on an ERROR none is handed (R19). -/
def Obligations.SnoopHandsOver : Prop :=
  (∀ (s : State) (tag : Tag) (p : Piece) (w : IndexWord),
    s.Up → s.oldestPiece tag = some p → p.write = true → p.redirect = none → p.snoop = some w →
    (∃ t, exec (.forwardedPieceResponse tag .error []) s = .next t ∧ s.OnlyLink t) ∧
    ∃ t u, exec (.forwardedPieceResponse tag .ok []) s = .next t ∧ s.OnlyLink u ∧
      t = ((p.beats.filter allStrobes).map (·.data)).foldl (fun x v =>
        match w with
        | .directive => x.takeDirectiveIndex v
        | .report => x.takeReportIndex v
        | .free => x.takeFreeIndex v) u) ∧
  ∀ b : WriteBeat, allStrobes b = true ↔ b.strobes = 0xF

/-- A downstream response that answers nothing issued stops the step by name: the model's choice
(log 10). -/
def Obligations.UnaskedResponsesFault : Prop :=
  ∀ s : State, s.Up →
    (∀ tag resp data, s.oldestPiece tag = none →
      exec (.forwardedPieceResponse tag resp data) s = .fault .nothingToAnswer) ∧
    (∀ bytes, bytes.length = 64 → s.oldestOwn .fetch = none →
      exec (.directiveFetchComplete bytes) s = .fault .nothingToAnswer) ∧
    (∀ data, s.oldestOwn .refill = none →
      exec (.refillComplete data) s = .fault .nothingToAnswer) ∧
    (s.oldestOwn .report = none → exec .reportWriteComplete s = .fault .nothingToAnswer) ∧
    (s.oldestOwn .status = none →
      exec .statusBlockWriteComplete s = .fault .nothingToAnswer) ∧
    ∀ k data, s.oldestOwn k = none →
      exec (.ownAccessError k data) s = .fault .nothingToAnswer

/-! ## Frame reception -/

/-- A header write with its open mark set, of a number other than the open frame's, opens frame f:
whatever row of R35 it is judged by, the record becomes that of R38, with the frames missed at a
jump counted lost, and the device is RUNNING; a rewrite of the open frame's number changes nothing
but the adoption of pending timing values. The write is forwarded unaltered (R4, R35, R37, R38, R50,
R52). The notices follow the row of R35: the open frame closes first (R40), a jump gives each missed
frame its open and its close (R37, R43), a discontinuity resyncs (R50), and an open that ends
COASTING hands "resumed" (R49). The open notice goes to the layout tables, which switch maps when
the switch frame is reached or passed (R73), to the reporter, which adopts a pending interval
(R148), and to the taps in ascending number: each adopts what is pending, restarts, binds, and takes
a slot, with R109 tested, or starves with its TAP_STATE report (R85 to R88, R92, R109, R113, R124,
R133); the switch notice gives each tap the outcome of R74. The model's choices in it: the record of
a missed frame changes before that frame's open and close notices (log 14), a resync ends retention
after the abandonment (log 20) and makes due the ABANDONED entries that it queues itself (log 37), a
change of the device state starts its status block write at once when none is in flight (log 17),
the switch notice, too, serves the taps in ascending number (log 19), a NONE pending map has switch
frame and expectations 0 (log 30), a tap that the switch restarts ends its retention as at any
instance end (log 21), readiness is tested at each report handed and each entry made due in turn
(R142, log 16), and an open in RUNNING or COASTING with no frame expected, which no run reaches, is
a discontinuity (log 25). Working slots are those not RETURNING (R114). The instance marks, the form
of the gap timer and entries due before the handing are the model's (log 34, log 4, log 31). -/
def Obligations.FrameOpenTaken : Prop :=
  (∀ (s : State) (tag : Tag) (addr : Word) (kind : BurstKind) (b : WriteBeat),
    s.HeaderWrite addr 0 b →
    let f := b.data.extractLsb' 0 12
    let q := b.data.extractLsb' 12 2
    let r := s.reception.adoptTiming
    let missed := match r.expected with
      | some e =>
        if s.device ≠ .acquiring ∧ (f - e).toNat ≤ r.coastLimit - r.coast then (f - e).toNat else 0
      | none => 0
    ∃ t p, exec (.upstreamWriteAccept tag addr kind [b]) s = .next t ∧
      t.link.queue = s.link.queue ++ [p] ∧ p.addr = addr ∧ p.beats = [b] ∧ p.redirect = none ∧
      t.regions = s.regions ∧ t.strap = s.strap ∧
      (∀ o, s.reception.openFrame = some o → o.num = f →
        t.reception = r ∧ t.device = s.device ∧ t.layout = s.layout ∧ t.taps = s.taps ∧
        t.supply = s.supply ∧ t.reporter = s.reporter ∧ t.directive = s.directive) ∧
      ((∀ o, s.reception.openFrame = some o → o.num ≠ f) →
        t.device = .running ∧
        t.reception = { r with
          openFrame := some { num := f, quality := q, cursor := 0 }
          current := f
          expected := some (f + 1)
          coast := 0
          sealLate := false
          gapTimer := some r.gapLimit
          received := r.received + 1
          lost := r.lost + BitVec.ofNat 32 missed + (if q = 0 then 1 else 0) })) ∧
  (∀ r : Reception,
    (r.pendingTiming = none → r.adoptTiming = r) ∧
    ∀ gap coast, r.pendingTiming = some (gap, coast) →
      r.adoptTiming = { r with gapLimit := gap, coastLimit := coast, pendingTiming := none }) ∧
  -- The notices of an open, by the row of R35 it is judged by (R37, R38, R40, R43, R49, R50).
  (∀ (s : State) (tag : Tag) (addr : Word) (kind : BurstKind) (b : WriteBeat),
    s.HeaderWrite addr 0 b →
    (∀ o, s.reception.openFrame = some o → o.num ≠ b.data.extractLsb' 0 12) →
    let f := b.data.extractLsb' 0 12
    let q := b.data.extractLsb' 12 2
    let r := s.reception.adoptTiming
    let s' := { s with reception := r }
    ∃ t n : State, exec (.upstreamWriteAccept tag addr kind [b]) s = .next t ∧
      t = { n with link := t.link } ∧
      (s.device = .acquiring → s'.Accepts n f q true none) ∧
      (s.device ≠ .acquiring →
        (r.expected = none → ∃ v : State, s'.Resyncs v ∧ v.Accepts n f q true none) ∧
        ∀ e, r.expected = some e →
          let d := (f - e).toNat
          (d = 0 → s'.Accepts n f q false (if s.device = .coasting then some r.coast else none)) ∧
          (d ≠ 0 → d ≤ r.coastLimit - r.coast → s'.Jumps n e d f q) ∧
          (r.coastLimit - r.coast < d → d ≠ 0 →
            ∃ v : State, s'.Resyncs v ∧ v.Accepts n f q true none))) ∧
  (∀ (s : State) (f : FrameNo) (first : Bool) (u : TapNo),
    s.openNotice f first = ([0, 1, 2, 3, 4, 5, 6, 7] : List TapNo).foldl
      (State.tapOpenNotice f first) (s.layoutOpen f).reporterOpen ∧
    State.tapOpenNotice f first s u =
      (((s.adopt u).restartStep u f first).bindStep u f).allocateStep u f ∧
    (s.reporter.pendingInterval = none → s.reporterOpen = s) ∧
    (∀ n, s.reporter.pendingInterval = some n → s.reporterOpen =
      ([0, 1, 2, 3, 4, 5, 6, 7] : List TapNo).foldl State.timerCheck
        { s with reporter := { s.reporter with interval := n, pendingInterval := none } }) ∧
    (∀ m, (s.tap u).timer = some m → s.reporter.interval ≤ m → s.MakesDue (s.timerCheck u) u) ∧
    ((∀ m, (s.tap u).timer = some m → m < s.reporter.interval) → s.timerCheck u = s)) ∧
  -- The switch (R73).
  (∀ (s : State) (f : FrameNo),
    let p := s.layout.pend
    let lead := (p.switchFrame - f).toNat
    let reached := p.state ≠ .none ∧ (lead = 0 ∨ 1024 < lead)
    (¬ reached → s.layoutOpen f = s) ∧
    (reached → ∃ v : State,
      State.Hands
        { s with layout := { s.layout with
          cur :=
            { state := if p.state = .ready then .verified else .collecting, version := p.version,
              expCount := p.expCount, expSum := p.expSum, mismatch := p.mismatch,
              entries := p.entries }
          pend := PendingMap.none } }
        v (.layout (if p.state = .ready then .switchedVerified else .switchedUnverified)
          (versionNat p.version) p.switchFrame 0) 0 ∧
      ((p.state = .ready ∨ p.expCount ≠ 0) → s.layoutOpen f =
        ([0, 1, 2, 3, 4, 5, 6, 7] : List TapNo).foldl (State.tapSwitch f) v) ∧
      (p.state = .collecting → p.expCount = 0 → s.layoutOpen f =
        (([0, 1, 2, 3, 4, 5, 6, 7] : List TapNo).foldl (State.tapSwitch f) v).checkCurrent f))) ∧
  -- The switch notice for one tap (R74).
  (∀ (s : State) (f : FrameNo) (u : TapNo),
    let t := State.tapSwitch f s u
    s.OnlyTaps t ∧ (∀ v, v ≠ u → t.tap v = s.tap v) ∧
    (∀ i e, (s.tap u).bound = true → (s.tap u).inst = some i → s.streamEntry u = some e →
      ((i.restart = false ∧ e.count = i.count ∧ e.depth = i.depth) →
        t = s.setTap u { s.tap u with inst := some { i with startCell := e.start } }) ∧
      (¬ (i.restart = false ∧ e.count = i.count ∧ e.depth = i.depth) →
        (s.tap u).BeganAt (t.tap u) f e ∧ (t.tap u).retained = none ∧ s.Restarts t u f e)) ∧
    (∀ i, (s.tap u).bound = true → (s.tap u).inst = some i → s.streamEntry u = none →
      s.LostStream (t.tap u) ∧ s.EndsWithoutStream t u) ∧
    ((s.tap u).state = .waiting → s.streamEntry u = none → s.layout.cur.state = .verified →
      (t.tap u).state = .orphaned ∧ s.Enters t u .orphaned .streamRemoved) ∧
    ((s.tap u).state = .orphaned → s.streamEntry u = none → s.layout.cur.state ≠ .verified →
      (t.tap u).state = .waiting ∧ s.Enters t u .waiting .streamUnknown) ∧
    (((s.tap u).state = .closed ∨ ((s.tap u).seeking = true ∧ s.streamEntry u ≠ none) ∨
        ((s.tap u).state = .waiting ∧ s.layout.cur.state ≠ .verified) ∨
        ((s.tap u).state = .orphaned ∧ s.layout.cur.state = .verified)) → t = s)) ∧
  -- Step 1: adoption (R85).
  (∀ (s : State) (u : TapNo),
    let t := s.adopt u
    ((s.tap u).pendingAdjust = none → (s.tap u).pendingOpen = none → t = s) ∧
    (∀ p, (s.tap u).pendingAdjust = some p → (s.tap u).pendingOpen = none →
      t = s.setTap u { s.tap u with params := p, pendingAdjust := none }) ∧
    ∀ i p, (s.tap u).pendingOpen = some (i, p) →
      (t.tap u).stream = some i ∧ (t.tap u).params = p ∧ (t.tap u).pendingOpen = none ∧
      (t.tap u).pendingAdjust = none ∧ (t.tap u).counters = TapCounters.zero ∧
      (t.tap u).retained = none ∧ (t.tap u).repeatCount = 0 ∧ (t.tap u).recovery = 0 ∧
      (t.tap u).state =
        (if s.layout.cur.state = .verified ∧ s.curEntry i = none then .orphaned else .waiting) ∧
      ∃ v : State,
        (s.setTap u { s.tap u with
          stream := some i, params := p, pendingOpen := none, pendingAdjust := none
          counters := TapCounters.zero, retained := none, repeatCount := 0
          recovery := 0 }).Enters v u .waiting .opened ∧
        (s.layout.cur.state = .verified → s.curEntry i = none →
          v.Enters t u .orphaned .streamRemoved) ∧
        ((s.layout.cur.state ≠ .verified ∨ s.curEntry i ≠ none) → t = v)) ∧
  -- Step 2: restart (R88).
  (∀ (s : State) (u : TapNo) (f : FrameNo) (first : Bool),
    let t := s.restartStep u f first
    (∀ i, (s.tap u).bound = true → (s.tap u).inst = some i → i.fresh = false →
      (i.restart = true ∨ first = true) →
      (∀ e, s.streamEntry u = some e → (s.tap u).BeganAt (t.tap u) f e ∧ s.Restarts t u f e) ∧
      (s.streamEntry u = none → s.LostStream (t.tap u) ∧ s.EndsWithoutStream t u)) ∧
    (((s.tap u).bound = false ∨ (s.tap u).inst = none ∨
      ∃ i, (s.tap u).inst = some i ∧ (i.fresh = true ∨ (i.restart = false ∧ first = false))) →
      t = s)) ∧
  -- Step 3: binding (R86, R133).
  (∀ (s : State) (u : TapNo) (f : FrameNo),
    let t := s.bindStep u f
    (∀ e, (s.tap u).seeking = true → s.streamEntry u = some e →
      (s.tap u).BeganAt (t.tap u) f e ∧ (t.tap u).settling = (s.tap u).settling ∧
      ∀ a x, (s.tap u).retained = some a → s.slot a = some x →
        (t.tap u).retained = (if x.depth = e.depth ∧ x.count = e.count then some a else none) ∧
        ∃ v : State, v.Begins t u f e .bound ∧
          ((x.depth = e.depth ∧ x.count = e.count) → v = s) ∧
          (¬ (x.depth = e.depth ∧ x.count = e.count) → s.EndsRetention v u)) ∧
    (∀ e, (s.tap u).seeking = true → s.streamEntry u = some e → (s.tap u).retained = none →
      s.Begins t u f e .bound) ∧
    (((s.tap u).seeking = false ∨ s.streamEntry u = none) → t = s)) ∧
  -- Step 4: allocation or starvation (R87, R113).
  (∀ (s : State) (u : TapNo) (f : FrameNo),
    let t := s.allocateStep u f
    (((s.tap u).bound = false ∨ (s.tap u).inst = none) → t = s) ∧
    ∀ i, (s.tap u).bound = true → (s.tap u).inst = some i →
      let age := if i.fresh = false ∧ i.age + 1 < i.depth.frames then i.age + 1 else i.age
      let i' := { i with age := age, fresh := false }
      (∀ a rest, s.supply.stack = a :: rest → s.workingSlots < 96 →
        t = { s.setTap u { s.tap u with
            inst := some i'
            openFrames := (s.tap u).openFrames ++ [{ frame := f, slot := some a }] } with
          supply := { s.supply with
            stack := rest
            table := s.supply.table ++
              [{ addr := a, owner := u, frame := f, depth := i.depth, count := i.count,
                 state := .opened, arrived := 0, erased := 0, silenced := false, posted := 0,
                 retained := false, outstanding := 0, awaitingPush := false }]
            refill := t.supply.refill } } ∧
        -- The grant tests R109.
        ((s.regions = none ∨ s.supply.refill ≠ none) → t.supply.refill = s.supply.refill) ∧
        ∀ r, s.regions = some r → s.supply.refill = none → t.RefillTested r) ∧
      ((s.supply.stack = [] ∨ 96 ≤ s.workingSlots) → ∃ v : State,
        State.Latches (s.setTap u { s.tap u with
          inst := some i'
          openFrames := (s.tap u).openFrames ++ [{ frame := f, slot := none }] }) v .starvation ∧
        v.Enters t u .holding .starvation)) ∧
  -- What the words of this and the other statements about taps say (R61, R80, R113).
  (∀ (s : State) (u : TapNo),
    ((s.tap u).bound = true ↔ (s.tap u).state = .running ∨ (s.tap u).state = .holding) ∧
    ((s.tap u).seeking = true ↔ (s.tap u).state = .waiting ∨ (s.tap u).state = .orphaned) ∧
    ((s.tap u).stream = none → s.streamEntry u = none) ∧
    ∀ i, (s.tap u).stream = some i → s.streamEntry u = s.curEntry i) ∧
  (∀ (s : State) (u : TapNo) (tp : Tap), s.tap u = s.taps[u] ∧
    s.setTap u tp = { s with taps := (s.setTap u tp).taps } ∧ (s.setTap u tp).tap u = tp ∧
    ∀ v, v ≠ u → (s.setTap u tp).tap v = s.tap v) ∧
  ∀ s : State, s.workingSlots =
    (s.supply.table.filter (fun e => decide (e.state ≠ .returning))).length

/-- A seal closes the open frame, sets the seal-late mark, empties the assembly buffers and requests
a status block write; with no frame open it is ignored. The write is forwarded unaltered (R4, R39,
R40, R60, R171). The close notice raises every coalescing timer, making the entries of a tap due at
the summary interval (R145), and then serves the taps: a bound tap's hold length rises (R136), the
class the frame brings is marked in each open logical frame with a slot (R44, R89), and at age D - 1
the front frame completes and joins the settling list, or is discarded from a full one, which gives
its slot back and makes a RUNNING tap HOLDING with reason DISCARD (R91, R94). An entry that becomes
due tests readiness (R142), at each tap (log 16). That the notices serve the taps in ascending
number is the model's choice (log 19). A request starts its write at once when none is in flight,
and entries are made due before the report of a change of tap state is handed: the model's form (log
17, log 31). -/
def Obligations.SealCloses : Prop :=
  (∀ (s : State) (tag : Tag) (addr : Word) (kind : BurstKind) (b : WriteBeat),
    s.HeaderWrite addr 60 b →
    ∃ t p, exec (.upstreamWriteAccept tag addr kind [b]) s = .next t ∧
      t.link.queue = s.link.queue ++ [p] ∧ p.addr = addr ∧ p.beats = [b] ∧ p.redirect = none ∧
      t.device = s.device ∧ t.regions = s.regions ∧ t.strap = s.strap ∧
      (s.reception.openFrame = none → s.OnlyLink t) ∧
      (s.reception.openFrame ≠ none →
        t.reception = { s.reception with openFrame := none, sealLate := true } ∧
        t.layout = { s.layout with buffers := clearBuffers } ∧
        s.directive.RequestedOnce t)) ∧
  -- The close notice of a sealed frame (R40).
  (∀ (s : State) (tag : Tag) (addr : Word) (kind : BurstKind) (b : WriteBeat) (o : OpenRecord),
    s.HeaderWrite addr 60 b → s.reception.openFrame = some o →
    ∃ t v, exec (.upstreamWriteAccept tag addr kind [b]) s = .next t ∧
      v = State.closeNotice { s with reception := { s.reception with openFrame := none } } o.num
        o.quality ∧
      t = { v with link := t.link, reception := { v.reception with sealLate := true } }) ∧
  (∀ (s : State) (f : FrameNo) (q : BitVec 2), s.closeNotice f q =
    (([0, 1, 2, 3, 4, 5, 6, 7] : List TapNo).foldl (State.tapCloseNotice f q)
      (([0, 1, 2, 3, 4, 5, 6, 7] : List TapNo).foldl State.raiseTimer
        { s with layout := { s.layout with buffers := clearBuffers } })).requestStatus) ∧
  -- The coalescing timer of one tap (R145).
  (∀ (s : State) (u : TapNo),
    ((s.tap u).timer = none → s.raiseTimer u = s) ∧
    ∀ n, (s.tap u).timer = some n →
      (n + 1 < s.reporter.interval →
        s.raiseTimer u = s.setTap u { s.tap u with timer := some (n + 1) }) ∧
      (s.reporter.interval ≤ n + 1 → s.MakesDue (s.raiseTimer u) u)) ∧
  -- The close notice for one tap (R44, R89, R91, R136).
  (∀ (s : State) (f : FrameNo) (q : BitVec 2) (u : TapNo),
    let t := State.tapCloseNotice f q s u
    let frames := (s.tap u).openFrames
    (((s.tap u).bound = false ∨ (s.tap u).inst = none) → t = s) ∧
    ∀ i, (s.tap u).bound = true → (s.tap u).inst = some i →
      let arrives := q ≠ 0 ∧ (s.tap u).params.floor ≤ q.toNat ∧ i.restart = false
      ∃ v : State,
        v = { s.setTap u { s.tap u with
            holdLength := (s.tap u).holdLength.map (fun n => min 65535 (n + 1)) } with
          supply := { s.supply with table := v.supply.table } } ∧
        (∀ a x, s.slot a = some x → ∃ y, v.slot a = some y ∧
          y = { x with arrived := y.arrived, erased := y.erased } ∧
          ((∀ l ∈ frames, l.slot ≠ some a) → y = x) ∧
          ∀ l c, frames.filter (fun l => l.slot = some a) = [l] → c < i.depth.frames →
            i.depth.lag c = (f - l.frame).toNat →
            (arrives → hasClass x.erased c = true → y = x) ∧
            (arrives → hasClass x.erased c = false → y.erased = x.erased ∧
              ∀ c', hasClass y.arrived c' = (hasClass x.arrived c' || c' == c)) ∧
            (¬ arrives → ∀ c', hasClass y.erased c' = (hasClass x.erased c' || c' == c) ∧
              hasClass y.arrived c' = (hasClass x.arrived c' && c' != c))) ∧
        ((i.age + 1 ≠ i.depth.frames ∨ frames = []) → t = v) ∧
        ∀ l rest, i.age + 1 = i.depth.frames → frames = l :: rest → ∃ w : State,
          w = { v.setTap u { v.tap u with openFrames := rest } with
            supply := { v.supply with table := w.supply.table } } ∧
          (∀ a x, v.slot a = some x → w.slot a = some
            (if l.slot = some a ∧ x.state = .opened then { x with state := .complete } else x)) ∧
          w.Appends t u
            { frame := l.frame
              kind := match l.slot with
                | some a => .slot a
                | none => .starved
              run := 1
              number := i.number }) ∧
  -- The request of a status block write (R171).
  ∀ s : State, s.OnlyDirective s.requestStatus ∧
    (s.device = .halted → s.requestStatus = s) ∧
    (s.device ≠ .halted → s.directive.RequestedOnce s.requestStatus)

/-- An expiry of the frame gap timer below the coast limit in force after adoption synthesizes lost
frame e: the open frame closes, the layout tables, the taps and slot supply take the open and the
close notice of e, and the device is COASTING, "coast entered" handed when it was RUNNING (R40, R43,
R46); at or above the limit it resyncs to ACQUIRING with the timer stopped, "resync" handed and the
resync notice taken (R45 to R47, R50, R52). The model's choices in it: an expiry outside RUNNING and
COASTING, or with the timer stopped, leaves the state (log 5); the record changes before the open
and close notices of e (log 14), and COASTING is entered after the close notice, before the report
(log 15); the seal-late mark is clear after a synthesized frame whatever came first (log 40); a
change of the device state starts its status block write at once when none is in flight (log 17);
the close notice serves the taps in ascending number (log 19); readiness is tested at each report
handed and each entry made due in turn (log 16); the resync ends retention after the abandonment
(log 20) and makes due the ABANDONED entries that it queues itself (log 37). Entries are made due
before it is known whether a report of a change of tap state joins the queue (log 31). The gap timer
is held as the interval to its next expiry, the model's form (log 4). -/
def Obligations.TimerExpirySynthesizesOrResyncs : Prop :=
  ∀ s : State, s.Up →
    let r := s.reception.adoptTiming
    ((s.reception.gapTimer = none ∨ (s.device ≠ .running ∧ s.device ≠ .coasting)) →
      exec .frameGapTimerExpiry s = .next s) ∧
    (s.reception.gapTimer ≠ none → (s.device = .running ∨ s.device = .coasting) →
      (∀ e, r.coast < r.coastLimit → r.expected = some e →
        ∃ t, exec .frameGapTimerExpiry s = .next t ∧ t.device = .coasting ∧
          t.reception = { r with
            openFrame := none
            current := e
            expected := some (e + 1)
            coast := r.coast + 1
            sealLate := false
            gapTimer := some 32
            lost := r.lost + 1
            synthesized := r.synthesized + 1 } ∧
          s.StatusRequested t ∧ s.SameOutside t ∧
          ∃ c m v : State, State.ClosesFrame { s with reception := r } c ∧
            m = (State.openNotice { c with reception := t.reception } e false).closeNotice e 0 ∧
            t.layout = m.layout ∧ t.taps = m.taps ∧ t.supply = m.supply ∧
            (s.device = .coasting → t = m) ∧
            (s.device = .running → m.ChangesDevice v .coasting ∧
              v.Hands t (.reception .coastEntered 1) 0)) ∧
      (r.coastLimit ≤ r.coast →
        ∃ t, exec .frameGapTimerExpiry s = .next t ∧ t.device = .acquiring ∧
          t.reception = { r with openFrame := none, expected := none, coast := 0, gapTimer := none } ∧
          t.layout.cur = s.layout.cur ∧ t.layout.pend = s.layout.pend ∧
          s.StatusRequested t ∧ s.SameOutside t ∧ State.Resyncs { s with reception := r } t))

/-! ## Layout tables -/

/-- A layout block beat taken while a frame is open with every strobe set is copied into its
position's buffer; the beat that completes a record empties the buffer and takes the record by its
class. Any other layout block beat changes nothing but the links (R11, R58, R59). The classes are
those of R11; an out-of-range record and a bad check are counted (R78); a SUMMARY's current part is
taken by the table of R62, a version change by R64, its next part by R69 and R70; a STREAM record is
taken by R65 to R68, or R71 for the pending map; the checks are those of R63 and R72. The version,
verification, removal and replacement notices give each tap its outcome by R75, an instance end by
R92. The bit steps of the check value and the six bytes of each stream in the map checksum are those
of R12 and R13. The model's choices in it: readiness is tested at each report handed in turn (R142,
log 16); a map of expected count 0 takes no STREAM record, and without counting it (log 35); the
order of streams and taps within one record (log 19); a NONE pending map, such as a withdrawal
leaves, has switch frame and expectations 0 (log 30). A map's checks count its present entries that
are marked collected (R61, R63). Byte b of a buffer's word is bits 8b to 8b + 7 of the link word,
deduced from the little-endian Conventions (log 12); entries are made due before the report of a
change of tap state is handed (log 31). -/
def Obligations.LayoutWordOffered : Prop :=
  (∀ (s : State) (tag : Tag) (addr : Word) (kind : BurstKind) (b : WriteBeat) (p i : Fin 8),
    s.Up → s.linkOpen = true → addr.toNat % 4 = 0 → s.areaOf addr = .layoutBlock →
    (addr - s.landingBase).toNat = 64 + 32 * p.val + 4 * i.val →
    ∃ t, exec (.upstreamWriteAccept tag addr kind [b]) s = .next t ∧
      ((s.reception.openFrame = none ∨ b.strobes ≠ 0xF) → s.OnlyLink t) ∧
      (s.reception.openFrame ≠ none → b.strobes = 0xF →
        let w := s.layout.buffers[p].write i b.data
        (w.words = s.layout.buffers[p].words.set i b.data ∧
          w.mask = s.layout.buffers[p].mask ||| ((1 : BitVec 8) <<< i.val)) ∧
        (w.mask ≠ 0xFF →
          t.layout = { s.layout with buffers := s.layout.buffers.set p w } ∧ t.taps = s.taps ∧
          t.supply = s.supply ∧ t.reporter = s.reporter ∧ t.reception = s.reception) ∧
        (w.mask = 0xFF → t.layout.buffers[p] = AsmBuffer.clear) ∧
        (∀ o, w.mask = 0xFF → s.reception.openFrame = some o →
          t = { State.takeRecord
              { s with layout := { s.layout with
                buffers := s.layout.buffers.set p AsmBuffer.clear } }
              (classify w.bytes) o.num with link := t.link }) ∧
        (w.mask = 0xFF → byteAt w.bytes 0 ≠ 0 → crc16 (w.bytes.take 30) ≠ halfAt w.bytes 30 →
          t.layout = { s.layout with
            buffers := s.layout.buffers.set p AsmBuffer.clear
            badCheck := s.layout.badCheck + 1 } ∧
          t.taps = s.taps ∧ t.supply = s.supply ∧ t.reporter = s.reporter ∧
          t.reception = s.reception))) ∧
  -- The classes of a completed record (R11).
  (∀ bs : List Byte,
    let kind := byteAt bs 0
    let good := crc16 (bs.take 30) = halfAt bs 30
    let b := fun n => (byteAt bs n).toNat
    let start := (halfAt bs 4).toNat
    let streamGood := b 1 ≤ 15 ∧ b 2 ≤ 1 ∧ b 3 ≤ 47 ∧ 1 ≤ b 6 ∧ b 6 ≤ 128 ∧ start + b 6 ≤ 960 ∧
      (b 7 = 1 ∨ b 7 = 5 ∨ b 7 = 10)
    let summaryGood := b 1 ≤ 15 ∧ b 2 ≤ 48 ∧ b 5 ≤ 1 ∧ (b 5 = 1 → b 6 ≤ 15 ∧ b 9 ≤ 48)
    (kind = 0 → classify bs = .empty) ∧
    (kind ≠ 0 → ¬ good → classify bs = .badCheck) ∧
    (kind ≠ 0 → kind ≠ 0x31 → kind ≠ 0x32 → good → classify bs = .unknownKind) ∧
    (kind = 0x31 → good → ¬ streamGood → classify bs = .outOfRangeStream) ∧
    (kind = 0x31 → good → streamGood → ∃ r, classify bs = .stream r ∧ r.version.val = b 1 ∧
      (r.next = true ↔ b 2 = 1) ∧ r.id.val = b 3 ∧ r.start = start ∧ r.count = b 6 ∧
      r.depth.frames = b 7) ∧
    (kind = 0x32 → good → ¬ summaryGood → classify bs = .outOfRangeSummary) ∧
    (kind = 0x32 → good → summaryGood → ∃ r, classify bs = .summary r ∧ r.version.val = b 1 ∧
      r.count = b 2 ∧ r.checksum = halfAt bs 3 ∧ (b 5 = 0 → r.next = none) ∧
      (b 5 = 1 → ∃ n, r.next = some n ∧ n.version.val = b 6 ∧
        n.switchFrame = (halfAt bs 7).setWidth 12 ∧ n.count = b 9 ∧
        n.checksum = halfAt bs 10))) ∧
  -- What each class leads to (R59, R78).
  (∀ (s : State) (f : FrameNo),
    s.takeRecord .empty f = s ∧ s.takeRecord .unknownKind f = s ∧
    s.takeRecord .badCheck f =
      { s with layout := { s.layout with badCheck := s.layout.badCheck + 1 } } ∧
    s.takeRecord .outOfRangeStream f =
      { s with layout := { s.layout with outOfRange := s.layout.outOfRange + 1 } } ∧
    s.takeRecord .outOfRangeSummary f =
      { s with layout := { s.layout with outOfRange := s.layout.outOfRange + 1 } } ∧
    (∀ r, s.takeRecord (.stream r) f =
      if r.next then s.offerPending r f else s.offerCurrent r f) ∧
    ∀ r, s.takeRecord (.summary r) f = (s.takeCurrentPart r f).takeNextPart r f) ∧
  -- The current part of a SUMMARY (R62, R64).
  (∀ (s : State) (r : SummaryRecord) (f : FrameNo),
    let m := s.layout.cur
    let t := s.takeCurrentPart r f
    let set := fun x : CurrentMap => { s with layout := { s.layout with cur := x } }
    let fresh : CurrentMap :=
      { state := .collecting, version := some r.version, expCount := r.count,
        expSum := r.checksum, mismatch := false, entries := MapEntries.absent }
    (m.state = .empty → t = if r.count = 0 then (set fresh).checkCurrent f else set fresh) ∧
    (m.state ≠ .empty → m.version = some r.version →
      ((m.expCount = r.count ∧ m.expSum = r.checksum) → t = s) ∧
      (¬ (m.expCount = r.count ∧ m.expSum = r.checksum) →
        t = { s with layout := { s.layout with conflict := s.layout.conflict + 1 } })) ∧
    (m.state ≠ .empty → m.version ≠ some r.version → ∃ h v : State,
      (set fresh).OnlyTaps v ∧
      (set fresh).Hands h (.layout .versionChanged r.version.val f 0) 0 ∧
      v = ([0, 1, 2, 3, 4, 5, 6, 7] : List TapNo).foldl State.tapVersion h ∧
      (∀ u : TapNo,
        ((s.tap u).bound = true → (v.tap u).state = .waiting ∧ (v.tap u).inst = none ∧
          (v.tap u).openFrames = [] ∧ (v.tap u).retained = none) ∧
        ((s.tap u).state = .orphaned → (v.tap u).state = .waiting) ∧
        (((s.tap u).state = .waiting ∨ (s.tap u).state = .closed) → v.tap u = s.tap u)) ∧
      t = if r.count = 0 then v.checkCurrent f else v)) ∧
  -- The check of the current map (R63, R75).
  (∀ (s : State) (f : FrameNo),
    let m := s.layout.cur
    let t := s.checkCurrent f
    let sum := mapChecksum (versionNat m.version) m.entries (fun e => e.collected)
    (collectedCount m.entries ≠ m.expCount → t = s) ∧
    (collectedCount m.entries = m.expCount → sum = m.expSum → s.OnlyLayout t ∧
      t.layout = { s.layout with cur := { m with
        state := .verified, entries := t.layout.cur.entries } } ∧
      (∀ i, t.curEntry i = (s.curEntry i).filter (fun e => e.collected)) ∧
      ∀ u : TapNo,
        (∀ i e, (s.tap u).bound = true → (s.tap u).stream = some i → s.curEntry i = some e →
          (e.collected = false → (t.tap u).state = .orphaned ∧ (t.tap u).inst = none ∧
            (t.tap u).openFrames = []) ∧
          (e.collected = true → t.tap u = s.tap u)) ∧
        ((s.tap u).state = .waiting → t.streamEntry u = none → (t.tap u).state = .orphaned)) ∧
    (collectedCount m.entries = m.expCount → sum = m.expSum → ∃ (h : State) (removed : List StreamId),
      State.Hands { s with layout := t.layout } h
        (.layout .verified (versionNat m.version) f 0) 0 ∧
      (∀ i, i ∈ removed ↔ ∃ e, s.curEntry i = some e ∧ e.collected = false) ∧
      t = ([0, 1, 2, 3, 4, 5, 6, 7] : List TapNo).foldl (State.tapVerified removed) h) ∧
    (collectedCount m.entries = m.expCount → sum ≠ m.expSum →
      t = { s with reporter := t.reporter, layout := { s.layout with cur := { m with
        state := .suspect, mismatch := true, entries := t.layout.cur.entries } } } ∧
      (∀ i, t.curEntry i = (s.curEntry i).map (fun e => { e with collected := false })) ∧
      ∃ v : State, State.Latches { s with layout := t.layout } v .layoutMismatch ∧
        (m.mismatch = true → t = v) ∧
        (m.mismatch = false → v.Hands t (.layout .mismatch (versionNat m.version) f 0) 0))) ∧
  -- A STREAM record for the current map (R63, R65 to R68).
  (∀ (s : State) (r : StreamRecord) (f : FrameNo),
    let m := s.layout.cur
    let t := s.offerCurrent r f
    let conflict := { s with layout := { s.layout with conflict := s.layout.conflict + 1 } }
    ((m.state = .empty ∨ m.version ≠ some r.version) → t = s) ∧
    (m.version = some r.version → m.state = .verified →
      ((∃ e, entryOf m.entries r.id = some e ∧ r.Describes e) → t = s) ∧
      ((∀ e, entryOf m.entries r.id = some e → ¬ r.Describes e) → t = conflict)) ∧
    (m.version = some r.version → (m.state = .collecting ∨ m.state = .suspect) →
      (m.expCount = 0 → t = s) ∧
      (m.expCount ≠ 0 → r.Meets m.entries (fun e => e.collected = true) → t = conflict) ∧
      (m.expCount ≠ 0 → ¬ r.Meets m.entries (fun e => e.collected = true) → ∃ w x v : State,
        (m.state ≠ .suspect → w = s) ∧
        (m.state = .suspect → w = (List.finRange 48).foldl (State.dropUncollected r) s) ∧
        x = { w with layout := v.layout } ∧
        ((∃ e, s.curEntry r.id = some e ∧ ¬ r.Describes e) →
          v = ([0, 1, 2, 3, 4, 5, 6, 7] : List TapNo).foldl (State.tapReplaced r.id) x) ∧
        (¬ (∃ e, s.curEntry r.id = some e ∧ ¬ r.Describes e) → v = x) ∧
        s.OnlyLayout v ∧
        v.layout = { s.layout with cur := { m with entries := v.layout.cur.entries } } ∧
        v.curEntry r.id = some
          { start := r.start, count := r.count, depth := r.depth, collected := true } ∧
        (∀ j, j ≠ r.id →
          ((m.state = .suspect ∧ ∃ e, s.curEntry j = some e ∧ e.collected = false ∧
              r.start < e.start + e.count ∧ e.start < r.start + r.count) →
            v.curEntry j = none ∧ ∀ u : TapNo, (s.tap u).bound = true →
              (s.tap u).stream = some j → (v.tap u).state = .waiting ∧ (v.tap u).inst = none) ∧
          (¬ (m.state = .suspect ∧ ∃ e, s.curEntry j = some e ∧ e.collected = false ∧
              r.start < e.start + e.count ∧ e.start < r.start + r.count) →
            v.curEntry j = s.curEntry j)) ∧
        (∀ e, s.curEntry r.id = some e → ¬ r.Describes e → ∀ (u : TapNo) (i : TapInstance),
          (s.tap u).bound = true → (s.tap u).stream = some r.id → (s.tap u).inst = some i →
          v.tap u = { s.tap u with inst := some { i with restart := true } }) ∧
        ((∀ e, s.curEntry r.id = some e → e.collected = false) → t = v.checkCurrent f) ∧
        ((∃ e, s.curEntry r.id = some e ∧ e.collected = true) → t = v)))) ∧
  -- The removal of one uncollected entry in a record's way (R67).
  (∀ (s : State) (r : StreamRecord) (j : StreamId),
    let t := State.dropUncollected r s j
    let meets := j ≠ r.id ∧ ∃ e, s.curEntry j = some e ∧ e.collected = false ∧
      r.start < e.start + e.count ∧ e.start < r.start + r.count
    (¬ meets → t = s) ∧
    (meets → ∃ x : State,
      x = { s with layout := { s.layout with cur := { s.layout.cur with
        entries := x.layout.cur.entries } } } ∧
      x.curEntry j = none ∧ (∀ i, i ≠ j → x.curEntry i = s.curEntry i) ∧
      t = ([0, 1, 2, 3, 4, 5, 6, 7] : List TapNo).foldl (State.tapRemoved j) x)) ∧
  -- The version, verification, removal and replacement notices for one tap (R75, R92).
  (∀ (s : State) (u : TapNo) (removed : List StreamId) (i : StreamId),
    ((s.tap u).bound = true →
      ∃ v : State, s.EndsInstance v u ∧ v.Unbinds (State.tapVersion s u) u .waiting .streamUnknown) ∧
    ((s.tap u).state = .orphaned →
      s.Enters (State.tapVersion s u) u .waiting .streamUnknown) ∧
    (((s.tap u).state = .waiting ∨ (s.tap u).state = .closed) → State.tapVersion s u = s) ∧
    ((s.tap u).bound = true → (∃ j ∈ removed, (s.tap u).stream = some j) →
      ∃ v : State, s.EndsInstance v u ∧
        v.Unbinds (State.tapVerified removed s u) u .orphaned .streamRemoved) ∧
    ((s.tap u).state = .waiting → s.streamEntry u = none →
      s.Enters (State.tapVerified removed s u) u .orphaned .streamRemoved) ∧
    ((((s.tap u).bound = true ∧ ¬ ∃ j ∈ removed, (s.tap u).stream = some j) ∨
        ((s.tap u).state = .waiting ∧ s.streamEntry u ≠ none) ∨
        (s.tap u).state = .orphaned ∨ (s.tap u).state = .closed) →
      State.tapVerified removed s u = s) ∧
    (((s.tap u).bound = true ∧ (s.tap u).stream = some i) →
      ∃ v : State, s.EndsInstance v u ∧
        v.Unbinds (State.tapRemoved i s u) u .waiting .streamUnknown) ∧
    (((s.tap u).bound = true ∧ (s.tap u).stream = some i) →
      State.tapReplaced i s u = s.setTap u { s.tap u with
        inst := (s.tap u).inst.map (fun n => { n with restart := true }) }) ∧
    (¬ ((s.tap u).bound = true ∧ (s.tap u).stream = some i) →
      State.tapRemoved i s u = s ∧ State.tapReplaced i s u = s)) ∧
  -- The next part of a SUMMARY (R69, R70).
  (∀ (s : State) (r : SummaryRecord) (f : FrameNo),
    let p := s.layout.pend
    let t := s.takeNextPart r f
    let lead := fun n : FrameNo => (n - f).toNat
    (r.next = none → p.state = .none → t = s) ∧
    (r.next = none → p.state ≠ .none → ∃ v : State,
      s.Hands v (.layout .withdrawn (versionNat p.version) p.switchFrame (lead p.switchFrame)) 0 ∧
      t = { v with layout := { v.layout with pend := PendingMap.none } }) ∧
    ∀ n, r.next = some n →
      let same := p.state ≠ .none ∧ p.version = some n.version ∧
        p.switchFrame = n.switchFrame ∧ p.expCount = n.count ∧ p.expSum = n.checksum
      ((lead n.switchFrame < 1 ∨ 1024 < lead n.switchFrame) →
        t = { s with layout := { s.layout with conflict := s.layout.conflict + 1 } }) ∧
      (1 ≤ lead n.switchFrame → lead n.switchFrame ≤ 1024 → same → t = s) ∧
      (1 ≤ lead n.switchFrame → lead n.switchFrame ≤ 1024 → ¬ same → ∃ v : State,
        State.Hands
          { s with layout := { s.layout with pend :=
            { state := .collecting, version := some n.version, switchFrame := n.switchFrame,
              expCount := n.count, expSum := n.checksum, mismatch := false,
              entries := MapEntries.absent } } }
          v (.layout .announced n.version.val n.switchFrame (lead n.switchFrame)) 0 ∧
        t = if n.count = 0 then v.checkPending f else v)) ∧
  -- A STREAM record for the pending map (R71, R72).
  (∀ (s : State) (r : StreamRecord) (f : FrameNo),
    let p := s.layout.pend
    let t := s.offerPending r f
    let conflict := { s with layout := { s.layout with conflict := s.layout.conflict + 1 } }
    ((p.state = .none ∨ p.version ≠ some r.version) → t = s) ∧
    (p.version = some r.version → p.state = .ready →
      ((∃ e, entryOf p.entries r.id = some e ∧ r.Describes e) → t = s) ∧
      ((∀ e, entryOf p.entries r.id = some e → ¬ r.Describes e) → t = conflict)) ∧
    (p.version = some r.version → p.state = .collecting →
      (p.expCount = 0 → t = s) ∧
      (p.expCount ≠ 0 → r.Meets p.entries (fun _ => True) → t = conflict) ∧
      (p.expCount ≠ 0 → ¬ r.Meets p.entries (fun _ => True) → ∃ v : State,
        v = { s with layout := { s.layout with pend := { p with
          entries := v.layout.pend.entries } } } ∧
        entryOf v.layout.pend.entries r.id = some
          { start := r.start, count := r.count, depth := r.depth, collected := true } ∧
        (∀ j, j ≠ r.id → entryOf v.layout.pend.entries j = entryOf p.entries j) ∧
        (entryOf p.entries r.id = none → t = v.checkPending f) ∧
        (entryOf p.entries r.id ≠ none → t = v)))) ∧
  -- The check of the pending map (R72).
  (∀ (s : State) (f : FrameNo),
    let p := s.layout.pend
    let t := s.checkPending f
    let sum := mapChecksum (versionNat p.version) p.entries (fun _ => true)
    let lead := (p.switchFrame - f).toNat
    let set := fun x : PendingMap => { s with layout := { s.layout with pend := x } }
    (collectedCount p.entries ≠ p.expCount → t = s) ∧
    (collectedCount p.entries = p.expCount → sum = p.expSum →
      (set { p with state := .ready }).Hands t
        (.layout .verified (versionNat p.version) p.switchFrame lead) 0) ∧
    (collectedCount p.entries = p.expCount → sum ≠ p.expSum → ∃ v : State,
      (set { p with state := .collecting, mismatch := true, entries := MapEntries.absent }).Latches
        v .layoutMismatch ∧
      (p.mismatch = true → t = v) ∧
      (p.mismatch = false → v.Hands t
        (.layout .mismatch (versionNat p.version) p.switchFrame lead) 0))) ∧
  -- The bit steps of the record check value (R12).
  (let bit := fun r : BitVec 16 => if r.msb = true then (r <<< 1) ^^^ 0x1021 else r <<< 1
   crc16 [] = 0xFFFF ∧
    ∀ (bs : List Byte) (b : Byte), crc16 (bs ++ [b]) =
      bit (bit (bit (bit (bit (bit (bit (bit (crc16 bs ^^^ (b.setWidth 16 <<< 8)))))))))) ∧
  -- The six bytes of each stream in the map checksum, in ascending stream id (R13).
  (∀ (version : Nat) (m : MapEntries) (p : MapEntry → Bool),
    let six : StreamId → List Byte := fun i => match (entryOf m i).filter p with
      | some e =>
        [BitVec.ofNat 8 i.val, BitVec.ofNat 8 e.start, BitVec.ofNat 8 (e.start / 256),
          BitVec.ofNat 8 e.count,
          (match e.depth with | .d1 => 1 | .d5 => 5 | .d10 => 10 : Byte),
          BitVec.ofNat 8 version]
      | none => []
    mapChecksum version m p = crc16 ((List.finRange 48).flatMap six)) ∧
  -- The entries collected, and the names of map entries and versions (R61, R63, R65, R79).
  (∀ m : MapEntries, collectedCount m = ((List.finRange 48).filter (fun i => match m[i] with
    | some e => e.collected
    | none => false)).length) ∧
  (∀ (s : State) (m : MapEntries) (i : StreamId), entryOf m i = m[i] ∧
    s.curEntry i = s.layout.cur.entries[i] ∧ entryOf MapEntries.absent i = none) ∧
  (∀ v : Fin 16, versionNat (some v) = v.val) ∧
  (∀ a n b k : Nat, (runsMeet a n b k = true ↔ a < b + k ∧ b < a + n) ∧
    (runInRange a n = true ↔ 1 ≤ n ∧ n ≤ 128 ∧ a + n ≤ 960)) ∧
  -- The bytes of an assembly buffer, the lowest lane of each word first (R58).
  ∀ b : AsmBuffer, b.bytes.length = 32 ∧
    (∀ (i : Fin 8) (k : Nat), k < 4 →
      byteAt b.bytes (4 * i.val + k) = b.words[i].extractLsb' (8 * k) 8) ∧
    AsmBuffer.clear.mask = 0 ∧ ∀ i : Fin 8, AsmBuffer.clear.words[i] = 0

/-! ## Taps and the hold policy unit -/

/-- Ready front completions of a tap are judged in turn until the front is not ready: a front whose
entry still counts writes leaves the state as it is; a ready front, one whose entry counts no write
or that names none, leaves the settling list and is judged, and the completions behind it are taken
in the same way. No other tap changes, and in HALTED the list is frozen (R94). That the step happens
inside the command that brings it about, and as a row of its own too, is the model's choice (log 1).
-/
def Obligations.SettledFrontJudged : Prop :=
  ∀ (s : State) (u : TapNo), s.Up → ∃ t, exec (.settledCompletionJudged u) s = .next t ∧
    s.OnlyTaps t ∧ (∀ v, v ≠ u → t.tap v = s.tap v) ∧
    ((s.device = .halted ∨ (s.tap u).settling = []) → t = s) ∧
    ∀ c rest, s.device ≠ .halted → (s.tap u).settling = c :: rest →
      let ready := ∀ a e, c.kind = .slot a → s.slot a = some e → e.outstanding = 0
      (¬ ready → t = s) ∧
      (ready → ∃ v, v = (s.setTap u { s.tap u with settling := rest }).judge u c ∧
        (v.tap u).settling = rest ∧ s.OnlyTaps v ∧ v.device ≠ .halted ∧
        exec (.settledCompletionJudged u) v = .next t)

/-- What a judged completion becomes, whatever stands behind it in the settling list. A slot
completion is CLEAN with no erased class, and of the current instance it becomes the retained slot,
once the retention of the slot retained before has ended (R120), and ends HOLDING with its TAP_STATE
report; PARTIAL when acceptable or under PASS; SILENT with its slot silenced when damaged under
SILENT, or under REPEAT with no repetition possible; REPEATED of the retained slot otherwise, its
own slot going back to the stack or becoming RETURNING (R94, R126 to R130, R132, R134). With the
completion queue full it is discarded, its slot taken back, REPORTS_BLOCKED latched and a RUNNING
tap HOLDING with its TAP_STATE report (R98). A STARVED completion that continues the last entry
merges into it up to a run of 255, the rest a new entry or discarded; any other STARVED or ABANDONED
one is queued with no slot (R95, R96). Each queued entry has its due mark and starts the tap's timer
by R145, and an entry that becomes due tests readiness (R142), which the model does at each such
entry (log 16). That a clean entry is queued after its slot is retained and before the tap resumes
is the model's reading of R127 (log 38). The classes counted against the tolerance are the erased
ones, and the claims on a slot entry are its posted count and the entries of its owner's queue that
name it (R126, R131). The mark of an ended instance (log 34), the row that judges at once where the
step also happens inside other commands (log 1), and entries made due before the report of a change
of tap state is handed (log 31) are the model's form. -/
def Obligations.HoldDecisionQueued : Prop :=
  (∀ (s : State) (u : TapNo) (c : Completion) (rest : List Completion),
    s.Up → s.device ≠ .halted → (s.tap u).settling = c :: rest →
    (∀ a e, c.kind = .slot a → s.slot a = some e → e.outstanding = 0) →
    let tp := s.tap u
    let merging := fun last : QueueEntry => c.kind = .starved ∧ last.outcome = .starved ∧
      last.number = c.number ∧ last.run < 255 ∧ last.frame + BitVec.ofNat 12 last.run = c.frame
    let merges := ∃ last, tp.queue.getLast? = some last ∧ merging last
    let current := tp.bound = true ∧
      ∃ n, tp.inst = some n ∧ n.ended = false ∧ n.number = c.number
    let repeatOf := fun r : Word => current ∧ tp.retained = some r ∧
      tp.repeatCount < tp.params.repeatLimit ∧ ∀ x, s.slot r = some x → s.claims x < 16
    ∃ v, exec (.settledCompletionJudged u) s = exec (.settledCompletionJudged u) v ∧
      (rest = [] → exec (.settledCompletionJudged u) s = .next v) ∧
      (v.tap u).settling = rest ∧
      -- The queue is full (R98).
      (8 ≤ tp.queue.length → ¬ merges →
        (v.tap u).queue.map (·.facts) = tp.queue.map (·.facts) ∧
        (v.tap u).counters = { tp.counters with
          discarded := tp.counters.discarded + BitVec.ofNat 32 c.run } ∧
        v.reporter.flagSet .reportsBlocked = true ∧ (v.tap u).retained = tp.retained ∧
        (v.tap u).repeatCount = tp.repeatCount ∧
        (v.tap u).state = (if tp.state = .running then .holding else tp.state) ∧
        ∀ a e, c.kind = .slot a → s.slot a = some e → e.awaitingPush = false →
          a ∈ v.supply.stack ∨ a ∈ v.returning) ∧
      -- A slot completion with room in the queue (R126 to R134).
      (∀ a e, tp.queue.length < 8 → c.kind = .slot a → s.slot a = some e →
        let acceptable := e.erased = 0 ∨
          (tp.state ≠ .holding ∧ classCount e.erased ≤ tp.params.tolerance)
        (e.erased = 0 →
          (v.tap u).queue.map (·.facts) =
            tp.queue.map (·.facts) ++ [(c.frame, some a, .clean, 0, c.run)] ∧
          (v.tap u).counters = { tp.counters with clean := tp.counters.clean + 1 } ∧
          (current → (v.tap u).retained = some a ∧ (v.tap u).repeatCount = 0 ∧
            (v.tap u).state = .running ∧
            (tp.state = .holding → (v.tap u).recovery = tp.holdLength.getD 0)) ∧
          (¬ current → (v.tap u).retained = tp.retained ∧ (v.tap u).state = tp.state)) ∧
        (e.erased ≠ 0 → (acceptable ∨ tp.params.policy = .pass) →
          (v.tap u).queue.map (·.facts) =
            tp.queue.map (·.facts) ++ [(c.frame, some a, .partly, e.erased, c.run)] ∧
          (v.tap u).counters = { tp.counters with partly := tp.counters.partly + 1 } ∧
          (v.tap u).retained = tp.retained ∧ (v.tap u).state = tp.state) ∧
        (¬ acceptable → (tp.params.policy = .silent ∨
            (tp.params.policy = .repeating ∧ ∀ r, ¬ repeatOf r)) →
          (v.tap u).queue.map (·.facts) =
            tp.queue.map (·.facts) ++ [(c.frame, some a, .silent, e.erased, c.run)] ∧
          (v.tap u).counters = { tp.counters with silent := tp.counters.silent + 1 } ∧
          (∃ x, v.slot a = some x ∧ x.silenced = true) ∧
          (v.tap u).retained = tp.retained ∧ (v.tap u).state = tp.state) ∧
        ∀ r, ¬ acceptable → tp.params.policy = .repeating → repeatOf r →
          (v.tap u).queue.map (·.facts) =
            tp.queue.map (·.facts) ++ [(c.frame, some r, .repeated, e.erased, c.run)] ∧
          (v.tap u).counters = { tp.counters with repeated := tp.counters.repeated + 1 } ∧
          (v.tap u).repeatCount = tp.repeatCount + 1 ∧ (v.tap u).retained = tp.retained ∧
          (v.tap u).state = tp.state ∧
          (e.awaitingPush = false → a ∈ v.supply.stack ∨ a ∈ v.returning)) ∧
      -- STARVED and ABANDONED completions (R95, R96).
      (∀ front last, tp.queue = front ++ [last] → merging last →
        (last.run + c.run ≤ 255 →
          (v.tap u).queue = front ++ [{ last with run := last.run + c.run }] ∧
          (v.tap u).counters = { tp.counters with
            starved := tp.counters.starved + BitVec.ofNat 32 c.run }) ∧
        (255 < last.run + c.run → tp.queue.length < 8 →
          (v.tap u).queue.map (·.facts) = front.map (·.facts) ++
            [(last.frame, last.slot, .starved, last.erased, 255),
             (last.frame + 255, none, .starved, 0, last.run + c.run - 255)] ∧
          (v.tap u).counters = { tp.counters with
            starved := tp.counters.starved + BitVec.ofNat 32 c.run }) ∧
        (255 < last.run + c.run → 8 ≤ tp.queue.length →
          (v.tap u).queue.map (·.facts) = front.map (·.facts) ++
            [(last.frame, last.slot, .starved, last.erased, 255)] ∧
          (v.tap u).counters = { tp.counters with
            starved := tp.counters.starved + BitVec.ofNat 32 (255 - last.run)
            discarded := tp.counters.discarded + BitVec.ofNat 32 (last.run + c.run - 255) } ∧
          v.reporter.flagSet .reportsBlocked = true)) ∧
      (tp.queue.length < 8 → ¬ merges → c.kind = .starved →
        (v.tap u).queue.map (·.facts) =
          tp.queue.map (·.facts) ++ [(c.frame, none, .starved, 0, c.run)] ∧
        (v.tap u).counters = { tp.counters with
          starved := tp.counters.starved + BitVec.ofNat 32 c.run }) ∧
      (tp.queue.length < 8 → c.kind = .abandoned →
        (v.tap u).queue.map (·.facts) =
          tp.queue.map (·.facts) ++ [(c.frame, none, .abandoned, 0, c.run)] ∧
        (v.tap u).counters = { tp.counters with
          abandoned := tp.counters.abandoned + BitVec.ofNat 32 c.run }) ∧
      -- Retention, due marks, the timer and TAP_STATE reports (R98, R116, R120, R127, R145, R146).
      let base := s.setTap u { tp with settling := rest }
      let entry : FrameOutcome → Option Word → ClassSet → QueueEntry := fun outcome slot erased =>
        { frame := c.frame, slot := slot, outcome := outcome, erased := erased, run := c.run,
          number := c.number, due := false }
      (8 ≤ tp.queue.length → ¬ merges → ∃ w x : State, base.Discards w u c.kind c.run ∧
        w.Latches x .reportsBlocked ∧ x.HoldsAfterDiscard v u) ∧
      (∀ a e, tp.queue.length < 8 → c.kind = .slot a → s.slot a = some e →
        let acceptable := e.erased = 0 ∨
          (tp.state ≠ .holding ∧ classCount e.erased ≤ tp.params.tolerance)
        (e.erased = 0 → current → ∃ r p w : State, base.EndsRetention r u ∧
          State.ChangesSlot (r.setTap u { r.tap u with retained := some a, repeatCount := 0 }) p a
            (fun x => { x with retained := true }) ∧
          p.Enqueues w u (entry .clean (some a) 0) ∧ (tp.state ≠ .holding → v = w) ∧
          (tp.state = .holding →
            (w.setTap u { w.tap u with recovery := tp.holdLength.getD 0 }).Enters v u .running
              .cleanResumed)) ∧
        (e.erased = 0 → ¬ current → base.Enqueues v u (entry .clean (some a) 0)) ∧
        (e.erased ≠ 0 → (acceptable ∨ tp.params.policy = .pass) →
          base.Enqueues v u (entry .partly (some a) e.erased)) ∧
        (¬ acceptable → (tp.params.policy = .silent ∨
            (tp.params.policy = .repeating ∧ ∀ r, ¬ repeatOf r)) → ∃ p : State,
          base.ChangesSlot p a (fun x => { x with silenced := true }) ∧
          p.Enqueues v u (entry .silent (some a) e.erased)) ∧
        ∀ r, ¬ acceptable → tp.params.policy = .repeating → repeatOf r → ∃ w : State,
          (base.setTap u { base.tap u with repeatCount := tp.repeatCount + 1 }).Enqueues w u
            (entry .repeated (some r) e.erased) ∧ w.GivesBack v a) ∧
      (∀ front last, tp.queue = front ++ [last] → merging last →
        (last.run + c.run ≤ 255 → v = base.setTap u (v.tap u) ∧ (v.tap u).timer = tp.timer) ∧
        (255 < last.run + c.run → ∃ m : State,
          m = base.setTap u { base.tap u with
            queue := front ++ [{ last with run := 255 }], counters := (m.tap u).counters } ∧
          (tp.queue.length < 8 → m.Enqueues v u
            { frame := last.frame + 255, slot := none, outcome := .starved, erased := 0,
              run := last.run + c.run - 255, number := c.number, due := false }) ∧
          (8 ≤ tp.queue.length → ∃ w x : State,
            m.Discards w u .starved (last.run + c.run - 255) ∧ w.Latches x .reportsBlocked ∧
            x.HoldsAfterDiscard v u))) ∧
      (tp.queue.length < 8 → ¬ merges → c.kind = .starved →
        base.Enqueues v u (entry .starved none 0)) ∧
      (tp.queue.length < 8 → c.kind = .abandoned → base.Enqueues v u (entry .abandoned none 0))) ∧
  -- The erased classes counted (R126) and the claims on a slot entry (R131).
  (∀ m : ClassSet, classCount m = ((List.range 10).filter (fun c => m.getLsbD c)).length) ∧
  ∀ (s : State) (e : SlotEntry), s.claims e =
    e.posted + ((s.tap e.owner).queue.filter (fun q => q.slot == some e.addr)).length

/-! ## Slot supply -/

/-- A free index value is ignored in HALTED and with the free ring unconfigured; otherwise, modulo
the ring size, it becomes the recorded free index, a refill in flight is not changed, and a refill
starts when R109's conditions hold: it takes the smaller of 8 less the stack's depth and the entries
available, by one INCR read with tag 17 at the free base plus 4 times the consumer index, or two where
the ring's end lies between (R16, R109). The values of one piece are taken in beat order (R107). -/
def Obligations.FreeIndexTaken : Prop :=
  (∀ (s : State) (v : Word), s.Up →
    ((s.device = .halted ∨ s.regions = none) → exec (.freeIndexTaken v) s = .next s) ∧
    ∀ r, s.device ≠ .halted → s.regions = some r →
      ∃ t, exec (.freeIndexTaken v) s = .next t ∧
        t = { s with supply := { s.supply with
          recorded := v.toNat % r.freeSize, refill := t.supply.refill } } ∧
        (∀ f, s.supply.refill = some f → t.supply.refill = some f) ∧
        (s.supply.refill = none → t.RefillTested r)) ∧
  ∀ (s : State) (tag : Tag) (p : Piece),
    s.Up → s.oldestPiece tag = some p → p.write = true → p.redirect = none →
    p.snoop = some .free →
    ∃ t u, exec (.forwardedPieceResponse tag .ok []) s = .next t ∧ s.OnlyLink u ∧
      t = ((p.beats.filter allStrobes).map (·.data)).foldl State.takeFreeIndex u

/-- An OK answer to a live burst of a refill adds its entries to those the refill has; the one that
leaves no burst waiting or unanswered ends the refill: the consumer index advances by all its
entries, the valid addresses are pushed in ring order, and when one was skipped BAD_SLOT is latched
and a SUPPLY report lists the skipped ones in ring order; then R109 is tested again for the next
refill. An address is valid by the four tests of R110 and is pushed before the next is checked; a full
stack makes it a RETURNING entry, which tests readiness (R117, R142). The answer to a discarded refill's burst takes the burst out
of flight and does no more (R16, R33, R108 to R110). The entries of one burst standing in the refill
until its last burst is answered, and the values of a RETURNING entry's cleared fields, are the
model's choice (log 11, log 30). -/
def Obligations.RefillAddressesTaken : Prop :=
  (∀ (s : State) (r : Regions) (f : Refill) (b : OwnBurst) (data : List Word),
    s.Up → s.oldestBurst .refill = some (b, .live) → s.supply.refill = some f →
    data.length = b.len → s.regions = some r →
    let last := f.waiting = [] ∧ s.ownInFlight .refill .live = 1
    let entries := f.data ++ data
    ∃ t, exec (.refillComplete data) s = .next t ∧ s.link.AnswersOldest t.link 17 b ∧
      (¬ last → t = { s with link := t.link, supply := { s.supply with
        refill := some { f with data := entries } } }) ∧
      (last → ∃ u skipped w, s.takeAddrs r entries = (u, skipped) ∧
        let v := { u with supply := { u.supply with
          consumer := (s.supply.consumer + entries.length) % r.freeSize } }
        (skipped = [] → w = v) ∧
        (skipped ≠ [] → ∃ m : State, v.Latches m .badSlot ∧ m.Hands w (.supply skipped) 0) ∧
        t = { w with link := t.link, supply := { w.supply with refill := t.supply.refill } } ∧
        t.RefillTested r ∧
        t = { s with link := t.link, supply := t.supply, reporter := t.reporter } ∧
        t.supply.recorded = s.supply.recorded)) ∧
  (∀ (s : State) (b : OwnBurst) (life : Life) (data : List Word),
    s.Up → s.oldestBurst .refill = some (b, life) → life ≠ .live → data.length = b.len →
    ∃ t, exec (.refillComplete data) s = .next t ∧ s.OnlyLink t ∧
      s.link.AnswersOldest t.link 17 b) ∧
  (∀ (s : State) (r : Regions) (a : Word),
    s.validSlot r a = true ↔
      a ≠ 0 ∧ a.toNat % 4096 = 0 ∧
      rangesMeet a.toNat 4096 r.landingBase.toNat 32768 = false ∧
      rangesMeet a.toNat 4096 (pageBase s.strap).toNat 4096 = false ∧
      rangesMeet a.toNat 4096 r.reportBase.toNat (64 * r.reportSize) = false ∧
      rangesMeet a.toNat 4096 r.freeBase.toNat (4 * r.freeSize) = false ∧
      a ∉ s.heldAddrs) ∧
  (∀ base₁ size₁ base₂ size₂ : Nat, rangesMeet base₁ size₁ base₂ size₂ = true ↔
    base₁ < base₂ + size₂ ∧ base₂ < base₁ + size₁) ∧
  (∀ (s : State) (a : Word),
    a ∈ s.heldAddrs ↔ a ∈ s.supply.stack ∨ ∃ e ∈ s.supply.table, e.addr = a) ∧
  ∀ (s : State) (r : Regions) (a : Word) (rest : List Word),
    s.takeAddrs r [] = (s, []) ∧
    (s.validSlot r a = true → s.takeAddrs r (a :: rest) = (s.push a).takeAddrs r rest ∧
      s.Pushes (s.push a) a) ∧
    (s.validSlot r a = false → (s.takeAddrs r (a :: rest)).1 = (s.takeAddrs r rest).1 ∧
      (s.takeAddrs r (a :: rest)).2 = a :: (s.takeAddrs r rest).2)

/-- An entry awaiting push whose count is zero is removed and its address placed on the spare stack,
or made a RETURNING entry by a full one, which tests readiness; in HALTED nothing changes (R108,
R116, R117, R122, R142). That an entry that does not wait, or still counts writes, leaves the state,
and the values of a RETURNING entry's cleared fields, are the model's choice (log 5, log 30). That
the step happens inside the command that brings it about, and as a row of its own too, is the
model's choice (log 1). -/
def Obligations.AwaitingPushReleased : Prop :=
  ∀ (s : State) (a : Word), s.Up →
    (∀ e, s.device ≠ .halted → s.slot a = some e → e.awaitingPush = true → e.outstanding = 0 →
      ∃ t, exec (.awaitingPushReleased a) s = .next t ∧ s.RemovesAndPushes t a) ∧
    ((s.device = .halted ∨ ∀ e, s.slot a = some e → e.awaitingPush = false ∨ e.outstanding ≠ 0) →
      exec (.awaitingPushReleased a) s = .next s)

/-! ## The reporter -/

/-- A report index value is ignored in HALTED and with the ring unconfigured; otherwise, modulo the
ring size, it becomes the recorded report index, nREPORT is judged again and a ready report
proceeds when the ring has room. The values of one piece are taken in beat order (R140). -/
def Obligations.ReportIndexTaken : Prop :=
  (∀ (s : State) (v : Word), s.Up →
    ((s.device = .halted ∨ s.regions = none) → exec (.reportIndexTaken v) s = .next s) ∧
    ∀ r, s.device ≠ .halted → s.regions = some r →
      let index := v.toNat % r.reportSize
      ∃ t, exec (.reportIndexTaken v) s = .next t ∧
        State.TestsReports
          { s with reporter := { s.reporter with
            recorded := index
            nReportLow := s.reporter.alertEnable && s.reporter.producer != index } } t) ∧
  ∀ (s : State) (tag : Tag) (p : Piece),
    s.Up → s.oldestPiece tag = some p → p.write = true → p.redirect = none →
    p.snoop = some .report →
    ∃ t u, exec (.forwardedPieceResponse tag .ok []) s = .next t ∧ s.OnlyLink u ∧
      t = ((p.beats.filter allStrobes).map (·.data)).foldl State.takeReportIndex u

/-- Outside HALTED, with the ring configured, no report write in flight and a report ready, the
report is prepared at the producer index with every field fixed when the ring has room, and
REPORTS_BLOCKED is latched when it has none; otherwise nothing changes (R139, R142). Its write is
one burst of 16 full beats with tag 18 (R16). The record's 64 bytes are those of R152 and R153. That
the step happens inside the command that brings it about, and as a row of its own too, is the
model's choice (log 1). Byte b of the four at a word address is bits 8b to 8b + 7 of the link word,
and of a field of two or four bytes the lowest stands first: deduced from the little-endian
Conventions (log 12). -/
def Obligations.ReportPrepared : Prop :=
  (∀ s : State, s.Up → ∃ t, exec .reportPrepare s = .next t ∧ s.TestsReports t) ∧
  -- The bytes of a record (R152, R153).
  (∀ (c : ReportContent) (dropped : Nat) (frame : FrameNo),
    let b := reportRecord c dropped frame
    let stateCode := fun x : TapState => (match x with
      | .closed => 0 | .waiting => 1 | .running => 2 | .holding => 3 | .orphaned => 4 : Byte)
    let addresses := fun addrs : List Word =>
      (∀ i (h : i < addrs.length), wordAt b (8 + 4 * i) = addrs[i]) ∧
        ∀ i, 8 + 4 * addrs.length ≤ i → byteAt b i = 0
    b.length = 64 ∧ byteAt b 1 = BitVec.ofNat 8 dropped ∧ halfAt b 2 = frame.setWidth 16 ∧
    match c with
    | .frames u es =>
      byteAt b 0 = 1 ∧ byteAt b 4 = BitVec.ofNat 8 u.val ∧
      byteAt b 5 = BitVec.ofNat 8 es.length ∧ byteAt b 6 = 0 ∧ byteAt b 7 = 0 ∧
      (es.length ≤ 6 →
        (∀ i (h : i < es.length),
          wordAt b (8 + 8 * i) = (es[i].slot.getD 0 ||| es[i].frame.setWidth 32) ∧
          halfAt b (12 + 8 * i) = es[i].erased.setWidth 16 ∧
          byteAt b (14 + 8 * i) = (match es[i].outcome with
            | .clean => 1 | .partly => 2 | .repeated => 3 | .silent => 4 | .starved => 5
            | .abandoned => 6 : Byte) ∧
          byteAt b (15 + 8 * i) = BitVec.ofNat 8 es[i].run) ∧
        ∀ i, 8 + 8 * es.length ≤ i → byteAt b i = 0)
    | .queued (.tapState u old new reason stream) =>
      byteAt b 0 = 2 ∧ byteAt b 4 = BitVec.ofNat 8 u.val ∧ byteAt b 5 = stateCode old ∧
      byteAt b 6 = stateCode new ∧
      byteAt b 7 = (match reason with
        | .opened => 1 | .bound => 2 | .instanceRestart => 3 | .streamRemoved => 4
        | .streamUnknown => 5 | .resync => 6 | .starvation => 7 | .discard => 8
        | .cleanResumed => 9 | .closed => 10 | .stopped => 11 : Byte) ∧
      byteAt b 8 = (match stream with | some i => BitVec.ofNat 8 i.val | none => 0xFF) ∧
      ∀ i, 9 ≤ i → byteAt b i = 0
    | .queued (.layout event version switchFrame lead) =>
      byteAt b 0 = 3 ∧
      byteAt b 4 = (match event with
        | .announced => 1 | .withdrawn => 2 | .switchedVerified => 3 | .switchedUnverified => 4
        | .verified => 5 | .mismatch => 6 | .versionChanged => 7 : Byte) ∧
      byteAt b 5 = BitVec.ofNat 8 version ∧ halfAt b 6 = switchFrame.setWidth 16 ∧
      halfAt b 8 = BitVec.ofNat 16 lead ∧ ∀ i, 10 ≤ i → byteAt b i = 0
    | .queued (.reception event lostFrames) =>
      byteAt b 0 = 4 ∧
      byteAt b 4 = (match event with | .coastEntered => 1 | .resumed => 2 | .resync => 3 : Byte) ∧
      byteAt b 5 = BitVec.ofNat 8 lostFrames ∧ ∀ i, 6 ≤ i → byteAt b i = 0
    | .queued (.directive position kind reason addrs) =>
      byteAt b 0 = 5 ∧ byteAt b 4 = BitVec.ofNat 8 position ∧ byteAt b 5 = kind ∧
      byteAt b 6 = (match reason with
        | .badCheck => 1 | .unknownKind => 2 | .wrongState => 3 | .badParameter => 4
        | .tapBusy => 5 | .unknownSlot => 6 : Byte) ∧
      byteAt b 7 = BitVec.ofNat 8 addrs.length ∧ (addrs.length ≤ 12 → addresses addrs)
    | .returned addrs =>
      byteAt b 0 = 6 ∧ byteAt b 4 = BitVec.ofNat 8 addrs.length ∧ byteAt b 5 = 0 ∧
      byteAt b 6 = 0 ∧ byteAt b 7 = 0 ∧ (addrs.length ≤ 12 → addresses addrs)
    | .queued (.supply addrs) =>
      byteAt b 0 = 7 ∧ byteAt b 4 = BitVec.ofNat 8 addrs.length ∧ byteAt b 5 = 0 ∧
      byteAt b 6 = 0 ∧ byteAt b 7 = 0 ∧ (addrs.length ≤ 12 → addresses addrs)) ∧
  -- The lanes of bytes, half words and words (00 Conventions, R14).
  ∀ bs : List Byte,
    (∀ i (h : i < bs.length), byteAt bs i = bs[i]) ∧ (∀ i, bs.length ≤ i → byteAt bs i = 0) ∧
    (∀ i k, k < 2 → (halfAt bs i).extractLsb' (8 * k) 8 = byteAt bs (i + k)) ∧
    (∀ i k, k < 4 → (wordAt bs i).extractLsb' (8 * k) 8 = byteAt bs (i + k)) ∧
    (toWords bs).length = bs.length / 4 ∧
    ∀ i w, (toWords bs)[i]? = some w → ∀ k, k < 4 →
      w.extractLsb' (8 * k) 8 = byteAt bs (4 * i + k)

/-- The report prepared first: entries a waiting TAP_STATE report at the front is held for, then the
front of the report queue, then RETURNING addresses, then the due front entries of the
lowest-numbered tap; at most six entries, one with a summary interval of 0 (R142). The RETURNING
addresses stand in the order in which their entries were created, which is the order of the table,
deduced from R117 (log 36); an entry's due mark is R145's. -/
def Obligations.ReportPreference : Prop :=
  (∀ s : State,
    let limit := if s.reporter.interval = 0 then 1 else 6
    (∀ q rest u old new reason stream, s.reporter.queue = q :: rest →
      q.body = .tapState u old new reason stream → 0 < q.flush → (s.tap u).queue ≠ [] →
      s.nextReport = some (.frames u ((s.tap u).queue.take (min limit q.flush)))) ∧
    (∀ q rest, s.reporter.queue = q :: rest →
      (∀ u old new reason stream, q.body = .tapState u old new reason stream →
        q.flush = 0 ∨ (s.tap u).queue = []) →
      s.nextReport = some (.queued q.body)) ∧
    (s.reporter.queue = [] → s.returning ≠ [] →
      s.nextReport = some (.returned (s.returning.take 12))) ∧
    (s.reporter.queue = [] → s.returning = [] →
      (∀ u : TapNo, (∀ v : TapNo, v < u → (s.tap v).queue.takeWhile (·.due) = []) →
        (s.tap u).queue.takeWhile (·.due) ≠ [] →
        s.nextReport = some (.frames u (((s.tap u).queue.takeWhile (·.due)).take limit))) ∧
      ((∀ u : TapNo, (s.tap u).queue.takeWhile (·.due) = []) → s.nextReport = none))) ∧
  ∀ s : State, s.returning =
    (s.supply.table.filter (fun e => decide (e.state = .returning))).map (fun e => e.addr)

/-- A report answered OK is written: its burst leaves flight and the report write ends, the producer
index advances, the drops its header carried leave the dropped count, nREPORT is judged again, and the
effects of its kind follow: a handed report leaves the report queue, RETURNING entries are removed, and
R109 is tested for a refill when none is left (R117), FRAMES entries leave their queue and their slots
are posted (R141, R143, R147). An entry merged into since the preparation leaves a due remainder
(R147). Each entry written lowers by one the flush counts that counted it; a waiting TAP_STATE report
did not count a remainder made since its handing (R145). Then readiness is tested again for the next
report (R142, R143). The OK answer to a discarded report write takes the burst out of flight and does
no more (R33, R143). A report handed to a full queue is dropped and counted (R141), and any handing
outside HALTED tests readiness (R142), the model at each of them (log 16). The model's readings in it: the drops counted since the preparation stay for the next report prepared (log 33),
and a counted entry that leaves a remainder lowers the flush counts, the remainder being an entry they
did not count (log 41). -/
def Obligations.ReportWritten : Prop :=
  (∀ (s : State) (r : Regions) (w : ReportWrite) (b : OwnBurst),
    s.Up → s.oldestBurst .report = some (b, .live) → s.reporter.write = some w →
    s.regions = some r →
    ∃ m v t : State, exec .reportWriteComplete s = .next t ∧
      -- The report is written (R141, R143).
      s.link.AnswersOldest m.link 18 b ∧
      m = { s with
        link := m.link
        taps := m.taps
        supply := { s.supply with table := m.supply.table }
        reporter := { s.reporter with
          producer := (s.reporter.producer + 1) % r.reportSize
          dropped := w.droppedSince
          write := none
          queue := m.reporter.queue
          nReportLow := s.reporter.alertEnable &&
            (s.reporter.producer + 1) % r.reportSize != s.reporter.recorded } } ∧
      (∀ c, w.content = .queued c →
        m.reporter.queue = s.reporter.queue.tail ∧ m.taps = s.taps ∧ m.supply = s.supply) ∧
      (∀ addrs, w.content = .returned addrs →
        m.supply.table = s.supply.table.filter (fun e => !addrs.contains e.addr) ∧
        m.taps = s.taps ∧ m.reporter.queue = s.reporter.queue) ∧
      (∀ u es, w.content = .frames u es →
        let written := fun (queue : List QueueEntry) (remainder : Bool) =>
          m.tap u = { s.tap u with queue := queue } ∧
          m.reporter.queue = s.reporter.queue.map (fun q => match q.body with
            | .tapState v _ _ _ _ =>
              if v = u then { q with
                flush := q.flush - (es.length - if q.pastRemainder then 1 else 0)
                pastRemainder := remainder }
              else q
            | _ => q)
        (∀ rest, es ≠ [] → (s.tap u).queue = es ++ rest → written rest false) ∧
        (∀ init c e rest, es = init ++ [c] → (s.tap u).queue = init ++ e :: rest → c.run < e.run →
          written ({ e with
            frame := e.frame + BitVec.ofNat 12 c.run, run := e.run - c.run, due := true } ::
              rest) true) ∧
        m.reporter.queue.map (·.body) = s.reporter.queue.map (·.body) ∧
        (∀ v, v ≠ u → m.tap v = s.tap v) ∧
        ∀ a x, s.slot a = some x → m.slot a = some { x with
          posted := x.posted + (es.filter (QueueEntry.names a)).length
          state := if x.state = .complete ∧ (es.filter (QueueEntry.names a)) ≠ [] then .posted
            else x.state }) ∧
      -- The removal of the last RETURNING entry tests R109 (R117).
      (((∀ addrs, w.content ≠ .returned addrs) ∨ m.returning ≠ []) → v = m) ∧
      (∀ addrs, w.content = .returned addrs → m.returning = [] →
        v = { m with supply := { m.supply with refill := v.supply.refill } } ∧
        (∀ f, s.supply.refill = some f → v.supply.refill = some f) ∧
        (s.supply.refill = none → v.RefillTested r)) ∧
      -- The next report (R142, R143).
      exec .reportPrepare v = .next t ∧
      t = { v with reporter := { v.reporter with
        write := t.reporter.write, flags := t.reporter.flags, nFaultLow := t.reporter.nFaultLow } }) ∧
  (∀ (s : State) (b : OwnBurst) (life : Life), s.Up →
    s.oldestBurst .report = some (b, life) → life ≠ .live →
    ∃ t, exec .reportWriteComplete s = .next t ∧ s.OnlyLink t ∧
      s.link.AnswersOldest t.link 18 b) ∧
  ∀ (s : State) (body : ReportBody) (flush : Nat), s.Hands (s.handWith body flush) body flush

/-- A tap's coalescing timer at or above the summary interval in force makes every entry of the tap
due and becomes absent, and readiness is tested when one was not due; in HALTED nothing changes (R142,
R145, R148). That a timer below the interval, or
absent, leaves the state is the model's choice (log 5). -/
def Obligations.CoalescingExpiryMakesDue : Prop :=
  ∀ (s : State) (u : TapNo), s.Up →
    (∀ n, s.device ≠ .halted → (s.tap u).timer = some n → s.reporter.interval ≤ n →
      ∃ t, exec (.coalescingTimerExpiry u) s = .next t ∧ s.MakesDue t u) ∧
    ((s.device = .halted ∨ ∀ n, (s.tap u).timer = some n → n < s.reporter.interval) →
      exec (.coalescingTimerExpiry u) s = .next s)

/-! ## The directive unit: batches and records -/

/-- A directive index value, modulo 32, becomes the recorded index in every device state; while idle
and different from the consumer index it begins a batch with a fetch of the record there; in a batch
it changes only the recorded index (R156, R157). Behind a fetch discarded at the entry to HALTED the
new fetch waits, the model's reading of R32 (log 26). -/
def Obligations.DirectiveIndexTaken : Prop :=
  ∀ (s : State) (v : Word), s.Up →
    ∃ t, exec (.directiveIndexTaken v) s = .next t ∧
      t = { s with directive := { s.directive with
        recorded := t.directive.recorded, batch := t.directive.batch,
        fetch := t.directive.fetch } } ∧
      t.directive.recorded.val = v.toNat % 32 ∧
      ((s.directive.batch = .inProgress ∨ v.toNat % 32 = s.directive.consumer.val) →
        t.directive.batch = s.directive.batch ∧ t.directive.fetch = s.directive.fetch) ∧
      (s.directive.batch = .idle → v.toNat % 32 ≠ s.directive.consumer.val →
        t.directive.batch = .inProgress ∧
        (s.ownInFlight .fetch .haltDiscarded = 0 → t.directive.fetch = some
          [{ tag := 16,
             addr := pageBase s.strap + BitVec.ofNat 32 (0x800 + 64 * s.directive.consumer.val),
             kind := .incr, len := 16, beats := [] }]) ∧
        (s.ownInFlight .fetch .haltDiscarded ≠ 0 → t.directive.fetch = none))

/-- A fetched record whose check fails is rejected with BAD_CHECK, and one whose kind byte is none
of the thirteen codes with UNKNOWN_KIND; the batch goes on to the next record (R160, R161). The
check is the CRC-8 of bytes 0 to 62 against byte 63 (R160). The parameters of the thirteen kinds
stand where the table of R173 places them. Its bit steps are those of R160. The byte lanes are those
that ReportPrepared spells out (log 12, deduced). -/
def Obligations.UnreadableRecordRejected : Prop :=
  (∀ (s : State) (bytes : List Byte), s.Up → bytes.length = 64 → s.FetchEnds →
    (directiveCheck bytes = false →
      ∃ u, s.fetched.RejectedAs u (byteAt bytes 0) .badCheck [] ∧
        exec (.directiveFetchComplete bytes) s = .next u.nextRecord) ∧
    (directiveCheck bytes = true → readDirective bytes = none →
      ∃ u, s.fetched.RejectedAs u (byteAt bytes 0) .unknownKind [] ∧
        exec (.directiveFetchComplete bytes) s = .next u.nextRecord)) ∧
  (∀ bytes : List Byte, readDirective bytes = none ↔ (byteAt bytes 0).toNat ∉
    [0x10, 0x11, 0x12, 0x13, 0x20, 0x21, 0x22, 0x30, 0x40, 0x41, 0x50, 0x51, 0x5A]) ∧
  (∀ bytes : List Byte,
    let b := byteAt bytes
    let read := readDirective bytes
    (b 0 = 0x10 → read = some (.configure
      { landingMode := b 2, landingBase := wordAt bytes 4, reportBase := wordAt bytes 8,
        reportSize := halfAt bytes 12, freeBase := wordAt bytes 16,
        freeSize := halfAt bytes 20 })) ∧
    (b 0 = 0x11 → read = some (.setTiming (b 2) (b 3) (b 4))) ∧
    (b 0 = 0x12 → read = some .start) ∧
    (b 0 = 0x13 → read = some .stop) ∧
    (b 0 = 0x20 → read = some (.tapOpen (b 1) (b 2) (b 3) (b 4) (b 5) (b 6))) ∧
    (b 0 = 0x21 → read = some (.tapAdjust (b 1) (b 3) (b 4) (b 5) (b 6))) ∧
    (b 0 = 0x22 → read = some (.tapClose (b 1))) ∧
    (b 0 = 0x30 → ∃ addrs, read = some (.release (b 2) addrs) ∧ addrs.length = 12 ∧
      ∀ i (h : i < addrs.length), addrs[i] = wordAt bytes (4 + 4 * i)) ∧
    (b 0 = 0x40 → read = some .forceResync) ∧
    (b 0 = 0x41 → read = some .forgetLayout) ∧
    (b 0 = 0x50 → read = some (.clearFaults (b 2))) ∧
    (b 0 = 0x51 → read = some (.setAlerts (b 2) (b 3))) ∧
    (b 0 = 0x5A → read = some .warmReset)) ∧
  -- The check value: the bit steps of the CRC-8, and byte 63 (R160).
  (let bit := fun r : BitVec 8 => if r.msb = true then (r <<< 1) ^^^ 0x07 else r <<< 1
   crc8 [] = 0xFF ∧
    ∀ (bs : List Byte) (b : Byte), crc8 (bs ++ [b]) =
      bit (bit (bit (bit (bit (bit (bit (bit (crc8 bs ^^^ b))))))))) ∧
  ∀ bytes : List Byte,
    directiveCheck bytes = true ↔ crc8 (bytes.take 63) = byteAt bytes 63

/-- A fetched record that passes its check runs as its directive's command at the completion of the
fetch, and the batch goes on to the next record; a WARM_RESET ends the batch with itself (R157,
R161, R170). The OK answer to a discarded fetch runs nothing and leaves the consumer index: a record
whose fetch was discarded at the entry to HALTED is not run, and neither is one whose fetch was in
flight at a WARM_RESET (R16, R33, R159). A fetch that waited behind one discarded at the entry to
HALTED starts at its answer, the model's reading of R32 (log 26). That a directive's row runs its
effect without the fetch is the model's choice (log 2). -/
def Obligations.FetchedDirectiveRuns : Prop :=
  (∀ (s : State) (bytes : List Byte) (d : Directive),
    s.Up → bytes.length = 64 → s.FetchEnds → directiveCheck bytes = true →
    readDirective bytes = some d →
    (d ≠ .warmReset → ∃ u, exec d.command s.fetched = .next u ∧
      exec (.directiveFetchComplete bytes) s = .next u.nextRecord) ∧
    (d = .warmReset → exec (.directiveFetchComplete bytes) s = exec .warmReset s.fetched)) ∧
  (∀ (s : State) (bytes : List Byte) (b : OwnBurst) (life : Life),
    s.Up → bytes.length = 64 → s.oldestBurst .fetch = some (b, life) → life ≠ .live →
    let waits := s.directive.batch = .inProgress ∧ s.directive.fetch = none
    ∃ t, exec (.directiveFetchComplete bytes) s = .next t ∧
      t = { s with link := t.link, directive := t.directive } ∧
      s.link.AnswersOldest t.link 16 b ∧
      ((life = .resetDiscarded ∨ ¬ waits) → t.directive = s.directive) ∧
      (life = .haltDiscarded → waits → s.ownInFlight .fetch .haltDiscarded = 1 →
        t.directive = { s.directive with fetch := t.directive.fetch } ∧
        t.directive.fetch = some
          [{ tag := 16,
             addr := pageBase s.strap + BitVec.ofNat 32 (0x800 + 64 * s.directive.consumer.val),
             kind := .incr, len := 16, beats := [] }]) ∧
      (life = .haltDiscarded → waits → 1 < s.ownInFlight .fetch .haltDiscarded →
        t.directive = s.directive)) ∧
  ∀ (s : State) (b : OwnBurst) (life : Life), s.oldestBurst .fetch = some (b, life) →
    s.link.AnswersOldest s.fetched.link 16 b ∧
    s.fetched = { s with
      link := s.fetched.link, directive := { s.directive with fetch := none } }

/-- After a record the consumer index advances modulo 32; when it differs from the recorded index
the next fetch starts, and when it equals it the batch ends, with a status block write requested
and the enable mark set outside HALTED (R157, R159, R171). -/
def Obligations.NextRecordAdvances : Prop :=
  ∀ u : State,
    let next := u.directive.consumer + 1
    u.OnlyDirective u.nextRecord ∧ next.val = (u.directive.consumer.val + 1) % 32 ∧
    u.nextRecord.directive.consumer = next ∧
    u.nextRecord.directive.recorded = u.directive.recorded ∧
    (next ≠ u.directive.recorded → u.ownInFlight .fetch .haltDiscarded = 0 →
      u.nextRecord.directive = { u.directive with
        consumer := next, batch := .inProgress
        fetch := some
          [{ tag := 16, addr := pageBase u.strap + BitVec.ofNat 32 (0x800 + 64 * next.val)
             kind := .incr, len := 16, beats := [] }] }) ∧
    (next = u.directive.recorded → u.device = .halted →
      u.nextRecord.directive = { u.directive with consumer := next, batch := .idle }) ∧
    (next = u.directive.recorded → u.device ≠ .halted →
      DirectiveUnit.RequestedOnce
        { u.directive with consumer := next, batch := .idle, statusEnable := true } u.nextRecord)

/-- A directive not executed in the present device state is rejected with WRONG_STATE and changes
nothing but the reporter: its DIRECTIVE report is handed, which tests readiness outside HALTED, and
DIRECTIVE_REJECTED is latched (R141, R142, R161, R162). The report names the directive by its kind
code (R173). The row of a directive runs it without the fetch, the model's choice (log 2). -/
def Obligations.WrongStateRejected : Prop :=
  (∀ (s : State) (d : Directive), s.Up → d.command.wf = true → ¬ d.executedIn s →
    ∃ t, exec d.command s = .next t ∧ s.RejectedAs t d.code .wrongState []) ∧
  -- The code of each kind (R173).
  (∀ p, (Directive.configure p).code = 0x10) ∧
  (∀ a b c, (Directive.setTiming a b c).code = 0x11) ∧ Directive.start.code = 0x12 ∧
  Directive.stop.code = 0x13 ∧ (∀ a b c d e f, (Directive.tapOpen a b c d e f).code = 0x20) ∧
  (∀ a b c d e, (Directive.tapAdjust a b c d e).code = 0x21) ∧
  (∀ a, (Directive.tapClose a).code = 0x22) ∧ (∀ a l, (Directive.release a l).code = 0x30) ∧
  Directive.forceResync.code = 0x40 ∧ Directive.forgetLayout.code = 0x41 ∧
  (∀ a, (Directive.clearFaults a).code = 0x50) ∧ (∀ a b, (Directive.setAlerts a b).code = 0x51) ∧
  Directive.warmReset.code = 0x5A

/-! ## The thirteen directives -/

/-- CONFIGURE past the state tests: with a parameter out of its range it is rejected with
BAD_PARAMETER; otherwise it sets the three regions, the landing mode and the ring indices, tests for
a ready report and judges nREPORT, and changes no slot, map or tap (R163). -/
def Obligations.ConfigureTaken : Prop :=
  ∀ (s : State) (p : ConfigureParams), s.Up → Directive.executedIn s (.configure p) →
    (¬ s.ConfigureAllowed p →
      ∃ t, exec (.configure p) s = .next t ∧ s.RejectedAs t 0x10 .badParameter []) ∧
    (s.ConfigureAllowed p →
      ∃ t v, exec (.configure p) s = .next t ∧
        State.TestsReports
          { s with
            regions := some
              { landingBase := p.landingBase, reportBase := p.reportBase
                reportSize := p.reportSize.toNat, freeBase := p.freeBase
                freeSize := p.freeSize.toNat }
            reception := { s.reception with
              mode := if p.landingMode = 1 then .linear else .streamed }
            supply := { s.supply with consumer := 0, recorded := 0 }
            reporter := { s.reporter with producer := 0, recorded := 0 } } v ∧
        t = { v with reporter := { v.reporter with nReportLow := false } } ∧
        v.reporter.flags = s.reporter.flags)

/-- SET_TIMING in range hands its values as pending ones and leaves the values in force and the
status block as they are; out of range it is rejected with BAD_PARAMETER (R164). -/
def Obligations.SetTimingPends : Prop :=
  ∀ (s : State) (gap coast summary : Byte), s.Up → s.device ≠ .halted →
    let good := 36 ≤ gap.toNat ∧ gap.toNat ≤ 60 ∧ 1 ≤ coast.toNat ∧ coast.toNat ≤ 64 ∧
      summary.toNat ≤ 63
    (good → ∃ t, exec (.setTiming gap coast summary) s = .next t ∧
      t = { s with
        reception := { s.reception with pendingTiming := some (gap.toNat, coast.toNat) }
        reporter := { s.reporter with pendingInterval := some summary.toNat } } ∧
      ∀ sequence, statusBytes t sequence = statusBytes s sequence) ∧
    (¬ good → ∃ t, exec (.setTiming gap coast summary) s = .next t ∧
      s.RejectedAs t 0x11 .badParameter [])

/-- START takes the device from STOPPED to ACQUIRING, STOP takes it from ACQUIRING, RUNNING or
COASTING to STOPPED with the open frame closed, every bound tap WAITING without its instance and
every queued completion due; each requests a status block write; STOP in STOPPED changes nothing
(R53, R102, R146, R165, R177, R178). At the stop notice each bound tap abandons its open frames,
keeps its retained slot and loses its instance, and each ORPHANED tap is WAITING (R93, R102, R133).
That the taps are served in ascending number, that readiness is tested at each report handed and
each entry made due in turn, and that the status block write starts at once when none is in flight,
are the model's choice (log 19, log 16, log 17). Entries are made due before it is known whether a
report of a change of tap state joins the queue (log 31). -/
def Obligations.StartAndStop : Prop :=
  (∀ s : State, s.Up → Directive.executedIn s .start →
    ∃ t, exec .start s = .next t ∧
      t = { s with
        device := .acquiring
        reception := { s.reception with
          openFrame := none, expected := none, coast := 0, sealLate := false, gapTimer := none }
        directive := t.directive } ∧
      s.directive.RequestedOnce t) ∧
  (∀ s : State, s.Up → s.device = .stopped → exec .stop s = .next s) ∧
  (∀ s : State, s.Up → s.device.active = true →
    ∃ t, exec .stop s = .next t ∧ t.device = .stopped ∧ s.StatusRequested t ∧
      s.SameOutside t ∧
      t.reception = { s.reception with
        openFrame := none, expected := none, coast := 0, sealLate := false, gapTimer := none } ∧
      t.layout.cur = s.layout.cur ∧ t.layout.pend = s.layout.pend ∧
      ∀ u : TapNo,
        (t.tap u).state = (if (s.tap u).state = .closed then .closed else .waiting) ∧
        ((s.tap u).bound = true → (t.tap u).inst = none ∧ (t.tap u).openFrames = []) ∧
        (t.tap u).stream = (s.tap u).stream ∧ (t.tap u).pendingOpen = (s.tap u).pendingOpen ∧
        (t.tap u).pendingAdjust = (s.tap u).pendingAdjust ∧
        (∀ e ∈ (t.tap u).queue, e.due = true) ∧ (t.tap u).timer = none) ∧
  -- The stop notice (R93, R102).
  (∀ s : State, s.Up → s.device.active = true →
    ∃ t c n : State, exec .stop s = .next t ∧ s.ClosesFrame c ∧
      State.MakesAllDue n (([0, 1, 2, 3, 4, 5, 6, 7] : List TapNo).foldl State.tapStop c)
        [0, 1, 2, 3, 4, 5, 6, 7] ∧
      State.ChangesDevice
        { n with reception := { n.reception with
          expected := none, coast := 0, sealLate := false, gapTimer := none } } t .stopped) ∧
  ∀ (s : State) (u : TapNo),
    let t := State.tapStop s u
    ((s.tap u).bound = true →
      ∃ v : State, s.Abandons v u ∧ v.Unbinds t u .waiting .stopped) ∧
    ((s.tap u).state = .orphaned → s.Enters t u .waiting .stopped) ∧
    (((s.tap u).state = .waiting ∨ (s.tap u).state = .closed) → t = s)

/-- TAP_OPEN is rejected with BAD_PARAMETER for a value out of its range or a stream another tap
names, then with TAP_BUSY when the tap is not CLOSED or has a pending open; accepted, it records the
pending open and changes nothing else (R82, R166). -/
def Obligations.TapOpenTaken : Prop :=
  ∀ (s : State) (tap stream policy tolerance repeatLimit floor : Byte),
    s.Up → s.device ≠ .halted →
    let good := tap.toNat ≤ 7 ∧ stream.toNat ≤ 47 ∧
      ParamsInRange policy tolerance repeatLimit floor ∧
      ∀ v : TapNo, v.val ≠ tap.toNat → ¬ (s.tap v).NamesByte stream
    (¬ good →
      ∃ t, exec (.tapOpen tap stream policy tolerance repeatLimit floor) s = .next t ∧
        s.RejectedAs t 0x20 .badParameter []) ∧
    (good → ∀ u : TapNo, u.val = tap.toNat →
      (((s.tap u).state ≠ .closed ∨ (s.tap u).pendingOpen ≠ none) →
        ∃ t, exec (.tapOpen tap stream policy tolerance repeatLimit floor) s = .next t ∧
          s.RejectedAs t 0x20 .tapBusy []) ∧
      ((s.tap u).state = .closed → (s.tap u).pendingOpen = none →
        ∃ i p, i.val = stream.toNat ∧ p.Spells policy tolerance repeatLimit floor ∧
          exec (.tapOpen tap stream policy tolerance repeatLimit floor) s =
            .next (s.setTap u { s.tap u with pendingOpen := some (i, p) })))

/-- TAP_ADJUST is rejected with BAD_PARAMETER out of range, then with TAP_BUSY for a CLOSED tap with
no pending open; accepted, it replaces the parameters of the pending open, or becomes the pending
adjust, and changes nothing else (R83, R166). -/
def Obligations.TapAdjustTaken : Prop :=
  ∀ (s : State) (tap policy tolerance repeatLimit floor : Byte), s.Up → s.device ≠ .halted →
    let good := tap.toNat ≤ 7 ∧ ParamsInRange policy tolerance repeatLimit floor
    (¬ good → ∃ t, exec (.tapAdjust tap policy tolerance repeatLimit floor) s = .next t ∧
      s.RejectedAs t 0x21 .badParameter []) ∧
    (good → ∀ u : TapNo, u.val = tap.toNat →
      ((s.tap u).state = .closed → (s.tap u).pendingOpen = none →
        ∃ t, exec (.tapAdjust tap policy tolerance repeatLimit floor) s = .next t ∧
          s.RejectedAs t 0x21 .tapBusy []) ∧
      (∀ i q, (s.tap u).pendingOpen = some (i, q) →
        ∃ p, p.Spells policy tolerance repeatLimit floor ∧
          exec (.tapAdjust tap policy tolerance repeatLimit floor) s =
            .next (s.setTap u { s.tap u with pendingOpen := some (i, p) })) ∧
      ((s.tap u).state ≠ .closed → (s.tap u).pendingOpen = none →
        ∃ p, p.Spells policy tolerance repeatLimit floor ∧
          exec (.tapAdjust tap policy tolerance repeatLimit floor) s =
            .next (s.setTap u { s.tap u with pendingAdjust := some p })))

/-- TAP_CLOSE above tap 7 is rejected with BAD_PARAMETER; a CLOSED tap loses what is pending; any
other tap drops its open frames and settling completions, whose idle slots go back to the stack or
become RETURNING entries and whose other slots await push (R116), keeps its queue with every entry
due, ends its retention, with what R120 and R133 make of the retained entry, loses its instance and
is CLOSED (R84, R146). That its report carries no stream, and that readiness is tested at each event
in turn (R142), are the model's choice (log 23, log 16). Entries are made due before it is known
whether a report of a change of tap state joins the queue (log 31). -/
def Obligations.TapCloseTaken : Prop :=
  ∀ (s : State) (tap : Byte), s.Up → s.device ≠ .halted →
    (7 < tap.toNat → ∃ t, exec (.tapClose tap) s = .next t ∧
      s.RejectedAs t 0x22 .badParameter []) ∧
    ∀ u : TapNo, u.val = tap.toNat →
      ((s.tap u).state = .closed → exec (.tapClose tap) s =
        .next (s.setTap u { s.tap u with pendingOpen := none, pendingAdjust := none })) ∧
      ((s.tap u).state ≠ .closed →
        ∃ t, exec (.tapClose tap) s = .next t ∧ s.OnlyTaps t ∧
          (∀ v, v ≠ u → t.tap v = s.tap v) ∧
          (t.tap u).state = .closed ∧ (t.tap u).stream = none ∧ (t.tap u).inst = none ∧
          (t.tap u).pendingAdjust = none ∧ (t.tap u).pendingOpen = (s.tap u).pendingOpen ∧
          (t.tap u).openFrames = [] ∧ (t.tap u).settling = [] ∧ (t.tap u).retained = none ∧
          (t.tap u).timer = none ∧
          (t.tap u).queue = (s.tap u).queue.map (fun e => { e with due := true }) ∧
          (t.tap u).counters = { (s.tap u).counters with
            discarded := (s.tap u).counters.discarded +
              BitVec.ofNat 32 ((s.tap u).settling.map (·.run)).sum } ∧
          ({ body := .tapState u (s.tap u).state .closed .closed none,
             flush := (s.tap u).queue.length } ∈ t.reporter.queue ∨
            32 ≤ t.reporter.queue.length) ∧
          ∀ a e, ((∃ l ∈ (s.tap u).openFrames, l.slot = some a) ∨
              ∃ c ∈ (s.tap u).settling, c.kind = .slot a) →
            s.slot a = some e → e.outstanding = 0 → e.awaitingPush = false →
            a ∈ t.supply.stack ∨ a ∈ t.returning) ∧
      -- The five steps of R84 in order.
      ((s.tap u).state ≠ .closed →
        ∃ v d w x t : State, exec (.tapClose tap) s = .next t ∧
          State.GivesBackAll v (s.setTap u { s.tap u with openFrames := [] })
            ((s.tap u).openFrames.filterMap (·.slot)) ∧
          State.DiscardsAll u d (v.setTap u { v.tap u with settling := [] }) (s.tap u).settling ∧
          d.MakesDue w u ∧
          w.EndsRetention x u ∧
          (x.setTap u { x.tap u with inst := none, pendingAdjust := none, stream := none }).Enters
            t u .closed .closed)

/-- RELEASE with a count outside 1 to 12 is rejected with BAD_PARAMETER; otherwise its addresses are
taken in order by the table of R118, and the rejected ones are listed in one DIRECTIVE report with
reason UNKNOWN_SLOT (R118, R161, R167). A last claim removes the entry only when it is not retained
and no completion queue entry names it: R120 (row 3) and R138 followed over R118's row, the model's
choice (log 22). -/
def Obligations.ReleaseTaken : Prop :=
  (∀ (s : State) (count : Byte) (addrs : List Word), s.Up → s.device ≠ .halted →
    ((count.toNat < 1 ∨ 12 < count.toNat) → ∃ t, exec (.release count addrs) s = .next t ∧
      s.RejectedAs t 0x30 .badParameter []) ∧
    (1 ≤ count.toNat → count.toNat ≤ 12 → count.toNat ≤ addrs.length →
      ∃ u rejected, s.releaseAll (addrs.take count.toNat) = (u, rejected) ∧
        u = { s with supply := { s.supply with table := u.supply.table } } ∧
        (rejected = [] → exec (.release count addrs) s = .next u) ∧
        (rejected ≠ [] → ∃ t, exec (.release count addrs) s = .next t ∧
          u.RejectedAs t 0x30 .unknownSlot rejected))) ∧
  (∀ (s : State) (a : Word) (rest : List Word),
    s.releaseAll [] = (s, []) ∧
    (s.releaseAll (a :: rest)).1 = ((s.releaseOne a).1.releaseAll rest).1 ∧
    (s.releaseAll (a :: rest)).2 =
      (if (s.releaseOne a).2 then [] else [a]) ++ ((s.releaseOne a).1.releaseAll rest).2) ∧
  ∀ (s : State) (a : Word) (rest : List Word), s.Up → s.device ≠ .halted →
    let named := ∃ u q, q ∈ (s.tap u).queue ∧ q.slot = some a
    (∀ e, s.slot a = some e → e.state = .posted → 1 ≤ e.posted →
      ∃ t, exec (.release 1 (a :: rest)) s = .next t ∧
        t = { s with supply := { s.supply with table := t.supply.table } } ∧
        (∀ b, b ≠ a → t.slot b = s.slot b) ∧
        (2 ≤ e.posted → t.slot a = some { e with posted := e.posted - 1 }) ∧
        (e.posted = 1 → e.retained = false → ¬ named → t.slot a = none) ∧
        (e.posted = 1 → (e.retained = true ∨ named) → t.slot a = some { e with posted := 0 })) ∧
    ((∀ e, s.slot a = some e → e.state ≠ .posted ∨ e.posted = 0) →
      ∃ t, exec (.release 1 (a :: rest)) s = .next t ∧ s.RejectedAs t 0x30 .unknownSlot [a])

/-- FORCE_RESYNC in ACQUIRING, RUNNING or COASTING closes the open frame, hands the resync report,
abandons the open logical frames of every bound tap, which becomes HOLDING with its instance
awaiting restart, makes every queued completion due and leaves the device ACQUIRING with the timer
stopped; both maps are kept (R50, R51, R93, R99, R120, R146, R168). That the ABANDONED entries this
resync queues are due too, that retention ends after the abandonment, and that readiness is tested
at each event in turn (R142), are the model's choice (log 37, log 20, log 16). Entries are made due
before it is known whether a report of a change of tap state joins the queue (log 31). -/
def Obligations.ForceResyncTaken : Prop :=
  (∀ s : State, s.Up → s.device.active = true →
    ∃ t, exec .forceResync s = .next t ∧ t.device = .acquiring ∧ s.SameOutside t ∧
      t.reception = { s.reception with
        openFrame := none, expected := none, coast := 0, gapTimer := none } ∧
      t.layout.cur = s.layout.cur ∧ t.layout.pend = s.layout.pend ∧
      (s.device ≠ .acquiring → s.StatusRequested t) ∧
      ({ body := .reception .resync s.reception.coast, flush := 0 } ∈ t.reporter.queue ∨
        32 ≤ t.reporter.queue.length) ∧
      ∀ u : TapNo,
        ((s.tap u).bound = true → (t.tap u).state = .holding ∧ (t.tap u).openFrames = [] ∧
          (t.tap u).retained = none ∧ ∀ n, (t.tap u).inst = some n → n.restart = true) ∧
        ((s.tap u).bound = false → (t.tap u).state = (s.tap u).state) ∧
        (t.tap u).stream = (s.tap u).stream ∧
        (∀ e ∈ (t.tap u).queue, e.due = true) ∧ (t.tap u).timer = none) ∧
  (∀ s : State, s.Up → s.device.active = true →
    ∃ t : State, exec .forceResync s = .next t ∧ s.Resyncs t) ∧
  -- The resync notice for one tap (R93, R99, R133).
  ∀ (s : State) (u : TapNo),
    let t := State.tapResync s u
    ((s.tap u).bound = true → ∃ v w : State, s.Abandons v u ∧ v.EndsRetention w u ∧
      (w.setTap u { w.tap u with
        inst := (w.tap u).inst.map (fun i => { i with restart := true }) }).Enters t u .holding
          .resync) ∧
    ((s.tap u).bound = false → t = s)

/-- FORGET_LAYOUT empties both maps, keeps the assembly buffers and the layout counters, and leaves
every bound tap WAITING without instance, open frames and retained slot, its open frames abandoned,
and every ORPHANED tap WAITING (R76, R93, R101, R120, R168). A map left EMPTY or NONE has no
version, no entry and expectations 0, retention ends after the abandonment, and readiness is tested
at each event in turn (R142): the model's choice (log 30, log 20, log 16). Entries are made due
before it is known whether a report of a change of tap state joins the queue (log 31). -/
def Obligations.ForgetLayoutTaken : Prop :=
  (∀ s : State, s.Up → s.device ≠ .halted →
    ∃ t, exec .forgetLayout s = .next t ∧ s.OnlyLayout t ∧
      t.layout = { s.layout with cur := CurrentMap.empty, pend := PendingMap.none } ∧
      ∀ u : TapNo,
        ((s.tap u).bound = true → (t.tap u).state = .waiting ∧ (t.tap u).inst = none ∧
          (t.tap u).openFrames = [] ∧ (t.tap u).retained = none) ∧
        ((s.tap u).state = .orphaned → (t.tap u).state = .waiting) ∧
        ((s.tap u).state = .waiting ∨ (s.tap u).state = .closed →
          (t.tap u).state = (s.tap u).state) ∧
        (t.tap u).stream = (s.tap u).stream ∧ (t.tap u).pendingOpen = (s.tap u).pendingOpen ∧
        (t.tap u).pendingAdjust = (s.tap u).pendingAdjust) ∧
  (∀ s : State, s.Up → s.device ≠ .halted → exec .forgetLayout s = .next
    (([0, 1, 2, 3, 4, 5, 6, 7] : List TapNo).foldl State.tapForget
      { s with layout := { s.layout with cur := CurrentMap.empty, pend := PendingMap.none } })) ∧
  -- The forget notice for one tap (R93, R101, R133).
  (∀ (s : State) (u : TapNo),
    let t := State.tapForget s u
    ((s.tap u).bound = true → ∃ v w : State, s.Abandons v u ∧ v.EndsRetention w u ∧
      w.Unbinds t u .waiting .streamUnknown) ∧
    ((s.tap u).state = .orphaned → s.Enters t u .waiting .streamUnknown) ∧
    (((s.tap u).state = .waiting ∨ (s.tap u).state = .closed) → t = s)) ∧
  CurrentMap.empty =
    { state := .empty, version := none, expCount := 0, expSum := 0, mismatch := false,
      entries := Vector.replicate 48 none } ∧
  PendingMap.none =
    { state := .none, version := none, switchFrame := 0, expCount := 0, expSum := 0,
      mismatch := false, entries := Vector.replicate 48 none }

/-- CLEAR_FAULTS clears each named flag in every device state, but not BUS_ERROR in HALTED, and an
empty set clears nothing; SET_ALERTS sets the report alert enable and the seven pin enables, judges
both lines again and shows in no status block, and is rejected with BAD_PARAMETER when the alert
enable is neither 0 nor 1 (R149, R150, R151, R169). -/
def Obligations.ClearFaultsAndSetAlerts : Prop :=
  (∀ (s : State) (flags : Byte), s.Up →
    ∃ t, exec (.clearFaults flags) s = .next t ∧
      t = { s with reporter := { s.reporter with
        flags := t.reporter.flags, nFaultLow := t.reporter.nFaultLow } } ∧
      (∀ f : Flag, t.reporter.flagSet f = (s.reporter.flagSet f &&
        (!flags.getLsbD f.bit || (s.device == .halted && f == .busError)))) ∧
      (t.reporter.nFaultLow = true ↔ ∃ f : Flag, t.reporter.flagSet f = true ∧
        (f = .busError ∨ s.reporter.pinEnables.getLsbD f.bit = true)) ∧
      (flags = 0 → t.reporter.flags = s.reporter.flags)) ∧
  ∀ (s : State) (enable pins : Byte), s.Up → s.device ≠ .halted →
    (1 < enable.toNat → ∃ t, exec (.setAlerts enable pins) s = .next t ∧
      s.RejectedAs t 0x51 .badParameter []) ∧
    (enable.toNat ≤ 1 → ∃ t, exec (.setAlerts enable pins) s = .next t ∧
      t = { s with reporter := { s.reporter with
        alertEnable := t.reporter.alertEnable, pinEnables := t.reporter.pinEnables,
        nReportLow := t.reporter.nReportLow, nFaultLow := t.reporter.nFaultLow } } ∧
      (t.reporter.alertEnable = true ↔ enable = 1) ∧
      (∀ f : Flag, f ≠ .busError → t.reporter.pinEnables.getLsbD f.bit = pins.getLsbD f.bit) ∧
      (t.reporter.nFaultLow = true ↔ ∃ f : Flag, s.reporter.flagSet f = true ∧
        (f = .busError ∨ pins.getLsbD f.bit = true)) ∧
      (t.reporter.nReportLow = true ↔ s.regions ≠ none ∧ enable = 1 ∧
        s.reporter.producer ≠ s.reporter.recorded) ∧
      ∀ sequence, statusBytes t sequence = statusBytes s sequence)

/-- WARM_RESET, in every device state: every block takes its reset values with all flags clear, the
strap base, the outstanding transactions and what is in flight are kept, own bursts in flight are
discarded, pieces name no slot, and a status block write with sequence number 1 starts, its four
bursts those of R171 with the bytes of the reset state (R16, R27, R33, R170, R171, R181). The byte
lanes are those that ReportPrepared spells out (log 12, deduced). -/
def Obligations.WarmResetTaken : Prop :=
  ∀ s : State, s.Up →
    let c := State.coldReset s.strap
    ∃ t bs, exec .warmReset s = .next t ∧
      t.strap = s.strap ∧ t.nResetLow = s.nResetLow ∧ t.pending = s.pending ∧
      t.device = .stopped ∧ t.regions = none ∧ t.reception = c.reception ∧ t.layout = c.layout ∧
      t.taps = c.taps ∧ t.supply = c.supply ∧ t.reporter = { c.reporter with flags := 0 } ∧
      t.directive = { c.directive with statusEnable := true, sequence := 1, status := some bs } ∧
      WritesStatus (pageBase s.strap) (statusBytes t 1) bs ∧
      t.link = { s.link with
        queue := s.link.queue.map (fun p => { p with redirect := none })
        lastGrant := .own
        inFlight := s.link.inFlight.map (fun i => match i with
          | .piece p => .piece { p with redirect := none }
          | .own b _ => .own b .resetDiscarded) }

/-- An ERROR to a live burst of an own access outside HALTED enters HALTED: BUS_ERROR is latched,
nFAULT goes low, every other flag is kept but for the BAD_SLOT of a refill that ends with the entry,
nRESET is kept, waiting own bursts and the request mark are withdrawn, the timer stops, and every
table, queue, map and index is kept; only a refill with a burst issued goes on, its unissued burst
withdrawn, and one with every issued burst answered ends with the entry (the last, log 11). An ERROR
to a burst discarded before, or in HALTED, latches nothing and makes no second entry; in HALTED it
discards its own access alone (R33, R54, R111, R159, R179, R180). A fetch that waited behind a
discarded one starts at its answer, the model's reading of R32 (log 26). -/
def Obligations.OwnErrorHalts : Prop :=
  (∀ (s : State) (k : OwnKind) (data : List Word),
    s.Up → s.device ≠ .halted → s.oldestOwn k = some .live →
    -- A refill with bursts issued, each of them answered, ends with the entry.
    let ends := k ≠ .refill ∧ s.ownInFlight .refill .live = 0 ∧
      ∃ f, s.supply.refill = some f ∧ f.issuedEntries ≠ 0
    ∃ t b, exec (.ownAccessError k data) s = .next t ∧ t.device = .halted ∧
      t.nResetLow = s.nResetLow ∧
      t.reporter.flagSet .busError = true ∧ t.reporter.nFaultLow = true ∧
      t.reporter = { s.reporter with
        flags := t.reporter.flags, nFaultLow := true, write := none } ∧
      (∀ f : Flag, f ≠ .busError → f ≠ .badSlot → t.reporter.flagSet f = s.reporter.flagSet f) ∧
      (¬ ends → t.reporter.flagSet .badSlot = s.reporter.flagSet .badSlot) ∧
      t.directive = { s.directive with
        batch := .idle, fetch := none, statusRequest := false, status := none } ∧
      t.reception = { s.reception with gapTimer := none } ∧
      t.layout = s.layout ∧ t.taps = s.taps ∧ t.regions = s.regions ∧ t.strap = s.strap ∧
      t.pending = s.pending ∧
      ((k = .refill ∨ s.supply.refill = none) → t.supply = { s.supply with refill := none }) ∧
      (∀ f, k ≠ .refill → s.supply.refill = some f →
        (f.issuedEntries = 0 → t.supply = { s.supply with refill := none }) ∧
        (f.issuedEntries ≠ 0 → s.ownInFlight .refill .live ≠ 0 →
          t.supply = { s.supply with refill := some { f with waiting := [] } }) ∧
        (f.issuedEntries ≠ 0 → s.ownInFlight .refill .live = 0 → ∀ r, s.regions = some r →
          ∃ u skipped, State.takeAddrs { s with device := .halted } r f.data = (u, skipped) ∧
            t.supply = { u.supply with
              consumer := (s.supply.consumer + f.data.length) % r.freeSize, refill := none } ∧
            (t.reporter.flagSet .badSlot = true ↔
              s.reporter.flagSet .badSlot = true ∨ skipped ≠ []))) ∧
      ∃ m, s.link.AnswersOldest m (ownTag k) b ∧
        t.link = { m with inFlight := m.inFlight.map (fun i => match i with
          | .own c .live =>
            if c.tag = 17 ∧ t.supply.refill ≠ none then .own c .live else .own c .haltDiscarded
          | i => i) }) ∧
  ∀ (s : State) (k : OwnKind) (data : List Word) (life : Life),
    s.Up → s.oldestOwn k = some life → (life ≠ .live ∨ s.device = .halted) →
    ∃ t m b, exec (.ownAccessError k data) s = .next t ∧
      t = { s with link := t.link, supply := t.supply, directive := t.directive } ∧
      s.link.AnswersOldest m (ownTag k) b ∧
      (life ≠ .live → t.supply = s.supply ∧ t.link = m) ∧
      ((life = .resetDiscarded ∨ k ≠ .fetch) → t.directive = s.directive) ∧
      (life = .live → k ≠ .refill → t.supply = s.supply ∧ t.link = m) ∧
      (life = .live → k = .refill → t.supply = { s.supply with refill := none } ∧
        t.link = { m with inFlight := m.inFlight.map (fun i => match i with
          | .own c .live => if c.tag = 17 then .own c .haltDiscarded else .own c .live
          | i => i) }) ∧
      (life = .live → k = .fetch →
        t.directive = { s.directive with batch := .idle, fetch := none }) ∧
      (life = .haltDiscarded → k = .fetch →
        ((s.directive.batch = .idle ∨ s.directive.fetch ≠ none) → t.directive = s.directive) ∧
        (s.directive.batch = .inProgress → s.directive.fetch = none →
          s.ownInFlight .fetch .haltDiscarded = 1 →
          t.directive = { s.directive with fetch := t.directive.fetch } ∧
          t.directive.fetch = some
            [{ tag := 16,
               addr := pageBase s.strap + BitVec.ofNat 32 (0x800 + 64 * s.directive.consumer.val),
               kind := .incr, len := 16, beats := [] }]))

/-! ## The status block -/

/-- With the request mark and the enable mark set, no write in flight and the device not HALTED, a
status block write starts: the mark clears, the sequence number rises modulo 256 and four bursts of
16 full beats with tag 19 carry the 256 bytes fixed at that moment. Each OK answer takes one burst
out of flight; the one that leaves none waiting or unanswered completes the write and tests the mark
again, which starts the next write with its own four bursts, and the answer to a discarded burst
does no more (R16, R32, R33, R171). That a start without its conditions leaves the state is the
model's choice (log 5). That the step happens inside the command that brings it about, and as a row
of its own too, is the model's choice (log 1). The byte lanes are those that ReportPrepared spells
out (log 12, deduced). -/
def Obligations.StatusWriteStartsAndCompletes : Prop :=
  (∀ s : State, s.Up →
    let ready := s.device ≠ .halted ∧ s.directive.statusRequest = true ∧
      s.directive.statusEnable = true ∧ s.directive.status = none
    (¬ ready → exec .statusBlockWriteStart s = .next s) ∧
    (ready → ∃ t bs, exec .statusBlockWriteStart s = .next t ∧ s.OnlyDirective t ∧
      t.directive = { s.directive with
        statusRequest := false, sequence := s.directive.sequence + 1, status := some bs } ∧
      WritesStatus (pageBase s.strap) (statusBytes s (s.directive.sequence + 1)) bs)) ∧
  (∀ (s : State) (b : OwnBurst), s.Up → s.oldestBurst .status = some (b, .live) →
    let last := s.directive.status = some [] ∧ s.ownInFlight .status .live = 1
    let again := s.device ≠ .halted ∧ s.directive.statusRequest = true ∧
      s.directive.statusEnable = true
    ∃ t, exec .statusBlockWriteComplete s = .next t ∧
      t = { s with link := t.link, directive := t.directive } ∧
      s.link.AnswersOldest t.link 19 b ∧
      (¬ last → t.directive = s.directive) ∧
      (last → ¬ again → t.directive = { s.directive with status := none }) ∧
      (last → again → ∃ bs,
        WritesStatus (pageBase s.strap) (statusBytes s (s.directive.sequence + 1)) bs ∧
        t.directive = { s.directive with
          statusRequest := false, sequence := s.directive.sequence + 1, status := some bs })) ∧
  ∀ (s : State) (b : OwnBurst) (life : Life), s.Up →
    s.oldestBurst .status = some (b, life) → life ≠ .live →
    ∃ t, exec .statusBlockWriteComplete s = .next t ∧ s.OnlyLink t ∧
      s.link.AnswersOldest t.link 19 b

/-- The 256 bytes of the status block, field by field, and the fields of each tap's 24 bytes; every
unlisted byte is zero (R172, R174). The byte lanes are those that ReportPrepared spells out (log 12,
deduced). Byte 38 counts the present entries of the current map that are marked collected (R61), and
byte 1 holds the eight flags by their bits (R149, R173). -/
def Obligations.StatusBlockLayout : Prop :=
  (∀ (s : State) (q : BitVec 8),
    let b := statusBytes s q
    let r := s.reception
    let l := s.layout
    b.length = 256 ∧ byteAt b 1 = s.reporter.flags ∧
    (s.device = .stopped → byteAt b 0 = 0) ∧ (s.device = .acquiring → byteAt b 0 = 1) ∧
    (s.device = .running → byteAt b 0 = 2) ∧ (s.device = .coasting → byteAt b 0 = 3) ∧
    byteAt b 2 = BitVec.ofNat 8 s.directive.consumer.val ∧
    byteAt b 3 = BitVec.ofNat 8 s.reporter.producer ∧
    halfAt b 4 = BitVec.ofNat 16 s.supply.consumer ∧ halfAt b 6 = r.current.setWidth 16 ∧
    byteAt b 8 = q ∧ byteAt b 9 = BitVec.ofNat 8 r.gapLimit ∧
    byteAt b 10 = BitVec.ofNat 8 r.coastLimit ∧
    byteAt b 11 = BitVec.ofNat 8 s.reporter.interval ∧
    byteAt b 12 = (match r.mode with
      | .unconfigured => 0 | .linear => 1 | .streamed => 2 : Byte) ∧ byteAt b 13 = BitVec.ofNat 8 r.coast ∧
    byteAt b 14 = 0 ∧ byteAt b 15 = 0 ∧
    wordAt b 16 = r.received ∧ wordAt b 20 = r.lost ∧ wordAt b 24 = r.synthesized ∧
    wordAt b 28 = r.stray ∧ wordAt b 32 = r.late ∧
    byteAt b 36 = (match l.cur.state with
      | .empty => 0 | .collecting => 1 | .verified => 2 | .suspect => 3 : Byte) ∧
    byteAt b 37 = (match l.cur.version with | some v => BitVec.ofNat 8 v.val | none => 0xFF) ∧
    byteAt b 38 = BitVec.ofNat 8 (collectedCount l.cur.entries) ∧
    byteAt b 39 = (match l.pend.state with | .none => 0 | .collecting => 1 | .ready => 2 : Byte) ∧
    byteAt b 40 = (match l.pend.version with | some v => BitVec.ofNat 8 v.val | none => 0xFF) ∧
    byteAt b 41 = 0 ∧ halfAt b 42 = l.pend.switchFrame.setWidth 16 ∧
    wordAt b 44 = l.badCheck ∧ wordAt b 48 = l.outOfRange ∧ wordAt b 52 = l.conflict ∧
    (∀ u : TapNo, (b.drop (56 + 24 * u.val)).take 24 = tapBytes (s.tap u)) ∧
    (∀ i, 248 ≤ i → i < 255 → byteAt b i = 0) ∧ byteAt b 255 = q ∧
    ∀ tp : Tap,
      let x := tapBytes tp
      let n := tp.counters
      x.length = 24 ∧
      byteAt x 0 = (match tp.state with
        | .closed => 0 | .waiting => 1 | .running => 2 | .holding => 3 | .orphaned => 4 : Byte) ∧
      byteAt x 1 = (match tp.stream with | some i => BitVec.ofNat 8 i.val | none => 0xFF) ∧
      halfAt x 2 = (match tp.inst with | some i => i.start.setWidth 16 | none => 0xFFFF) ∧
      halfAt x 4 = BitVec.ofNat 16 tp.recovery ∧ byteAt x 6 = BitVec.ofNat 8 tp.queue.length ∧
      byteAt x 7 = BitVec.ofNat 8 tp.settling.length ∧
      halfAt x 8 = n.clean.setWidth 16 ∧ halfAt x 10 = n.partly.setWidth 16 ∧
      halfAt x 12 = n.repeated.setWidth 16 ∧ halfAt x 14 = n.silent.setWidth 16 ∧
      halfAt x 16 = n.starved.setWidth 16 ∧ halfAt x 18 = n.abandoned.setWidth 16 ∧
      halfAt x 20 = n.discarded.setWidth 16 ∧
      byteAt x 22 = (match tp.inst with | some i => BitVec.ofNat 8 i.depth.frames | none => 0) ∧
      (byteAt x 23).getLsbD 0 = tp.pendingOpen.isSome ∧
      (byteAt x 23).getLsbD 1 = tp.pendingAdjust.isSome ∧
      (byteAt x 23).getLsbD 2 = tp.inst.any (fun i => i.restart)) ∧
  -- The flag bits (R149, R173) and the entries counted (R61).
  (∀ r : Reporter, r.flagSet .powerOn = r.flags.getLsbD 0 ∧
    r.flagSet .busError = r.flags.getLsbD 1 ∧ r.flagSet .layoutMismatch = r.flags.getLsbD 2 ∧
    r.flagSet .badSlot = r.flags.getLsbD 3 ∧ r.flagSet .reportsBlocked = r.flags.getLsbD 4 ∧
    r.flagSet .starvation = r.flags.getLsbD 5 ∧ r.flagSet .landingOverrun = r.flags.getLsbD 6 ∧
    r.flagSet .directiveRejected = r.flags.getLsbD 7 ∧
    ∀ f : Flag, r.flagSet f = r.flags.getLsbD f.bit) ∧
  ∀ m : MapEntries, collectedCount m = ((List.finRange 48).filter (fun i => match m[i] with
    | some e => e.collected
    | none => false)).length
end

