-- ==== Sys2Proof/Laws/Bytes.lean ====
section
/-! SUPPORT. Bytes and the fields read back from them: lengths, and a value split into its bytes and
joined again. -/

namespace Sys2Proof.Machine

/-- A 16-bit value is its two bytes joined. -/
theorem half_joined (h : BitVec 16) : h.extractLsb' 8 8 ++ h.extractLsb' 0 8 = h := by
  ext i hi
  rw [BitVec.getElem_append]
  split
  · simp [BitVec.getLsbD_eq_getElem hi]
  · simp only [BitVec.getElem_extractLsb']
    rw [show 8 + (i - 8) = i by omega, BitVec.getLsbD_eq_getElem]

/-- The two bytes of a 16-bit value read back (00 Conventions). -/
theorem halfAt_halfBytes (h : BitVec 16) (rest : List Byte) :
    halfAt (halfBytes h ++ rest) 0 = h := half_joined h

/-- The four bytes of a word read back (00 Conventions). -/
theorem wordAt_wordBytes (w : Word) (rest : List Byte) : wordAt (wordBytes w ++ rest) 0 = w := by
  change (w.extractLsb' 24 8 ++ w.extractLsb' 16 8) ++ (w.extractLsb' 8 8 ++ w.extractLsb' 0 8) = w
  ext i hi
  simp only [BitVec.getElem_append, BitVec.getElem_extractLsb']
  split
  · split
    · simp [BitVec.getLsbD_eq_getElem hi]
    · rw [show 8 + (i - 8) = i by omega, BitVec.getLsbD_eq_getElem]
  · split
    · rw [show 16 + (i - 16) = i by omega, BitVec.getLsbD_eq_getElem]
    · rw [show 24 + (i - 16 - 8) = i by omega, BitVec.getLsbD_eq_getElem]

/-- A value written as two bytes is its low 16 bits (R174). -/
theorem half_toNat {w : Nat} (c : BitVec w) : half c.toNat = halfBytes (c.setWidth 16) := by
  simp [half]

@[simp] theorem length_wordBytes (w : Word) : (wordBytes w).length = 4 := rfl
@[simp] theorem length_half (n : Nat) : (half n).length = 2 := rfl
@[simp] theorem length_frameBytes (f : FrameNo) : (frameBytes f).length = 2 := rfl

/-- A padded byte string has the length it is padded to. -/
@[simp] theorem length_padTo (n : Nat) (bs : List Byte) : (padTo n bs).length = n := by
  simp [padTo]; omega

/-- Every report record has 64 bytes (R152). -/
@[simp] theorem length_reportRecord (c : ReportContent) (d : Nat) (f : FrameNo) :
    (reportRecord c d f).length = 64 := length_padTo 64 _

/-- A tap record of the status block has 24 bytes (R174). -/
@[simp] theorem length_tapBytes (tp : Tap) : (tapBytes tp).length = 24 := by
  cases h : tp.inst <;> simp [tapBytes, h]

/-- The status block has 256 bytes (R171). -/
@[simp] theorem length_statusBytes (s : State) (q : BitVec 8) : (statusBytes s q).length = 256 := by
  simp [statusBytes]

/-! ## Byte lanes (00 Conventions, R14) -/

/-- Bits below the join are those of the low part. -/
theorem append_low {m n : Nat} (x : BitVec m) (y : BitVec n) (k w : Nat) (h : k + w ≤ n) :
    (x ++ y).extractLsb' k w = y.extractLsb' k w := by
  apply BitVec.eq_of_getLsbD_eq
  intro i hi
  have : k + i < n := by omega
  simp [BitVec.getLsbD_append, this, hi]

/-- Bits from the join on are those of the high part. -/
theorem append_high {m n : Nat} (x : BitVec m) (y : BitVec n) (k w : Nat) :
    (x ++ y).extractLsb' (n + k) w = x.extractLsb' k w := by
  apply BitVec.eq_of_getLsbD_eq
  intro i hi
  have h1 : ¬ n + k + i < n := by omega
  have h2 : n + k + i - n = k + i := by omega
  simp [BitVec.getLsbD_append, h1, h2, hi]

/-- Lane k of a two-byte field is its k-th byte (00 Conventions). -/
theorem halfAt_lane (bs : List Byte) (i k : Nat) (h : k < 2) :
    (halfAt bs i).extractLsb' (8 * k) 8 = byteAt bs (i + k) := by
  match k, h with
  | 0, _ =>
    show (_ ++ _ : BitVec 16).extractLsb' 0 8 = _
    rw [append_low _ _ 0 8 (by decide)]
    simp
  | 1, _ =>
    show (_ ++ _ : BitVec 16).extractLsb' (8 + 0) 8 = _
    rw [append_high]
    simp

/-- Lane k of a four-byte field is its k-th byte (00 Conventions). -/
theorem wordAt_lane (bs : List Byte) (i k : Nat) (h : k < 4) :
    (wordAt bs i).extractLsb' (8 * k) 8 = byteAt bs (i + k) := by
  match k, h with
  | 0, _ =>
    show (_ ++ _ : BitVec 32).extractLsb' 0 8 = _
    rw [append_low _ _ 0 8 (by decide)]
    exact halfAt_lane bs i 0 (by decide)
  | 1, _ =>
    show (_ ++ _ : BitVec 32).extractLsb' 8 8 = _
    rw [append_low _ _ 8 8 (by decide)]
    exact halfAt_lane bs i 1 (by decide)
  | 2, _ =>
    show (_ ++ _ : BitVec 32).extractLsb' (16 + 0) 8 = _
    rw [append_high]
    exact halfAt_lane bs (i + 2) 0 (by decide)
  | 3, _ =>
    show (_ ++ _ : BitVec 32).extractLsb' (16 + 8) 8 = _
    rw [append_high]
    exact halfAt_lane bs (i + 2) 1 (by decide)

/-- Four bytes joined one by one or two by two. -/
theorem append_four (d c b a : Byte) : (d ++ c ++ b ++ a : BitVec 32) = (d ++ c) ++ (b ++ a) := by
  have := BitVec.append_assoc (x₁ := d ++ c) (x₂ := b) (x₃ := a)
  simpa using this

/-- The link words of a byte string are its four-byte fields in order. -/
theorem toWords_eq : ∀ bs : List Byte, (toWords bs).length = bs.length / 4 ∧
    ∀ i w, (toWords bs)[i]? = some w → w = wordAt bs (4 * i)
  | [] => by simp [toWords]
  | [_] => by simp [toWords]
  | [_, _] => by simp [toWords]
  | [_, _, _] => by simp [toWords]
  | a :: b :: c :: d :: rest => by
    obtain ⟨h1, h2⟩ := toWords_eq rest
    refine ⟨by simp [toWords, h1]; omega, fun i w h => ?_⟩
    cases i with
    | zero =>
      simp only [toWords, List.getElem?_cons_zero, Option.some.injEq] at h
      subst h
      exact append_four d c b a
    | succ n =>
      simp only [toWords, List.getElem?_cons_succ] at h
      rw [h2 n w h]
      simp only [wordAt, halfAt, byteAt, show 4 * (n + 1) = 4 * n + 1 + 1 + 1 + 1 by omega]
      rfl

end Sys2Proof.Machine
end

