-- ==== Sys2Proof/Laws/State.lean ====
section
/-! SUPPORT. The fields of each update of the state: what is set, and what is as before. -/

namespace Sys2Proof.Machine

/-- updLink changes only link. -/
@[simp] theorem State.updLink_fields (s : State) (f : Link → Link) :
    (s.updLink f).nResetLow = s.nResetLow ∧ (s.updLink f).strap = s.strap ∧
    (s.updLink f).device = s.device ∧ (s.updLink f).regions = s.regions ∧
    (s.updLink f).reception = s.reception ∧ (s.updLink f).layout = s.layout ∧
    (s.updLink f).taps = s.taps ∧ (s.updLink f).supply = s.supply ∧
    (s.updLink f).reporter = s.reporter ∧ (s.updLink f).directive = s.directive ∧
    (s.updLink f).pending = s.pending :=
  ⟨rfl, rfl, rfl, rfl, rfl, rfl, rfl, rfl, rfl, rfl, rfl⟩

/-- updLayout changes only layout. -/
@[simp] theorem State.updLayout_fields (s : State) (f : Layout → Layout) :
    (s.updLayout f).nResetLow = s.nResetLow ∧ (s.updLayout f).strap = s.strap ∧
    (s.updLayout f).device = s.device ∧ (s.updLayout f).regions = s.regions ∧
    (s.updLayout f).link = s.link ∧ (s.updLayout f).reception = s.reception ∧
    (s.updLayout f).taps = s.taps ∧ (s.updLayout f).supply = s.supply ∧
    (s.updLayout f).reporter = s.reporter ∧ (s.updLayout f).directive = s.directive ∧
    (s.updLayout f).pending = s.pending :=
  ⟨rfl, rfl, rfl, rfl, rfl, rfl, rfl, rfl, rfl, rfl, rfl⟩

/-- updSupply changes only supply. -/
@[simp] theorem State.updSupply_fields (s : State) (f : Supply → Supply) :
    (s.updSupply f).nResetLow = s.nResetLow ∧ (s.updSupply f).strap = s.strap ∧
    (s.updSupply f).device = s.device ∧ (s.updSupply f).regions = s.regions ∧
    (s.updSupply f).link = s.link ∧ (s.updSupply f).reception = s.reception ∧
    (s.updSupply f).layout = s.layout ∧ (s.updSupply f).taps = s.taps ∧
    (s.updSupply f).reporter = s.reporter ∧ (s.updSupply f).directive = s.directive ∧
    (s.updSupply f).pending = s.pending :=
  ⟨rfl, rfl, rfl, rfl, rfl, rfl, rfl, rfl, rfl, rfl, rfl⟩

/-- updReporter changes only reporter. -/
@[simp] theorem State.updReporter_fields (s : State) (f : Reporter → Reporter) :
    (s.updReporter f).nResetLow = s.nResetLow ∧ (s.updReporter f).strap = s.strap ∧
    (s.updReporter f).device = s.device ∧ (s.updReporter f).regions = s.regions ∧
    (s.updReporter f).link = s.link ∧ (s.updReporter f).reception = s.reception ∧
    (s.updReporter f).layout = s.layout ∧ (s.updReporter f).taps = s.taps ∧
    (s.updReporter f).supply = s.supply ∧ (s.updReporter f).directive = s.directive ∧
    (s.updReporter f).pending = s.pending :=
  ⟨rfl, rfl, rfl, rfl, rfl, rfl, rfl, rfl, rfl, rfl, rfl⟩

/-- setTap changes only taps. -/
@[simp] theorem State.setTap_fields (s : State) (t : TapNo) (tp : Tap) :
    (s.setTap t tp).nResetLow = s.nResetLow ∧ (s.setTap t tp).strap = s.strap ∧
    (s.setTap t tp).device = s.device ∧ (s.setTap t tp).regions = s.regions ∧
    (s.setTap t tp).link = s.link ∧ (s.setTap t tp).reception = s.reception ∧
    (s.setTap t tp).layout = s.layout ∧ (s.setTap t tp).supply = s.supply ∧
    (s.setTap t tp).reporter = s.reporter ∧ (s.setTap t tp).directive = s.directive ∧
    (s.setTap t tp).pending = s.pending :=
  ⟨rfl, rfl, rfl, rfl, rfl, rfl, rfl, rfl, rfl, rfl, rfl⟩

/-- updTap changes only taps. -/
@[simp] theorem State.updTap_fields (s : State) (t : TapNo) (f : Tap → Tap) :
    (s.updTap t f).nResetLow = s.nResetLow ∧ (s.updTap t f).strap = s.strap ∧
    (s.updTap t f).device = s.device ∧ (s.updTap t f).regions = s.regions ∧
    (s.updTap t f).link = s.link ∧ (s.updTap t f).reception = s.reception ∧
    (s.updTap t f).layout = s.layout ∧ (s.updTap t f).supply = s.supply ∧
    (s.updTap t f).reporter = s.reporter ∧ (s.updTap t f).directive = s.directive ∧
    (s.updTap t f).pending = s.pending :=
  ⟨rfl, rfl, rfl, rfl, rfl, rfl, rfl, rfl, rfl, rfl, rfl⟩

/-- updSlot changes only supply. -/
@[simp] theorem State.updSlot_fields (s : State) (a : Word) (f : SlotEntry → SlotEntry) :
    (s.updSlot a f).nResetLow = s.nResetLow ∧ (s.updSlot a f).strap = s.strap ∧
    (s.updSlot a f).device = s.device ∧ (s.updSlot a f).regions = s.regions ∧
    (s.updSlot a f).link = s.link ∧ (s.updSlot a f).reception = s.reception ∧
    (s.updSlot a f).layout = s.layout ∧ (s.updSlot a f).taps = s.taps ∧
    (s.updSlot a f).reporter = s.reporter ∧ (s.updSlot a f).directive = s.directive ∧
    (s.updSlot a f).pending = s.pending :=
  ⟨rfl, rfl, rfl, rfl, rfl, rfl, rfl, rfl, rfl, rfl, rfl⟩

/-- removeSlot changes only supply. -/
@[simp] theorem State.removeSlot_fields (s : State) (a : Word) :
    (s.removeSlot a).nResetLow = s.nResetLow ∧ (s.removeSlot a).strap = s.strap ∧
    (s.removeSlot a).device = s.device ∧ (s.removeSlot a).regions = s.regions ∧
    (s.removeSlot a).link = s.link ∧ (s.removeSlot a).reception = s.reception ∧
    (s.removeSlot a).layout = s.layout ∧ (s.removeSlot a).taps = s.taps ∧
    (s.removeSlot a).reporter = s.reporter ∧ (s.removeSlot a).directive = s.directive ∧
    (s.removeSlot a).pending = s.pending :=
  ⟨rfl, rfl, rfl, rfl, rfl, rfl, rfl, rfl, rfl, rfl, rfl⟩

/-- latch changes only reporter. -/
@[simp] theorem State.latch_fields (s : State) (f : Flag) :
    (s.latch f).nResetLow = s.nResetLow ∧ (s.latch f).strap = s.strap ∧
    (s.latch f).device = s.device ∧ (s.latch f).regions = s.regions ∧ (s.latch f).link = s.link ∧
    (s.latch f).reception = s.reception ∧ (s.latch f).layout = s.layout ∧
    (s.latch f).taps = s.taps ∧ (s.latch f).supply = s.supply ∧
    (s.latch f).directive = s.directive ∧ (s.latch f).pending = s.pending :=
  ⟨rfl, rfl, rfl, rfl, rfl, rfl, rfl, rfl, rfl, rfl, rfl⟩

/-- judgeReport changes only reporter. -/
@[simp] theorem State.judgeReport_fields (s : State) :
    (s.judgeReport).nResetLow = s.nResetLow ∧ (s.judgeReport).strap = s.strap ∧
    (s.judgeReport).device = s.device ∧ (s.judgeReport).regions = s.regions ∧
    (s.judgeReport).link = s.link ∧ (s.judgeReport).reception = s.reception ∧
    (s.judgeReport).layout = s.layout ∧ (s.judgeReport).taps = s.taps ∧
    (s.judgeReport).supply = s.supply ∧ (s.judgeReport).directive = s.directive ∧
    (s.judgeReport).pending = s.pending :=
  ⟨rfl, rfl, rfl, rfl, rfl, rfl, rfl, rfl, rfl, rfl, rfl⟩

/-- setDevice changes only device. -/
@[simp] theorem State.setDevice_fields (s : State) (d : DeviceState) :
    (s.setDevice d).nResetLow = s.nResetLow ∧ (s.setDevice d).strap = s.strap ∧
    (s.setDevice d).regions = s.regions ∧ (s.setDevice d).link = s.link ∧
    (s.setDevice d).reception = s.reception ∧ (s.setDevice d).layout = s.layout ∧
    (s.setDevice d).taps = s.taps ∧ (s.setDevice d).supply = s.supply ∧
    (s.setDevice d).reporter = s.reporter ∧ (s.setDevice d).directive = s.directive ∧
    (s.setDevice d).pending = s.pending :=
  ⟨rfl, rfl, rfl, rfl, rfl, rfl, rfl, rfl, rfl, rfl, rfl⟩

/-- updReception changes only reception. -/
@[simp] theorem State.updReception_fields (s : State) (f : Reception → Reception) :
    (s.updReception f).nResetLow = s.nResetLow ∧ (s.updReception f).strap = s.strap ∧
    (s.updReception f).device = s.device ∧ (s.updReception f).regions = s.regions ∧
    (s.updReception f).link = s.link ∧ (s.updReception f).layout = s.layout ∧
    (s.updReception f).taps = s.taps ∧ (s.updReception f).supply = s.supply ∧
    (s.updReception f).reporter = s.reporter ∧ (s.updReception f).directive = s.directive ∧
    (s.updReception f).pending = s.pending :=
  ⟨rfl, rfl, rfl, rfl, rfl, rfl, rfl, rfl, rfl, rfl, rfl⟩

/-- updDirective changes only directive. -/
@[simp] theorem State.updDirective_fields (s : State) (f : DirectiveUnit → DirectiveUnit) :
    (s.updDirective f).nResetLow = s.nResetLow ∧ (s.updDirective f).strap = s.strap ∧
    (s.updDirective f).device = s.device ∧ (s.updDirective f).regions = s.regions ∧
    (s.updDirective f).link = s.link ∧ (s.updDirective f).reception = s.reception ∧
    (s.updDirective f).layout = s.layout ∧ (s.updDirective f).taps = s.taps ∧
    (s.updDirective f).supply = s.supply ∧ (s.updDirective f).reporter = s.reporter ∧
    (s.updDirective f).pending = s.pending :=
  ⟨rfl, rfl, rfl, rfl, rfl, rfl, rfl, rfl, rfl, rfl, rfl⟩

/-- setEntries changes only layout. -/
@[simp] theorem State.setEntries_fields (s : State) (m : MapEntries) :
    (s.setEntries m).nResetLow = s.nResetLow ∧ (s.setEntries m).strap = s.strap ∧
    (s.setEntries m).device = s.device ∧ (s.setEntries m).regions = s.regions ∧
    (s.setEntries m).link = s.link ∧ (s.setEntries m).reception = s.reception ∧
    (s.setEntries m).taps = s.taps ∧ (s.setEntries m).supply = s.supply ∧
    (s.setEntries m).reporter = s.reporter ∧ (s.setEntries m).directive = s.directive ∧
    (s.setEntries m).pending = s.pending :=
  ⟨rfl, rfl, rfl, rfl, rfl, rfl, rfl, rfl, rfl, rfl, rfl⟩

/-- setCurrent changes only layout. -/
@[simp] theorem State.setCurrent_fields (s : State) (m : CurrentMap) :
    (s.setCurrent m).nResetLow = s.nResetLow ∧ (s.setCurrent m).strap = s.strap ∧
    (s.setCurrent m).device = s.device ∧ (s.setCurrent m).regions = s.regions ∧
    (s.setCurrent m).link = s.link ∧ (s.setCurrent m).reception = s.reception ∧
    (s.setCurrent m).taps = s.taps ∧ (s.setCurrent m).supply = s.supply ∧
    (s.setCurrent m).reporter = s.reporter ∧ (s.setCurrent m).directive = s.directive ∧
    (s.setCurrent m).pending = s.pending :=
  ⟨rfl, rfl, rfl, rfl, rfl, rfl, rfl, rfl, rfl, rfl, rfl⟩

/-- setPending changes only layout. -/
@[simp] theorem State.setPending_fields (s : State) (m : PendingMap) :
    (s.setPending m).nResetLow = s.nResetLow ∧ (s.setPending m).strap = s.strap ∧
    (s.setPending m).device = s.device ∧ (s.setPending m).regions = s.regions ∧
    (s.setPending m).link = s.link ∧ (s.setPending m).reception = s.reception ∧
    (s.setPending m).taps = s.taps ∧ (s.setPending m).supply = s.supply ∧
    (s.setPending m).reporter = s.reporter ∧ (s.setPending m).directive = s.directive ∧
    (s.setPending m).pending = s.pending :=
  ⟨rfl, rfl, rfl, rfl, rfl, rfl, rfl, rfl, rfl, rfl, rfl⟩

/-- setBuffer changes only layout. -/
@[simp] theorem State.setBuffer_fields (s : State) (p : Fin 8) (b : AsmBuffer) :
    (s.setBuffer p b).nResetLow = s.nResetLow ∧ (s.setBuffer p b).strap = s.strap ∧
    (s.setBuffer p b).device = s.device ∧ (s.setBuffer p b).regions = s.regions ∧
    (s.setBuffer p b).link = s.link ∧ (s.setBuffer p b).reception = s.reception ∧
    (s.setBuffer p b).taps = s.taps ∧ (s.setBuffer p b).supply = s.supply ∧
    (s.setBuffer p b).reporter = s.reporter ∧ (s.setBuffer p b).directive = s.directive ∧
    (s.setBuffer p b).pending = s.pending :=
  ⟨rfl, rfl, rfl, rfl, rfl, rfl, rfl, rfl, rfl, rfl, rfl⟩

/-- countConflict changes only layout. -/
@[simp] theorem State.countConflict_fields (s : State) :
    (s.countConflict).nResetLow = s.nResetLow ∧ (s.countConflict).strap = s.strap ∧
    (s.countConflict).device = s.device ∧ (s.countConflict).regions = s.regions ∧
    (s.countConflict).link = s.link ∧ (s.countConflict).reception = s.reception ∧
    (s.countConflict).taps = s.taps ∧ (s.countConflict).supply = s.supply ∧
    (s.countConflict).reporter = s.reporter ∧ (s.countConflict).directive = s.directive ∧
    (s.countConflict).pending = s.pending :=
  ⟨rfl, rfl, rfl, rfl, rfl, rfl, rfl, rfl, rfl, rfl, rfl⟩

/-- answerOwn changes only link. -/
@[simp] theorem State.answerOwn_fields (s : State) (k : OwnKind) :
    (s.answerOwn k).nResetLow = s.nResetLow ∧ (s.answerOwn k).strap = s.strap ∧
    (s.answerOwn k).device = s.device ∧ (s.answerOwn k).regions = s.regions ∧
    (s.answerOwn k).reception = s.reception ∧ (s.answerOwn k).layout = s.layout ∧
    (s.answerOwn k).taps = s.taps ∧ (s.answerOwn k).supply = s.supply ∧
    (s.answerOwn k).reporter = s.reporter ∧ (s.answerOwn k).directive = s.directive ∧
    (s.answerOwn k).pending = s.pending :=
  ⟨rfl, rfl, rfl, rfl, rfl, rfl, rfl, rfl, rfl, rfl, rfl⟩

/-- withPending changes only pending. -/
@[simp] theorem State.withPending_fields (s : State) (rest : List Instr) :
    (s.withPending rest).nResetLow = s.nResetLow ∧ (s.withPending rest).strap = s.strap ∧
    (s.withPending rest).device = s.device ∧ (s.withPending rest).regions = s.regions ∧
    (s.withPending rest).link = s.link ∧ (s.withPending rest).reception = s.reception ∧
    (s.withPending rest).layout = s.layout ∧ (s.withPending rest).taps = s.taps ∧
    (s.withPending rest).supply = s.supply ∧ (s.withPending rest).reporter = s.reporter ∧
    (s.withPending rest).directive = s.directive :=
  ⟨rfl, rfl, rfl, rfl, rfl, rfl, rfl, rfl, rfl, rfl, rfl⟩

/-! ## What each update sets -/

@[simp] theorem State.updLink_link (s : State) (f : Link → Link) :
    (s.updLink f).link = f s.link := rfl

@[simp] theorem State.updLayout_layout (s : State) (f : Layout → Layout) :
    (s.updLayout f).layout = f s.layout := rfl

@[simp] theorem State.updSupply_supply (s : State) (f : Supply → Supply) :
    (s.updSupply f).supply = f s.supply := rfl

@[simp] theorem State.updReporter_reporter (s : State) (f : Reporter → Reporter) :
    (s.updReporter f).reporter = f s.reporter := rfl

@[simp] theorem State.updDirective_directive (s : State) (f : DirectiveUnit → DirectiveUnit) :
    (s.updDirective f).directive = f s.directive := rfl

@[simp] theorem State.updReception_reception (s : State) (f : Reception → Reception) :
    (s.updReception f).reception = f s.reception := rfl

@[simp] theorem State.setDevice_device (s : State) (d : DeviceState) :
    (s.setDevice d).device = d := rfl

@[simp] theorem State.setCurrent_cur (s : State) (m : CurrentMap) :
    (s.setCurrent m).layout.cur = m ∧ (s.setCurrent m).layout.pend = s.layout.pend ∧
      (s.setCurrent m).layout.buffers = s.layout.buffers := ⟨rfl, rfl, rfl⟩

@[simp] theorem State.setPending_pend (s : State) (m : PendingMap) :
    (s.setPending m).layout.pend = m ∧ (s.setPending m).layout.cur = s.layout.cur ∧
      (s.setPending m).layout.buffers = s.layout.buffers := ⟨rfl, rfl, rfl⟩

@[simp] theorem State.withPending_pending (s : State) (rest : List Instr) :
    (s.withPending rest).pending = rest := rfl

/-! ## One tap's record -/

theorem State.setTap_taps (s : State) (t : TapNo) (tp : Tap) :
    (s.setTap t tp).taps = s.taps.set t tp := rfl

@[simp] theorem State.tap_setTap_same (s : State) (t : TapNo) (tp : Tap) :
    (s.setTap t tp).tap t = tp := by
  simp [State.setTap, State.tap]

theorem State.tap_setTap_other (s : State) {t u : TapNo} (tp : Tap) (h : u ≠ t) :
    (s.setTap t tp).tap u = s.tap u := by
  have : (t : Nat) ≠ (u : Nat) := fun e => h (Fin.ext e.symm)
  simp [State.setTap, State.tap, Vector.getElem_set_ne, this]

@[simp] theorem State.tap_updTap_same (s : State) (t : TapNo) (f : Tap → Tap) :
    (s.updTap t f).tap t = f (s.tap t) := State.tap_setTap_same s t _

theorem State.tap_updTap_other (s : State) {t u : TapNo} (f : Tap → Tap) (h : u ≠ t) :
    (s.updTap t f).tap u = s.tap u := State.tap_setTap_other s _ h

/-- Two changes of one tap's record are one. -/
theorem State.updTap_updTap (s : State) (t : TapNo) (f g : Tap → Tap) :
    (s.updTap t f).updTap t g = s.setTap t (g (f (s.tap t))) := by
  unfold State.updTap
  rw [State.tap_setTap_same]
  simp only [State.setTap, Vector.set_set]

theorem State.tap_of_taps {s s' : State} (h : s'.taps = s.taps) (t : TapNo) :
    s'.tap t = s.tap t := by
  simp [State.tap, h]

/-! ## One slot entry -/

theorem State.slot_of_supply {s s' : State} (h : s'.supply = s.supply) (a : Word) :
    s'.slot a = s.slot a := by
  simp [State.slot, h]

@[simp] theorem State.updSlot_supply (s : State) (a : Word) (f : SlotEntry → SlotEntry) :
    (s.updSlot a f).supply.stack = s.supply.stack ∧
    (s.updSlot a f).supply.refill = s.supply.refill ∧
    (s.updSlot a f).supply.consumer = s.supply.consumer ∧
    (s.updSlot a f).supply.recorded = s.supply.recorded ∧
    (s.updSlot a f).supply.table = s.supply.table.map (changeEntry a f) :=
  ⟨rfl, rfl, rfl, rfl, rfl⟩

@[simp] theorem State.removeSlot_supply (s : State) (a : Word) :
    (s.removeSlot a).supply.stack = s.supply.stack ∧
    (s.removeSlot a).supply.refill = s.supply.refill ∧
    (s.removeSlot a).supply.consumer = s.supply.consumer ∧
    (s.removeSlot a).supply.recorded = s.supply.recorded ∧
    (s.removeSlot a).supply.table = s.supply.table.filter (fun e => e.addr != a) :=
  ⟨rfl, rfl, rfl, rfl, rfl⟩

end Sys2Proof.Machine
end

