-- ==== Sys2Proof/Laws/Maps.lean ====
section
/-! SUPPORT. The maps of the layout tables: what each change of the entries does to them. -/

namespace Sys2Proof.Machine

@[simp] theorem entryOf_absent (i : StreamId) : entryOf MapEntries.absent i = none := by
  simp [entryOf, MapEntries.absent]

@[simp] theorem entryOf_setEntry_same (m : MapEntries) (i : StreamId) (e : Option MapEntry) :
    entryOf (setEntry m i e) i = e := by
  simp [entryOf, setEntry]

theorem entryOf_setEntry_other (m : MapEntries) {i j : StreamId} (e : Option MapEntry)
    (h : j ≠ i) : entryOf (setEntry m i e) j = entryOf m j := by
  have : (i : Nat) ≠ (j : Nat) := fun k => h (Fin.ext k.symm)
  simp [entryOf, setEntry, Vector.getElem_set_ne, this]

@[simp] theorem entryOf_mapPlaces (m : MapEntries) (f : Option MapEntry → Option MapEntry)
    (i : StreamId) : entryOf (mapPlaces m f) i = f (entryOf m i) := by
  simp [entryOf, mapPlaces]

/-- The runs of a map without entries are apart. -/
theorem MapEntries.Apart.absent : MapEntries.Apart MapEntries.absent :=
  ⟨fun i e h => by simp at h, fun i j e f _ h => by simp at h⟩

theorem MapEntries.AllCollected.absent : MapEntries.AllCollected MapEntries.absent :=
  fun i e h => by simp at h

/-- A map whose entries come from another's, run for run, keeps them apart. -/
theorem MapEntries.Apart.sub {m n : MapEntries} (h : MapEntries.Apart m)
    (k : ∀ i e, entryOf n i = some e →
      ∃ e', entryOf m i = some e' ∧ e'.start = e.start ∧ e'.count = e.count) :
    MapEntries.Apart n := by
  refine ⟨fun i e he => ?_, fun i j e f hij he hf => ?_⟩
  · obtain ⟨e', h1, h2, h3⟩ := k i e he
    rw [← h2, ← h3]
    exact h.inRange i e' h1
  · obtain ⟨e', a1, a2, a3⟩ := k i e he
    obtain ⟨f', b1, b2, b3⟩ := k j f hf
    rw [← a2, ← a3, ← b2, ← b3]
    exact h.apart i j e' f' hij a1 b1

theorem MapEntries.Apart.clearCollected {m : MapEntries} (h : MapEntries.Apart m) :
    MapEntries.Apart (clearCollected m) := by
  refine h.sub fun i e he => ?_
  simp only [Machine.clearCollected, entryOf_mapPlaces, Option.map_eq_some_iff] at he
  obtain ⟨e', h1, rfl⟩ := he
  exact ⟨e', h1, rfl, rfl⟩

theorem MapEntries.Apart.keepCollected {m : MapEntries} (h : MapEntries.Apart m) :
    MapEntries.Apart (keepCollected m) := by
  refine h.sub fun i e he => ?_
  simp only [Machine.keepCollected, entryOf_mapPlaces, Option.filter_eq_some_iff] at he
  exact ⟨e, he.1, rfl, rfl⟩

theorem MapEntries.AllCollected.keepCollected (m : MapEntries) :
    MapEntries.AllCollected (keepCollected m) := by
  intro i e he
  simp only [Machine.keepCollected, entryOf_mapPlaces, Option.filter_eq_some_iff] at he
  exact he.2

theorem MapEntries.Apart.setNone {m : MapEntries} (h : MapEntries.Apart m) (j : StreamId) :
    MapEntries.Apart (setEntry m j none) := by
  refine h.sub fun i e he => ?_
  by_cases k : i = j
  · subst k; simp at he
  · rw [entryOf_setEntry_other m none k] at he
    exact ⟨e, he, rfl, rfl⟩

theorem runsMeet_comm (a b c d : Nat) : runsMeet a b c d = runsMeet c d a b := by
  simp only [runsMeet, rangesMeet]
  exact Bool.and_comm _ _

/-- An entry set apart from every other entry keeps the runs apart. -/
theorem MapEntries.Apart.setSome {m : MapEntries} (h : MapEntries.Apart m) (i : StreamId)
    (e : MapEntry) (hr : runInRange e.start e.count = true)
    (ho : ∀ j f, j ≠ i → entryOf m j = some f →
      runsMeet e.start e.count f.start f.count = false) :
    MapEntries.Apart (setEntry m i (some e)) := by
  refine ⟨fun j f hf => ?_, fun j k f g hjk hf hg => ?_⟩
  · by_cases c : j = i
    · subst c
      simp only [entryOf_setEntry_same, Option.some.injEq] at hf
      rw [← hf]; exact hr
    · rw [entryOf_setEntry_other m _ c] at hf
      exact h.inRange j f hf
  · by_cases c : j = i
    · subst c
      have d : k ≠ j := fun x => hjk x.symm
      simp only [entryOf_setEntry_same, Option.some.injEq] at hf
      rw [entryOf_setEntry_other m _ d] at hg
      rw [← hf]
      exact ho k g d hg
    · rw [entryOf_setEntry_other m _ c] at hf
      by_cases d : k = i
      · subst d
        simp only [entryOf_setEntry_same, Option.some.injEq] at hg
        rw [← hg, runsMeet_comm]
        exact ho j f c hf
      · rw [entryOf_setEntry_other m _ d] at hg
        exact h.apart j k f g hjk hf hg

theorem MapEntries.AllCollected.setSome {m : MapEntries} (h : MapEntries.AllCollected m)
    (i : StreamId) (e : MapEntry) (he : e.collected = true) :
    MapEntries.AllCollected (setEntry m i (some e)) := by
  intro j f hf
  by_cases c : j = i
  · subst c
    simp only [entryOf_setEntry_same, Option.some.injEq] at hf
    rw [← hf]; exact he
  · rw [entryOf_setEntry_other m _ c] at hf
    exact h j f hf

/-- What the conflict test tells of each other entry (R65, R71). -/
theorem overlaps_false {m : MapEntries} {p : MapEntry → Bool} {r : StreamRecord}
    (h : overlaps m p r = false) (j : StreamId) (f : MapEntry) (hj : j ≠ r.id)
    (hf : entryOf m j = some f) (hp : p f = true) :
    runsMeet r.start r.count f.start f.count = false := by
  simp only [overlaps, allStreams, List.any_eq_false] at h
  have := h j (List.mem_finRange j)
  simpa [meetsRun, hj, hf, hp] using this

/-- A STREAM record taken has its run in range (R11). -/
theorem readStream_inRange {bs : List Byte} {r : StreamRecord} (h : readStream bs = some r) :
    runInRange r.start r.count = true := by
  simp only [readStream] at h
  split at h
  · split at h
    · simp only [Option.some.injEq] at h
      rw [← h]
      assumption
    · simp at h
  · simp at h

theorem classify_inRange {bs : List Byte} {r : StreamRecord} (h : classify bs = .stream r) :
    runInRange r.start r.count = true := by
  simp only [classify] at h
  repeat' split at h
  all_goals first
    | (simp only [RecordClass.stream.injEq] at h; subst h; exact readStream_inRange (by assumption))
    | simp at h

end Sys2Proof.Machine
end

