-- ==== Sys2Proof/Laws/Keeps.lean ====
section
/-! SUPPORT. What the operations of the reporter, slot supply and the tap table can do, said once
for each: they change no other block, and they keep the invariants of Safety. -/

namespace Sys2Proof.Machine

/-- nFAULT stands as its function says (R151). -/
def Reporter.FaultTrue (r : Reporter) : Prop :=
  r.nFaultLow = faultLevelLow r.flags r.pinEnables

/-- Nothing but the tap table, slot supply and the reporter differs, every invariant of Safety that
held holds, and what nREPORT is judged from is as before. -/
structure State.Keeps (s t : State) : Prop where
  only : s.OnlyTaps t
  apart : s.SlotsApart → t.SlotsApart
  stack : s.supply.stack.length ≤ Config.stackCapacity →
    t.supply.stack.length ≤ Config.stackCapacity
  table : s.workingSlots ≤ Config.slotCapacity → t.workingSlots ≤ Config.slotCapacity
  settling : ∀ u : TapNo, (s.tap u).settling.length ≤ Config.settlingCapacity →
    (t.tap u).settling.length ≤ Config.settlingCapacity
  queue : ∀ u : TapNo, (s.tap u).queue.length ≤ Config.queueCapacity →
    (t.tap u).queue.length ≤ Config.queueCapacity
  reports : s.reporter.queue.length ≤ Config.reportQueueCapacity →
    t.reporter.queue.length ≤ Config.reportQueueCapacity
  fault : s.reporter.FaultTrue → t.reporter.FaultTrue
  alert : t.reporter.producer = s.reporter.producer ∧ t.reporter.recorded = s.reporter.recorded ∧
    t.reporter.alertEnable = s.reporter.alertEnable ∧
    t.reporter.pinEnables = s.reporter.pinEnables ∧ t.reporter.nReportLow = s.reporter.nReportLow

theorem State.Keeps.refl (s : State) : s.Keeps s :=
  ⟨rfl, id, id, id, fun _ => id, fun _ => id, id, id, rfl, rfl, rfl, rfl, rfl⟩

theorem State.Keeps.trans {s t u : State} (h : s.Keeps t) (k : t.Keeps u) : s.Keeps u where
  only := by
    have a := h.only
    have b := k.only
    unfold State.OnlyTaps at a b ⊢
    rw [b, a]
  apart := k.apart ∘ h.apart
  stack := k.stack ∘ h.stack
  table := k.table ∘ h.table
  settling := fun u => k.settling u ∘ h.settling u
  queue := fun u => k.queue u ∘ h.queue u
  reports := k.reports ∘ h.reports
  fault := k.fault ∘ h.fault
  alert := by have := h.alert; have := k.alert; simp_all

/-- A fold of operations that each keep, keeps. -/
theorem State.Keeps.foldl {α : Type} (f : State → α → State) (h : ∀ (s : State) a, s.Keeps (f s a))
    (l : List α) (s : State) : s.Keeps (l.foldl f s) := by
  induction l generalizing s with
  | nil => exact .refl s
  | cons a l ih => exact (h s a).trans (ih (f s a))

theorem State.Keeps.eachTap {f : State → TapNo → State} (h : ∀ (s : State) t, s.Keeps (f s t)) (s : State) :
    s.Keeps (s.eachTap f) := .foldl f h allTaps s

/-- The fields that an operation of these blocks leaves alone. -/
theorem State.Keeps.same {s t : State} (h : s.Keeps t) :
    t.nResetLow = s.nResetLow ∧ t.strap = s.strap ∧ t.device = s.device ∧ t.regions = s.regions ∧
      t.link = s.link ∧ t.reception = s.reception ∧ t.layout = s.layout ∧
      t.directive = s.directive ∧ t.pending = s.pending := by
  have e := h.only
  unfold State.OnlyTaps at e
  rw [e]
  simp

/-! ## Primitive changes -/

/-- A change of the reporter alone. -/
theorem State.updReporter_keeps (s : State) (f : Reporter → Reporter)
    (hq : s.reporter.queue.length ≤ Config.reportQueueCapacity →
      (f s.reporter).queue.length ≤ Config.reportQueueCapacity)
    (hf : s.reporter.FaultTrue → (f s.reporter).FaultTrue)
    (ha : (f s.reporter).producer = s.reporter.producer ∧
      (f s.reporter).recorded = s.reporter.recorded ∧
      (f s.reporter).alertEnable = s.reporter.alertEnable ∧
      (f s.reporter).pinEnables = s.reporter.pinEnables ∧
      (f s.reporter).nReportLow = s.reporter.nReportLow) :
    s.Keeps (s.updReporter f) :=
  ⟨rfl, id, id, id, fun _ => id, fun _ => id, hq, hf, ha⟩

/-- A change of slot supply alone. -/
theorem State.updSupply_keeps (s : State) (f : Supply → Supply)
    (ha : s.SlotsApart → (s.updSupply f).SlotsApart)
    (hs : s.supply.stack.length ≤ Config.stackCapacity →
      (f s.supply).stack.length ≤ Config.stackCapacity)
    (ht : s.workingSlots ≤ Config.slotCapacity →
      (s.updSupply f).workingSlots ≤ Config.slotCapacity) :
    s.Keeps (s.updSupply f) :=
  ⟨rfl, ha, hs, ht, fun _ => id, fun _ => id, id, id, rfl, rfl, rfl, rfl, rfl⟩

theorem State.setTap_keeps (s : State) (t : TapNo) (tp : Tap)
    (hs : (s.tap t).settling.length ≤ Config.settlingCapacity →
      tp.settling.length ≤ Config.settlingCapacity)
    (hq : (s.tap t).queue.length ≤ Config.queueCapacity →
      tp.queue.length ≤ Config.queueCapacity) : s.Keeps (s.setTap t tp) where
  only := rfl
  apart := id
  stack := id
  table := id
  settling := fun u h => by
    by_cases e : u = t
    · subst e; simpa using hs h
    · rw [State.tap_setTap_other s tp e]; exact h
  queue := fun u h => by
    by_cases e : u = t
    · subst e; simpa using hq h
    · rw [State.tap_setTap_other s tp e]; exact h
  reports := id
  fault := id
  alert := ⟨rfl, rfl, rfl, rfl, rfl⟩

/-- A change of a tap's record that lengthens neither list. -/
theorem State.updTap_keeps (s : State) (t : TapNo) (f : Tap → Tap)
    (hs : (f (s.tap t)).settling.length ≤ (s.tap t).settling.length)
    (hq : (f (s.tap t)).queue.length ≤ (s.tap t).queue.length) : s.Keeps (s.updTap t f) :=
  s.setTap_keeps t _ (fun h => le_trans hs h) (fun h => le_trans hq h)

/-- A change of an entry's own fields. -/
theorem State.updSlot_keeps (s : State) (a : Word) (f : SlotEntry → SlotEntry)
    (h : ∀ e, (f e).addr = e.addr ∧ ((f e).state = .returning ↔ e.state = .returning)) :
    s.Keeps (s.updSlot a f) := by
  have hc : ∀ e, (changeEntry a f e).addr = e.addr ∧
      ((changeEntry a f e).state != .returning) = (e.state != .returning) := by
    intro e
    unfold changeEntry
    split
    · refine ⟨(h e).1, ?_⟩
      rw [Bool.eq_iff_iff]
      simpa using not_congr (h e).2
    · simp
  refine s.updSupply_keeps _ ?_ id ?_
  · intro hs
    simpa [State.SlotsApart, State.heldAddrs, Function.comp_def, hc] using hs
  · intro ht
    simpa [State.workingSlots, List.filter_map, Function.comp_def, hc] using ht

theorem State.removeSlot_keeps (s : State) (a : Word) : s.Keeps (s.removeSlot a) := by
  refine s.updSupply_keeps _ ?_ id ?_
  · intro hs
    refine List.Nodup.sublist ?_ hs
    exact List.Sublist.append (List.Sublist.refl _) (List.filter_sublist.map _)
  · intro ht
    refine le_trans (List.Sublist.length_le ?_) ht
    exact List.filter_sublist.filter _

theorem State.latch_keeps (s : State) (f : Flag) : s.Keeps (s.latch f) :=
  s.updReporter_keeps _ id (fun _ => rfl) ⟨rfl, rfl, rfl, rfl, rfl⟩

/-! ## The reporter -/

theorem State.startReport_keeps (s : State) (r : Regions) (c : ReportContent) :
    s.Keeps (s.startReport r c) := by
  unfold State.startReport
  exact s.updReporter_keeps _ id id ⟨rfl, rfl, rfl, rfl, rfl⟩

theorem State.testReports_keeps (s : State) : s.Keeps s.testReports := by
  unfold State.testReports
  repeat' split
  all_goals first
    | exact .refl s
    | exact s.startReport_keeps _ _
    | exact s.latch_keeps _

theorem State.allDue_keeps (s : State) (t : TapNo) : s.Keeps (s.updTap t Tap.allDue) :=
  s.updTap_keeps t _ le_rfl (by simp [Tap.allDue])

theorem State.makeDue_keeps (s : State) (t : TapNo) : s.Keeps (s.makeDue t) := by
  have h := s.allDue_keeps t
  simp only [State.makeDue]
  split
  · exact h.trans (State.testReports_keeps _)
  · exact h

theorem State.makeAllDue_keeps (s : State) : s.Keeps s.makeAllDue := .eachTap State.makeDue_keeps s

theorem State.timerCheck_keeps (s : State) (t : TapNo) : s.Keeps (s.timerCheck t) := by
  unfold State.timerCheck
  repeat' split
  all_goals first
    | exact .refl s
    | exact s.makeDue_keeps t

theorem State.raiseTimer_keeps (s : State) (t : TapNo) : s.Keeps (s.raiseTimer t) :=
  (s.updTap_keeps t _ le_rfl le_rfl).trans (State.timerCheck_keeps _ t)

theorem State.reporterClose_keeps (s : State) : s.Keeps s.reporterClose :=
  .eachTap State.raiseTimer_keeps s

theorem State.reporterOpen_keeps (s : State) : s.Keeps s.reporterOpen := by
  unfold State.reporterOpen
  split
  · exact (s.updReporter_keeps _ id id ⟨rfl, rfl, rfl, rfl, rfl⟩).trans
      (.eachTap State.timerCheck_keeps _)
  · exact .refl s

theorem State.accept_keeps (s : State) (b : ReportBody) (n : Nat) :
    s.Keeps (s.updReporter fun r => r.accept b n) := by
  refine s.updReporter_keeps _ ?_ ?_ ?_
  · intro h
    unfold Reporter.accept
    split
    · simp; omega
    · exact h
  · intro h
    unfold Reporter.accept
    split
    · exact h
    · rfl
  · unfold Reporter.accept
    split <;> exact ⟨rfl, rfl, rfl, rfl, rfl⟩

theorem State.handWith_keeps (s : State) (b : ReportBody) (n : Nat) :
    s.Keeps (s.handWith b n) := by
  unfold State.handWith
  split
  · exact .refl s
  · exact (s.accept_keeps b n).trans (State.testReports_keeps _)

theorem State.hand_keeps (s : State) (b : ReportBody) : s.Keeps (s.hand b) := s.handWith_keeps b 0

theorem State.handTapState_keeps (s : State) (t : TapNo) (old new : TapState)
    (reason : TapReason) : s.Keeps (s.handTapState t old new reason) :=
  (s.allDue_keeps t).trans (State.handWith_keeps _ _ _)

theorem dropWritten_length (c : QueueEntry) (l : List QueueEntry) :
    (dropWritten c l).length ≤ l.length := by
  unfold dropWritten
  split
  · simp
  · split <;> simp

theorem State.postSlot_keeps (s : State) (slot : Option Word) : s.Keeps (s.postSlot slot) := by
  unfold State.postSlot
  split
  · refine s.updSlot_keeps _ _ fun e => ⟨rfl, ?_⟩
    unfold SlotEntry.post
    by_cases h : e.state = .complete <;> simp [h]
  · exact .refl s

theorem State.lower_keeps (s : State) (t : TapNo) (b : Bool) :
    s.Keeps (s.updReporter fun r => { r with queue := r.queue.map (QueuedReport.lower t b) }) :=
  s.updReporter_keeps _ (by simp) id ⟨rfl, rfl, rfl, rfl, rfl⟩

theorem State.entryWritten_keeps (t : TapNo) (s : State) (e : QueueEntry) :
    s.Keeps (State.entryWritten t s e) :=
  ((s.updTap_keeps t (fun tp => { tp with queue := dropWritten e tp.queue }) le_rfl
    (dropWritten_length _ _)).trans (State.lower_keeps _ t _)).trans (State.postSlot_keeps _ _)

theorem State.reportWritten_keeps (s : State) (c : ReportContent) : s.Keeps (s.reportWritten c) := by
  cases c with
  | frames t es => exact .foldl _ (State.entryWritten_keeps t) es s
  | queued b =>
    unfold State.reportWritten
    exact s.updReporter_keeps _ (fun h => by simp; omega) id ⟨rfl, rfl, rfl, rfl, rfl⟩
  | returned l => exact .foldl _ State.removeSlot_keeps l s

/-! ## Slot supply -/

theorem State.testRefill_keeps (s : State) : s.Keeps s.testRefill := by
  unfold State.testRefill
  repeat' split
  all_goals first
    | exact .refl s
    | exact s.updSupply_keeps _ id id id

/-- An address held nowhere may be placed. -/
theorem State.place_keeps (s : State) (a : Word) (h : a ∉ s.heldAddrs) :
    s.Keeps (s.updSupply fun p => p.place a) := by
  simp only [State.heldAddrs, List.mem_append, not_or] at h
  refine s.updSupply_keeps _ ?_ ?_ ?_
  · intro hs
    simp only [State.SlotsApart, State.heldAddrs, State.updSupply_supply] at hs ⊢
    unfold Supply.place
    split
    · simp only [List.cons_append, List.nodup_cons, List.mem_append, not_or]
      exact ⟨h, hs⟩
    · rw [List.map_append, ← List.append_assoc, List.nodup_append]
      refine ⟨hs, by simp, ?_⟩
      intro x hx y hy
      simp only [returningEntry, List.map_cons, List.map_nil, List.mem_singleton] at hy
      subst hy
      rintro rfl
      rcases List.mem_append.mp hx with k | k
      · exact h.1 k
      · exact h.2 k
  · intro hs
    unfold Supply.place
    split
    · simp only [List.length_cons]; omega
    · exact hs
  · intro ht
    simp only [State.workingSlots, State.updSupply_supply, Supply.place] at ht ⊢
    split
    · exact ht
    · simpa [List.filter_append, returningEntry] using ht

theorem State.push_keeps (s : State) (a : Word) (h : a ∉ s.heldAddrs) : s.Keeps (s.push a) := by
  simp only [State.push]
  split
  · exact s.place_keeps a h
  · exact (s.place_keeps a h).trans (State.testReports_keeps _)

/-- An address of the slot table, once removed from it, is held nowhere. -/
theorem State.removeSlot_free (s : State) (a : Word) (hs : s.SlotsApart) (h : (s.slot a).isSome) :
    a ∉ (s.removeSlot a).heldAddrs := by
  simp only [State.SlotsApart, State.heldAddrs, List.nodup_append] at hs
  simp only [State.slot, List.find?_isSome] at h
  obtain ⟨e, he, k⟩ := h
  have ke : e.addr = a := by simpa using k
  simp only [State.heldAddrs, State.removeSlot_supply, List.mem_append, List.mem_map,
    List.mem_filter, not_or, not_exists, not_and]
  refine ⟨fun m => hs.2.2 a m a (List.mem_map.mpr ⟨e, he, ke⟩) rfl, fun x hx k => ?_⟩
  simp [k] at hx

/-- Whether an address is placed or not, the lengths stay within capacity; with `h` the addresses
stay apart. -/
theorem State.push_keeps_if (s : State) (a : Word) (b : State) (hb : b.Keeps s)
    (h : b.SlotsApart → a ∉ s.heldAddrs) : b.Keeps (s.push a) := by
  have base : b.Keeps (s.updSupply fun p => p.place a) := by
    refine ⟨?_, ?_, ?_, ?_, ?_, ?_, ?_, ?_, ?_⟩
    · have := hb.only
      unfold State.OnlyTaps at this ⊢
      rw [this]
      rfl
    · intro k
      exact (s.place_keeps a (h k)).apart (hb.apart k)
    · intro k
      have := hb.stack k
      simp only [State.updSupply_supply, Supply.place]
      split
      · simp only [List.length_cons]; omega
      · exact this
    · intro k
      have := hb.table k
      simp only [State.workingSlots, State.updSupply_supply, Supply.place] at this ⊢
      split
      · exact this
      · simpa [List.filter_append, returningEntry] using this
    · exact hb.settling
    · exact hb.queue
    · exact hb.reports
    · exact hb.fault
    · exact hb.alert
  simp only [State.push]
  split
  · exact base
  · exact base.trans (State.testReports_keeps _)

theorem State.removeAndPush_keeps (s : State) (a : Word) (h : (s.slot a).isSome) :
    s.Keeps (s.removeAndPush a) :=
  State.push_keeps_if _ a s (s.removeSlot_keeps a) fun k => s.removeSlot_free a k h

theorem State.pushRequest_keeps (s : State) (a : Word) : s.Keeps (s.pushRequest a) := by
  unfold State.pushRequest
  split
  · exact .refl s
  · rename_i e h
    split
    · exact .refl s
    · split
      · exact s.removeAndPush_keeps a (by simp [h])
      · exact s.updSlot_keeps a _ fun e => ⟨rfl, Iff.rfl⟩

theorem State.releaseAwaiting_keeps (s : State) (a : Word) : s.Keeps (s.releaseAwaiting a) := by
  unfold State.releaseAwaiting
  split
  · exact .refl s
  · rename_i e h
    split
    · exact s.removeAndPush_keeps a (by simp [h])
    · exact .refl s

theorem State.validSlot_free {s : State} {r : Regions} {a : Word} (h : s.validSlot r a = true) :
    a ∉ s.heldAddrs := by
  simp only [State.validSlot, Bool.and_eq_true, Bool.not_eq_true'] at h
  have := h.2
  simpa using this

theorem State.takeAddrs_keeps (r : Regions) (l : List Word) (s : State) :
    s.Keeps (s.takeAddrs r l).1 := by
  induction l generalizing s with
  | nil => exact .refl s
  | cons a l ih =>
    unfold State.takeAddrs
    split
    · rename_i h
      exact (s.push_keeps a (State.validSlot_free h)).trans (ih _)
    · exact ih s

theorem State.reportSkipped_keeps (s : State) (l : List Word) : s.Keeps (s.reportSkipped l) := by
  unfold State.reportSkipped
  split
  · exact .refl s
  · exact (s.latch_keeps _).trans (State.hand_keeps _ _)

/-- A change of slot supply's indices and refill keeps. -/
theorem State.supplyIndices_keeps (s : State) (f : Supply → Supply)
    (hs : (f s.supply).stack = s.supply.stack) (ht : (f s.supply).table = s.supply.table) :
    s.Keeps (s.updSupply f) := by
  refine s.updSupply_keeps f ?_ ?_ ?_
  · simp [State.SlotsApart, State.heldAddrs, hs, ht]
  · rw [hs]; exact id
  · simp [State.workingSlots, ht]

theorem State.finishRefill_keeps (s : State) (r : Regions) (data : List Word) :
    s.Keeps (s.finishRefill r data) := by
  have h := State.takeAddrs_keeps r data s
  simp only [State.finishRefill]
  exact (((h.trans (State.supplyIndices_keeps _ _ rfl rfl)).trans
    (State.reportSkipped_keeps _ _)).trans (State.supplyIndices_keeps _ _ rfl rfl)).trans
    (State.testRefill_keeps _)

theorem State.refillAnswered_keeps (s : State) : s.Keeps s.refillAnswered := by
  unfold State.refillAnswered
  repeat' split
  all_goals first
    | exact .refl s
    | exact s.finishRefill_keeps _ _

theorem State.gatherRefill_keeps (s : State) (data : List Word) : s.Keeps (s.gatherRefill data) :=
  s.supplyIndices_keeps _ rfl rfl

theorem State.takeFreeIndex_keeps (s : State) (v : Word) : s.Keeps (s.takeFreeIndex v) := by
  unfold State.takeFreeIndex
  split
  · exact .refl s
  · split
    · exact .refl s
    · exact (State.supplyIndices_keeps _ _ rfl rfl).trans (State.testRefill_keeps _)

theorem State.allocate_keeps (s : State) (t : TapNo) (f : FrameNo) (i : TapInstance) :
    s.Keeps (s.allocate t f i).1 := by
  unfold State.allocate
  split
  · exact .refl s
  · rename_i a rest e
    split
    · rename_i hw
      refine State.Keeps.trans (s.updSupply_keeps _ ?_ ?_ ?_) (State.testRefill_keeps _)
      · intro hs
        simp only [State.SlotsApart, State.heldAddrs, e, State.updSupply_supply] at hs ⊢
        refine hs.perm ?_
        rw [List.map_append, ← List.append_assoc]
        exact (List.perm_append_singleton a _).symm
      · intro hs
        rw [e] at hs
        simp only [List.length_cons] at hs ⊢
        omega
      · intro _
        simp only [State.workingSlots] at hw
        simp [State.workingSlots, List.filter_append, openEntry]
        omega
    · exact .refl s

theorem State.releaseOne_keeps (s : State) (a : Word) : s.Keeps (s.releaseOne a).1 := by
  unfold State.releaseOne
  repeat' split
  all_goals first
    | exact .refl s
    | exact s.removeSlot_keeps a
    | exact s.updSlot_keeps a _ fun e => ⟨rfl, Iff.rfl⟩

theorem State.releaseAll_keeps (l : List Word) (s : State) : s.Keeps (s.releaseAll l).1 := by
  induction l generalizing s with
  | nil => exact .refl s
  | cons a l ih => exact (s.releaseOne_keeps a).trans (ih _)

theorem State.endRetention_keeps (s : State) (t : TapNo) : s.Keeps (s.endRetention t) := by
  unfold State.endRetention
  split
  · exact .refl s
  · rename_i a _
    have h := (s.updTap_keeps t
      (fun tp => { tp with retained := none, repeatCount := 0 }) le_rfl le_rfl).trans
      (State.updSlot_keeps _ a (fun e => { e with retained := false }) fun e => ⟨rfl, Iff.rfl⟩)
    simp only
    split
    · split
      · exact h.trans (State.pushRequest_keeps _ _)
      · exact h
    · exact h

end Sys2Proof.Machine
end

