-- ==== Sys2Proof/Laws/TapsKeep.lean ====
section
/-! SUPPORT. What the operations of the tap table can do, said once for each: see Laws/Keeps.lean. -/

namespace Sys2Proof.Machine

/-! ## State changes and the completion queue -/

theorem State.setTapState_keeps (s : State) (t : TapNo) (new : TapState) (reason : TapReason) :
    s.Keeps (s.setTapState t new reason) := by
  unfold State.setTapState
  split
  · exact .refl s
  · exact (s.updTap_keeps t _ le_rfl le_rfl).trans (State.handTapState_keeps _ _ _ _ _)

theorem State.holdAfterDiscard_keeps (s : State) (t : TapNo) : s.Keeps (s.holdAfterDiscard t) := by
  unfold State.holdAfterDiscard
  split
  · exact s.setTapState_keeps t _ _
  · exact .refl s

theorem Tap.enqueue_lengths (tp : Tap) (e : QueueEntry) (due : Bool) :
    (tp.enqueue e due).queue.length = tp.queue.length + 1 ∧
      (tp.enqueue e due).settling = tp.settling := by
  simp only [Tap.enqueue]
  split
  · simp
  · split <;> simp [Tap.allDue]

/-- A completion joins a queue that has room. -/
theorem State.enqueue_keeps (s : State) (t : TapNo) (e : QueueEntry)
    (h : (s.tap t).queue.length < Config.queueCapacity) : s.Keeps (s.enqueue t e) := by
  have base : s.Keeps (s.updTap t fun tp =>
      { tp.enqueue e (s.dueAtOnce t) with counters := tp.counters.count e.outcome e.run }) := by
    refine s.setTap_keeps t _ ?_ ?_
    · simp [(Tap.enqueue_lengths _ _ _).2]
    · intro _
      simp only [(Tap.enqueue_lengths _ _ _).1]
      omega
  simp only [State.enqueue]
  split
  · exact base.trans (State.testReports_keeps _)
  · exact base

theorem State.discard_keeps (s : State) (t : TapNo) (kind : CompletionKind) (run : Nat) :
    s.Keeps (s.discard t kind run) := by
  unfold State.discard
  cases kind with
  | slot a => exact (s.pushRequest_keeps a).trans (State.updTap_keeps _ t _ le_rfl le_rfl)
  | starved => exact s.updTap_keeps t _ le_rfl le_rfl
  | abandoned => exact s.updTap_keeps t _ le_rfl le_rfl

theorem State.discardFull_keeps (s : State) (t : TapNo) (kind : CompletionKind) (run : Nat) :
    s.Keeps (s.discardFull t kind run) :=
  ((s.discard_keeps t kind run).trans (State.latch_keeps _ _)).trans
    (State.holdAfterDiscard_keeps _ t)

theorem State.merge_keeps (s : State) (t : TapNo) (last : QueueEntry) (c : Completion)
    (h : (s.tap t).queue ≠ []) : s.Keeps (s.merge t last c) := by
  have hp : 0 < (s.tap t).queue.length := List.length_pos_iff.mpr h
  have base := s.updTap_keeps t
    (fun tp => { tp with
      queue := tp.queue.dropLast ++ [{ last with run := min 255 (last.run + c.run) }],
      counters := tp.counters.count .starved (min 255 (last.run + c.run) - last.run) })
    le_rfl (by simp; omega)
  simp only [State.merge]
  split
  · exact base
  · split
    · rename_i k
      exact base.trans (State.enqueue_keeps _ t _ k)
    · exact base.trans (State.discardFull_keeps _ t _ _)

/-! ## The hold policy unit and judgment -/

theorem State.retain_keeps (s : State) (t : TapNo) (a : Word) : s.Keeps (s.retain t a) := by
  unfold State.retain
  exact ((s.endRetention_keeps t).trans (State.updSlot_keeps _ a (fun e => { e with retained := true })
    fun _ => ⟨rfl, Iff.rfl⟩)).trans (State.updTap_keeps _ t _ le_rfl le_rfl)

/-- A push changes no tap. -/
theorem State.testReports_taps (s : State) : s.testReports.taps = s.taps := by
  unfold State.testReports
  repeat' split
  all_goals rfl

theorem State.push_taps (s : State) (a : Word) : (s.push a).taps = s.taps := by
  simp only [State.push]
  split
  · rfl
  · simp [State.testReports_taps]

theorem State.pushRequest_taps (s : State) (a : Word) : (s.pushRequest a).taps = s.taps := by
  unfold State.pushRequest State.removeAndPush
  repeat' split
  all_goals simp [State.push_taps]

theorem State.endRetention_queue (s : State) (t u : TapNo) :
    ((s.endRetention t).tap u).queue = (s.tap u).queue := by
  have h : ∀ f : Tap → Tap, (∀ tp, (f tp).queue = tp.queue) →
      ((s.updTap t f).tap u).queue = (s.tap u).queue := by
    intro f hf
    by_cases e : u = t
    · subst e; simp [hf]
    · rw [State.tap_updTap_other s f e]
  have k := h (fun tp => { tp with retained := none, repeatCount := 0 }) fun _ => rfl
  unfold State.endRetention
  split
  · rfl
  · simp only
    split
    · split
      · rw [State.tap_of_taps (State.pushRequest_taps _ _)]
        exact k
      · exact k
    · exact k

theorem State.retain_queue (s : State) (t : TapNo) (a : Word) :
    ((s.retain t a).tap t).queue = (s.tap t).queue := by
  simp only [State.retain, State.tap_updTap_same]
  exact s.endRetention_queue t t

theorem State.resume_keeps (s : State) (t : TapNo) : s.Keeps (s.resume t) := by
  unfold State.resume
  split
  · exact (s.updTap_keeps t _ le_rfl le_rfl).trans (State.setTapState_keeps _ t _ _)
  · exact .refl s

theorem State.queueClean_keeps (s : State) (t : TapNo) (c : Completion) (a : Word)
    (h : (s.tap t).queue.length < Config.queueCapacity) : s.Keeps (s.queueClean t c a) := by
  unfold State.queueClean
  split
  · refine ((s.retain_keeps t a).trans (State.enqueue_keeps _ t _ ?_)).trans
      (State.resume_keeps _ t)
    rw [State.retain_queue]
    exact h
  · exact s.enqueue_keeps t _ h

theorem State.queueSlot_keeps (s : State) (t : TapNo) (c : Completion) (a : Word)
    (erased : ClassSet) (h : (s.tap t).queue.length < Config.queueCapacity) :
    s.Keeps (s.queueSlot t c a erased) := by
  unfold State.queueSlot
  split
  · exact s.queueClean_keeps t c a h
  · exact s.enqueue_keeps t _ h
  · exact (s.updSlot_keeps a (fun e => { e with silenced := true }) fun _ => ⟨rfl, Iff.rfl⟩).trans
      (State.enqueue_keeps _ t _ h)
  · refine ((s.updTap_keeps t _ le_rfl le_rfl).trans (State.enqueue_keeps _ t _ ?_)).trans
      (State.pushRequest_keeps _ _)
    simpa using h

theorem State.judge_keeps (s : State) (t : TapNo) (c : Completion) : s.Keeps (s.judge t c) := by
  simp only [State.judge]
  split
  · rename_i last e
    refine s.merge_keeps t last c ?_
    intro k
    rw [k] at e
    simp at e
  · split
    · exact s.discardFull_keeps t _ _
    · rename_i h
      have h' : (s.tap t).queue.length < Config.queueCapacity := by omega
      split
      · exact s.enqueue_keeps t _ h'
      · exact s.enqueue_keeps t _ h'
      · split
        · exact s.queueSlot_keeps t c _ _ h'
        · exact .refl s

theorem State.judgeFront_keeps (n : Nat) (s : State) (t : TapNo) :
    s.Keeps (s.judgeFront n t) := by
  induction n generalizing s with
  | zero => exact .refl s
  | succ n ih =>
    unfold State.judgeFront
    split
    · exact .refl s
    · rename_i c rest e
      split
      · refine ((s.updTap_keeps t _ ?_ le_rfl).trans (State.judge_keeps _ t c)).trans (ih _)
        simp [e]
      · exact .refl s

theorem State.settle_keeps (s : State) (t : TapNo) : s.Keeps (s.settle t) := s.judgeFront_keeps _ t

theorem State.append_keeps (s : State) (t : TapNo) (c : Completion) : s.Keeps (s.append t c) := by
  unfold State.append
  split
  · rename_i h
    refine State.Keeps.trans (s.setTap_keeps t
      { s.tap t with settling := (s.tap t).settling ++ [c] } ?_ id) (State.settle_keeps _ t)
    intro _
    simp
    omega
  · exact (s.discard_keeps t _ _).trans (State.holdAfterDiscard_keeps _ t)

/-! ## Completion, instance end, abandonment -/

theorem SlotEntry.finish_place (more : SlotEntry → ClassSet) (e : SlotEntry) :
    (e.finish more).addr = e.addr ∧ ((e.finish more).state = .returning ↔ e.state = .returning) := by
  unfold SlotEntry.finish
  by_cases h : e.state = .opened <;> simp [h]

theorem State.completeFrame_keeps (s : State) (t : TapNo) (more : SlotEntry → ClassSet)
    (l : LogicalFrame) : s.Keeps (s.completeFrame t more l) := by
  simp only [State.completeFrame]
  split
  · exact (s.updSlot_keeps _ _ (SlotEntry.finish_place more)).trans (State.append_keeps _ t _)
  · exact s.append_keeps t _

theorem State.instanceEnd_keeps (s : State) (t : TapNo) : s.Keeps (s.instanceEnd t) :=
  ((s.updTap_keeps t _ le_rfl le_rfl).trans (State.endRetention_keeps _ t)).trans
    (.foldl _ (fun s l => s.completeFrame_keeps t _ l) _ _)

theorem State.pushFrames_keeps (s : State) (frames : List LogicalFrame) :
    s.Keeps (s.pushFrames frames) := by
  refine .foldl _ (fun s l => ?_) frames s
  split
  · exact s.pushRequest_keeps _
  · exact .refl s

theorem State.abandon_keeps (s : State) (t : TapNo) : s.Keeps (s.abandon t) := by
  have h := (s.updTap_keeps t (fun tp => { tp with openFrames := [] }) le_rfl le_rfl).trans
    (State.pushFrames_keeps _ (s.tap t).openFrames)
  simp only [State.abandon]
  split
  · exact h
  · exact h.trans (State.append_keeps _ t _)

theorem State.dropInstance_keeps (s : State) (t : TapNo) : s.Keeps (s.dropInstance t) :=
  s.updTap_keeps t _ le_rfl le_rfl

theorem State.beginInstance_keeps (s : State) (t : TapNo) (f : FrameNo) (e : MapEntry)
    (reason : TapReason) : s.Keeps (s.beginInstance t f e reason) :=
  (s.updTap_keeps t _ le_rfl le_rfl).trans (State.setTapState_keeps _ t _ _)

theorem State.unbind_keeps (s : State) (t : TapNo) (new : TapState) (reason : TapReason) :
    s.Keeps (s.unbind t new reason) :=
  (s.dropInstance_keeps t).trans (State.setTapState_keeps _ t _ _)

theorem State.loseStream_keeps (s : State) (t : TapNo) : s.Keeps (s.loseStream t) := by
  unfold State.loseStream
  split <;> exact s.unbind_keeps t _ _

/-! ## At a frame open -/

theorem State.adoptAdjust_keeps (s : State) (t : TapNo) : s.Keeps (s.adoptAdjust t) := by
  unfold State.adoptAdjust
  split
  · exact s.updTap_keeps t _ le_rfl le_rfl
  · exact .refl s

theorem State.adoptOpen_keeps (s : State) (t : TapNo) : s.Keeps (s.adoptOpen t) := by
  unfold State.adoptOpen
  split
  · exact .refl s
  · rename_i i p _
    have k := (s.updTap_keeps t (fun tp => tp.opened i p) le_rfl le_rfl).trans
      (State.setTapState_keeps _ t .waiting .opened)
    simp only
    split
    · exact k.trans (State.setTapState_keeps _ t _ _)
    · exact k

theorem State.adopt_keeps (s : State) (t : TapNo) : s.Keeps (s.adopt t) :=
  (s.adoptAdjust_keeps t).trans (State.adoptOpen_keeps _ t)

theorem State.restart_keeps (s : State) (t : TapNo) (f : FrameNo) : s.Keeps (s.restart t f) := by
  simp only [State.restart]
  split
  · exact (s.instanceEnd_keeps t).trans (State.beginInstance_keeps _ t f _ _)
  · exact (s.instanceEnd_keeps t).trans (State.loseStream_keeps _ t)

theorem State.restartStep_keeps (s : State) (t : TapNo) (f : FrameNo) (first : Bool) :
    s.Keeps (s.restartStep t f first) := by
  unfold State.restartStep
  repeat' split
  all_goals first
    | exact .refl s
    | exact s.restart_keeps t f

theorem State.bindStep_keeps (s : State) (t : TapNo) (f : FrameNo) : s.Keeps (s.bindStep t f) := by
  unfold State.bindStep
  split
  · split
    · rename_i e _
      have h : s.Keeps (if s.retainedDiffers t e then s.endRetention t else s) := by
        split
        · exact s.endRetention_keeps t
        · exact .refl s
      exact h.trans (State.beginInstance_keeps _ t f e _)
    · exact .refl s
  · exact .refl s

theorem State.allocateStep_keeps (s : State) (t : TapNo) (f : FrameNo) :
    s.Keeps (s.allocateStep t f) := by
  unfold State.allocateStep
  split
  · split
    · rename_i i _ _
      have h := ((s.updTap_keeps t (fun tp => { tp with inst := some i.advance }) le_rfl
        le_rfl).trans (State.allocate_keeps _ t f i)).trans (State.updTap_keeps _ t
        (fun tp => { tp with openFrames := tp.openFrames ++ [{ frame := f, slot :=
          ((s.updTap t fun tp => { tp with inst := some i.advance }).allocate t f i).2 }] })
        le_rfl le_rfl)
      simp only
      split
      · exact h
      · exact (h.trans (State.latch_keeps _ _)).trans (State.setTapState_keeps _ t _ _)
    · exact .refl s
  · exact .refl s

theorem State.tapOpenNotice_keeps (f : FrameNo) (first : Bool) (s : State) (t : TapNo) :
    s.Keeps (State.tapOpenNotice f first s t) :=
  (((s.adopt_keeps t).trans (State.restartStep_keeps _ t f first)).trans
    (State.bindStep_keeps _ t f)).trans (State.allocateStep_keeps _ t f)

theorem State.tapsOpen_keeps (s : State) (f : FrameNo) (first : Bool) :
    s.Keeps (s.tapsOpen f first) := .eachTap (State.tapOpenNotice_keeps f first) s

/-! ## At a frame close -/

theorem SlotEntry.markClass_place (c : Nat) (b : Bool) (e : SlotEntry) :
    (e.markClass c b).addr = e.addr ∧ ((e.markClass c b).state = .returning ↔ e.state = .returning) := by
  unfold SlotEntry.markClass
  repeat' split
  all_goals simp

theorem State.markFrame_keeps (s : State) (d : Depth) (f : FrameNo) (b : Bool)
    (l : LogicalFrame) : s.Keeps (s.markFrame d f b l) := by
  unfold State.markFrame
  split
  · exact s.updSlot_keeps _ _ (SlotEntry.markClass_place _ b)
  · exact .refl s

theorem State.completeDue_keeps (s : State) (t : TapNo) (i : TapInstance) :
    s.Keeps (s.completeDue t i) := by
  unfold State.completeDue
  split
  · split
    · exact .refl s
    · exact (s.updTap_keeps t _ le_rfl le_rfl).trans (State.completeFrame_keeps _ t _ _)
  · exact .refl s

theorem State.tapCloseNotice_keeps (f : FrameNo) (q : BitVec 2) (s : State) (t : TapNo) :
    s.Keeps (State.tapCloseNotice f q s t) := by
  unfold State.tapCloseNotice
  split
  · split
    · exact ((s.updTap_keeps t _ le_rfl le_rfl).trans
        (.foldl _ (fun s l => s.markFrame_keeps _ _ _ l) _ _)).trans
        (State.completeDue_keeps _ t _)
    · exact .refl s
  · exact .refl s

theorem State.tapsClose_keeps (s : State) (f : FrameNo) (q : BitVec 2) :
    s.Keeps (s.tapsClose f q) := .eachTap (State.tapCloseNotice_keeps f q) s

/-! ## Notices -/

theorem State.tapResync_keeps (s : State) (t : TapNo) : s.Keeps (s.tapResync t) := by
  unfold State.tapResync
  split
  · exact (((s.abandon_keeps t).trans (State.endRetention_keeps _ t)).trans
      (State.updTap_keeps _ t _ le_rfl le_rfl)).trans (State.setTapState_keeps _ t _ _)
  · exact .refl s

theorem State.resyncNotice_keeps (s : State) : s.Keeps s.resyncNotice :=
  (State.Keeps.eachTap State.tapResync_keeps s).trans (State.makeAllDue_keeps _)

theorem State.tapForget_keeps (s : State) (t : TapNo) : s.Keeps (s.tapForget t) := by
  unfold State.tapForget
  repeat' split
  · exact ((s.abandon_keeps t).trans (State.endRetention_keeps _ t)).trans
      (State.unbind_keeps _ t _ _)
  · exact s.setTapState_keeps t _ _
  · exact .refl s

theorem State.forgetNotice_keeps (s : State) : s.Keeps s.forgetNotice :=
  .eachTap State.tapForget_keeps s

theorem State.tapStop_keeps (s : State) (t : TapNo) : s.Keeps (s.tapStop t) := by
  unfold State.tapStop
  repeat' split
  · exact (s.abandon_keeps t).trans (State.unbind_keeps _ t _ _)
  · exact s.setTapState_keeps t _ _
  · exact .refl s

theorem State.stopNotice_keeps (s : State) : s.Keeps s.stopNotice :=
  (State.Keeps.eachTap State.tapStop_keeps s).trans (State.makeAllDue_keeps _)

theorem State.switchBound_keeps (s : State) (t : TapNo) (f : FrameNo) (i : TapInstance) :
    s.Keeps (s.switchBound t f i) := by
  unfold State.switchBound
  repeat' split
  · exact s.updTap_keeps t _ le_rfl le_rfl
  · exact (s.instanceEnd_keeps t).trans (State.beginInstance_keeps _ t f _ _)
  · exact (s.instanceEnd_keeps t).trans (State.loseStream_keeps _ t)

theorem State.tapSwitch_keeps (f : FrameNo) (s : State) (t : TapNo) :
    s.Keeps (State.tapSwitch f s t) := by
  unfold State.tapSwitch
  repeat' split
  all_goals first
    | exact .refl s
    | exact s.switchBound_keeps t f _
    | exact s.setTapState_keeps t _ _

theorem State.switchNotice_keeps (s : State) (f : FrameNo) : s.Keeps (s.switchNotice f) :=
  .eachTap (State.tapSwitch_keeps f) s

theorem State.tapVersion_keeps (s : State) (t : TapNo) : s.Keeps (s.tapVersion t) := by
  unfold State.tapVersion
  repeat' split
  · exact (s.instanceEnd_keeps t).trans (State.unbind_keeps _ t _ _)
  · exact s.setTapState_keeps t _ _
  · exact .refl s

theorem State.versionNotice_keeps (s : State) : s.Keeps s.versionNotice :=
  .eachTap State.tapVersion_keeps s

theorem State.tapVerified_keeps (removed : List StreamId) (s : State) (t : TapNo) :
    s.Keeps (State.tapVerified removed s t) := by
  unfold State.tapVerified
  repeat' split
  all_goals first
    | exact .refl s
    | exact s.setTapState_keeps t _ _
    | exact (s.instanceEnd_keeps t).trans (State.unbind_keeps _ t _ _)

theorem State.verificationNotice_keeps (s : State) (removed : List StreamId) :
    s.Keeps (s.verificationNotice removed) := .eachTap (State.tapVerified_keeps removed) s

theorem State.tapReplaced_keeps (i : StreamId) (s : State) (t : TapNo) :
    s.Keeps (State.tapReplaced i s t) := by
  unfold State.tapReplaced
  split
  · exact s.updTap_keeps t _ le_rfl le_rfl
  · exact .refl s

theorem State.replacementNotice_keeps (s : State) (i : StreamId) :
    s.Keeps (s.replacementNotice i) := .eachTap (State.tapReplaced_keeps i) s

theorem State.tapRemoved_keeps (i : StreamId) (s : State) (t : TapNo) :
    s.Keeps (State.tapRemoved i s t) := by
  unfold State.tapRemoved
  split
  · exact (s.instanceEnd_keeps t).trans (State.unbind_keeps _ t _ _)
  · exact .refl s

theorem State.removalNotice_keeps (s : State) (i : StreamId) : s.Keeps (s.removalNotice i) :=
  .eachTap (State.tapRemoved_keeps i) s

/-! ## TAP_CLOSE's steps -/

theorem State.closeTap_keeps (s : State) (t : TapNo) : s.Keeps (s.closeTap t) := by
  unfold State.closeTap
  split
  · exact s.updTap_keeps t _ le_rfl le_rfl
  · have h1 : s.Keeps (s.dropFrames t) :=
      (s.updTap_keeps t _ le_rfl le_rfl).trans (State.pushFrames_keeps _ _)
    have h2 : ∀ s : State, s.Keeps (s.dropSettling t) := fun s =>
      (s.updTap_keeps t _ (by simp) le_rfl).trans
        (.foldl _ (fun s (c : Completion) => s.discard_keeps t c.kind c.run) _ _)
    have h3 : ∀ s : State, s.Keeps (s.shutTap t) := fun s =>
      (s.updTap_keeps t _ le_rfl le_rfl).trans (State.setTapState_keeps _ t _ _)
    exact (((h1.trans (h2 _)).trans (State.makeDue_keeps _ t)).trans
      (State.endRetention_keeps _ t)).trans (h3 _)

theorem State.openTap_keeps (s : State) (t : TapNo) (i : StreamId) (p : TapParams) :
    s.Keeps (s.openTap t i p) := s.updTap_keeps t _ le_rfl le_rfl

theorem State.adjustTap_keeps (s : State) (t : TapNo) (p : TapParams) :
    s.Keeps (s.adjustTap t p) := by
  refine s.updTap_keeps t _ ?_ ?_ <;> (unfold Tap.adjust; split <;> exact le_rfl)

end Sys2Proof.Machine
end

