-- ==== Sys2Proof/Laws/Upkeep.lean ====
section
/-! SUPPORT. What the operations of the layout tables, the status block and frame reception can do,
said once for each: they leave the pins, regions and links alone and keep the invariants. -/

namespace Sys2Proof.Machine

/-- The pins, regions, links and queue are as before, HALTED is not left by accident nor entered,
and every invariant of Safety that held holds. -/
structure State.Upkeep (s t : State) : Prop where
  outside : s.SameOutside t
  up : s.device ≠ .halted → t.device ≠ .halted
  apart : s.SlotsApart → t.SlotsApart
  stack : s.supply.stack.length ≤ Config.stackCapacity →
    t.supply.stack.length ≤ Config.stackCapacity
  table : s.workingSlots ≤ Config.slotCapacity → t.workingSlots ≤ Config.slotCapacity
  settling : ∀ u : TapNo, (s.tap u).settling.length ≤ Config.settlingCapacity →
    (t.tap u).settling.length ≤ Config.settlingCapacity
  queue : ∀ u : TapNo, (s.tap u).queue.length ≤ Config.queueCapacity →
    (t.tap u).queue.length ≤ Config.queueCapacity
  reports : s.reporter.queue.length ≤ Config.reportQueueCapacity →
    t.reporter.queue.length ≤ Config.reportQueueCapacity
  fault : s.reporter.FaultTrue → t.reporter.FaultTrue
  alert : t.reporter.producer = s.reporter.producer ∧ t.reporter.recorded = s.reporter.recorded ∧
    t.reporter.alertEnable = s.reporter.alertEnable ∧
    t.reporter.pinEnables = s.reporter.pinEnables ∧ t.reporter.nReportLow = s.reporter.nReportLow
  maps : s.MapsSound → t.MapsSound

theorem State.MapsSound.ofLayout {s t : State} (h : t.layout = s.layout) (k : s.MapsSound) :
    t.MapsSound := by
  constructor
  · rw [h]; exact k.current
  · rw [h]; exact k.pending
  · rw [h]; exact k.collected
  · rw [h]; exact k.pendingCollected

theorem State.Upkeep.refl (s : State) : s.Upkeep s :=
  ⟨⟨rfl, rfl, rfl, rfl, rfl⟩, id, id, id, id, fun _ => id, fun _ => id, id, id,
    ⟨rfl, rfl, rfl, rfl, rfl⟩, id⟩

theorem State.Upkeep.trans {s t u : State} (h : s.Upkeep t) (k : t.Upkeep u) : s.Upkeep u where
  outside := by
    obtain ⟨a1, a2, a3, a4, a5⟩ := h.outside
    obtain ⟨b1, b2, b3, b4, b5⟩ := k.outside
    exact ⟨b1.trans a1, b2.trans a2, b3.trans a3, b4.trans a4, b5.trans a5⟩
  up := k.up ∘ h.up
  apart := k.apart ∘ h.apart
  stack := k.stack ∘ h.stack
  table := k.table ∘ h.table
  settling := fun u => k.settling u ∘ h.settling u
  queue := fun u => k.queue u ∘ h.queue u
  reports := k.reports ∘ h.reports
  fault := k.fault ∘ h.fault
  alert := by
    obtain ⟨a1, a2, a3, a4, a5⟩ := h.alert
    obtain ⟨b1, b2, b3, b4, b5⟩ := k.alert
    exact ⟨b1.trans a1, b2.trans a2, b3.trans a3, b4.trans a4, b5.trans a5⟩
  maps := k.maps ∘ h.maps

theorem State.Keeps.upkeep {s t : State} (h : s.Keeps t) : s.Upkeep t := by
  obtain ⟨e1, e2, e3, e4, e5, _, e7, _, e9⟩ := h.same
  exact ⟨⟨e1, e2, e4, e5, e9⟩, fun k => by rw [e3]; exact k, h.apart, h.stack, h.table, h.settling,
    h.queue, h.reports, h.fault, h.alert, .ofLayout e7⟩

theorem State.Upkeep.foldl {α : Type} (f : State → α → State)
    (h : ∀ (s : State) a, s.Upkeep (f s a)) (l : List α) (s : State) : s.Upkeep (l.foldl f s) := by
  induction l generalizing s with
  | nil => exact .refl s
  | cons a l ih => exact (h s a).trans (ih (f s a))

/-- A change of the layout tables that keeps the maps sound. -/
theorem State.updLayout_upkeep (s : State) (f : Layout → Layout)
    (h : s.MapsSound → (s.updLayout f).MapsSound) : s.Upkeep (s.updLayout f) :=
  ⟨⟨rfl, rfl, rfl, rfl, rfl⟩, id, id, id, id, fun _ => id, fun _ => id, id, id,
    ⟨rfl, rfl, rfl, rfl, rfl⟩, h⟩

/-- A change of the reception record. -/
theorem State.updReception_upkeep (s : State) (f : Reception → Reception) :
    s.Upkeep (s.updReception f) :=
  ⟨⟨rfl, rfl, rfl, rfl, rfl⟩, id, id, id, id, fun _ => id, fun _ => id, id, id,
    ⟨rfl, rfl, rfl, rfl, rfl⟩, State.MapsSound.ofLayout rfl⟩

/-- A change of the directive unit. -/
theorem State.updDirective_upkeep (s : State) (f : DirectiveUnit → DirectiveUnit) :
    s.Upkeep (s.updDirective f) :=
  ⟨⟨rfl, rfl, rfl, rfl, rfl⟩, id, id, id, id, fun _ => id, fun _ => id, id, id,
    ⟨rfl, rfl, rfl, rfl, rfl⟩, State.MapsSound.ofLayout rfl⟩

/-- A device state other than HALTED set. -/
theorem State.setDevice_upkeep (s : State) (d : DeviceState) (h : d ≠ .halted) :
    s.Upkeep (s.setDevice d) :=
  ⟨⟨rfl, rfl, rfl, rfl, rfl⟩, fun _ => h, id, id, id, fun _ => id, fun _ => id, id, id,
    ⟨rfl, rfl, rfl, rfl, rfl⟩, State.MapsSound.ofLayout rfl⟩

/-! ## The layout tables -/

theorem State.countConflict_upkeep (s : State) : s.Upkeep s.countConflict :=
  s.updLayout_upkeep _ fun h => ⟨h.current, h.pending, h.collected, h.pendingCollected⟩

theorem State.handCurrent_upkeep (s : State) (e : LayoutEvent) (f : FrameNo) :
    s.Upkeep (s.handCurrent e f) := (s.hand_keeps _).upkeep

theorem State.handPending_upkeep (s : State) (e : LayoutEvent) (f : FrameNo) :
    s.Upkeep (s.handPending e f) := (s.hand_keeps _).upkeep

theorem State.setCurrent_upkeep (s : State) (m : CurrentMap)
    (h : s.MapsSound → MapEntries.Apart m.entries ∧
      (m.state ≠ .suspect → MapEntries.AllCollected m.entries)) : s.Upkeep (s.setCurrent m) :=
  s.updLayout_upkeep _ fun k => ⟨(h k).1, k.pending, (h k).2, k.pendingCollected⟩

theorem State.setPending_upkeep (s : State) (m : PendingMap)
    (h : s.MapsSound → MapEntries.Apart m.entries ∧ MapEntries.AllCollected m.entries) :
    s.Upkeep (s.setPending m) :=
  s.updLayout_upkeep _ fun k => ⟨k.current, (h k).1, k.collected, (h k).2⟩

theorem State.currentMatch_upkeep (s : State) (f : FrameNo) : s.Upkeep (s.currentMatch f) :=
  ((s.setCurrent_upkeep _ fun k => ⟨k.current.keepCollected, fun _ => .keepCollected _⟩).trans
    (State.handCurrent_upkeep _ _ f)).trans (State.verificationNotice_keeps _ _).upkeep

theorem State.currentMismatch_upkeep (s : State) (f : FrameNo) :
    s.Upkeep (s.currentMismatch f) := by
  have h := (s.setCurrent_upkeep { s.layout.cur with
    state := .suspect, mismatch := true, entries := clearCollected s.layout.cur.entries }
    fun k => ⟨k.current.clearCollected, fun c => absurd rfl c⟩).trans
    (State.latch_keeps _ .layoutMismatch).upkeep
  simp only [State.currentMismatch]
  split
  · exact h
  · exact h.trans (State.handCurrent_upkeep _ _ f)

theorem State.checkCurrent_upkeep (s : State) (f : FrameNo) : s.Upkeep (s.checkCurrent f) := by
  simp only [State.checkCurrent]
  repeat' split
  · exact s.currentMatch_upkeep f
  · exact s.currentMismatch_upkeep f
  · exact .refl s

theorem State.setFresh_upkeep (s : State) (v : Fin 16) (n : Nat) (k : BitVec 16) :
    s.Upkeep (s.setCurrent (CurrentMap.fresh v n k)) :=
  s.setCurrent_upkeep _ fun _ => ⟨.absent, fun _ => .absent⟩

theorem State.versionChange_upkeep (s : State) (r : SummaryRecord) (f : FrameNo) :
    s.Upkeep (s.versionChange r f) := by
  have h := ((s.setFresh_upkeep r.version r.count r.checksum).trans
    (State.handCurrent_upkeep _ .versionChanged f)).trans (State.versionNotice_keeps _).upkeep
  simp only [State.versionChange]
  split
  · exact h.trans (State.checkCurrent_upkeep _ f)
  · exact h

theorem State.takeCurrentPart_upkeep (s : State) (r : SummaryRecord) (f : FrameNo) :
    s.Upkeep (s.takeCurrentPart r f) := by
  simp only [State.takeCurrentPart]
  repeat' split
  · exact (s.setFresh_upkeep _ _ _).trans (State.checkCurrent_upkeep _ f)
  · exact s.setFresh_upkeep _ _ _
  · exact .refl s
  · exact s.countConflict_upkeep
  · exact s.versionChange_upkeep r f

theorem State.checkPending_upkeep (s : State) (f : FrameNo) : s.Upkeep (s.checkPending f) := by
  have h1 : s.Upkeep (s.setPending { s.layout.pend with state := .ready }) :=
    s.setPending_upkeep _ fun k => ⟨k.pending, k.pendingCollected⟩
  have h2 : s.Upkeep (s.setPending { s.layout.pend with
      state := .collecting, mismatch := true, entries := MapEntries.absent }) :=
    s.setPending_upkeep _ fun _ => ⟨.absent, .absent⟩
  simp only [State.checkPending]
  repeat' split
  · exact h1.trans (State.handPending_upkeep _ _ f)
  · exact h2.trans (State.latch_keeps _ _).upkeep
  · exact (h2.trans (State.latch_keeps _ _).upkeep).trans (State.handPending_upkeep _ _ f)
  · exact .refl s

theorem State.announce_upkeep (s : State) (n : NextPart) (f : FrameNo) :
    s.Upkeep (s.announce n f) := by
  have h : s.Upkeep ((s.setPending (PendingMap.fresh n)).handPending .announced f) :=
    (s.setPending_upkeep _ fun _ => ⟨.absent, .absent⟩).trans (State.handPending_upkeep _ _ f)
  simp only [State.announce]
  repeat' split
  · exact s.countConflict_upkeep
  · exact .refl s
  · exact h.trans (State.checkPending_upkeep _ f)
  · exact h

theorem State.takeNextPart_upkeep (s : State) (r : SummaryRecord) (f : FrameNo) :
    s.Upkeep (s.takeNextPart r f) := by
  unfold State.takeNextPart State.withdraw
  repeat' split
  · exact s.announce_upkeep _ f
  · exact .refl s
  · exact (s.handPending_upkeep _ f).trans
      (State.setPending_upkeep _ _ fun _ => ⟨.absent, .absent⟩)

/-- The entries after the way is cleared: those of an uncollected, overlapping stream are gone, and
the rest are as they were (R67). -/
theorem State.clearWay_entries (s : State) (r : StreamRecord) (h : s.layout.cur.state = .suspect)
    (j : StreamId) :
    (s.clearWay r).curEntry j =
      (if meetsRun s.layout.cur.entries (fun e => !e.collected) r.id r.start r.count j then none
       else s.curEntry j) ∧ (s.clearWay r).layout.pend = s.layout.pend ∧
      (s.clearWay r).layout.cur.state = s.layout.cur.state := by
  have key : ∀ (l : List StreamId) (s : State), l.Nodup → ∀ j,
      (l.foldl (State.dropUncollected r) s).curEntry j =
        (if j ∈ l ∧ meetsRun s.layout.cur.entries (fun e => !e.collected) r.id r.start r.count j
         then none else s.curEntry j) ∧
      (l.foldl (State.dropUncollected r) s).layout.pend = s.layout.pend ∧
      (l.foldl (State.dropUncollected r) s).layout.cur.state = s.layout.cur.state := by
    intro l
    induction l with
    | nil => intro s _ j; simp
    | cons i l ih =>
      intro s hl j
      obtain ⟨hi, hl⟩ := List.nodup_cons.mp hl
      have step : (State.dropUncollected r s i).layout.pend = s.layout.pend ∧
          (State.dropUncollected r s i).layout.cur.state = s.layout.cur.state ∧
          ∀ k, (State.dropUncollected r s i).curEntry k =
            if k = i ∧ meetsRun s.layout.cur.entries (fun e => !e.collected) r.id r.start r.count i
            then none else s.curEntry k := by
        unfold State.dropUncollected
        split
        · rename_i hm
          obtain ⟨-, -, -, -, -, -, hy, -, -⟩ := (State.removalNotice_keeps
            (s.setEntries (setEntry s.layout.cur.entries i none)) i).same
          refine ⟨by rw [hy]; rfl, by rw [hy]; rfl, fun k => ?_⟩
          rw [State.curEntry, hy]
          simp only [State.curEntry, State.setEntries, State.updLayout_layout]
          by_cases c : k = i
          · subst c; simp [hm]
          · simp [c, entryOf_setEntry_other _ _ c]
        · rename_i hm
          exact ⟨rfl, rfl, fun k => by simp [hm]⟩
      obtain ⟨h1, h2, h3⟩ := ih (State.dropUncollected r s i) hl j
      rw [List.foldl_cons]
      refine ⟨?_, by rw [h2, step.1], by rw [h3, step.2.1]⟩
      rw [h1, step.2.2 j]
      have same : j ≠ i → meetsRun (State.dropUncollected r s i).layout.cur.entries
          (fun e => !e.collected) r.id r.start r.count j =
          meetsRun s.layout.cur.entries (fun e => !e.collected) r.id r.start r.count j := by
        intro c
        have := step.2.2 j
        simp only [c, false_and, if_false] at this
        simp only [State.curEntry] at this
        simp [meetsRun, this]
      by_cases c : j = i
      · subst c
        simp [hi]
      · simp [c, same c]
  have := key allStreams s (List.nodup_finRange 48) j
  have mem : j ∈ allStreams := List.mem_finRange j
  unfold State.clearWay
  rw [if_pos h]
  simpa only [mem, true_and] using this

theorem State.dropUncollected_upkeep (r : StreamRecord) (s : State) (j : StreamId)
    (h : s.layout.cur.state = .suspect) : s.Upkeep (State.dropUncollected r s j) ∧
      (State.dropUncollected r s j).layout.cur.state = .suspect := by
  unfold State.dropUncollected
  split
  · have k := (State.removalNotice_keeps (s.setEntries (setEntry s.layout.cur.entries j none)) j)
    refine ⟨State.Upkeep.trans ?_ k.upkeep, ?_⟩
    · exact s.updLayout_upkeep _ fun m =>
        ⟨m.current.setNone j, m.pending, fun c => absurd h c, m.pendingCollected⟩
    · obtain ⟨-, -, -, -, -, -, hy, -, -⟩ := k.same
      rw [hy]; exact h
  · exact ⟨.refl s, h⟩

theorem State.clearWay_upkeep (s : State) (r : StreamRecord) : s.Upkeep (s.clearWay r) := by
  unfold State.clearWay
  split
  · rename_i h
    have : ∀ (l : List StreamId) (s : State), s.layout.cur.state = .suspect →
        s.Upkeep (l.foldl (State.dropUncollected r) s) := by
      intro l
      induction l with
      | nil => exact fun s _ => .refl s
      | cons i l ih =>
        intro s h
        have k := s.dropUncollected_upkeep r i h
        exact k.1.trans (ih _ k.2)
    exact this _ s h
  · exact .refl s

theorem State.fillEntry_upkeep (s : State) (r : StreamRecord)
    (hr : runInRange r.start r.count = true)
    (ho : ∀ j f, j ≠ r.id → s.curEntry j = some f →
      runsMeet r.start r.count f.start f.count = false) : s.Upkeep (s.fillEntry r) := by
  have h : s.Upkeep (s.setEntries (setEntry s.layout.cur.entries r.id (some r.entry))) :=
    s.updLayout_upkeep _ fun m =>
      ⟨m.current.setSome r.id r.entry hr ho, m.pending,
        fun c => (m.collected c).setSome r.id r.entry rfl, m.pendingCollected⟩
  simp only [State.fillEntry]
  repeat' split
  · exact h
  · exact h.trans (State.replacementNotice_keeps _ _).upkeep
  · exact h

/-- Every other entry is clear of an accepted record's run once the way is cleared (R65, R67). -/
theorem State.clearWay_free (s : State) (r : StreamRecord)
    (hs : s.layout.cur.state ≠ .suspect → MapEntries.AllCollected s.layout.cur.entries)
    (ho : overlaps s.layout.cur.entries (·.collected) r = false) (j : StreamId) (f : MapEntry)
    (hj : j ≠ r.id) (hf : (s.clearWay r).curEntry j = some f) :
    runsMeet r.start r.count f.start f.count = false := by
  by_cases h : s.layout.cur.state = .suspect
  · rw [(s.clearWay_entries r h j).1] at hf
    split at hf
    · simp at hf
    · rename_i hm
      simp only [State.curEntry] at hf
      by_cases c : f.collected = true
      · exact overlaps_false ho j f hj hf c
      · simpa [meetsRun, hj, hf, c] using hm
  · simp only [State.clearWay, h, if_false, State.curEntry] at hf
    exact overlaps_false ho j f hj hf (hs h j f hf)

theorem State.collect_upkeep (s : State) (r : StreamRecord) (f : FrameNo)
    (hr : runInRange r.start r.count = true) : s.Upkeep (s.collect r f) := by
  simp only [State.collect]
  split
  · exact .refl s
  split
  · exact s.countConflict_upkeep
  · rename_i ho
    have ho : overlaps s.layout.cur.entries (·.collected) r = false := by simpa using ho
    have fill : s.Upkeep ((s.clearWay r).fillEntry r) := by
      by_cases hs : s.layout.cur.state ≠ .suspect → MapEntries.AllCollected s.layout.cur.entries
      · exact (s.clearWay_upkeep r).trans
          (State.fillEntry_upkeep _ r hr fun j g hj hg => s.clearWay_free r hs ho j g hj hg)
      · have k : s.Upkeep ((s.clearWay r).fillEntry r) → s.Upkeep ((s.clearWay r).fillEntry r) := id
        refine (s.clearWay_upkeep r).trans ?_
        have h0 : (s.clearWay r) = s := by
          unfold State.clearWay
          split
          · rename_i c
            exact absurd (fun d => absurd c d) hs
          · rfl
        rw [h0]
        have h : s.Upkeep (s.setEntries (setEntry s.layout.cur.entries r.id (some r.entry))) :=
          s.updLayout_upkeep _ fun m => absurd m.collected hs
        simp only [State.fillEntry]
        repeat' split
        · exact h
        · exact h.trans (State.replacementNotice_keeps _ _).upkeep
        · exact h
    split
    · exact fill.trans (State.checkCurrent_upkeep _ f)
    · exact fill

theorem State.confirm_upkeep (s : State) (r : StreamRecord) : s.Upkeep (s.confirm r) := by
  unfold State.confirm
  repeat' split
  all_goals first
    | exact .refl s
    | exact s.countConflict_upkeep

theorem State.offerCurrent_upkeep (s : State) (r : StreamRecord) (f : FrameNo)
    (hr : runInRange r.start r.count = true) : s.Upkeep (s.offerCurrent r f) := by
  unfold State.offerCurrent
  repeat' split
  all_goals first
    | exact .refl s
    | exact s.collect_upkeep r f hr
    | exact s.confirm_upkeep r

theorem State.collectPending_upkeep (s : State) (r : StreamRecord) (f : FrameNo)
    (hr : runInRange r.start r.count = true) : s.Upkeep (s.collectPending r f) := by
  simp only [State.collectPending]
  split
  · exact .refl s
  split
  · exact s.countConflict_upkeep
  · rename_i ho
    have ho : overlaps s.layout.pend.entries (fun _ => true) r = false := by simpa using ho
    have h : s.Upkeep (s.setPending { s.layout.pend with
        entries := setEntry s.layout.pend.entries r.id (some r.entry) }) :=
      s.setPending_upkeep _ fun m =>
        ⟨m.pending.setSome r.id r.entry hr fun j f hj hf => overlaps_false ho j f hj hf rfl,
          m.pendingCollected.setSome r.id r.entry rfl⟩
    split
    · exact h
    · exact h.trans (State.checkPending_upkeep _ f)

theorem State.offerPending_upkeep (s : State) (r : StreamRecord) (f : FrameNo)
    (hr : runInRange r.start r.count = true) : s.Upkeep (s.offerPending r f) := by
  unfold State.offerPending State.confirmPending
  repeat' split
  all_goals first
    | exact .refl s
    | exact s.collectPending_upkeep r f hr
    | exact s.countConflict_upkeep

/-- Counters and assembly buffers do not touch the maps. -/
theorem State.sideLayout_upkeep (s : State) (g : Layout → Layout)
    (h : (g s.layout).cur = s.layout.cur ∧ (g s.layout).pend = s.layout.pend) :
    s.Upkeep (s.updLayout g) :=
  s.updLayout_upkeep g fun k => by
    obtain ⟨h1, h2⟩ := h
    constructor
    · rw [State.updLayout_layout, h1]; exact k.current
    · rw [State.updLayout_layout, h2]; exact k.pending
    · rw [State.updLayout_layout, h1]; exact k.collected
    · rw [State.updLayout_layout, h2]; exact k.pendingCollected

theorem State.takeRecord_upkeep (s : State) (c : RecordClass) (f : FrameNo)
    (hr : ∀ r, c = .stream r → runInRange r.start r.count = true) :
    s.Upkeep (s.takeRecord c f) := by
  unfold State.takeRecord
  split
  · exact .refl s
  · exact s.sideLayout_upkeep _ ⟨rfl, rfl⟩
  · exact .refl s
  · exact s.sideLayout_upkeep _ ⟨rfl, rfl⟩
  · exact s.sideLayout_upkeep _ ⟨rfl, rfl⟩
  · split
    · exact s.offerPending_upkeep _ f (hr _ rfl)
    · exact s.offerCurrent_upkeep _ f (hr _ rfl)
  · exact (s.takeCurrentPart_upkeep _ f).trans (State.takeNextPart_upkeep _ _ f)

theorem State.offerWord_upkeep (s : State) (p i : Fin 8) (data : Word) (f : FrameNo) :
    s.Upkeep (s.offerWord p i data f) := by
  have h : ∀ b, s.Upkeep (s.setBuffer p b) := fun b => s.sideLayout_upkeep _ ⟨rfl, rfl⟩
  simp only [State.offerWord]
  split
  · exact (h _).trans (State.takeRecord_upkeep _ _ f fun r e => classify_inRange e)
  · exact h _

theorem State.layoutClose_upkeep (s : State) : s.Upkeep s.layoutClose :=
  s.sideLayout_upkeep _ ⟨rfl, rfl⟩

theorem State.switchMaps_upkeep (s : State) (f : FrameNo) : s.Upkeep (s.switchMaps f) := by
  have h0 : s.Upkeep ((s.setCurrent s.layout.pend.becomeCurrent).setPending PendingMap.none) :=
    (s.setCurrent_upkeep _ fun k => ⟨k.pending, fun _ => k.pendingCollected⟩).trans
      (State.setPending_upkeep _ _ fun _ => ⟨.absent, .absent⟩)
  have h := fun b => (h0.trans (State.hand_keeps _ b).upkeep).trans
    (State.switchNotice_keeps _ f).upkeep
  simp only [State.switchMaps]
  split
  · split
    · exact (h _).trans (State.checkCurrent_upkeep _ f)
    · exact h _
  · split
    · exact (h _).trans (State.checkCurrent_upkeep _ f)
    · exact h _

theorem State.layoutOpen_upkeep (s : State) (f : FrameNo) : s.Upkeep (s.layoutOpen f) := by
  unfold State.layoutOpen
  split
  · exact s.switchMaps_upkeep f
  · exact .refl s

theorem State.forgetMaps_upkeep (s : State) : s.Upkeep s.forgetMaps :=
  ((s.setCurrent_upkeep _ fun _ => ⟨.absent, fun _ => .absent⟩).trans
    (State.setPending_upkeep _ _ fun _ => ⟨.absent, .absent⟩)).trans
    (State.forgetNotice_keeps _).upkeep

/-! ## The status block and the device state -/

theorem State.testStatus_upkeep (s : State) : s.Upkeep s.testStatus := by
  unfold State.testStatus
  simp only
  split
  · exact s.updDirective_upkeep _
  · exact .refl s

theorem State.requestStatus_upkeep (s : State) : s.Upkeep s.requestStatus := by
  unfold State.requestStatus
  split
  · exact .refl s
  · exact (s.updDirective_upkeep _).trans (State.testStatus_upkeep _)

theorem State.changeDevice_upkeep (s : State) (d : DeviceState) (h : d ≠ .halted) :
    s.Upkeep (s.changeDevice d) := by
  unfold State.changeDevice
  split
  · exact .refl s
  · exact (s.setDevice_upkeep d h).trans (State.requestStatus_upkeep _)

/-! ## Frame reception -/

theorem State.openNotice_upkeep (s : State) (f : FrameNo) (first : Bool) :
    s.Upkeep (s.openNotice f first) :=
  ((s.layoutOpen_upkeep f).trans (State.reporterOpen_keeps _).upkeep).trans
    (State.tapsOpen_keeps _ f first).upkeep

theorem State.closeNotice_upkeep (s : State) (f : FrameNo) (q : BitVec 2) :
    s.Upkeep (s.closeNotice f q) :=
  ((s.layoutClose_upkeep.trans (State.reporterClose_keeps _).upkeep).trans
    (State.tapsClose_keeps _ f q).upkeep).trans (State.requestStatus_upkeep _)

theorem State.closeFrame_upkeep (s : State) : s.Upkeep s.closeFrame := by
  unfold State.closeFrame
  split
  · exact (s.updReception_upkeep _).trans (State.closeNotice_upkeep _ _ _)
  · exact .refl s

theorem State.acceptOpen_upkeep (s : State) (f : FrameNo) (q : BitVec 2) (first : Bool)
    (resumed : Option Nat) : s.Upkeep (s.acceptOpen f q first resumed) := by
  have h := (s.closeFrame_upkeep.trans (State.updReception_upkeep _ fun r => r.accept f q)).trans
    (State.changeDevice_upkeep _ .running (by simp))
  simp only [State.acceptOpen]
  cases resumed with
  | none => exact h.trans (State.openNotice_upkeep _ f first)
  | some n => exact (h.trans (State.hand_keeps _ _).upkeep).trans (State.openNotice_upkeep _ f first)

theorem State.lostFrame_upkeep (s : State) (n : FrameNo) : s.Upkeep (s.lostFrame n) :=
  (s.openNotice_upkeep n false).trans (State.closeNotice_upkeep _ n 0)

theorem State.missFrames_upkeep (d : Nat) (s : State) (e : FrameNo) :
    s.Upkeep (s.missFrames d e) := by
  induction d generalizing s e with
  | zero => exact .refl s
  | succ d ih =>
    exact ((s.updReception_upkeep _).trans (State.lostFrame_upkeep _ e)).trans (ih _ _)

theorem State.jump_upkeep (s : State) (e : FrameNo) (d : Nat) (f : FrameNo) (q : BitVec 2) :
    s.Upkeep (s.jump e d f q) := by
  have h := s.closeFrame_upkeep.trans (State.missFrames_upkeep d _ e)
  simp only [State.jump]
  split
  · exact (h.trans (State.hand_keeps _ _).upkeep).trans (State.acceptOpen_upkeep _ f q _ _)
  · exact h.trans (State.acceptOpen_upkeep _ f q _ _)

theorem State.resync_upkeep (s : State) : s.Upkeep s.resync :=
  (((s.closeFrame_upkeep.trans (State.hand_keeps _ _).upkeep).trans
    (State.resyncNotice_keeps _).upkeep).trans (State.updReception_upkeep _ _)).trans
    (State.changeDevice_upkeep _ .acquiring (by simp))

theorem State.frameOpen_upkeep (s : State) (f : FrameNo) (q : BitVec 2) :
    s.Upkeep (s.frameOpen f q) := by
  have h := s.updReception_upkeep Reception.adoptTiming
  simp only [State.frameOpen]
  split
  · exact h
  · exact h.trans (State.acceptOpen_upkeep _ f q _ _)
  · exact h.trans (State.acceptOpen_upkeep _ f q _ _)
  · exact h.trans (State.jump_upkeep _ _ _ f q)
  · exact (h.trans (State.resync_upkeep _)).trans (State.acceptOpen_upkeep _ f q _ _)

theorem State.seal_upkeep (s : State) : s.Upkeep s.seal := by
  unfold State.seal
  split
  · exact s.closeFrame_upkeep.trans (State.updReception_upkeep _ _)
  · exact .refl s

theorem State.synthesize_upkeep (s : State) (e : FrameNo) : s.Upkeep (s.synthesize e) := by
  have h := fun g => (s.closeFrame_upkeep.trans (State.updReception_upkeep _ g)).trans
    (State.lostFrame_upkeep _ e)
  simp only [State.synthesize]
  split
  · exact ((h _).trans (State.changeDevice_upkeep _ .coasting (by simp))).trans
      (State.hand_keeps _ _).upkeep
  · exact h _

theorem State.timerExpiry_upkeep (s : State) : s.Upkeep s.timerExpiry := by
  have h := s.updReception_upkeep Reception.adoptTiming
  unfold State.timerExpiry
  split
  · exact .refl s
  · split
    · simp only
      split
      · split
        · exact h.trans (State.synthesize_upkeep _ _)
        · exact h
      · exact h.trans (State.resync_upkeep _)
    · exact .refl s

theorem State.startDevice_upkeep (s : State) : s.Upkeep s.startDevice :=
  (s.updReception_upkeep _).trans (State.changeDevice_upkeep _ .acquiring (by simp))

theorem State.stopDevice_upkeep (s : State) : s.Upkeep s.stopDevice :=
  ((s.closeFrame_upkeep.trans (State.stopNotice_keeps _).upkeep).trans
    (State.updReception_upkeep _ _)).trans (State.changeDevice_upkeep _ .stopped (by simp))

end Sys2Proof.Machine
end

