-- ==== Sys2Proof/Laws/Commands.lean ====
section
/-! SUPPORT. What the operations of the directive unit and of the memory path can do, said once for
each, and what each kind of change means for the invariants of Safety. -/

namespace Sys2Proof.Machine

/-! ## Kinds of change and the invariants -/

theorem State.OnlyDirective.upkeep {s t : State} (h : s.OnlyDirective t) : s.Upkeep t := by
  unfold State.OnlyDirective at h
  rw [h]
  exact s.updDirective_upkeep fun _ => t.directive

theorem State.OnlyDirective.trans {s t u : State} (h : s.OnlyDirective t) (k : t.OnlyDirective u) :
    s.OnlyDirective u := by
  unfold State.OnlyDirective at h k ⊢
  rw [k, h]

/-- An operation that keeps, keeps both lines at the levels of R150 and R151 while nRESET is high. -/
theorem State.Upkeep.lines {s t : State} (h : s.Upkeep t) (up : s.Up) (k : s.LinesTrue) :
    t.LinesTrue := by
  obtain ⟨o1, _, o3, _, _⟩ := h.outside
  obtain ⟨a1, a2, a3, a4, a5⟩ := h.alert
  have up' : s.nResetLow = false := up
  have kf := k.fault
  rw [up'] at kf
  have hf := h.fault (by simpa [Reporter.FaultTrue] using kf)
  constructor
  · rw [o1, up']; simpa [Reporter.FaultTrue] using hf
  · rw [o1, a5, a3, a1, a2, o3]; exact k.report

/-- An operation that keeps, keeps every capacity but the links'. -/
theorem State.Upkeep.capacity {s t : State} (h : s.Upkeep t) (k : s.WithinCapacity) :
    t.WithinCapacity where
  txns := by rw [h.outside.2.2.2.1]; exact k.txns
  stack := h.stack k.stack
  table := h.table k.table
  settling := fun u => h.settling u (k.settling u)
  queue := fun u => h.queue u (k.queue u)
  reports := h.reports k.reports

/-! ## Batches -/

theorem State.startFetch_only (s : State) : s.OnlyDirective s.startFetch := rfl

theorem State.resumeFetch_only (s : State) : s.OnlyDirective s.resumeFetch := by
  unfold State.resumeFetch
  split <;> rfl

theorem State.takeDirectiveIndex_only (s : State) (v : Word) :
    s.OnlyDirective (s.takeDirectiveIndex v) := by
  unfold State.takeDirectiveIndex
  simp only
  split <;> rfl

theorem State.testStatus_only (s : State) : s.OnlyDirective s.testStatus := by
  unfold State.testStatus
  simp only
  split <;> rfl

theorem State.requestStatus_only (s : State) : s.OnlyDirective s.requestStatus := by
  unfold State.requestStatus
  split
  · rfl
  · exact State.OnlyDirective.trans
      (show s.OnlyDirective (s.updDirective fun d => { d with statusRequest := true }) from rfl)
      (State.testStatus_only _)

theorem State.endBatch_only (s : State) : s.OnlyDirective s.endBatch := by
  have h : s.OnlyDirective (s.updDirective fun d => { d with batch := .idle }) := rfl
  unfold State.endBatch
  simp only
  split
  · exact h
  · exact (h.trans (show State.OnlyDirective _ (State.updDirective _
      fun d => { d with statusEnable := true }) from rfl)).trans (State.requestStatus_only _)

theorem State.nextRecord_only (s : State) : s.OnlyDirective s.nextRecord := by
  have h : s.OnlyDirective (s.updDirective fun d => { d with consumer := d.consumer + 1 }) := rfl
  unfold State.nextRecord
  simp only
  split
  · exact h.trans (State.endBatch_only _)
  · exact h.trans (State.startFetch_only _)

/-! ## The directives -/

theorem State.reject_keeps (s : State) (k : Byte) (r : RejectReason) (l : List Word) :
    s.Keeps (s.reject k r l) := (s.hand_keeps _).trans (State.latch_keeps _ _)

theorem State.hand_only (s : State) (b : ReportBody) : s.OnlyReporter (s.hand b) := by
  unfold State.hand State.handWith
  split
  · rfl
  · unfold State.testReports State.startReport State.latch
    repeat' split
    all_goals rfl

theorem State.reject_only (s : State) (k : Byte) (r : RejectReason) (l : List Word) :
    s.OnlyReporter (s.reject k r l) := by
  have h := s.hand_only (.directive s.directive.consumer.val k r l)
  unfold State.OnlyReporter at h
  unfold State.reject State.OnlyReporter
  rw [h]
  rfl

/-- A rejected directive changes the reporter alone; a directive without a failure is executed. -/
theorem State.runUnless_upkeep (s : State) (k : Byte) (f : Option RejectReason) {t : State}
    (h : f = none → s.Upkeep t) : s.Upkeep (s.runUnless k f t) := by
  unfold State.runUnless
  split
  · exact (s.reject_keeps _ _ _).upkeep
  · exact h rfl

theorem State.runSetTiming_upkeep (s : State) (a b c : Byte) : s.Upkeep (s.runSetTiming a b c) :=
  s.runUnless_upkeep _ _ fun _ =>
    (s.updReception_upkeep fun r => { r with pendingTiming := some (a.toNat, b.toNat) }).trans
      (State.updReporter_keeps _ (fun r => { r with pendingInterval := some c.toNat }) id id
        ⟨rfl, rfl, rfl, rfl, rfl⟩).upkeep

theorem State.runStart_upkeep (s : State) : s.Upkeep s.runStart :=
  s.runUnless_upkeep _ _ fun _ => s.startDevice_upkeep

theorem State.runStop_upkeep (s : State) : s.Upkeep s.runStop :=
  s.runUnless_upkeep _ _ fun _ => by
    split
    · exact .refl s
    · exact s.stopDevice_upkeep

theorem State.runTapOpen_upkeep (s : State) (a b c d e f : Byte) :
    s.Upkeep (s.runTapOpen a b c d e f) := by
  unfold State.runTapOpen
  split
  · exact s.runUnless_upkeep _ _ fun _ => (s.openTap_keeps _ _ _).upkeep
  · exact (s.reject_keeps _ _ _).upkeep

theorem State.runTapAdjust_upkeep (s : State) (a c d e f : Byte) :
    s.Upkeep (s.runTapAdjust a c d e f) := by
  unfold State.runTapAdjust
  split
  · exact s.runUnless_upkeep _ _ fun _ => (s.adjustTap_keeps _ _).upkeep
  · exact (s.reject_keeps _ _ _).upkeep

theorem State.runTapClose_upkeep (s : State) (a : Byte) : s.Upkeep (s.runTapClose a) := by
  unfold State.runTapClose
  split
  · exact s.runUnless_upkeep _ _ fun _ => (s.closeTap_keeps _).upkeep
  · exact (s.reject_keeps _ _ _).upkeep

theorem State.runRelease_upkeep (s : State) (n : Byte) (l : List Word) :
    s.Upkeep (s.runRelease n l) :=
  s.runUnless_upkeep _ _ fun _ => by
    have h := State.releaseAll_keeps (l.take n.toNat) s
    simp only [State.releaseList]
    split
    · exact h.upkeep
    · exact (h.trans (State.reject_keeps _ _ _ _)).upkeep

theorem State.runForceResync_upkeep (s : State) : s.Upkeep s.runForceResync :=
  s.runUnless_upkeep _ _ fun _ => s.resync_upkeep

theorem State.runForgetLayout_upkeep (s : State) : s.Upkeep s.runForgetLayout :=
  s.runUnless_upkeep _ _ fun _ => s.forgetMaps_upkeep

theorem State.runClearFaults_only (s : State) (f : Byte) : s.OnlyReporter (s.runClearFaults f) := rfl

theorem State.setAlerts_only (s : State) (e p : Byte) : s.OnlyReporter (s.setAlerts e p) := rfl

/-- CONFIGURE's setting of the regions touches no slot, map or tap (R163). -/
theorem State.setRegions_fields (s : State) (p : ConfigureParams) :
    (s.setRegions p).link = s.link ∧ (s.setRegions p).layout = s.layout ∧
    (s.setRegions p).taps = s.taps ∧ (s.setRegions p).supply.table = s.supply.table ∧
    (s.setRegions p).supply.stack = s.supply.stack ∧ (s.setRegions p).device = s.device ∧
    (s.setRegions p).directive = s.directive ∧ (s.setRegions p).strap = s.strap ∧
    (s.setRegions p).pending = s.pending ∧ (s.setRegions p).nResetLow = s.nResetLow ∧
    (s.setRegions p).regions = some (configureRegions p) :=
  ⟨rfl, rfl, rfl, rfl, rfl, rfl, rfl, rfl, rfl, rfl, rfl⟩

/-! ## Index values -/

theorem State.testReports_only (s : State) : s.OnlyReporter s.testReports := by
  unfold State.testReports State.startReport State.latch
  repeat' split
  all_goals rfl

theorem State.OnlyReporter.trans {s t u : State} (h : s.OnlyReporter t) (k : t.OnlyReporter u) :
    s.OnlyReporter u := by
  unfold State.OnlyReporter at h k ⊢
  rw [k, h]

theorem State.takeReportIndex_only (s : State) (v : Word) :
    s.OnlyReporter (s.takeReportIndex v) := by
  unfold State.takeReportIndex
  repeat' split
  · rfl
  · rfl
  · exact State.OnlyReporter.trans (t := State.judgeReport _) rfl (State.testReports_only _)

/-! ## The memory path: acceptance -/

/-- A write beat leaves the links alone and keeps the invariants. -/
theorem State.writeBeat_upkeep (s : State) (a : Word) (b : WriteBeat) :
    s.Upkeep (s.writeBeat a b).1 := by
  simp only [State.writeBeat]
  split
  · unfold State.headerBeat
    repeat' split
    · exact s.frameOpen_upkeep _ _
    · exact s.seal_upkeep
    · exact .refl s
    · exact .refl s
  · unfold State.layoutBeat
    repeat' split
    · exact s.offerWord_upkeep _ _ _ _
    · exact .refl s
    · exact .refl s
  · unfold State.cellBeat State.streamedBeat State.linearBeat
    repeat' split
    all_goals first
      | exact .refl s
      | exact s.updReception_upkeep _
      | exact (s.updReception_upkeep _).trans (State.latch_keeps _ _).upkeep
  · exact .refl s

theorem State.writeBeats_upkeep (a : Word) (k : BurstKind) (l : List WriteBeat) (n : Nat)
    (s : State) : s.Upkeep (s.writeBeats a k n l).1 := by
  induction l generalizing s n with
  | nil => exact .refl s
  | cons b l ih => exact (s.writeBeat_upkeep _ b).trans (ih (n + 1) _)

theorem State.raiseOutstanding_keeps (s : State) (p : Piece) : s.Keeps (s.raiseOutstanding p) := by
  unfold State.raiseOutstanding
  split
  · exact s.updSlot_keeps _ _ fun e => ⟨rfl, Iff.rfl⟩
  · exact .refl s

/-- An accepted write: everything but the links as its beats and raised counts leave it, and one
entry and its pieces added to the links. -/
theorem State.acceptWrite_enters (s : State) (tag : Tag) (a : Word) (k : BurstKind)
    (l : List WriteBeat) : ∃ u t pieces, s.Upkeep u ∧
      s.acceptWrite tag a k l = u.updLink (fun x => x.enter t pieces) ∧ t.id = s.link.serial ∧
      t.tag = tag ∧ t.write = true ∧ t.unanswered = pieces.length ∧ t.err = false :=
  ⟨_, _, _, (State.writeBeats_upkeep a k l 0 s).trans
    (State.Keeps.foldl _ State.raiseOutstanding_keeps _ _).upkeep, rfl, rfl, rfl, rfl, rfl, rfl⟩

theorem State.acceptRead_only (s : State) (tag : Tag) (a : Word) (k : BurstKind) (n : Nat) :
    s.OnlyLink (s.acceptRead tag a k n) := rfl

/-! ## Pieces -/

/-- Cutting the beats into pieces loses none and keeps their order (R21). -/
theorem cutBeats_flatten (k : BurstKind) (l : List PlannedBeat) : (cutBeats k l).flatten = l := by
  induction l with
  | nil => rfl
  | cons b l ih =>
    unfold cutBeats
    split
    · rename_i c g gs h
      rw [h] at ih
      split <;> simp_all
    · simp [ih]

/-- No piece is empty (R21). -/
theorem cutBeats_nonempty (k : BurstKind) (l : List PlannedBeat) : ∀ g ∈ cutBeats k l, g ≠ [] := by
  induction l with
  | nil => simp [cutBeats]
  | cons b l ih =>
    unfold cutBeats
    split
    · rename_i c g gs h
      rw [h] at ih
      split <;> intro x hx <;> simp only [List.mem_cons] at hx
      · rcases hx with rfl | hx
        · simp
        · exact ih x (by simp [hx])
      · rcases hx with rfl | rfl | hx
        · simp
        · simp
        · exact ih x (by simp [hx])
    · intro x hx
      simp only [List.mem_cons] at hx
      rcases hx with rfl | hx
      · simp
      · exact ih x hx

/-! ## The memory path: responses -/

theorem State.drained_keeps (s : State) (a : Word) : s.Keeps (s.drained a) := by
  unfold State.drained
  repeat' split
  · exact s.releaseAwaiting_keeps a
  · exact s.settle_keeps _
  · exact .refl s
  · exact .refl s

theorem SlotEntry.writeAnswered_place (c : Nat) (r : Resp) (e : SlotEntry) :
    (e.writeAnswered c r).addr = e.addr ∧
      ((e.writeAnswered c r).state = .returning ↔ e.state = .returning) := by
  cases r <;> exact ⟨rfl, Iff.rfl⟩

/-- The answer to a redirected piece is taken by the slot table and the tap table alone (R27). -/
theorem State.redirectAnswered_keeps (s : State) (r : Resp) (d : Option (Word × Nat)) :
    s.Keeps (s.redirectAnswered r d) := by
  unfold State.redirectAnswered
  repeat' split
  · exact .refl s
  · exact (s.updSlot_keeps _ _ fun e => e.writeAnswered_place _ r).trans (State.drained_keeps _ _)
  · exact .refl s

/-- An answer takes one transaction out of flight, or none, and changes nothing else. -/
theorem State.answerOwn_sublist (s : State) (k : OwnKind) :
    (s.answerOwn k).link.inFlight.Sublist s.link.inFlight := List.eraseP_sublist

theorem State.answerOwn_only (s : State) (k : OwnKind) : s.OnlyLink (s.answerOwn k) := rfl

theorem Issued.ownOf_eq_none {k : OwnKind} {i : Issued} : i.ownOf k = none ↔ i.hasTag k = false := by
  cases i <;> simp [Issued.ownOf, Issued.hasTag]

theorem Issued.ownOf_eq_some {k : OwnKind} {i : Issued} {b : OwnBurst} {life : Life} :
    i.ownOf k = some (b, life) ↔ i = .own b life ∧ b.tag = ownTag k := by
  cases i with
  | piece p => simp [Issued.ownOf]
  | own c l =>
    simp only [Issued.ownOf, Issued.own.injEq]
    constructor
    · intro h
      split at h
      · rename_i hc
        cases h
        exact ⟨⟨rfl, rfl⟩, hc⟩
      · cases h
    · rintro ⟨⟨rfl, rfl⟩, hc⟩
      exact if_pos hc

/-- The oldest unanswered burst of a kind is the first of its tag in flight (R16). -/
theorem State.oldestBurst_of_split {s : State} {k : OwnKind} {b : OwnBurst} {life : Life}
    {pre post : List Issued} (h : s.link.inFlight = pre ++ .own b life :: post)
    (hp : ∀ i ∈ pre, i.hasTag k = false) (hb : b.tag = ownTag k) :
    s.oldestBurst k = some (b, life) ∧ (s.answerOwn k).link.inFlight = pre ++ post := by
  have hn : pre.findSome? (Issued.ownOf k) = none :=
    List.findSome?_eq_none_iff.mpr fun i hi => Issued.ownOf_eq_none.mpr (hp i hi)
  constructor
  · simp [State.oldestBurst, h, List.findSome?_append, hn, Issued.ownOf, hb]
  · simp only [State.answerOwn, State.updLink_link]
    rw [h, List.eraseP_append_right _ (by simpa using hp)]
    simp [Issued.hasTag, hb]

/-- The answer to a kind takes its oldest unanswered burst out of flight (R16). -/
theorem State.answerOwn_answersOldest {s : State} {k : OwnKind} {b : OwnBurst} {life : Life}
    (h : s.oldestBurst k = some (b, life)) :
    s.link.AnswersOldest (s.answerOwn k).link (ownTag k) b := by
  obtain ⟨pre, i, post, hl, hi, hp⟩ := List.findSome?_eq_some_iff.mp h
  obtain ⟨rfl, hb⟩ := Issued.ownOf_eq_some.mp hi
  have hp' : ∀ i ∈ pre, i.hasTag k = false := fun i hi => Issued.ownOf_eq_none.mp (hp i hi)
  refine ⟨pre, life, post, hl, hb, fun c fate hc he => ?_, ?_⟩
  · simpa [Issued.hasTag, he] using hp' _ hc
  · have := (State.oldestBurst_of_split hl hp' hb).2
    simp only [State.answerOwn, State.updLink_link] at this ⊢
    rw [this]

/-- A burst that is left alone at a discard is live still; one that is discarded keeps its burst. -/
theorem Issued.haltDiscard_live {p : OwnBurst → Bool} {i : Issued} {b : OwnBurst}
    (h : i.haltDiscard p = .own b .live) : i = .own b .live ∧ p b = false := by
  cases i with
  | piece q => cases h
  | own c l =>
    cases l with
    | live =>
      simp only [Issued.haltDiscard] at h
      split at h
      · cases h
      · rename_i hp
        cases h
        exact ⟨rfl, by simpa using hp⟩
    | haltDiscarded => cases h
    | resetDiscarded => cases h

/-- What the entry to HALTED sets; every table, queue, map and index is as before (R179). -/
theorem State.haltAt_fields (s : State) (k : OwnKind) :
    (s.haltAt k).device = .halted ∧ (s.haltAt k).layout = s.layout ∧
    (s.haltAt k).taps = s.taps ∧ (s.haltAt k).regions = s.regions ∧
    (s.haltAt k).strap = s.strap ∧ (s.haltAt k).pending = s.pending ∧
    (s.haltAt k).nResetLow = s.nResetLow ∧
    (s.haltAt k).supply = { s.supply with refill := haltedRefill k s.supply.refill } ∧
    (s.haltAt k).link.txns = s.link.txns ∧ (s.haltAt k).link.queue = s.link.queue ∧
    (s.haltAt k).reporter = { (s.reporter.latch .busError) with write := none } :=
  ⟨rfl, rfl, rfl, rfl, rfl, rfl, rfl, rfl, rfl, rfl, rfl⟩

/-- The refill that ends at the entry to HALTED changes slot supply and the reporter as any refill's
end does (R111). -/
theorem State.enterHalted_keeps (s : State) (k : OwnKind) :
    (s.haltAt k).Keeps (s.enterHalted k) := State.refillAnswered_keeps _

end Sys2Proof.Machine
end

