-- ==== Sys2Proof/Laws/Lookups.lean ====
section
/-! SUPPORT. What each lookup of the memory path answers: the area of an address, the stream of a
cell, the tap of a stream, the slot of a frame, the entry of an address and the oldest unanswered
transaction of a tag; and what the words of a read piece do that arrive ahead of its response. -/

namespace Sys2Proof.Machine

/-! ## The first element of a list that a test picks -/

theorem find?_unique {α : Type} {p : α → Bool} {l : List α} {x : α} (hx : x ∈ l)
    (hp : p x = true) :
    l.find? p ≠ none ∧ ((∀ y ∈ l, p y = true → y = x) → l.find? p = some x) := by
  cases h : l.find? p with
  | none => exact absurd hp (by simpa using List.find?_eq_none.1 h x hx)
  | some y =>
    exact ⟨by simp, fun u => by
      rw [u y (List.mem_of_find?_eq_some h) (List.find?_some h)]⟩

theorem findSome?_unique {α β : Type} {f : α → Option β} {l : List α} {x : α} {y : β}
    (hx : x ∈ l) (hf : f x = some y) :
    l.findSome? f ≠ none ∧ ((∀ x' y', f x' = some y' → y' = y) → l.findSome? f = some y) := by
  cases h : l.findSome? f with
  | none => exact absurd hf (by simp [List.findSome?_eq_none_iff.1 h x hx])
  | some z =>
    obtain ⟨w, _, hw⟩ := List.exists_of_findSome?_eq_some h
    exact ⟨by simp, fun u => by rw [u w z hw]⟩

/-! ## Ranges and areas (R3, R17, R29) -/

theorem inRange_iff {a base : Word} {size : Nat} :
    inRange a base size = true ↔ base.toNat ≤ a.toNat ∧ a.toNat < base.toNat + size := by
  simp [inRange]

theorem inRange_eq_false {a base : Word} {size : Nat} :
    inRange a base size = false ↔ ¬ (base.toNat ≤ a.toNat ∧ a.toNat < base.toNat + size) := by
  rw [← Bool.not_eq_true, inRange_iff]

/-- An offset in a range is the plain difference. -/
theorem toNat_sub_of_inRange {a base : Word} {size : Nat} (h : inRange a base size = true) :
    (a - base).toNat = a.toNat - base.toNat :=
  BitVec.toNat_sub_of_le (by simp [BitVec.le_def]; exact (inRange_iff.1 h).1)

/-- A slot is told from DRAM by the entries' 4 KiB. -/
theorem State.slotArea_slot {s : State} {a : Word}
    (h : ∃ e ∈ s.supply.table, inRange a e.addr 4096 = true) :
    ∃ e ∈ s.supply.table, inRange a e.addr 4096 = true ∧ s.slotArea a = .slot e.addr := by
  obtain ⟨e, he, hw⟩ := h
  rw [State.slotArea]
  cases hx : s.slotOver a with
  | none => exact absurd hw (by simpa using List.find?_eq_none.1 hx e he)
  | some x => exact ⟨x, List.mem_of_find?_eq_some hx, by simpa using List.find?_some hx, rfl⟩

theorem State.slotArea_dram {s : State} {a : Word}
    (h : ∀ e ∈ s.supply.table, inRange a e.addr 4096 = false) : s.slotArea a = .dram := by
  have : s.slotOver a = none := by
    rw [State.slotOver, List.find?_eq_none]; simpa using h
  rw [State.slotArea, this]

/-! ## The lookups of R23 -/

/-- The answer of streamAt at one stream id. -/
theorem streamAt_iff {s : State} {k : Nat} {x i : StreamId} {e : MapEntry} :
    (match s.curEntry x with
      | some e => if e.start ≤ k ∧ k < e.start + e.count then some (x, e) else none
      | none => none) = some (i, e) ↔
    x = i ∧ s.layout.cur.entries[i] = some e ∧ e.start ≤ k ∧ k < e.start + e.count := by
  show (match s.layout.cur.entries[x] with | some _ => _ | none => _) = _ ↔ _
  constructor
  · split
    · split
      · next e' h hk => simp; rintro rfl rfl; exact ⟨rfl, h, hk⟩
      · simp
    · simp
  · rintro ⟨rfl, h, hk⟩
    simp [h, hk]

/-- The stream of a cell is present with a run that holds the cell (R7). -/
theorem State.streamAt_sound {s : State} {k : Nat} {i : StreamId} {e : MapEntry}
    (h : s.streamAt k = some (i, e)) :
    s.layout.cur.entries[i] = some e ∧ e.start ≤ k ∧ k < e.start + e.count := by
  obtain ⟨x, _, hx⟩ := List.exists_of_findSome?_eq_some h
  exact (streamAt_iff.1 hx).2

/-- A cell that one run alone holds is that stream's (R7). -/
theorem State.streamAt_complete {s : State} {k : Nat} {i : StreamId} {e : MapEntry}
    (h : s.layout.cur.entries[i] = some e) (h1 : e.start ≤ k) (h2 : k < e.start + e.count) :
    s.streamAt k ≠ none ∧ ((∀ j f, j ≠ i → s.layout.cur.entries[j] = some f →
      ¬ (f.start ≤ k ∧ k < f.start + f.count)) → s.streamAt k = some (i, e)) := by
  have := findSome?_unique (l := allStreams) (f := fun x => match s.curEntry x with
    | some e => if e.start ≤ k ∧ k < e.start + e.count then some (x, e) else none
    | none => none) (List.mem_finRange i)
    (streamAt_iff.2 ⟨rfl, h, h1, h2⟩)
  refine ⟨this.1, fun u => this.2 ?_⟩
  rintro x ⟨j, f⟩ hx
  obtain ⟨rfl, hj, hk⟩ := streamAt_iff.1 hx
  by_cases hji : x = i
  · subst hji; rw [h] at hj; cases hj; rfl
  · exact absurd hk (u x f hji hj)

/-- The answer of boundTap at one tap. -/
theorem boundTap_iff {s : State} {i : StreamId} {x u : TapNo} {n : TapInstance} :
    (if (s.tap x).bound ∧ (s.tap x).stream = some i then (s.tap x).inst.map (fun n => (x, n))
      else none) = some (u, n) ↔
    x = u ∧ (s.tap u).bound = true ∧ (s.tap u).stream = some i ∧ (s.tap u).inst = some n := by
  split
  · next h =>
    simp only [Option.map_eq_some_iff, Prod.mk.injEq]
    constructor
    · rintro ⟨_, h', rfl, rfl⟩; exact ⟨rfl, h.1, h.2, h'⟩
    · rintro ⟨rfl, h'⟩; exact ⟨n, h'.2.2, rfl, rfl⟩
  · next h =>
    constructor
    · intro h'; cases h'
    · rintro ⟨rfl, h'⟩; exact absurd ⟨h'.1, h'.2.1⟩ h

/-- The tap of a stream is bound to it, with its instance (R23). -/
theorem State.boundTap_sound {s : State} {i : StreamId} {u : TapNo} {n : TapInstance}
    (h : s.boundTap i = some (u, n)) :
    (s.tap u).bound = true ∧ (s.tap u).stream = some i ∧ (s.tap u).inst = some n := by
  obtain ⟨x, _, hx⟩ := List.exists_of_findSome?_eq_some h
  exact (boundTap_iff.1 hx).2

/-- A stream that one tap alone is bound to has that tap (R23). -/
theorem State.boundTap_complete {s : State} {i : StreamId} {u : TapNo} {n : TapInstance}
    (hb : (s.tap u).bound = true) (hs : (s.tap u).stream = some i) (hn : (s.tap u).inst = some n) :
    s.boundTap i ≠ none ∧ ((∀ v, (s.tap v).bound = true → (s.tap v).stream = some i → v = u) →
      s.boundTap i = some (u, n)) := by
  have := findSome?_unique (l := allTaps) (f := fun x : TapNo =>
    if (s.tap x).bound ∧ (s.tap x).stream = some i then (s.tap x).inst.map (fun n => (x, n))
    else none) (List.mem_finRange u) (boundTap_iff.2 ⟨rfl, hb, hs, hn⟩)
  refine ⟨this.1, fun w => this.2 ?_⟩
  rintro x ⟨v, m⟩ hx
  obtain ⟨rfl, hv, hv', hm⟩ := boundTap_iff.1 hx
  obtain rfl := w _ hv hv'
  rw [hn] at hm; cases hm; rfl

/-- No open frame of the number: no slot (R23 step 8). -/
theorem Tap.slotFor_none {tp : Tap} {g : FrameNo} (h : ∀ l ∈ tp.openFrames, l.frame ≠ g) :
    tp.slotFor g = none := by
  have : tp.openFrames.find? (fun l => l.frame == g) = none := by
    rw [List.find?_eq_none]; simpa using h
  rw [Tap.slotFor, this]

/-- The slot of the first open frame of the number (R23 step 9). -/
theorem Tap.slotFor_split {tp : Tap} {l : LogicalFrame} {pre post : List LogicalFrame}
    (h : tp.openFrames = pre ++ l :: post) (hp : ∀ m ∈ pre, m.frame ≠ l.frame) :
    tp.slotFor l.frame = l.slot := by
  have : tp.openFrames.find? (fun x => x.frame == l.frame) = some l := by
    rw [h, List.find?_append, List.find?_eq_none.2 (by simpa using hp)]; simp
  rw [Tap.slotFor, this]

/-! ## The oldest unanswered transaction of a tag (R16) -/

theorem State.oldestPiece_iff {s : State} {tag : Tag} {p : Piece} :
    s.oldestPiece tag = some p ↔ ∃ pre post, s.link.inFlight = pre ++ .piece p :: post ∧
      p.tag = tag ∧ ∀ q, .piece q ∈ pre → q.tag ≠ tag := by
  rw [State.oldestPiece, List.findSome?_eq_some_iff]
  constructor
  · rintro ⟨pre, x, post, h, hx, hp⟩
    cases x with
    | own b l => cases hx
    | piece q =>
      simp only [Option.ite_none_right_eq_some, Option.some.injEq] at hx
      obtain ⟨ht, rfl⟩ := hx
      exact ⟨pre, post, h, ht, fun r hr e => by have := hp _ hr; simp [e] at this⟩
  · rintro ⟨pre, post, h, ht, hp⟩
    refine ⟨pre, _, post, h, by simp [ht], fun z hz => ?_⟩
    cases z with
    | own b l => rfl
    | piece q => simp [hp q hz]

theorem State.oldestBurst_iff {s : State} {k : OwnKind} {b : OwnBurst} {life : Life} :
    s.oldestBurst k = some (b, life) ↔ ∃ pre post, s.link.inFlight = pre ++ .own b life :: post ∧
      b.tag = ownTag k ∧ ∀ b' l, .own b' l ∈ pre → b'.tag ≠ ownTag k := by
  rw [State.oldestBurst, List.findSome?_eq_some_iff]
  constructor
  · rintro ⟨pre, x, post, h, hx, hp⟩
    cases x with
    | piece q => cases hx
    | own b' l =>
      simp only [Issued.ownOf, Option.ite_none_right_eq_some, Option.some.injEq,
        Prod.mk.injEq] at hx
      obtain ⟨ht, rfl, rfl⟩ := hx
      exact ⟨pre, post, h, ht, fun r l hr e => by
        have := hp _ hr; simp [Issued.ownOf, e] at this⟩
  · rintro ⟨pre, post, h, ht, hp⟩
    refine ⟨pre, _, post, h, by simp [Issued.ownOf, ht], fun z hz => ?_⟩
    cases z with
    | piece q => rfl
    | own b' l => simp [Issued.ownOf, hp b' l hz]

/-! ## Words of a read piece (R15, R16, R29, R30) -/

/-- A word placed from a beat on stands at its beat (R16). -/
theorem placeWords_inside {g : List (Option Word)} {first n : Nat} {data : List Word} {w : Word}
    (h : data[n]? = some w) (fit : first + data.length ≤ g.length) :
    (placeWords g first data)[first + n]? = some (some w) := by
  obtain ⟨hn, rfl⟩ := List.getElem?_eq_some_iff.1 h
  have hg : first + n < g.length := by omega
  simp [placeWords, List.getElem?_eq_getElem hg, hn]

/-- No other beat's word changes. -/
theorem placeWords_outside {g : List (Option Word)} {first m : Nat} {data : List Word}
    (h : m < first ∨ first + data.length ≤ m) : (placeWords g first data)[m]? = g[m]? := by
  have : ¬ (first ≤ m ∧ m < first + data.length) := by omega
  simp [placeWords, this]

theorem State.pieceData_length {s : State} {x : Bool} {p : Piece} {data : List Word} :
    (s.pieceData x p data).length = data.length := by
  unfold State.pieceData; split <;> simp

theorem State.pieceData_getElem? {s : State} {x : Bool} {p : Piece} {data : List Word} {n : Nat}
    {w : Word} (h : data[n]? = some w) : (s.pieceData x p data)[n]? =
      some (if x then s.substitute (beatAddr p.addr p.kind n) w else w) := by
  unfold State.pieceData; split <;> simp [h]

/-- The entry of a transaction that one entry alone carries the number of. -/
theorem Link.txn_of_split {l : Link} {x : Txn} {pre post : List Txn} {id : Nat}
    (h : l.txns = pre ++ x :: post) (hx : x.id = id) (hn : ∀ u ∈ pre ++ post, u.id ≠ id) :
    l.txn id = some x := by
  have : pre.find? (fun t => t.id == id) = none := by
    rw [List.find?_eq_none]; intro u hu; simpa using hn u (by simp [hu])
  simp [Link.txn, h, List.find?_append, this, hx]

/-- A change of that entry alone. -/
theorem map_at_split {x : Txn} {pre post : List Txn} {id : Nat} (f : Txn → Txn) (hx : x.id = id)
    (hn : ∀ u ∈ pre ++ post, u.id ≠ id) :
    (pre ++ x :: post).map (fun t => if t.id == id then f t else t) = pre ++ f x :: post := by
  have key : ∀ l : List Txn, (∀ u ∈ l, u.id ≠ id) →
      l.map (fun t => if t.id == id then f t else t) = l := by
    intro l hl
    rw [List.map_congr_left (g := fun t => t) (fun u hu => by simp [hl u hu])]; simp
  rw [List.map_append, List.map_cons, key pre fun u hu => hn u (by simp [hu]),
    key post fun u hu => hn u (by simp [hu])]
  simp [hx]

/-- Words that arrive ahead of the response: the piece keeps its place with the words still to come,
its transaction's entry gathers them, and nothing else changes (R15, R29). -/
theorem State.wordsArrived_gathers {s : State} {p : Piece} {data : List Word} {x : Txn}
    {pre post : List Txn} {before after : List Issued}
    (hi : s.link.inFlight = before ++ .piece p :: after)
    (hb : ∀ q, .piece q ∈ before → q.tag ≠ p.tag)
    (ht : s.link.txns = pre ++ x :: post) (hx : x.id = p.txn)
    (hn : ∀ u ∈ pre ++ post, u.id ≠ p.txn) :
    let words := s.pieceData (s.device.active && x.activeAtAccept) p data
    s.wordsArrived p data = { s with link := { s.link with
      inFlight := before ++ .piece (p.after data.length) :: after
      txns := pre ++ { x with data := placeWords x.data p.first words } :: post } } := by
  have he : s.examines p = (s.device.active && x.activeAtAccept) := by
    simp [State.examines, Link.txn_of_split ht hx hn]
  have hnot : Issued.piece p ∉ before := fun h => hb p h rfl
  intro words
  have hlen : words.length = data.length := State.pieceData_length
  have hm := map_at_split (fun t => { t with data := placeWords t.data p.first words }) hx hn
  have hr : (before ++ .piece p :: after).replace (.piece p) (.piece (p.after words.length)) =
      before ++ .piece (p.after data.length) :: after := by
    rw [List.replace_append_right hnot, List.replace_cons_self, hlen]
  rw [State.wordsArrived, he]
  show ({ s with link := { s.link with
    txns := s.link.txns.map fun t : Txn =>
      if t.id == p.txn then { t with data := placeWords t.data p.first words } else t
    inFlight := s.link.inFlight.replace (.piece p) (.piece (p.after words.length)) } } : State) = _
  rw [ht, hi, hm, hr]

/-! ## Delivery and assembly buffers -/

/-- Nothing is delivered exactly when each complete transaction is held back by one of its tag
(R15). -/
theorem State.nextDelivery_none (s : State) (hn : (s.link.txns.map (·.id)).Nodup) :
    s.link.nextDelivery = none ↔ ∀ x pre post, s.link.txns = pre ++ x :: post →
      x.id ∈ s.link.ready → ∃ u ∈ pre, u.tag = x.tag := by
  have key : ∀ x pre post, s.link.txns = pre ++ x :: post →
      s.link.txn x.id = some x ∧ (s.link.firstOfTag x = true ↔ ∀ u ∈ pre, u.tag ≠ x.tag) := by
    intro x pre post h
    rw [h] at hn
    simp only [List.map_append, List.map_cons, List.nodup_append, List.nodup_cons] at hn
    have hne : ∀ u ∈ pre ++ post, u.id ≠ x.id := by
      intro u hu e
      rcases List.mem_append.1 hu with hu | hu
      · exact hn.2.2 u.id (List.mem_map_of_mem hu) x.id (by simp) e
      · exact hn.2.1.1 (by rw [← e]; exact List.mem_map_of_mem hu)
    refine ⟨Link.txn_of_split h rfl hne, ?_⟩
    unfold Link.firstOfTag
    rw [h, List.find?_append]
    cases e : pre.find? (fun u => u.tag == x.tag) with
    | none =>
      simp only [Option.none_or, List.find?_cons, beq_self_eq_true]
      simp only [List.find?_eq_none, beq_iff_eq] at e
      simpa using e
    | some y =>
      have hy := List.mem_of_find?_eq_some e
      have hyt : y.tag = x.tag := by simpa using List.find?_some e
      simp only [Option.some_or]
      constructor
      · intro hid; exact absurd (by simpa using hid) (hne y (by simp [hy]))
      · intro hall; exact absurd hyt (hall y hy)
  unfold Link.nextDelivery
  rw [List.findSome?_eq_none_iff]
  constructor
  · intro h x pre post hx hr
    have := h x.id hr
    rw [(key x pre post hx).1] at this
    by_contra hc
    have : s.link.firstOfTag x = true :=
      (key x pre post hx).2.2 (by intro u hu e; exact hc ⟨u, hu, e⟩)
    simp_all
  · intro h id hid
    cases e : s.link.txn id with
    | none => rfl
    | some x =>
      have hm : x ∈ s.link.txns := List.mem_of_find?_eq_some e
      have hi : x.id = id := by simpa using List.find?_some e
      obtain ⟨pre, post, hx⟩ := List.append_of_mem hm
      obtain ⟨u, hu, ht⟩ := h x pre post hx (by rw [hi]; exact hid)
      have : s.link.firstOfTag x = false := by
        rw [← Bool.not_eq_true, (key x pre post hx).2]; intro hall; exact hall u hu ht
      simp [this]
/-- Lane k of word i of an assembly buffer is byte 4i + k of its record (R58). -/
theorem AsmBuffer.bytes_lane (b : AsmBuffer) : b.bytes.length = 32 ∧
    (∀ (i : Fin 8) (k : Nat), k < 4 →
      byteAt b.bytes (4 * i.val + k) = b.words[i].extractLsb' (8 * k) 8) := by
  obtain ⟨⟨⟨ws⟩, hw⟩, m⟩ := b
  match ws, hw with
  | [w0, w1, w2, w3, w4, w5, w6, w7], _ =>
    refine ⟨rfl, fun i k hk => ?_⟩
    match k, hk with
    | 0, _ => fin_cases i <;> rfl
    | 1, _ => fin_cases i <;> rfl
    | 2, _ => fin_cases i <;> rfl
    | 3, _ => fin_cases i <;> rfl

end Sys2Proof.Machine
end

