-- ==== Sys2Proof/Laws/Terms.lean ====
section
/-! SUPPORT. For each shared operation of the tap table and of frame reception, the term of Safety
that says what it does: one lemma each, cited instead of unfolding the operation. -/

namespace Sys2Proof.Machine

/-- The taps in ascending number, written out. -/
theorem State.eachTap_foldl (s : State) (f : State → TapNo → State) :
    s.eachTap f = ([0, 1, 2, 3, 4, 5, 6, 7] : List TapNo).foldl f s := rfl

/-! ## Frames of several operations -/

theorem State.OnlyTaps.trans {s t u : State} (h : s.OnlyTaps t) (k : t.OnlyTaps u) :
    s.OnlyTaps u := by
  unfold State.OnlyTaps at h k ⊢
  rw [k, h]

theorem State.OnlyReporter.onlyTaps {s t : State} (h : s.OnlyReporter t) : s.OnlyTaps t := by
  unfold State.OnlyReporter at h
  unfold State.OnlyTaps
  rw [h]

theorem State.OnlyReporter.tap {s t : State} (h : s.OnlyReporter t) (u : TapNo) :
    t.tap u = s.tap u := by
  unfold State.OnlyReporter at h
  rw [h]
  rfl

theorem State.OnlyReporter.onlySupply {s t : State} (h : s.OnlyReporter t) : s.OnlySupply t := by
  unfold State.OnlyReporter at h
  unfold State.OnlySupply
  rw [h]

theorem State.OnlySupply.trans {s t u : State} (h : s.OnlySupply t) (k : t.OnlySupply u) :
    s.OnlySupply u := by
  unfold State.OnlySupply at h k ⊢
  rw [k, h]

theorem State.OnlySupply.onlyTaps {s t : State} (h : s.OnlySupply t) : s.OnlyTaps t := by
  unfold State.OnlySupply at h
  unfold State.OnlyTaps
  rw [h]

theorem State.setTap_onlyTaps (s : State) (u : TapNo) (tp : Tap) : s.OnlyTaps (s.setTap u tp) := rfl

/-! ## Flags and reports -/

/-- Every bit of a flag set belongs to one flag. -/
theorem flag_of_bit {i : Nat} (h : i < 8) : ∃ g : Flag, g.bit = i := by
  interval_cases i
  exacts [⟨.powerOn, rfl⟩, ⟨.busError, rfl⟩, ⟨.layoutMismatch, rfl⟩, ⟨.badSlot, rfl⟩,
    ⟨.reportsBlocked, rfl⟩, ⟨.starvation, rfl⟩, ⟨.landingOverrun, rfl⟩, ⟨.directiveRejected, rfl⟩]

theorem Flag.bit_lt (g : Flag) : g.bit < 8 := by cases g <;> decide

theorem Flag.mask_bit (f g : Flag) : f.mask.getLsbD g.bit = (g == f) := by
  cases f <;> cases g <;> rfl

/-- The level of nFAULT is low when BUS_ERROR is set, or a flag whose pin enable is set (R151). -/
theorem faultLevelLow_iff (flags pins : BitVec 8) : faultLevelLow flags pins = true ↔
    ∃ g : Flag, flags.getLsbD g.bit = true ∧ (g = .busError ∨ pins.getLsbD g.bit = true) := by
  have bits : ∀ g : Flag, (flags &&& (pins ||| Flag.busError.mask)).getLsbD g.bit = true ↔
      flags.getLsbD g.bit = true ∧ (g = .busError ∨ pins.getLsbD g.bit = true) := by
    intro g
    simp only [BitVec.getLsbD_and, BitVec.getLsbD_or, Flag.mask_bit, Bool.and_eq_true,
      Bool.or_eq_true, beq_iff_eq, or_comm]
  unfold faultLevelLow
  simp only [← bits]
  constructor
  · intro h
    by_contra n
    have z : flags &&& (pins ||| Flag.busError.mask) = 0 := by
      apply BitVec.eq_of_getLsbD_eq
      intro i k
      obtain ⟨g, rfl⟩ := flag_of_bit k
      have q : (flags &&& (pins ||| Flag.busError.mask)).getLsbD g.bit = false :=
        Bool.eq_false_iff.2 fun q => n ⟨g, q⟩
      simp [q]
    simp [z] at h
  · rintro ⟨g, h⟩
    simp only [bne_iff_ne, ne_eq]
    intro z
    simp [z] at h

/-- A latched flag (R149, R151). -/
theorem State.latch_latches (s : State) (f : Flag) : s.Latches (s.latch f) f := by
  refine ⟨rfl, fun g => ?_, ?_⟩
  · simp only [State.latch, State.updReporter_reporter, Reporter.latch, Reporter.judgeFault,
      Reporter.flagSet, BitVec.getLsbD_or, Flag.mask_bit]
  · simp only [State.latch, State.updReporter_reporter, Reporter.latch, Reporter.judgeFault,
      Reporter.flagSet, faultLevelLow_iff]

theorem State.Latches.only {s t : State} {f : Flag} (h : s.Latches t f) : s.OnlyReporter t := by
  unfold State.OnlyReporter
  rw [h.1]

/-- The readiness test (R142). -/
theorem State.testReports_tests (s : State) : s.TestsReports s.testReports := by
  refine ⟨fun h => ?_, fun r c d hr w n => ?_⟩
  · unfold State.testReports
    split
    · rfl
    · rename_i d
      split
      · rfl
      · rename_i r hr
        split
        · rfl
        · rename_i w
          rw [Bool.not_eq_true, Option.isSome_eq_false_iff, Option.isNone_iff_eq_none] at w
          rw [((h.resolve_left d).resolve_left (by simp [hr])).resolve_left (by simp [w])]
  · have eq : s.testReports =
        if s.reportRoom r then s.startReport r c else s.latch .reportsBlocked := by
      simp [State.testReports, d, hr, w, n]
    have room : s.reportRoom r = Decidable.decide
        ((s.reporter.producer + r.reportSize - s.reporter.recorded % r.reportSize) % r.reportSize +
          1 < r.reportSize) := rfl
    rw [eq, room]
    refine ⟨fun h => ?_, fun h => ?_⟩
    · rw [decide_eq_true h, if_pos rfl]
      rfl
    · rw [decide_eq_false (Nat.not_lt.2 h), if_neg (by simp)]
      exact s.latch_latches _

theorem State.TestsReports.only {s t : State} (h : s.TestsReports t) : s.OnlyReporter t := by
  by_cases n : s.device = .halted ∨ s.regions = none ∨ s.reporter.write ≠ none ∨ s.nextReport = none
  · rw [h.1 n]
    rfl
  · simp only [not_or, ne_eq, not_not] at n
    obtain ⟨d, hr, w, c⟩ := n
    obtain ⟨r, hr⟩ := Option.ne_none_iff_exists'.1 hr
    obtain ⟨c, hc⟩ := Option.ne_none_iff_exists'.1 c
    have k := h.2 r c d hr w hc
    rcases Nat.lt_or_ge ((s.reporter.producer + r.reportSize - s.reporter.recorded % r.reportSize) %
      r.reportSize + 1) r.reportSize with q | q
    · unfold State.OnlyReporter
      rw [k.1 q]
    · exact (k.2 q).only

/-- A report handed (R141, R142). -/
theorem State.handWith_hands (s : State) (b : ReportBody) (n : Nat) :
    s.Hands (s.handWith b n) b n := by
  unfold State.Hands State.handWith
  by_cases d : s.device = .halted
  · rw [if_pos d, if_pos d]
  · rw [if_neg d, if_neg d]
    refine ⟨_, fun h => ?_, fun h => ?_, State.testReports_tests _⟩
    · have h' : s.reporter.queue.length < Config.reportQueueCapacity := h
      simp only [State.updReporter, Reporter.accept, if_pos h']
    · have h' : ¬ s.reporter.queue.length < Config.reportQueueCapacity := Nat.not_lt.2 h
      have e : (s.updReporter fun r => r.accept b n) = State.latch
          { s with reporter := { s.reporter with
            dropped := min 255 (s.reporter.dropped + 1)
            write := s.reporter.write.map fun w =>
              { w with droppedSince := min 255 (w.droppedSince + 1) } } } .reportsBlocked := by
        simp only [State.updReporter, Reporter.accept, if_neg h']
        rfl
      rw [e]
      exact State.latch_latches _ _

theorem State.hand_hands (s : State) (b : ReportBody) : s.Hands (s.hand b) b 0 :=
  s.handWith_hands b 0

theorem State.Hands.only {s t : State} {b : ReportBody} {n : Nat} (h : s.Hands t b n) :
    s.OnlyReporter t := by
  unfold State.Hands at h
  split at h
  · rw [h]
    rfl
  · obtain ⟨m, a, c, k⟩ := h
    refine State.OnlyReporter.trans (t := m) ?_ k.only
    rcases Nat.lt_or_ge s.reporter.queue.length 32 with q | q
    · rw [a q]
      rfl
    · have := (c q).1
      unfold State.OnlyReporter
      rw [this]

theorem State.Latches.queue {s t : State} {f : Flag} (h : s.Latches t f) :
    t.reporter.queue = s.reporter.queue := by rw [h.1]

theorem State.TestsReports.queue {s t : State} (h : s.TestsReports t) :
    t.reporter.queue = s.reporter.queue := by
  by_cases n : s.device = .halted ∨ s.regions = none ∨ s.reporter.write ≠ none ∨ s.nextReport = none
  · rw [h.1 n]
  · simp only [not_or, ne_eq, not_not] at n
    obtain ⟨d, hr, w, c⟩ := n
    obtain ⟨r, hr⟩ := Option.ne_none_iff_exists'.1 hr
    obtain ⟨c, hc⟩ := Option.ne_none_iff_exists'.1 c
    have k := h.2 r c d hr w hc
    rcases Nat.lt_or_ge ((s.reporter.producer + r.reportSize - s.reporter.recorded % r.reportSize) %
      r.reportSize + 1) r.reportSize with q | q
    · rw [k.1 q]
    · exact (k.2 q).queue

/-- What a handing does to the report queue. -/
theorem State.Hands.queue {s t : State} {b : ReportBody} {n : Nat} (h : s.Hands t b n) :
    t.reporter.queue =
      if s.device = .halted ∨ 32 ≤ s.reporter.queue.length then s.reporter.queue
      else s.reporter.queue ++ [{ body := b, flush := n }] := by
  unfold State.Hands at h
  by_cases d : s.device = .halted
  · rw [if_pos d] at h
    rw [if_pos (Or.inl d), h]
  · rw [if_neg d] at h
    obtain ⟨m, a, c, k⟩ := h
    rw [k.queue]
    rcases Nat.lt_or_ge s.reporter.queue.length 32 with q | q
    · rw [if_neg (by simp [d, q]), a q]
    · rw [if_pos (Or.inr q), (c q).queue]

/-- A directive rejected (R161). -/
theorem State.reject_rejected (s : State) (kind : Byte) (r : RejectReason) (addrs : List Word) :
    s.RejectedAs (s.reject kind r addrs) kind r addrs :=
  ⟨_, s.hand_hands _, State.latch_latches _ _⟩

/-! ## Due marks -/

/-- A tap's entries made due (R145). -/
theorem State.makeDue_makes (s : State) (u : TapNo) : s.MakesDue (s.makeDue u) u := by
  have iff : (s.tap u).hasUndue = true ↔ ∃ e ∈ (s.tap u).queue, e.due = false := by
    simp [Tap.hasUndue]
  unfold State.makeDue
  refine ⟨fun h => ?_, fun h => ?_⟩
  · simp only [iff.2 h, if_true]
    exact State.testReports_tests _
  · have n : ¬ (s.tap u).hasUndue = true := by
      rw [iff]
      rintro ⟨e, m, k⟩
      rw [h e m] at k
      cases k
    simp only [n]
    rfl

theorem State.foldl_makesAllDue (l : List TapNo) (s : State) :
    State.MakesAllDue (l.foldl State.makeDue s) s l := by
  induction l generalizing s with
  | nil => rfl
  | cons u l ih => exact ⟨_, s.makeDue_makes u, ih _⟩

/-- Every entry of every tap made due (R146). -/
theorem State.makeAllDue_makes (s : State) :
    State.MakesAllDue s.makeAllDue s [0, 1, 2, 3, 4, 5, 6, 7] := State.foldl_makesAllDue _ s

theorem State.MakesDue.onlyTaps {s t : State} {u : TapNo} (h : s.MakesDue t u) : s.OnlyTaps t := by
  by_cases n : ∃ e ∈ (s.tap u).queue, e.due = false
  · exact (s.setTap_onlyTaps u _).trans (h.1 n).only.onlyTaps
  · rw [h.2 fun e m => by simpa using fun k => n ⟨e, m, k⟩]
    exact s.setTap_onlyTaps u _

theorem State.MakesAllDue.onlyTaps {t : State} {l : List TapNo} {s : State}
    (h : State.MakesAllDue t s l) : s.OnlyTaps t := by
  induction l generalizing s with
  | nil =>
    rw [show t = s from h]
    rfl
  | cons u l ih =>
    obtain ⟨v, a, b⟩ := h
    exact a.onlyTaps.trans (ih b)

/-! ## State changes -/

/-- A change of state (R81, R146). -/
theorem State.setTapState_enters (s : State) (u : TapNo) (new : TapState) (r : TapReason) :
    s.Enters (s.setTapState u new r) u new r := by
  unfold State.Enters State.setTapState
  split
  · rfl
  · have d : (s.updTap u fun tp => tp.enter new).updTap u Tap.allDue = s.setTap u { s.tap u with
        state := new
        holdLength := if new = .holding then some 0 else none
        queue := (s.tap u).queue.map (fun e => { e with due := true })
        timer := none } := State.updTap_updTap s u _ _
    unfold State.handTapState
    simp only [d, State.tap_setTap_same, List.length_map]
    exact State.handWith_hands _ _ _

theorem State.Enters.onlyTaps {s t : State} {u : TapNo} {n : TapState} {r : TapReason}
    (h : s.Enters t u n r) : s.OnlyTaps t := by
  unfold State.Enters at h
  split at h
  · rw [h]
    rfl
  · exact State.OnlyTaps.trans (t := State.setTap _ _ _) rfl h.only.onlyTaps

theorem State.holdAfterDiscard_holds (s : State) (u : TapNo) :
    s.HoldsAfterDiscard (s.holdAfterDiscard u) u := by
  unfold State.HoldsAfterDiscard State.holdAfterDiscard
  split
  · exact s.setTapState_enters u _ _
  · rfl

/-! ## Slot entries -/

/-- A changed entry is changed in its own place alone. -/
theorem State.slot_updSlot (s : State) (a b : Word) (f : SlotEntry → SlotEntry)
    (h : ∀ e, (f e).addr = e.addr) :
    (s.updSlot a f).slot b = if b = a then (s.slot a).map f else s.slot b := by
  have key : ∀ l : List SlotEntry, (l.map (changeEntry a f)).find? (fun e => e.addr == b) =
      if b = a then (l.find? (fun e => e.addr == a)).map f
      else l.find? (fun e => e.addr == b) := by
    intro l
    induction l with
    | nil => simp
    | cons x l ih =>
      have ca : (changeEntry a f x).addr = x.addr := by
        unfold changeEntry
        split
        · exact h x
        · rfl
      simp only [List.map_cons, List.find?_cons, ca, ih]
      by_cases e : b = a
      · subst e
        by_cases xb : x.addr = b
        · simp [changeEntry, xb]
        · simp [beq_eq_false_iff_ne.2 xb]
      · by_cases xb : x.addr = b
        · have xa : x.addr ≠ a := fun k => e (xb.symm.trans k)
          simp [changeEntry, e, xb]
        · simp [beq_eq_false_iff_ne.2 xb, e]
  exact key s.supply.table

theorem State.updSlot_changes (s : State) (a : Word) (f : SlotEntry → SlotEntry) :
    s.ChangesSlot (s.updSlot a f) a f := by
  have e : changeEntry a f = fun e : SlotEntry => if e.addr = a then f e else e := by
    funext x
    simp only [changeEntry, beq_iff_eq]
  unfold State.ChangesSlot State.updSlot State.updSupply
  rw [e]

/-- A push (R108, R117). -/
theorem State.push_pushes (s : State) (a : Word) : s.Pushes (s.push a) a := by
  unfold State.push
  simp only
  refine ⟨fun h => ?_, fun h => ?_⟩
  · have h' : s.supply.stack.length < Config.stackCapacity := h
    rw [if_pos h', State.updSupply, Supply.place, if_pos h']
  · have h' : ¬ s.supply.stack.length < Config.stackCapacity := Nat.not_lt.2 h
    rw [if_neg h', State.updSupply, Supply.place, if_neg h']
    exact State.testReports_tests _

theorem State.removeAndPush_pushes (s : State) (a : Word) :
    s.RemovesAndPushes (s.removeAndPush a) a := (s.removeSlot a).push_pushes a

/-- A push request (R116). -/
theorem State.pushRequest_gives (s : State) (a : Word) : s.GivesBack (s.pushRequest a) a := by
  unfold State.pushRequest
  refine ⟨fun h => ?_, fun e h n => ?_⟩
  · split
    · rfl
    · rename_i e m
      rw [if_pos (h e m)]
  · rw [h]
    simp only [n, Bool.false_eq_true, if_false]
    refine ⟨fun z => ?_, fun z => ?_⟩
    · rw [if_pos z]
      exact s.removeAndPush_pushes a
    · rw [if_neg z]
      exact s.updSlot_changes a _

/-- The slots of some frames given back in order. -/
theorem State.pushFrames_gives (frames : List LogicalFrame) (s : State) :
    State.GivesBackAll (s.pushFrames frames) s (frames.filterMap (·.slot)) := by
  induction frames generalizing s with
  | nil => rfl
  | cons l frames ih =>
    unfold State.pushFrames
    rw [List.foldl_cons, List.filterMap_cons]
    cases h : l.slot with
    | none => exact ih s
    | some a => exact ⟨_, s.pushRequest_gives a, ih _⟩

theorem State.GivesBack.onlySupply {s t : State} {a : Word} (h : s.GivesBack t a) :
    s.OnlySupply t := by
  have pushes : ∀ {s t : State}, s.Pushes t a → s.OnlySupply t := by
    intro s t h
    rcases Nat.lt_or_ge s.supply.stack.length 32 with q | q
    · rw [h.1 q]
      rfl
    · exact State.OnlySupply.trans (t := { s with supply := { s.supply with
        table := s.supply.table ++ [returningEntry a] } }) rfl (h.2 q).only.onlySupply
  by_cases n : ∃ e, s.slot a = some e ∧ e.awaitingPush = false
  · obtain ⟨e, m, w⟩ := n
    by_cases z : e.outstanding = 0
    · exact State.OnlySupply.trans (t := s.removeSlot a) rfl (pushes ((h.2 e m w).1 z))
    · rw [show t = _ from (h.2 e m w).2 z]
      rfl
  · rw [h.1 fun e m => by simpa using fun w => n ⟨e, m, w⟩]
    rfl

theorem State.GivesBackAll.onlySupply {t : State} {l : List Word} {s : State}
    (h : State.GivesBackAll t s l) : s.OnlySupply t := by
  induction l generalizing s with
  | nil =>
    rw [show t = s from h]
    rfl
  | cons a l ih =>
    obtain ⟨v, x, y⟩ := h
    exact x.onlySupply.trans (ih y)

/-- What lies outside slot supply and the reporter is left by a push request. -/
theorem State.pushFrames_taps (frames : List LogicalFrame) (s : State) :
    (s.pushFrames frames).taps = s.taps := by
  induction frames generalizing s with
  | nil => rfl
  | cons l frames ih =>
    unfold State.pushFrames
    rw [List.foldl_cons]
    cases h : l.slot with
    | none => exact ih s
    | some a => exact (ih _).trans (s.pushRequest_taps a)

/-! ## Retention, discards and appends -/

theorem State.namedInQueues_false (s : State) (a : Word) :
    s.namedInQueues a = false ↔ ∀ v q, q ∈ (s.tap v).queue → q.slot ≠ some a := by
  have all : ∀ v : TapNo, v ∈ allTaps := by decide
  simp only [State.namedInQueues, List.any_eq_false, QueueEntry.names, Bool.not_eq_true,
    beq_eq_false_iff_ne]
  exact ⟨fun h v q m => h v (all v) q m, fun h v _ q m => h v q m⟩

theorem State.namedInQueues_of_queues {s t : State} (h : ∀ v, (t.tap v).queue = (s.tap v).queue)
    (a : Word) : t.namedInQueues a = s.namedInQueues a := by
  simp only [State.namedInQueues, h]

/-- The end of a retention (R120, R133). -/
theorem State.endRetention_ends (s : State) (u : TapNo) : s.EndsRetention (s.endRetention u) u := by
  refine ⟨fun n => by rw [State.endRetention, n], fun a h => ?_⟩
  obtain ⟨r, hr⟩ : ∃ r, r = (s.setTap u { s.tap u with retained := none, repeatCount := 0 }).updSlot
      a (fun e => { e with retained := false }) := ⟨_, rfl⟩
  refine ⟨r, hr ▸ State.updSlot_changes _ _ _, ?_⟩
  have slot : r.slot a = (s.slot a).map fun e => { e with retained := false } := by
    rw [hr]
    exact (State.slot_updSlot _ a a (fun e => { e with retained := false }) fun _ => rfl).trans
      (if_pos rfl)
  have named : r.namedInQueues a = s.namedInQueues a := by
    refine State.namedInQueues_of_queues (fun v => ?_) a
    rw [hr]
    change ((s.setTap u _).tap v).queue = _
    by_cases e : v = u
    · subst e
      simp
    · rw [State.tap_setTap_other _ _ e]
  have eq : s.endRetention u = match r.slot a with
      | some e =>
        if e.state = .posted ∧ e.posted = 0 ∧ r.namedInQueues a = false then r.pushRequest a else r
      | none => r := by
    rw [hr]
    unfold State.endRetention
    rw [h]
    rfl
  rw [eq, slot, named]
  simp only [← s.namedInQueues_false a]
  cases m : s.slot a with
  | none =>
    refine ⟨fun ⟨_, k, _⟩ => (by cases k), fun _ => rfl⟩
  | some e =>
    simp only [Option.map_some, Option.some.injEq, exists_eq_left']
    refine ⟨fun k => ?_, fun k => ?_⟩
    · rw [if_pos k]
      exact r.pushRequest_gives a
    · rw [if_neg k]

/-- A discard (R94, R98). -/
theorem State.discard_discards (s : State) (u : TapNo) (kind : CompletionKind) (run : Nat) :
    s.Discards (s.discard u kind run) u kind run := by
  cases kind with
  | slot a =>
    refine ⟨s.pushRequest a, fun h => absurd rfl (h a), fun b h => ?_, rfl⟩
    cases h
    exact s.pushRequest_gives a
  | starved => exact ⟨s, fun _ => rfl, fun _ h => (by cases h), rfl⟩
  | abandoned => exact ⟨s, fun _ => rfl, fun _ h => (by cases h), rfl⟩

theorem State.Discards.onlyTaps {s t : State} {u : TapNo} {kind : CompletionKind} {run : Nat}
    (h : s.Discards t u kind run) : s.OnlyTaps t := by
  obtain ⟨v, a, b, rfl⟩ := h
  refine State.OnlyTaps.trans ?_ (v.setTap_onlyTaps u _)
  cases kind with
  | slot x => exact (b x rfl).onlySupply.onlyTaps
  | starved =>
    rw [a fun _ => by simp]
    rfl
  | abandoned =>
    rw [a fun _ => by simp]
    rfl

theorem State.EndsRetention.onlyTaps {s t : State} {u : TapNo} (h : s.EndsRetention t u) :
    s.OnlyTaps t := by
  cases k : (s.tap u).retained with
  | none =>
    rw [h.1 k]
    rfl
  | some a =>
    obtain ⟨v, x, y⟩ := h.2 a k
    have v' : s.OnlyTaps v := by
      rw [show v = _ from x]
      rfl
    by_cases free : ∃ e, s.slot a = some e ∧ e.state = .posted ∧ e.posted = 0 ∧
        ∀ w q, q ∈ (s.tap w).queue → q.slot ≠ some a
    · exact v'.trans (y.1 free).onlySupply.onlyTaps
    · rw [y.2 free]
      exact v'

/-- Completions discarded one after another. -/
theorem State.foldl_discardsAll (u : TapNo) (cs : List Completion) (s : State) :
    State.DiscardsAll u (cs.foldl (fun s c => s.discard u c.kind c.run) s) s cs := by
  induction cs generalizing s with
  | nil => rfl
  | cons c cs ih => exact ⟨_, s.discard_discards u c.kind c.run, ih _⟩

/-- An append (R94). -/
theorem State.append_appends (s : State) (u : TapNo) (c : Completion) :
    s.Appends (s.append u c) u c := by
  refine ⟨fun h up d => ?_, fun h => ?_⟩
  · unfold State.append
    rw [if_pos (show _ < Config.settlingCapacity from h)]
    have up' : s.nResetLow = false := up
    show State.whileUp (s.setTap u _) _ = _
    unfold State.whileUp
    rw [State.setTap_fields s u _ |>.1, up', (State.setTap_fields s u _).2.2.1, if_neg d]
    rfl
  · refine ⟨_, s.discard_discards u c.kind c.run, ?_⟩
    unfold State.append
    rw [if_neg (by simp only [Config.settlingCapacity]; omega)]
    exact State.holdAfterDiscard_holds _ u

/-! ## Completion, instance end and abandonment -/

/-- A logical frame completed at an instance end (R92). -/
theorem State.completeFrame_early (s : State) (u : TapNo) (l : LogicalFrame) :
    s.CompletesEarly (s.completeFrame u SlotEntry.notArrived l) u l := by
  unfold State.completeFrame
  cases h : l.slot with
  | none =>
    refine ⟨s, rfl, fun a x m => ⟨x, m, fun _ => rfl, fun k => ?_⟩, ?_⟩
    · rw [h] at k
      cases k
    · simp only [h]
      exact s.append_appends u _
  | some a =>
    refine ⟨s.updSlot a (SlotEntry.finish SlotEntry.notArrived), rfl, fun b x m => ?_, ?_⟩
    · have sl := s.slot_updSlot a b (SlotEntry.finish SlotEntry.notArrived)
        fun e => (SlotEntry.finish_place _ e).1
      by_cases e : b = a
      · subst e
        rw [if_pos rfl, m] at sl
        refine ⟨_, sl, fun k => ?_, fun _ k => ?_⟩
        · simp only [h, true_and] at k
          simp [SlotEntry.finish, k]
        · simp only [SlotEntry.finish, k, if_pos, SlotEntry.notArrived, true_and]
          intro c
          have len : hasClass x.depth.classes c = Decidable.decide (c < x.depth.frames) := by
            by_cases k : c < 10
            · cases x.depth <;> interval_cases c <;> rfl
            · have : ¬ c < x.depth.frames := by
                cases x.depth <;> simp only [Depth.frames] <;> omega
              rw [decide_eq_false this]
              exact BitVec.getLsbD_of_ge _ _ (by omega)
          simp only [hasClass, BitVec.getLsbD_or, BitVec.getLsbD_and, BitVec.getLsbD_not] at len ⊢
          rw [len]
          by_cases k : c < 10
          · simp [k]
          · have : ¬ c < x.depth.frames := by
              cases x.depth <;> simp only [Depth.frames] <;> omega
            simp [this]
      · rw [if_neg e] at sl
        refine ⟨x, sl.trans m, fun _ => rfl, fun k => ?_⟩
        rw [h] at k
        exact absurd (Option.some.inj k).symm e
    · simp only [h]
      exact State.append_appends _ u _

theorem State.foldl_completeEarly (u : TapNo) (frames : List LogicalFrame) (s : State) :
    State.CompleteEarly u (frames.foldl (fun s l => s.completeFrame u SlotEntry.notArrived l) s) s
      frames := by
  induction frames generalizing s with
  | nil => rfl
  | cons l frames ih => exact ⟨_, s.completeFrame_early u l, ih _⟩

/-- An instance end (R92). -/
theorem State.instanceEnd_ends (s : State) (u : TapNo) : s.EndsInstance (s.instanceEnd u) u :=
  ⟨_, State.endRetention_ends _ u, State.foldl_completeEarly u _ _⟩

theorem State.unbind_unbinds (s : State) (u : TapNo) (new : TapState) (r : TapReason) :
    s.Unbinds (s.unbind u new r) u new r := State.setTapState_enters _ u new r

theorem State.beginInstance_begins (s : State) (u : TapNo) (f : FrameNo) (e : MapEntry)
    (r : TapReason) : s.Begins (s.beginInstance u f e r) u f e r :=
  State.setTapState_enters _ u _ r

/-- An abandonment (R93). -/
theorem State.abandon_abandons (s : State) (u : TapNo) : s.Abandons (s.abandon u) u := by
  unfold State.Abandons State.abandon
  cases h : (s.tap u).openFrames with
  | nil =>
    have e : { s.tap u with openFrames := [] } = s.tap u := by
      rw [← h]
    simp only [State.pushFrames, List.foldl_nil, State.updTap, e]
    simp only [State.setTap, State.tap, Fin.getElem_fin, Vector.set_getElem_self]
  | cons l frames =>
    simp only
    have p := State.pushFrames_gives (l :: frames)
      (s.updTap u fun tp => { tp with openFrames := [] })
    refine ⟨_, p, ?_⟩
    have n : (State.pushFrames (s.updTap u fun tp => { tp with openFrames := [] })
        (l :: frames)).tap u = { s.tap u with openFrames := [] } := by
      rw [State.tap_of_taps (State.pushFrames_taps _ _)]
      simp
    rw [n]
    exact State.append_appends _ u _

/-! ## The completion queue -/

theorem State.tapStateWaiting_iff (s : State) (u : TapNo) :
    s.tapStateWaiting u = true ↔ ∃ r from' to' reason stream, r ∈ s.reporter.queue ∧
      r.body = .tapState u from' to' reason stream := by
  simp only [State.tapStateWaiting, List.any_eq_true]
  constructor
  · rintro ⟨r, m, h⟩
    unfold QueuedReport.isTapState at h
    split at h
    · rename_i v a b c d e
      obtain rfl : v = u := of_decide_eq_true h
      exact ⟨r, a, b, c, d, m, e⟩
    · cases h
  · rintro ⟨r, a, b, c, d, m, e⟩
    exact ⟨r, m, by simp [QueuedReport.isTapState, e]⟩

/-- A tap counter raised (R104). -/
theorem TapCounters.count_raised (c : TapCounters) (o : FrameOutcome) (run : Nat) :
    c.count o run = c.raised o run := by cases o <;> rfl

/-- A completion queued (R95, R145). -/
theorem State.enqueue_enqueues (s : State) (u : TapNo) (e : QueueEntry) :
    s.Enqueues (s.enqueue u e) u e := by
  have due : s.dueAtOnce u = true ↔ (s.reporter.interval = 0 ∨ s.device = .stopped ∨
      s.device = .acquiring ∨ ∃ r from' to' reason stream, r ∈ s.reporter.queue ∧
        r.body = .tapState u from' to' reason stream) := by
    simp only [State.dueAtOnce, Bool.or_eq_true, beq_iff_eq, State.tapStateWaiting_iff, or_assoc]
  unfold State.Enqueues State.enqueue
  simp only [TapCounters.count_raised]
  rw [← due]
  refine ⟨fun h => ?_, fun h n => ?_, fun h n => ?_⟩
  · simp only [h, Bool.true_or, if_true, State.updTap, Tap.enqueue]
    exact State.testReports_tests _
  · have l : ¬ 6 ≤ (((s.tap u).queue ++ [{ e with due := false }]).filter
        (fun q : QueueEntry => !q.due)).length := by
      simp only [List.filter_append, List.length_append]
      simp
      omega
    simp only [Bool.not_eq_true] at h
    simp only [h, Bool.false_or, State.updTap, Tap.enqueue, Bool.false_eq_true, if_false, if_neg l,
      State.tap_setTap_same, Tap.hasUndue]
    rw [if_neg (by simp)]
  · have l : 6 ≤ (((s.tap u).queue ++ [{ e with due := false }]).filter
        (fun q : QueueEntry => !q.due)).length := by
      simp only [List.filter_append, List.length_append]
      simp
      omega
    simp only [Bool.not_eq_true] at h
    have q : ((s.tap u).queue ++ [{ e with due := false }]).map
        (fun q : QueueEntry => { q with due := true }) =
        ((s.tap u).queue ++ [e]).map (fun q => { q with due := true }) := by
      simp
    simp only [h, Bool.false_or, State.updTap, Tap.enqueue, Bool.false_eq_true, if_false, if_pos l,
      State.tap_setTap_same, Tap.hasUndue, Tap.allDue, q]
    rw [if_pos (by simp)]
    exact State.testReports_tests _

/-! ## Refill -/

/-- The test of R109 with no refill in flight. -/
theorem State.testRefill_tested (s : State) (r : Regions) (h : s.regions = some r)
    (n : s.supply.refill = none) : s.testRefill.RefillTested r := by
  have f : s.freeAvailable r =
      (s.supply.recorded + r.freeSize - s.supply.consumer % r.freeSize) % r.freeSize := rfl
  unfold State.testRefill
  rw [h]
  simp only [n]
  split
  · rename_i k
    exact ⟨fun _ => rfl, fun q => absurd ⟨k.1, k.2.1, k.2.2.1, k.2.2.2.2⟩ q⟩
  · rename_i k
    exact ⟨fun q => absurd ⟨q.1, q.2.1, q.2.2.1, True.intro, q.2.2.2⟩ k, fun _ => n⟩

/-- The test of R109 changes the refill alone, and none in flight. -/
theorem State.testRefill_only (s : State) :
    s.testRefill = { s with supply := { s.supply with refill := s.testRefill.supply.refill } } ∧
    ∀ f, s.supply.refill = some f → s.testRefill = s := by
  unfold State.testRefill
  split
  · exact ⟨rfl, fun _ _ => rfl⟩
  · split
    · rename_i k
      exact ⟨rfl, fun f h => absurd k.2.2.2.1 (by simp [h])⟩
    · exact ⟨rfl, fun _ _ => rfl⟩

/-! ## Pieces -/

theorem sameArea_joins (k : BurstKind) (p q : BeatPlan) : sameArea k p q = true ↔ p.Joins k q := by
  have next : nextAddr k p = if k = .fixed ∧ p.handling = .forwarded then p.addr else p.addr + 4 := by
    unfold nextAddr pieceKind
    cases k <;> cases p.handling <;> rfl
  unfold sameArea BeatPlan.Joins
  simp only [Bool.and_eq_true, Bool.or_eq_true, beq_iff_eq, next, and_assoc, ← or_iff_not_imp_left]
  rw [eq_comm (a := p.area), eq_comm (a := p.handling), eq_comm (a := p.stream),
    eq_comm (a := p.tapped)]

/-- A beat that only passes is planned at its own address and changes nothing (R20). -/
theorem State.writeBeat_passes (s : State) (a : Word) (b : WriteBeat) (p : s.PassesBeat a b) :
    s.writeBeat a b = (s, BeatPlan.forward (s.areaOf a) a) := by
  simp only [State.writeBeat]
  split
  · rename_i e
    unfold State.headerBeat
    split
    · rename_i k
      simp only [allStrobes, Bool.and_eq_true, beq_iff_eq] at k
      have := p.header e k.1 k.2
      rw [if_neg this.1, if_neg this.2, e]
    · rw [e]
  · rename_i e
    unfold State.layoutBeat
    split
    · rename_i o k
      rcases p.layout e with q | q
      · rw [q] at k
        cases k
      · rw [if_neg, e]
        simpa [allStrobes] using q
    · rw [e]
  · rename_i e
    exact absurd e p.cells
  · rfl

theorem Depth.lag_lt (d : Depth) (c : Nat) : d.lag c < 4096 := by
  cases d <;> simp [Depth.lag] <;> omega

/-- Steps 4 to 9 of R23. -/
theorem State.wordPlan_resolves (s : State) (f : FrameNo) (k j : Nat) (h : Handling) (a : Word) :
    (s.wordPlan f k j h a).ResolvesWord s f k j h a := by
  have back : ∀ (d : Depth) (c : Nat), (f - d.logicalFrame f c).toNat = d.lag c := by
    intro d c
    have e : f - d.logicalFrame f c = BitVec.ofNat 12 (d.lag c) := by
      unfold Depth.logicalFrame
      generalize BitVec.ofNat 12 (d.lag c) = z
      apply BitVec.eq_of_toNat_eq
      simp only [BitVec.toNat_sub]
      omega
    rw [e, BitVec.toNat_ofNat, Nat.mod_eq_of_lt (d.lag_lt c)]
  unfold State.wordPlan
  refine ⟨fun x => ?_, fun i m x y => ?_, fun i m u n x y => ?_, fun i m u n sl x y => ?_⟩
  · rw [x]
  · rw [x]
    simp only [y]
  · intro c g z
    rw [x]
    simp only [y, back]
    change (if n.restart = true then _ else if n.age < n.depth.lag c then _ else
      match (s.tap u).slotFor g with | some _ => _ | none => _) = _
    by_cases r : n.restart = true
    · rw [if_pos r]
      rfl
    · rw [if_neg r]
      by_cases q : n.age < n.depth.lag c
      · rw [if_pos q]
        rfl
      · rw [if_neg q, (z.resolve_left r).resolve_left q]
        rfl
  · intro w c g r q z
    rw [x]
    simp only [y, back, r]
    change (if n.age < n.depth.lag c then _ else
      match (s.tap u).slotFor g with | some _ => _ | none => _) = _
    rw [if_neg (Nat.not_lt.2 q), z]
    rfl

/-- The cutting of a transaction's beats (R21). -/
theorem cutBeats_cut (k : BurstKind) (l : List PlannedBeat) : CutInto k l (cutBeats k l) := by
  refine ⟨cutBeats_flatten k l, cutBeats_nonempty k l, ?_, ?_⟩
  · induction l with
    | nil => simp [cutBeats]
    | cons b l ih =>
      unfold cutBeats
      split
      · rename_i c g gs h
        rw [h] at ih
        split
        · rename_i j
          intro x m
          rcases List.mem_cons.1 m with rfl | m
          · exact .cons_cons ((sameArea_joins _ _ _).1 j) (ih _ (by simp))
          · exact ih x (by simp [m])
        · intro x m
          rcases List.mem_cons.1 m with rfl | m
          · exact .singleton _
          · exact ih x m
      · intro x m
        rcases List.mem_cons.1 m with rfl | m
        · exact .singleton _
        · exact ih x m
  · induction l with
    | nil => simp [cutBeats]
    | cons b l ih =>
      have ne := cutBeats_nonempty k l
      unfold cutBeats
      split
      · rename_i c g gs h
        rw [h] at ih
        split
        · cases gs with
          | nil => exact .singleton _
          | cons x gs =>
            cases ih with
            | cons_cons p q =>
              refine .cons_cons (fun y z hy hz => p y z ?_ hz) q
              simpa using hy
        · rename_i j
          refine .cons_cons (fun y z hy hz => ?_) ih
          simp only [List.getLast?_singleton, Option.some.injEq, List.head?_cons] at hy hz
          subst hy hz
          exact fun q => j ((sameArea_joins _ _ _).2 q)
      · rename_i h
        cases e : cutBeats k l with
        | nil => exact .singleton _
        | cons x gs =>
          cases x with
          | nil => exact absurd rfl (ne [] (by simp [e]))
          | cons c g => exact absurd e (h c g gs)

/-! ## Written entries -/

/-- One entry of a FRAMES report written: it leaves the front of its tap's queue, lowers the flush
counts that counted it, and posts the slot it names (R145, R147). -/
theorem State.entryWritten_writes (u : TapNo) (s : State) (e : QueueEntry) :
    let t := State.entryWritten u s e
    let lowered :=
      s.reporter.queue.map (QueuedReport.lower u (leavesRemainder e (s.tap u).queue))
    t = { s with
      taps := (s.setTap u { s.tap u with queue := dropWritten e (s.tap u).queue }).taps
      supply := { s.supply with table := t.supply.table }
      reporter := { s.reporter with queue := lowered } } ∧
    ∀ a, t.slot a = if e.slot = some a then (s.slot a).map SlotEntry.post else s.slot a := by
  simp only [State.entryWritten, State.postSlot]
  cases e.slot with
  | none => exact ⟨rfl, fun a => rfl⟩
  | some b =>
    refine ⟨rfl, fun a => ?_⟩
    simp only [Option.some.injEq]
    rw [State.slot_updSlot _ b a SlotEntry.post fun _ => rfl]
    by_cases h : a = b
    · subst h
      rw [if_pos rfl, if_pos rfl]
      rfl
    · rw [if_neg h, if_neg fun k => h k.symm]
      rfl

/-! ## Frame reception -/

theorem State.closeFrame_closes (s : State) : s.ClosesFrame s.closeFrame := by
  unfold State.closeFrame
  refine ⟨fun h => by rw [h], fun o h => by rw [h]; rfl⟩

/-- The four bursts of a status block write (R16, R32, R171). -/
theorem statusBursts_writes (page : Word) (bytes : List Byte) :
    WritesStatus page bytes (statusBursts page bytes) := by
  refine ⟨by simp [statusBursts], fun i h => ?_⟩
  simp only [statusBursts, List.getElem_map, List.getElem_range]
  rfl

theorem State.requestStatus_once (s : State) (h : s.device ≠ .halted) :
    s.directive.RequestedOnce s.requestStatus := by
  unfold DirectiveUnit.RequestedOnce State.requestStatus State.testStatus
  by_cases e : s.directive.statusEnable = false
  · simp [e]
  · have e' : s.directive.statusEnable = true := by simpa using e
    by_cases w : s.directive.status = none
    · simp only [h, e', w, or_self, if_false, if_true, reduceCtorEq, State.updDirective_directive,
        State.updDirective_fields, ne_eq, not_false_eq_true, and_self]
      exact ⟨_, statusBursts_writes _ _, rfl⟩
    · simp [h, e', w]

theorem State.changeDevice_changes (s : State) (d : DeviceState) (h : d ≠ .halted) :
    s.ChangesDevice (s.changeDevice d) d := by
  unfold State.ChangesDevice State.changeDevice
  by_cases e : s.device = d
  · rw [if_pos e]
    exact ⟨by rw [← e], fun _ => rfl, fun k => absurd e k⟩
  · rw [if_neg e]
    have o := State.requestStatus_only (s.setDevice d)
    unfold State.OnlyDirective at o
    refine ⟨?_, fun k => absurd k e, fun _ => State.requestStatus_once (s.setDevice d) h⟩
    rw [o]
    rfl

/-- An accepted frame open (R38). -/
theorem State.acceptOpen_accepts (s : State) (f : FrameNo) (q : BitVec 2) (first : Bool)
    (resumed : Option Nat) : s.Accepts (s.acceptOpen f q first resumed) f q first resumed := by
  have c := State.changeDevice_changes (s.closeFrame.updReception fun r => r.accept f q) .running
    (by simp)
  have e : (s.closeFrame.updReception fun r => r.accept f q) = { s.closeFrame with
      reception := { s.closeFrame.reception with
        openFrame := some { num := f, quality := q, cursor := 0 }
        current := f
        expected := some (f + 1)
        coast := 0
        sealLate := false
        gapTimer := some s.closeFrame.reception.gapLimit
        received := s.closeFrame.reception.received + 1
        lost := s.closeFrame.reception.lost + (if q = 0 then 1 else 0) } } := by
    unfold State.updReception Reception.accept
    split <;> simp
  rw [e] at c
  unfold State.acceptOpen
  rw [e]
  cases resumed with
  | none =>
    refine ⟨_, _, _, s.closeFrame_closes, c, fun _ => rfl, ?_, rfl⟩
    intro n k
    cases k
  | some n =>
    refine ⟨_, _, _, s.closeFrame_closes, c, ?_, ?_, rfl⟩
    · intro k
      cases k
    intro m k
    obtain rfl : n = m := Option.some.inj k
    exact State.hand_hands _ _

theorem State.missFrames_misses (d : Nat) (s : State) (e : FrameNo) :
    State.Misses (s.missFrames d e) d s e := by
  induction d generalizing s e with
  | zero => rfl
  | succ d ih => exact ih _ _

/-- A jump (R37). -/
theorem State.jump_jumps (s : State) (e : FrameNo) (d : Nat) (f : FrameNo) (q : BitVec 2) :
    s.Jumps (s.jump e d f q) e d f q := by
  unfold State.jump
  simp only
  by_cases h : s.device = .coasting
  · rw [if_pos h]
    exact ⟨_, _, _, s.closeFrame_closes, State.missFrames_misses d _ e, fun k => absurd h k,
      fun _ => State.hand_hands _ _, State.acceptOpen_accepts _ f q _ _⟩
  · rw [if_neg h]
    exact ⟨_, _, _, s.closeFrame_closes, State.missFrames_misses d _ e, fun _ => rfl,
      fun k => absurd k h, State.acceptOpen_accepts _ f q _ _⟩

/-- A resync (R50). -/
theorem State.resync_resyncs (s : State) : s.Resyncs s.resync := by
  obtain ⟨v, hv⟩ : ∃ v, v = s.closeFrame.handReception .resync s.closeFrame.reception.coast :=
    ⟨_, rfl⟩
  have h := State.hand_hands s.closeFrame (.reception .resync s.closeFrame.reception.coast)
  obtain ⟨x, hx⟩ : ∃ x, x = ([0, 1, 2, 3, 4, 5, 6, 7] : List TapNo).foldl State.tapResync v :=
    ⟨_, rfl⟩
  have c := State.changeDevice_changes (x.makeAllDue.updReception fun r =>
    { r with expected := none, coast := 0, gapTimer := none }) .acquiring (by simp)
  have eq : s.resync = (x.makeAllDue.updReception fun r =>
      { r with expected := none, coast := 0, gapTimer := none }).changeDevice .acquiring := by
    rw [hx, hv, ← State.eachTap_foldl]
    rfl
  refine ⟨s.closeFrame, v, x.makeAllDue, s.closeFrame_closes, hv ▸ h, ?_, eq ▸ c⟩
  rw [← hx]
  exact x.makeAllDue_makes

end Sys2Proof.Machine
end

