-- ==== Sys2Proof/Tests/Slice0.lean ====
section
/-! SUPPORT. Tests: ill-formed commands refused, words of the manual's examples, single commands on
small states, and for every statement with hypotheses a state and operands that meet them. -/

namespace Sys2Proof.Tests

open Sys2Proof Sys2Proof.Machine

set_option Elab.async false

/-! ## Well-formedness -/

theorem test_wf_misaligned_write : (Instr.upstreamWriteAccept 0 2 .incr [⟨0, 15⟩]).wf = false := by
  decide
theorem test_wf_empty_write : (Instr.upstreamWriteAccept 0 4 .incr []).wf = false := by decide
theorem test_wf_long_write :
    (Instr.upstreamWriteAccept 0 4 .incr (List.replicate 17 ⟨0, 15⟩)).wf = false := by decide
theorem test_wf_misaligned_read : (Instr.upstreamReadAccept 0 1 .incr 4).wf = false := by decide
theorem test_wf_empty_read : (Instr.upstreamReadAccept 0 4 .fixed 0).wf = false := by decide
theorem test_wf_long_read : (Instr.upstreamReadAccept 0 4 .fixed 17).wf = false := by decide
theorem test_wf_long_data :
    (Instr.forwardedPieceResponse 0 .ok (List.replicate 17 0)).wf = false := by decide
theorem test_wf_short_record :
    (Instr.directiveFetchComplete (List.replicate 63 0)).wf = false := by decide
theorem test_wf_empty_refill : (Instr.refillComplete []).wf = false := by decide
theorem test_wf_long_refill : (Instr.refillComplete (List.replicate 9 0)).wf = false := by decide
theorem test_wf_long_error_data :
    (Instr.ownAccessError .fetch (List.replicate 17 0)).wf = false := by decide
theorem test_wf_short_release : (Instr.release 2 [0]).wf = false := by decide
theorem test_wf_release_count_13 : (Instr.release 13 []).wf = true := by decide
theorem test_wf_full_write :
    (Instr.upstreamWriteAccept 0 4 .incr (List.replicate 16 ⟨0, 15⟩)).wf = true := by decide
theorem test_no_row_has_bits : decodeTableWord 32 0 = none := rfl

/-! ## Words of the manual's examples -/

/-- R160: the check value of 63 zero bytes is that of a register stepped 504 times from 0xFF. -/
theorem test_crc8_of_nothing : crc8 [] = 0xFF := by decide

/-- R12: the CRC-16 with 0x1021 from 0xFFFF of the digits 1 to 9 is 0x29B1. -/
theorem test_crc16_digits :
    crc16 [0x31, 0x32, 0x33, 0x34, 0x35, 0x36, 0x37, 0x38, 0x39] = 0x29B1 := by decide +kernel

/-- R9: the lags of depths 5 and 10. -/
theorem test_lags : (List.range 5).map Depth.d5.lag = [0, 3, 1, 4, 2] ∧
    (List.range 10).map Depth.d10.lag = [0, 7, 4, 1, 8, 5, 2, 9, 6, 3] := by decide

/-- R5 and R6: cell 102, word 7 is LINEAR offset 4316. -/
theorem test_linear_offset : linearOffset 102 7 = 4316 := by decide

/-! ## Small states -/

def regions : Regions :=
  { landingBase := 0x20000000, reportBase := 0x20010000, reportSize := 16, freeBase := 0x20020000,
    freeSize := 32 }

def configured : State :=
  { State.reset with
    regions := some regions
    reception := { Reception.reset with mode := .linear } }

def acquiring : State := { configured with device := .acquiring }

def halted : State := { configured with device := .halted }

/-- RUNNING with frame 5 open. -/
def running : State :=
  { configured with
    device := .running
    reception := { configured.reception with
      openFrame := some { num := 5, quality := 3, cursor := 0 }
      current := 5, expected := some 6, gapTimer := some 48 } }

/-- STREAMED, frame 5 open, with the cursor given. -/
def streamed (cursor : Nat) : State :=
  { running with reception := { running.reception with
    mode := .streamed, openFrame := some { num := 5, quality := 3, cursor := cursor } } }

def slotA : Word := 0x30000000

def entryA : SlotEntry :=
  { addr := slotA, owner := 2, frame := 5, depth := .d1, count := 1, state := .opened, arrived := 0,
    erased := 0, silenced := false, posted := 0, retained := false, outstanding := 0,
    awaitingPush := false }

def instA : TapInstance :=
  { start := 5, depth := .d1, startCell := 0, count := 1, age := 0, restart := false, number := 1,
    ended := false, fresh := false }

/-- Tap 2 RUNNING on stream 9 at cell 0, depth 1, with slot A for the open frame 5. -/
def tapped : State :=
  let s : State := { running with supply := { Supply.reset with table := [entryA] } }
  let s := s.setEntries (setEntry MapEntries.absent 9 (some ⟨0, 1, .d1, true⟩))
  let s := s.updLayout fun l => { l with cur := { l.cur with state := .verified, version := some 0 } }
  s.updTap 2 fun tp => { tp with
    state := .running, stream := some 9, inst := some instA, lastNumber := 1
    openFrames := [{ frame := 5, slot := some slotA }] }

/-- Stream 9's instance changed. -/
def tappedWith (f : TapInstance → TapInstance) : State :=
  tapped.updTap 2 fun tp => { tp with inst := some (f instA) }

/-- The slot table holds one entry. -/
def holding (s : State) (e : SlotEntry) : State :=
  { s with supply := { s.supply with table := [e] } }

def piece : Piece :=
  { txn := 0, tag := 1, write := true, addr := 0x1000, kind := .incr, len := 1, first := 0,
    beats := [⟨7, 15⟩], redirect := none, snoop := none }

def txn : Txn :=
  { id := 0, tag := 1, write := true, len := 1, unanswered := 1, err := false, data := [],
    activeAtAccept := true }

/-- One piece in flight for the one outstanding transaction. -/
def flying (s : State) (p : Piece) (x : Txn) : State :=
  { s with link := { s.link with txns := [x], serial := 1, inFlight := [.piece p] } }

def fetchA : OwnBurst := ownRead .fetch 0x3FFFF800 16

/-- A fetch of the record at position 0 in flight. -/
def fetching (s : State) : State :=
  { s with
    link := { s.link with inFlight := [.own fetchA .live] }
    directive := { s.directive with batch := .inProgress, fetch := some [], recorded := 1 } }

/-- A record of a kind byte and parameters from byte 1 on, with its check value (R160). -/
def record (bytes : List Byte) : List Byte :=
  let body := padTo 63 bytes
  body ++ [crc8 body]

def ownBurst (k : OwnKind) : OwnBurst := ownRead k 0x1000 2

/-- One own burst of a kind and fate in flight. -/
def owning (s : State) (k : OwnKind) (l : Life) : State :=
  { s with link := { s.link with inFlight := [.own (ownBurst k) l] } }

def refillA : Refill := { firstIndex := 0, issuedEntries := 2, waiting := [], data := [] }

/-- A refill of two entries issued. -/
def refilling (s : State) : State :=
  { owning s .refill .live with supply := { s.supply with refill := some refillA, recorded := 2 } }

/-- A report write of content c issued. -/
def reporting (s : State) (c : ReportContent) : State :=
  { owning s .report .live with
    reporter := { s.reporter with
      write := some { content := c, record := [], waiting := [], droppedSince := 0 } } }

def queueA : QueueEntry :=
  { frame := 4, slot := some slotA, outcome := .clean, erased := 0, run := 1, number := 1,
    due := false }

def starvedRun (run : Nat) : QueueEntry :=
  { frame := 5, slot := none, outcome := .starved, erased := 0, run := run, number := 1,
    due := true }

/-- Tap 2's queue holds one entry, due or not, its timer running. -/
def queued (s : State) (due : Bool) : State :=
  s.updTap 2 fun tp => { tp with queue := [{ queueA with due := due }], timer := some 4 }

def supplyReport : QueuedReport := { body := .supply [0], flush := 0 }

/-- A handed report waits. -/
def waitingReport (s : State) : State :=
  { s with reporter := { s.reporter with queue := [supplyReport] } }

/-- One settling completion of tap 2 naming slot A, its entry COMPLETE with the classes erased. -/
def settling (s : State) (erased : ClassSet) (state : TapState) (policy : Policy) : State :=
  let s := holding s { entryA with state := .complete, depth := .d5, erased := erased }
  s.updTap 2 fun tp => { tp with
    state := state, stream := some 9, inst := some instA, openFrames := []
    params := { tp.params with policy := policy, tolerance := 1 }
    settling := [{ frame := 5, kind := .slot slotA, run := 1, number := 1 }] }

/-- The field of a next state; none where there is none. -/
def after {α : Type} (o : Host.Outcome State Fault Refusal) (f : State → α) : Option α :=
  match o with
  | .next t => some (f t)
  | _ => none

theorem next_of_after {o : Host.Outcome State Fault Refusal} (h : after o (fun _ => ()) = some ()) :
    ∃ t, o = .next t := by
  cases o with
  | next t => exact ⟨t, rfl⟩
  | fault r => cases h
  | refused r => cases h

/-! ## One command on a small state -/

theorem test_write_redirected : after (exec (.upstreamWriteAccept 1 0x20000408 .incr [⟨7, 15⟩]) tapped)
    (fun t => t.link.queue.map (fun p => (p.addr, p.redirect, p.beats))) =
      some [(0x30000008, some (slotA, 0), [⟨7, 15⟩])] := by decide +kernel

theorem test_write_untapped_forwarded :
    after (exec (.upstreamWriteAccept 1 0x20000420 .incr [⟨7, 15⟩]) tapped)
      (fun t => t.link.queue.map (fun p => (p.addr, p.redirect))) = some [(0x20000420, none)] := by
  decide +kernel

/-- R21 rules 4 and 5, R99: with no frame open a LINEAR burst over two streams is two pieces. -/
theorem test_late_write_cut_at_streams :
    after (exec (.upstreamWriteAccept 1 0x2000041C .incr [⟨7, 15⟩, ⟨8, 15⟩])
      { tapped with reception := { tapped.reception with openFrame := none } })
      (fun t => t.link.queue.map (fun p => (p.addr, p.len, p.redirect))) =
        some [(0x2000041C, 1, none), (0x20000420, 1, none)] := by decide +kernel

theorem test_read_split_at_index_words :
    after (exec (.upstreamReadAccept 1 0x3FFFF000 .incr 4) configured)
      (fun t => t.link.queue.map (fun p => (p.addr, p.len))) =
        some [(0x3FFFF000, 1), (0x3FFFF004, 1), (0x3FFFF008, 1), (0x3FFFF00C, 1)] := by
  decide +kernel

theorem test_response_delivered :
    after (exec .upstreamResponseDelivery
      { running with link := { Link.reset with
        txns := [{ txn with unanswered := 0, err := true }], ready := [0] } })
      (fun t => (t.link.delivered.map (·.resp), t.link.txns)) = some (some .error, []) := by
  decide +kernel

theorem test_grant_forwarded_first :
    after (exec .arbiterGrant
      { (fetching running) with link := { Link.reset with queue := [piece] } })
      (fun t => (t.link.inFlight, t.link.lastGrant)) = some ([.piece piece], .forwarded) := by
  decide +kernel

theorem test_piece_error : after (exec (.forwardedPieceResponse 1 .error []) (flying running piece txn))
    (fun t => t.link.txns.map (fun x => (x.unanswered, x.err))) = some [(0, true)] := by
  decide +kernel

theorem test_index_begins_batch : after (exec (.directiveIndexTaken 33) configured)
    (fun t => (t.directive.recorded, t.directive.batch,
      t.directive.fetch.map (fun l => l.map (·.addr)))) =
      some (1, .inProgress, some [0x3FFFF800]) := by decide +kernel

theorem test_report_index_modulo : after (exec (.reportIndexTaken 17) configured)
    (fun t => (t.reporter.recorded, t.reporter.nReportLow)) = some (1, true) := by decide +kernel

theorem test_free_index_starts_refill : after (exec (.freeIndexTaken 2) configured)
    (fun t => t.supply.refill.map (fun f => f.waiting.map (fun b => (b.addr, b.len)))) =
      some (some [(0x20020000, 2)]) := by decide +kernel

theorem test_fetched_stop_advances :
    after (exec (.directiveFetchComplete (record [0x13])) (fetching configured))
      (fun t => (t.directive.consumer, t.directive.batch, t.directive.sequence)) =
        some (1, .idle, 1) := by decide +kernel

theorem test_fetched_bad_check :
    after (exec (.directiveFetchComplete (List.replicate 64 0)) (fetching configured))
      (fun t => t.reporter.flagSet .directiveRejected) = some true := by decide +kernel

theorem test_refill_skips_zero : after (exec (.refillComplete [0, 0x30001000]) (refilling configured))
    (fun t => (t.supply.stack, t.supply.consumer, t.reporter.flagSet .badSlot)) =
      some ([0x30001000], 2, true) := by decide +kernel

/-- R16, R110: a refill of two bursts ends at the answer to the second. -/
theorem test_refill_of_two_bursts :
    let s := refilling configured
    let two : State := { s with link := { s.link with
      inFlight := [.own (ownBurst .refill) .live, .own (ownBurst .refill) .live] } }
    let first := after (exec (.refillComplete [0x30000000, 0x30001000]) two) id
    (first.map (fun t => (t.supply.stack, t.supply.consumer)), first.bind fun t =>
      after (exec (.refillComplete [0x30002000, 0x30003000]) t)
        (fun t => (t.supply.stack.length, t.supply.consumer, t.supply.refill))) =
      (some ([], 0), some (4, 4, none)) := by decide +kernel

theorem test_prepare_waiting_report : after (exec .reportPrepare (waitingReport configured))
    (fun t => t.reporter.write.map (·.content)) = some (some (.queued (.supply [0]))) := by
  decide +kernel

/-- A handed report is prepared at once when none is in flight (R142). -/
theorem test_rejection_prepared : after (exec .forceResync configured)
    (fun t => (t.reporter.write.map (·.content), t.reporter.queue.length)) =
    some (some (.queued (.directive 0 0x40 .wrongState [])), 1) := by decide +kernel

theorem test_written_report_advances :
    after (exec .reportWriteComplete (reporting (waitingReport configured) (.queued (.supply [0]))))
      (fun t => (t.reporter.producer, t.reporter.queue, t.reporter.nReportLow)) =
        some (1, [], true) := by decide +kernel

/-- R141: a report dropped while a report write is in flight is counted in the header of the next. -/
theorem test_drop_carried_by_next_report :
    let s := reporting { configured with reporter := { configured.reporter with
      queue := List.replicate 32 supplyReport } } (.queued (.supply [0]))
    ((after (exec (.setAlerts 2 0) s) id).bind fun t => after (exec .reportWriteComplete t)
      (fun u => (t.reporter.dropped, u.reporter.dropped,
        u.reporter.write.map (fun w => byteAt w.record 1)))) = some (1, 1, some 1) := by
  decide +kernel

/-- Tap 2's queue holds a STARVED entry merged into since it was carried and an entry behind it, both
counted by a waiting TAP_STATE report. -/
def mergedBehind (remainder : Bool) (carried : QueueEntry) : State :=
  let s := configured.updTap 2 fun tp => { tp with queue :=
    [starvedRun (if remainder then 2 else 3), { queueA with due := true }] }
  let s := reporting s (.frames 2 [carried])
  { s with reporter := { s.reporter with queue :=
    [{ body := .tapState 2 .running .holding .starvation none
       flush := if remainder then 1 else 2, pastRemainder := remainder }] } }

/-- R145: a counted entry that leaves a remainder lowers the flush count by one. -/
theorem test_counted_entry_lowers :
    after (exec .reportWriteComplete (mergedBehind false (starvedRun 1)))
      (fun t => (t.reporter.queue.map (fun q => (q.flush, q.pastRemainder)),
        (t.tap 2).queue.map (·.run), t.nextReport.isSome)) =
        some ([(1, true)], [2, 1], true) := by decide +kernel

/-- R145, R146: its remainder does not, so the counted entry behind it is written before the
TAP_STATE report. -/
theorem test_remainder_does_not_lower :
    after (exec .reportWriteComplete (mergedBehind true (starvedRun 2)))
      (fun t => (t.reporter.queue.map (fun q => (q.flush, q.pastRemainder)),
        t.reporter.write.map (·.content))) =
        some ([(1, false)], some (.frames 2 [{ queueA with due := true }])) := by decide +kernel

theorem test_status_starts :
    after (exec .statusBlockWriteStart { configured with directive :=
      { configured.directive with statusRequest := true, statusEnable := true } })
      (fun t => t.directive.status.map (fun l => l.map (·.addr))) =
        some (some [0x3FFFF040, 0x3FFFF080, 0x3FFFF0C0, 0x3FFFF100]) := by decide +kernel

theorem test_status_completes :
    after (exec .statusBlockWriteComplete { (owning configured .status .live) with directive :=
      { configured.directive with status := some [] } })
      (fun t => (t.directive.status, t.link.inFlight)) = some (none, []) := by decide +kernel

theorem test_error_halts : after (exec (.ownAccessError .fetch []) (fetching running))
    (fun t => (t.device, t.reporter.nFaultLow, t.directive.consumer)) =
      some (.halted, true, 0) := by decide +kernel

/-- R111, R159: a refill's ERROR in HALTED leaves a fetch begun in HALTED alone. -/
theorem test_halted_refill_error_keeps_fetch :
    let s := fetching halted
    after (exec (.ownAccessError .refill []) { s with
      link := { s.link with inFlight := .own (ownBurst .refill) .live :: s.link.inFlight }
      supply := { s.supply with refill := some refillA } })
      (fun t => (t.supply.refill, t.directive.fetch, t.link.inFlight)) =
        some (none, some [], [.own fetchA .live]) := by decide +kernel

theorem test_expiry_synthesizes : after (exec .frameGapTimerExpiry running)
    (fun t => (t.device, t.reception.current, t.reception.coast, t.reception.gapTimer)) =
      some (.coasting, 6, 1, some 32) := by decide +kernel

theorem test_coalescing_expiry : after (exec (.coalescingTimerExpiry 2) (queued configured false))
    (fun t => ((t.tap 2).queue.map (·.due), (t.tap 2).timer)) = some ([true], none) := by
  decide +kernel

theorem test_clean_retained :
    after (exec (.settledCompletionJudged 2) (settling running 0 .holding .repeating))
      (fun t => ((t.tap 2).state, (t.tap 2).retained, (t.tap 2).queue.map (fun e => (e.slot, e.outcome)))) =
        some (.running, some slotA, [(some slotA, .clean)]) := by decide +kernel

theorem test_awaiting_pushed :
    after (exec (.awaitingPushReleased slotA) (holding running { entryA with awaitingPush := true }))
      (fun t => (t.supply.stack, t.supply.table)) = some ([slotA], []) := by decide +kernel

theorem test_reset_low_then_rise :
    after (exec (.nresetRise .band3) { running with nResetLow := true })
      (fun t => (t.nResetLow, t.strap, t.device)) = some (false, .band3, .stopped) := by
  decide +kernel

theorem test_reset_low_releases_lines :
    after (exec .nresetLow { running with reporter := { running.reporter with nReportLow := true } })
      (fun t => (t.nResetLow, t.reporter.nReportLow)) = some (true, false) := by decide +kernel

def params : ConfigureParams :=
  { landingMode := 2, landingBase := 0x20000000, reportBase := 0x20010000, reportSize := 16,
    freeBase := 0x20020000, freeSize := 32 }

theorem test_configure : after (exec (.configure params) State.reset)
    (fun t => (t.regions, t.reception.mode)) = some (some regions, .streamed) := by decide +kernel

theorem test_configure_misaligned : after (exec (.configure { params with landingBase := 4096 })
    State.reset) (fun t => (t.regions, t.reporter.queue.map (·.body))) =
      some (none, [.directive 0 0x10 .badParameter []]) := by decide +kernel

theorem test_set_timing : after (exec (.setTiming 36 64 0) running)
    (fun t => (t.reception.pendingTiming, t.reporter.pendingInterval)) =
      some (some (36, 64), some 0) := by decide +kernel

theorem test_start : after (exec .start configured) (fun t => t.device) = some .acquiring := by
  decide +kernel

theorem test_stop_abandons : after (exec .stop tapped)
    (fun t => (t.device, (t.tap 2).state, (t.tap 2).openFrames, t.reception.openFrame)) =
      some (.stopped, .waiting, [], none) := by decide +kernel

theorem test_tap_open : after (exec (.tapOpen 7 47 1 9 15 3) configured)
    (fun t => (t.tap 7).pendingOpen) =
      some (some (47, { policy := .repeating, tolerance := 9, repeatLimit := 15, floor := 3 })) := by
  decide +kernel

theorem test_tap_adjust : after (exec (.tapAdjust 2 2 0 1 0) tapped)
    (fun t => (t.tap 2).pendingAdjust.map (·.policy)) = some (some .silent) := by decide +kernel

theorem test_tap_close : after (exec (.tapClose 2) tapped)
    (fun t => ((t.tap 2).state, t.supply.stack, t.supply.table)) =
      some (.closed, [slotA], []) := by decide +kernel

theorem test_release_removes :
    after (exec (.release 1 [slotA]) (holding running { entryA with state := .posted, posted := 1 }))
      (fun t => (t.supply.stack, t.supply.table)) = some ([], []) := by decide +kernel

/-- R120, R138: the last claim released, an entry that a queued completion names stays. -/
theorem test_release_while_named :
    after (exec (.release 1 [slotA])
      (queued (holding running { entryA with state := .posted, posted := 1 }) true))
      (fun t => t.supply.table.map (fun e => (e.state, e.posted))) = some [(.posted, 0)] := by
  decide +kernel

theorem test_release_unknown : after (exec (.release 1 [slotA]) running)
    (fun t => t.reporter.queue.map (·.body)) =
      some [.directive 0 0x30 .unknownSlot [slotA]] := by decide +kernel

theorem test_force_resync : after (exec .forceResync tapped)
    (fun t => (t.device, (t.tap 2).state, (t.tap 2).inst.map (·.restart))) =
      some (.acquiring, .holding, some true) := by decide +kernel

theorem test_forget_layout : after (exec .forgetLayout tapped)
    (fun t => (t.layout.cur.state, (t.tap 2).state, (t.tap 2).inst)) =
      some (.empty, .waiting, none) := by decide +kernel

theorem test_clear_faults_keeps_bus_error :
    after (exec (.clearFaults 0xFF) { halted with reporter := { halted.reporter with flags := 0x83 } })
      (fun t => t.reporter.flags) = some 2 := by decide +kernel

theorem test_set_alerts : after (exec (.setAlerts 1 0xFF) configured)
    (fun t => (t.reporter.pinEnables, t.reporter.nFaultLow)) = some (0xFD, true) := by decide +kernel

theorem test_warm_reset : after (exec .warmReset halted)
    (fun t => (t.device, t.reporter.flags, t.directive.sequence, t.regions)) =
      some (.stopped, 0, 1, none) := by decide +kernel

/-! ## States and operands that meet the hypotheses of the statements -/

theorem witness_StepTakesFrontCommand :
    ({ running with pending := [.start] }.pending = .start :: []) ∧ running.pending = [] :=
  ⟨rfl, rfl⟩

theorem witness_QueueAndStrapKept : ∃ t, exec .start configured = .next t ∧
    ∀ band, Instr.start ≠ .nresetRise band :=
  let ⟨t, h⟩ := next_of_after (o := exec .start configured) (by decide +kernel)
  ⟨t, h, by simp⟩

/-- The tapped state with a command waiting. -/
def tappedNext : State := { tapped with pending := [.forceResync] }

theorem witness_SlotAddressesStayApart : tappedNext.SlotsApart ∧ ∃ t, step tappedNext = .next t :=
  ⟨by simp [State.SlotsApart, State.heldAddrs]; decide +kernel, next_of_after (by decide +kernel)⟩

theorem witness_CapacitiesKept : tappedNext.WithinCapacity ∧ ∃ t, step tappedNext = .next t :=
  ⟨⟨by decide +kernel, by decide +kernel, by decide +kernel, by decide +kernel, by decide +kernel,
    by decide +kernel⟩, next_of_after (by decide +kernel)⟩

theorem witness_AlertLinesStayTrue : tappedNext.LinesTrue ∧ ∃ t, step tappedNext = .next t :=
  ⟨⟨by decide +kernel, by decide +kernel⟩, next_of_after (by decide +kernel)⟩

theorem witness_MapsStaySound : State.reset.MapsSound ∧ ∃ t, step State.reset = .next t :=
  have h : ∀ i, entryOf MapEntries.absent i = none := by decide +kernel
  have apart : MapEntries.Apart MapEntries.absent :=
    ⟨fun i e k => by simp [h] at k, fun i j e f _ k => by simp [h] at k⟩
  have all : MapEntries.AllCollected MapEntries.absent := fun i e k => by simp [h] at k
  ⟨⟨apart, apart, fun _ => all, all⟩, next_of_after (by decide +kernel)⟩

theorem witness_HaltedStaysQuiet : halted.HaltedQuiet ∧ ∃ t, step halted = .next t :=
  ⟨fun _ => ⟨rfl, rfl, rfl, rfl⟩, next_of_after (by decide +kernel)⟩

theorem witness_HaltedFreezesState : halted.device = .halted ∧ halted.HaltedQuiet ∧
    resetsPart .start = false ∧ ∃ t, exec .start halted = .next t :=
  ⟨rfl, fun _ => ⟨rfl, rfl, rfl, rfl⟩, rfl, next_of_after (by decide +kernel)⟩

/-- A refill in flight in HALTED still skips an address; a CLEAR_FAULTS clears what it names. -/
theorem witness_HaltedFreezesState_changes :
    (refilling halted).device = .halted ∧ (refilling halted).HaltedQuiet ∧
    halted.supply.refill = none ∧ (refilling halted).supply.refill ≠ none ∧
    after (exec (.refillComplete [0, 0x30001000]) (refilling halted))
      (fun t => (t.reporter.flagSet .badSlot, t.supply.stack)) = some (true, [0x30001000]) ∧
    halted.reporter.flagSet .badSlot = false ∧ halted.reporter.flagSet .powerOn = true ∧
    after (exec (.clearFaults 1) halted) (fun t => t.reporter.flagSet .powerOn) = some false ∧
    after (exec .start halted) (fun t => t.reporter.flagSet .directiveRejected) = some true := by
  refine ⟨rfl, fun _ => ⟨rfl, rfl, rfl, rfl⟩, rfl, ?_, ?_, ?_, ?_, ?_, ?_⟩ <;> decide +kernel

theorem witness_ResetFallLosesTransactions : { running with nResetLow := true }.nResetLow = true ∧
    Instr.start ≠ .nresetLow ∧ ∀ band, Instr.start ≠ .nresetRise band := ⟨rfl, by simp, by simp⟩

theorem witness_StoppedWritePassesUnaltered : configured.Up ∧ configured.device.active = false ∧
    linkPresents 0x3FFFF000 16 = true ∧ configured.linkOpen = true :=
  ⟨rfl, rfl, by decide, by decide⟩

/-- FIXED to the free index, header words 0, 1 and 15 in forms that pass, the unused part, the tail, a
slot, and a layout word with a strobe clear. -/
theorem witness_StoppedWritePassesUnaltered_active : tapped.Up ∧ tapped.device.active = true ∧
    linkPresents 0x3FFFF008 3 = true ∧ tapped.linkOpen = true ∧
    ∀ x ∈ ([(0x3FFFF008, ⟨7, 15⟩), (0x20000000, ⟨7, 15⟩), (0x20000000, ⟨0x80000006, 7⟩),
        (0x20000004, ⟨0x80000006, 15⟩), (0x2000003C, ⟨7, 15⟩), (0x20000040, ⟨7, 7⟩),
        (0x20000140, ⟨7, 15⟩), (0x20007C00, ⟨7, 15⟩), (0x30000000, ⟨7, 15⟩)] :
          List (Word × WriteBeat)),
      tapped.PassesBeat x.1 x.2 := by
  refine ⟨rfl, by decide +kernel, by decide, by decide +kernel, fun x m => ⟨?_, ?_, ?_⟩⟩
  · revert x
    decide +kernel
  · revert x
    decide +kernel
  · have key : ∀ x ∈ ([(0x3FFFF008, ⟨7, 15⟩), (0x20000000, ⟨7, 15⟩), (0x20000000, ⟨0x80000006, 7⟩),
        (0x20000004, ⟨0x80000006, 15⟩), (0x2000003C, ⟨7, 15⟩), (0x20000040, ⟨7, 7⟩),
        (0x20000140, ⟨7, 15⟩), (0x20007C00, ⟨7, 15⟩), (0x30000000, ⟨7, 15⟩)] :
          List (Word × WriteBeat)),
        tapped.areaOf x.1 = .layoutBlock → x.2.strobes ≠ 0xF := by decide +kernel
    exact fun h => Or.inr (key x m h)

/-- The areas where the extents meet, in each device state. -/
theorem witness_StoppedWritePassesUnaltered_areas :
    [0x3FFFEFFC, 0x3FFFF000, 0x3FFFF004, 0x3FFFF008, 0x3FFFF00C, 0x3FFFFFFC, 0x40000000].map
      configured.areaOf =
      [.dram, .index .directive, .index .report, .index .free, .page, .page, .dram] ∧
    [0x1FFFFFFC, 0x20000000, 0x2000003C, 0x20000040, 0x2000013C, 0x20000140, 0x200003FC, 0x20000400,
      0x20007BFC, 0x20007C00, 0x20007FFC, 0x20008000].map tapped.areaOf =
      [.dram, .header, .header, .layoutBlock, .layoutBlock, .unused, .unused, .cells, .cells, .tail,
        .tail, .dram] ∧
    [0x20010000, 0x200103FC, 0x20010400, 0x20020000, 0x2002007C, 0x20020080].map tapped.areaOf =
      [.reportRing, .reportRing, .dram, .freeRing, .freeRing, .dram] ∧
    [0x2FFFFFFC, 0x30000000, 0x30000FFC, 0x30001000, 0x3FFFF008].map tapped.areaOf =
      [.dram, .slot slotA, .slot slotA, .dram, .index .free] ∧
    [0x20000000, 0x20010000, 0x30000000].map
      ({ tapped with device := .stopped } : State).areaOf = [.dram, .dram, .dram] ∧
    [0x20000000, 0x30000000].map ({ tapped with regions := none } : State).areaOf =
      [.dram, .slot slotA] ∧
    (∃ e ∈ tapped.supply.table, e.addr = slotA) ∧
    ∀ e ∈ running.supply.table, e.addr ≠ slotA := by
  decide +kernel

theorem witness_ReadIsForwarded : running.Up ∧ linkPresents 0x20000000 16 = true ∧
    linkPresents 0xFFFFFFFC 1 = true ∧ running.linkOpen = true :=
  ⟨rfl, by decide, by decide, by decide⟩

theorem witness_WriteEntersTable : tapped.Up ∧ linkPresents 0x20000400 1 = true ∧
    tapped.linkOpen = true := ⟨rfl, by decide, by decide +kernel⟩

theorem witness_LinkTurnsAway :
    { running with link := { Link.reset with txns := List.replicate 16 txn } }.Up ∧
    16 ≤ (List.replicate 16 txn).length ∧ linkPresents 0 1 = true ∧ linkPresents 0 16 = true ∧
    linkPresents 2 1 = false ∧ linkPresents 0 0 = false ∧ linkPresents 0 17 = false :=
  ⟨rfl, by decide, by decide, by decide, by decide, by decide, by decide⟩

/-- The first complete transaction waits behind an earlier one of its tag. -/
def blockedDelivery : State :=
  { running with link := { Link.reset with
    txns := [txn, { txn with id := 1 }, { txn with id := 2, tag := 3 }], ready := [1, 2] } }

theorem witness_ResponseDelivered : blockedDelivery.Up ∧
    blockedDelivery.link.txns =
      [txn, { txn with id := 1 }] ++ { txn with id := 2, tag := 3 } :: [] ∧
    (blockedDelivery.link.txns.map (·.id)).Nodup ∧ blockedDelivery.link.ready = [1] ++ 2 :: [] ∧
    (∀ u ∈ [txn, { txn with id := 1 }], u.tag ≠ 3) ∧
    ∃ y before after, blockedDelivery.link.txns = before ++ y :: after ∧ y.id = 1 ∧
      ∃ u ∈ before, u.tag = y.tag :=
  ⟨rfl, rfl, by decide, rfl, by decide, { txn with id := 1 }, [txn], _, rfl, rfl, txn, by simp, rfl⟩

theorem witness_CellWordRedirected : tapped.Up ∧ tapped.linkOpen = true ∧
    tapped.areaOf 0x2000041C = .cells ∧ tapped.reception.mode = .linear ∧
    tapped.reception.openFrame = some { num := 5, quality := 3, cursor := 0 } ∧
    ((0x2000041C : Word) - tapped.landingBase).toNat = 1024 + 32 * 0 + 4 * 7 ∧
    tapped.streamAt 0 = some (9, ⟨0, 1, .d1, true⟩) ∧ tapped.boundTap 9 = some (2, instA) ∧
    instA.restart = false ∧ instA.depth.lag ((8 * (0 - 0) + 7) % instA.depth.frames) ≤ instA.age ∧
    (tapped.tap 2).slotFor (5 - BitVec.ofNat 12 (instA.depth.lag (7 % 1))) = some slotA := by
  refine ⟨rfl, ?_, ?_, rfl, rfl, ?_, ?_, ?_, rfl, ?_, ?_⟩ <;> decide +kernel

/-- The lags of each depth, the ends of a stream's run, a tap bound while HOLDING and not while
WAITING, and a frame that is not open. -/
theorem witness_CellWordRedirected_lookups :
    (List.range 5).map Depth.d5.lag = [0, 3, 1, 4, 2] ∧
    (List.range 10).map Depth.d10.lag = [0, 7, 4, 1, 8, 5, 2, 9, 6, 3] ∧
    tapped.streamAt 0 = some (9, ⟨0, 1, .d1, true⟩) ∧ tapped.streamAt 1 = none ∧
    (tapped.updTap 2 fun tp => { tp with state := .holding }).boundTap 9 = some (2, instA) ∧
    (tapped.updTap 2 fun tp => { tp with state := .waiting }).boundTap 9 = none ∧
    tapped.boundTap 8 = none ∧
    (tapped.tap 2).openFrames = [] ++ { frame := 5, slot := some slotA } :: [] ∧
    (tapped.tap 2).slotFor 5 = some slotA ∧ (tapped.tap 2).slotFor 4 = none := by
  decide +kernel

theorem witness_CellWordAbsorbed_restart :
    (tappedWith fun i => { i with restart := true }).boundTap 9 =
      some (2, { instA with restart := true }) ∧
    (tappedWith fun i => { i with restart := true }).areaOf 0x20000400 = .cells ∧
    (tappedWith fun i => { i with restart := true }).streamAt 0 = some (9, ⟨0, 1, .d1, true⟩) := by
  refine ⟨?_, ?_, ?_⟩ <;> decide +kernel

theorem witness_CellWordAbsorbed_early :
    (tappedWith fun i => { i with depth := .d5 }).boundTap 9 = some (2, { instA with depth := .d5 }) ∧
    instA.age < Depth.d5.lag ((8 * (0 - 0) + 1) % Depth.d5.frames) := by
  refine ⟨?_, ?_⟩ <;> decide +kernel

theorem witness_CellWordAbsorbed_starved :
    ((tapped.updTap 2 fun tp => { tp with openFrames := [{ frame := 5, slot := none }] }).tap
      2).slotFor (5 - BitVec.ofNat 12 (Depth.d1.lag 0)) = none := by decide +kernel

theorem witness_PortBeatAdvancesCursor_linear : running.Up ∧ running.linkOpen = true ∧
    running.areaOf 0x20000400 = .cells ∧ running.areaOf 0x20007BFC = .cells ∧
    running.reception.mode = .linear ∧ running.reception.openFrame ≠ none ∧
    ((0x20007BFC : Word) - running.landingBase).toNat = 1024 + 32 * 959 + 4 * 7 ∧
    running.streamAt 959 = none ∧
    ((tapped.updTap 2 Tap.allDue).streamAt 0 = some (9, ⟨0, 1, .d1, true⟩) ∧
      (running.boundTap 9) = none) ∧
    acquiring.areaOf 0x20000400 = .cells ∧ acquiring.reception.openFrame = none := by
  refine ⟨rfl, ?_, ?_, ?_, rfl, ?_, ?_, ?_, ⟨?_, ?_⟩, ?_, rfl⟩ <;> decide +kernel

theorem witness_PortBeatAdvancesCursor_streamed : (streamed 7679).Up ∧
    (streamed 7679).linkOpen = true ∧ (streamed 7679).areaOf 0x2000041C = .cells ∧
    (streamed 7679).reception.mode = .streamed ∧
    ((0x2000041C : Word) - (streamed 7679).landingBase).toNat < 1056 ∧
    1056 ≤ ((0x20000420 : Word) - (streamed 7679).landingBase).toNat ∧
    (streamed 7679).areaOf 0x20000420 = .cells ∧
    (7679 : Nat) < 7680 ∧ (streamed 7680).areaOf 0x20000400 = .cells ∧
    (streamed 7680).reception.openFrame = some { num := 5, quality := 3, cursor := 7680 } ∧
    (streamed 7679).streamAt (7679 / 8) = none := by
  refine ⟨rfl, ?_, ?_, rfl, ?_, ?_, ?_, ?_, ?_, rfl, ?_⟩ <;> decide +kernel

/-- Stream 9 tapped, in STREAMED mode at cursor 7. -/
def streamedTap : State :=
  { tapped with reception := (streamed 7).reception }

theorem witness_PortBeatAdvancesCursor_tapped : streamedTap.Up ∧
    streamedTap.streamAt (7 / 8) = some (9, ⟨0, 1, .d1, true⟩) ∧
    streamedTap.boundTap 9 = some (2, instA) ∧ instA.restart = false ∧
    instA.depth.lag ((8 * (7 / 8 - 0) + 7 % 8) % instA.depth.frames) ≤ instA.age ∧
    (streamedTap.tap 2).slotFor (5 - BitVec.ofNat 12 (instA.depth.lag (7 % 1))) = some slotA := by
  refine ⟨rfl, ?_, ?_, rfl, ?_, ?_⟩ <;> decide +kernel

/-- A piece and a fetch wait. -/
def contending (last : Side) : State :=
  { running with
    link := { Link.reset with queue := [piece], lastGrant := last }
    directive := { running.directive with fetch := some [fetchA] } }

theorem witness_GrantsAlternate : (contending .own).Up ∧ (contending .own).link.queue = [piece] ∧
    (contending .own).link.lastGrant = .own ∧
    (contending .forwarded).unissued .fetch = some [fetchA] ∧
    (∀ k', ¬ ownPreference k' < ownPreference .fetch) ∧
    (contending .forwarded).link.lastGrant = .forwarded ∧ running.link.queue = [] ∧
    ∀ k b bs, running.unissued k ≠ some (b :: bs) := by
  refine ⟨rfl, rfl, rfl, rfl, ?_, rfl, rfl, ?_⟩
  · intro k; cases k <;> decide
  · intro k b bs; cases k <;> simp [running, configured, State.reset, State.coldReset,
      State.unissued, DirectiveUnit.reset, Supply.reset, Reporter.reset]

/-- The grant of a refill burst counts its entries (R111). -/
theorem witness_GrantsAlternate_refill :
    let f : Refill := { refillA with issuedEntries := 0, waiting := [ownBurst .refill] }
    let s : State := { running with supply := { running.supply with refill := some f } }
    s.Up ∧ s.unissued .refill = some (ownBurst .refill :: []) ∧
    (∀ k' b bs, ownPreference k' < ownPreference .refill → s.unissued k' ≠ some (b :: bs)) ∧
    s.link.queue = [] ∧ after (exec .arbiterGrant s) (fun t => t.supply.refill) =
      some (some { f with issuedEntries := 2, waiting := [] }) := by
  refine ⟨rfl, rfl, ?_, rfl, by decide +kernel⟩
  intro k' b bs h
  cases k' <;> simp [ownPreference] at h
  simp [running, configured, State.reset, State.coldReset, State.unissued, DirectiveUnit.reset]

theorem witness_PieceResponseRecorded : (flying running piece txn).Up ∧
    (flying running piece txn).link.inFlight = [] ++ .piece piece :: [] ∧ piece.tag = 1 ∧
    (∀ q, Issued.piece q ∈ ([] : List Issued) → q.tag ≠ 1) ∧
    ([] : List Word).length = (if piece.write then 0 else piece.len) ∧
    (∃ x ∈ (flying running piece txn).link.txns, x.id = piece.txn ∧ x.unanswered - 1 = 0) ∧
    ∀ x ∈ (flying running piece { txn with unanswered := 2 }).link.txns,
      x.id = piece.txn → x.unanswered - 1 ≠ 0 :=
  ⟨rfl, rfl, rfl, by simp, rfl, ⟨txn, by simp [flying], rfl, rfl⟩, by simp [flying]⟩

/-- The pieces and bursts matched first, with an own burst and a piece of another tag before them. -/
theorem witness_PieceResponseRecorded_oldest :
    let s : State := { running with link := { running.link with inFlight :=
      [.own fetchA .live, .piece { piece with tag := 2 }, .piece piece, .own fetchA .haltDiscarded,
        .own (ownBurst .status) .live] } }
    s.oldestPiece 1 = some piece ∧ s.oldestPiece 3 = none ∧
    s.oldestBurst .fetch = some (fetchA, .live) ∧
    s.oldestBurst .status = some (ownBurst .status, .live) ∧ s.oldestBurst .refill = none ∧
    s.ownInFlight .fetch .live = 1 ∧ s.ownInFlight .fetch .resetDiscarded = 0 := by
  decide +kernel

def readPiece : Piece := { piece with write := false, beats := [], len := 2, addr := slotA }

def readTxn : Txn := { txn with write := false, len := 2, data := [none, none] }

theorem witness_ReadWordsPlaced :
    let s := flying tapped readPiece readTxn
    let two : State := { s with link := { s.link with txns := [{ txn with id := 9 }, readTxn] } }
    two.Up ∧ two.oldestPiece 1 = some readPiece ∧ readPiece.write = false ∧
    ([3, 4] : List Word).length = readPiece.len ∧
    two.link.txns = [{ txn with id := 9 }] ++ readTxn :: [] ∧ readTxn.id = readPiece.txn ∧
    (∀ u ∈ ([{ txn with id := 9 }] ++ [] : List Txn), u.id ≠ readPiece.txn) ∧
    readPiece.first + readPiece.len ≤ readTxn.data.length ∧ ([3, 4] : List Word)[1]? = some 4 := by
  refine ⟨rfl, ?_, rfl, rfl, rfl, rfl, ?_, ?_, rfl⟩ <;> decide +kernel

/-- The first of two words arrives ahead of the response, its class not yet arrived. -/
theorem witness_ReadWordsPlaced_ahead :
    let s := flying tapped readPiece readTxn
    let o := exec (.forwardedPieceResponse 1 .ok [3]) s
    s.Up ∧ s.link.inFlight = [] ++ .piece readPiece :: [] ∧ ([3] : List Word).length < readPiece.len ∧
    s.link.txns = [] ++ readTxn :: [] ∧ readTxn.id = readPiece.txn ∧
    readPiece.first + readPiece.len ≤ readTxn.data.length ∧
    after o (fun t => t.link.inFlight) =
      some [.piece { readPiece with addr := 0x30000004, first := 1, len := 1 }] ∧
    after o (fun t => t.link.txns) = some [{ readTxn with data := [some 0, none] }] := by
  refine ⟨rfl, rfl, ?_, rfl, rfl, ?_, ?_, ?_⟩ <;> decide +kernel

/-- The class has arrived before the second word: that word is DRAM's, and the read is complete. -/
theorem test_read_spans_class_arrival :
    after (exec (.forwardedPieceResponse 1 .ok [4])
        (flying (holding tapped { entryA with arrived := 1 })
          { readPiece with addr := 0x30000004, first := 1, len := 1 }
          { readTxn with data := [some 0, none] }))
        (fun t => (t.link.txns.map (fun x => x.data), t.link.ready)) =
      some ([[some 0, some 4]], [0]) := by
  decide +kernel

theorem witness_SubstitutionTable : tapped.slotOver 0x30000FFF = some entryA ∧
    tapped.slotOver 0x30001000 = none ∧ entryA.state ≠ .returning ∧
    8 * entryA.count ≤ ((0x30000020 : Word) - entryA.addr).toNat / 4 ∧
    ((0x3000001C : Word) - entryA.addr).toNat / 4 < 8 * entryA.count ∧
    hasClass entryA.arrived 0 = false := by
  refine ⟨?_, ?_, ?_, ?_, ?_, ?_⟩ <;> decide +kernel

def redirected : Piece := { piece with addr := slotA, redirect := some (slotA, 0) }

/-- The ends of a slot's 4 KiB, and the entry of its address. -/
theorem witness_SubstitutionTable_entries :
    tapped.slotOver 0x30000000 = some entryA ∧ tapped.slotOver 0x2FFFFFFF = none ∧
    tapped.slot slotA = some entryA ∧ tapped.slot 0x30000004 = none ∧
    tapped.supply.table = [entryA] := by
  decide +kernel

theorem witness_RedirectErrorErases :
    let s := fun e => flying (holding running e) redirected txn
    redirected.write = true ∧ redirected.snoop = none ∧ (0 : Nat) < 10 ∧
    (∀ e ∈ [{ entryA with outstanding := 2 }, { entryA with outstanding := 1 },
        { entryA with outstanding := 1, awaitingPush := true }],
      (s e).Up ∧ (s e).device ≠ .halted ∧ (s e).oldestPiece 1 = some redirected ∧
        (s e).slot slotA = some e ∧ 1 ≤ e.outstanding) ∧
    (flying running redirected txn).slot slotA = none ∧
    (flying halted redirected txn).oldestPiece 1 = some redirected ∧
    (flying halted redirected txn).device = .halted := by
  refine ⟨rfl, rfl, by decide, ?_, ?_, rfl, rfl⟩
  · unfold State.Up
    decide +kernel
  · decide +kernel

def snooped (w : IndexWord) : Piece := { piece with snoop := some w }

theorem witness_SnoopHandsOver : ∀ w, (flying running (snooped w) txn).Up ∧
    (flying running (snooped w) txn).oldestPiece 1 = some (snooped w) ∧ (snooped w).write = true ∧
    (snooped w).redirect = none ∧ (snooped w).snoop = some w := by
  intro w; cases w <;> exact ⟨rfl, rfl, rfl, rfl, rfl⟩

theorem witness_UnaskedResponsesFault : running.Up ∧ running.oldestPiece 0 = none ∧
    (List.replicate 64 (0 : Byte)).length = 64 ∧ ∀ k, running.oldestOwn k = none :=
  ⟨rfl, rfl, by decide, by intro k; cases k <;> rfl⟩

def openBeat (f : Word) : WriteBeat := ⟨0x80003000 ||| f, 15⟩

theorem witness_FrameOpenTaken : running.HeaderWrite 0x20000000 0 (openBeat 5) ∧
    acquiring.HeaderWrite 0x20000000 0 (openBeat 7) ∧
    running.HeaderWrite 0x20000000 0 (openBeat 22) ∧
    (openBeat 5).data.extractLsb' 0 12 = (5 : FrameNo) ∧
    (openBeat 22).data.extractLsb' 0 12 = (22 : FrameNo) := by
  refine ⟨⟨rfl, ?_, ?_, ?_, ?_, ?_, ?_⟩, ⟨rfl, ?_, ?_, ?_, ?_, ?_, ?_⟩, ⟨rfl, ?_, ?_, ?_, ?_, ?_, ?_⟩,
    ?_, ?_⟩ <;> decide +kernel

/-- RUNNING between two frames, frame 6 expected. -/
def between : State := { running with reception := { running.reception with openFrame := none } }

theorem witness_FrameOpenTaken_accepted : between.HeaderWrite 0x20000000 0 (openBeat 6) ∧
    between.reception.openFrame = none ∧ between.reception.adoptTiming.expected = some 6 ∧
    (openBeat 6).data.extractLsb' 0 12 = (6 : FrameNo) ∧ acquiring.reception.openFrame = none := by
  refine ⟨⟨rfl, ?_, ?_, ?_, ?_, ?_, ?_⟩, rfl, rfl, ?_, rfl⟩ <;> decide +kernel

/-- COASTING with 3 lost frames counted, frame 6 expected. -/
def coasting : State :=
  { between with device := .coasting, reception := { between.reception with coast := 3 } }

theorem witness_FrameOpenTaken_rows :
    running.HeaderWrite 0x20000000 0 (openBeat 6) ∧ coasting.HeaderWrite 0x20000000 0 (openBeat 6) ∧
    running.HeaderWrite 0x20000000 0 (openBeat 23) ∧ (5 : FrameNo) ≠ 6 ∧
    running.reception.adoptTiming.expected = some 6 ∧ ((22 : FrameNo) - 6).toNat = 16 - 0 ∧
    16 - 0 < ((23 : FrameNo) - 6).toNat ∧ running.reception.adoptTiming.coastLimit = 16 ∧
    { running.reception with expected := none }.adoptTiming.expected = none := by
  refine ⟨⟨rfl, ?_, ?_, ?_, ?_, ?_, ?_⟩, ⟨rfl, ?_, ?_, ?_, ?_, ?_, ?_⟩,
    ⟨rfl, ?_, ?_, ?_, ?_, ?_, ?_⟩, ?_, rfl, ?_, ?_, rfl, rfl⟩ <;> decide +kernel

theorem witness_FrameOpenTaken_retained :
    let s := (holding tapped entryA).updTap 2 fun tp =>
      { tp with state := .waiting, retained := some slotA }
    (s.tap 2).seeking = true ∧ s.streamEntry 2 = some ⟨0, 1, .d1, true⟩ ∧
    (s.tap 2).retained = some slotA ∧ s.slot slotA = some entryA ∧ entryA.depth = .d1 ∧
    { entryA with count := 2 }.count ≠ 1 := by
  refine ⟨?_, ?_, ?_, ?_, rfl, ?_⟩ <;> decide +kernel

theorem witness_FrameOpenTaken_interval :
    let s := { queued running false with
      reporter := { running.reporter with pendingInterval := some 4 } }
    s.reporter.pendingInterval = some 4 ∧ (s.tap 2).timer = some 4 ∧
    running.reporter.pendingInterval = none := by
  refine ⟨rfl, ?_, rfl⟩; decide +kernel

/-- A pending map in a state, to be switched to at frame 1030. -/
def announced (state : PendingState) (count : Nat) : State :=
  { tapped with layout := { tapped.layout with
    pend := { PendingMap.none with
      state := state, version := some 1, switchFrame := 1030, expCount := count } } }

theorem witness_FrameOpenTaken_switch :
    ((announced .ready 1).layout.pend.state = .ready ∧ ((1030 : FrameNo) - 1030).toNat = 0) ∧
    ((announced .collecting 0).layout.pend.state ≠ .none ∧
      1024 < ((1030 : FrameNo) - 1031).toNat) ∧
    ¬ 1024 < ((1030 : FrameNo) - 6).toNat ∧ tapped.layout.pend.state = .none ∧
    (announced .ready 1).device ≠ .halted := by
  refine ⟨⟨rfl, ?_⟩, ⟨?_, ?_⟩, ?_, rfl, ?_⟩ <;> decide +kernel

theorem witness_FrameOpenTaken_notices :
    (tapped.tap 2).bound = true ∧ (tapped.tap 2).inst = some instA ∧
    tapped.streamEntry 2 = some ⟨0, 1, .d1, true⟩ ∧ instA.restart = false ∧ instA.fresh = false ∧
    (tappedWith fun i => { i with count := 2, restart := true }).streamEntry 2 =
      some ⟨0, 1, .d1, true⟩ ∧
    ({ tapped with layout := Layout.reset } : State).streamEntry 2 = none ∧
    ((tapped.updTap 2 fun tp => { tp with state := .waiting, stream := some 8 }).tap 2).state =
      .waiting ∧
    (tapped.updTap 2 fun tp => { tp with state := .waiting, stream := some 8 }).streamEntry 2 =
      none ∧
    ((tapped.updTap 2 fun tp => { tp with state := .orphaned }).tap 2).seeking = true ∧
    tapped.layout.cur.state = .verified ∧ (tapped.tap 0).state = .closed ∧
    ((tapped.adjustTap 2 (tapped.tap 0).params).tap 2).pendingAdjust ≠ none ∧
    ((configured.openTap 1 0 (configured.tap 1).params).tap 1).pendingOpen ≠ none ∧
    (tapped.tap 2).pendingAdjust = none ∧ (tapped.tap 2).pendingOpen = none ∧
    tapped.supply.stack = [] ∧ tapped.workingSlots < 96 := by
  refine ⟨?_, ?_, ?_, rfl, rfl, ?_, ?_, ?_, ?_, ?_, rfl, ?_, ?_, ?_, ?_, ?_, rfl, ?_⟩ <;>
    decide +kernel

/-- Tap 1 with a pending open for a stream. -/
def opening (i : StreamId) : State := tapped.openTap 1 i (tapped.tap 1).params

/-- Slot addresses on the spare stack, the free ring with an entry to take. -/
def stocked (stack : List Word) : State :=
  { tapped with supply := { tapped.supply with stack := stack, recorded := 1 } }

theorem witness_FrameOpenTaken_adoption :
    ((opening 0).tap 1).pendingOpen = some (0, (tapped.tap 1).params) ∧
    (opening 0).layout.cur.state = .verified ∧ (opening 0).curEntry 0 = none ∧
    (opening 9).curEntry 9 ≠ none := by
  refine ⟨?_, rfl, ?_, ?_⟩ <;> decide +kernel

theorem witness_FrameOpenTaken_allocation :
    (stocked [slotA + 4096]).supply.stack = [slotA + 4096] ∧ (stocked []).workingSlots < 96 ∧
    (stocked []).supply.stack = [] ∧ (stocked []).regions = some regions ∧
    (stocked []).supply.refill = none ∧
    96 ≤ { running with supply := { running.supply with
      table := List.replicate 96 entryA } }.workingSlots := by
  refine ⟨rfl, ?_, rfl, rfl, rfl, ?_⟩ <;> decide +kernel

theorem witness_SealCloses : running.HeaderWrite 0x2000003C 60 ⟨0x80000000, 15⟩ ∧
    acquiring.HeaderWrite 0x2000003C 60 ⟨0x80000000, 15⟩ ∧
    running.reception.openFrame = some { num := 5, quality := 3, cursor := 0 } ∧
    acquiring.reception.openFrame = none := by
  refine ⟨⟨rfl, ?_, ?_, ?_, ?_, ?_, ?_⟩, ⟨rfl, ?_, ?_, ?_, ?_, ?_, ?_⟩, rfl, rfl⟩ <;> decide +kernel

/-- Tap 2 of depth 5 at an age, its one open frame 5 with slot A, and completions settling. -/
def aged (age settling : Nat) : State :=
  (tapped.updTap 2 fun tp => { tp with
    inst := some { instA with depth := .d5, age := age }
    settling := List.replicate settling { frame := 1, kind := .starved, run := 1, number := 1 } })

theorem witness_SealCloses_notices :
    (running.tap 0).timer = none ∧
    ((queued running false).tap 2).timer = some 4 ∧ running.reporter.interval ≤ 4 + 1 ∧
    ((running.updTap 2 fun tp => { tp with timer := some 2 }).tap 2).timer = some 2 ∧
    2 + 1 < running.reporter.interval ∧
    ((aged 3 0).tap 2).bound = true ∧
    ((aged 3 0).tap 2).inst = some { instA with depth := .d5, age := 3 } ∧
    ((aged 3 0).tap 2).openFrames.filter (fun l => l.slot = some slotA) =
      [{ frame := 5, slot := some slotA }] ∧
    (aged 3 0).slot slotA = some entryA ∧ Depth.d5.lag 1 = ((8 : FrameNo) - 5).toNat ∧
    3 + 1 ≠ Depth.d5.frames ∧ 4 + 1 = Depth.d5.frames ∧
    ((aged 4 15).tap 2).settling.length < 16 ∧ 16 ≤ ((aged 4 16).tap 2).settling.length ∧
    ((tapped.tap 2).params.floor ≤ (3 : BitVec 2).toNat ∧ (3 : BitVec 2) ≠ 0) ∧
    (tapped.tap 0).bound = false := by
  refine ⟨?_, ?_, ?_, ?_, ?_, ?_, ?_, ?_, ?_, ?_, ?_, ?_, ?_, ?_, ⟨?_, ?_⟩, ?_⟩ <;> decide +kernel

theorem witness_TimerExpiry : running.Up ∧ running.reception.gapTimer ≠ none ∧
    running.device = .running ∧ coasting.reception.gapTimer ≠ none ∧ coasting.device = .coasting ∧
    running.reception.adoptTiming.coast < running.reception.adoptTiming.coastLimit ∧
    running.reception.adoptTiming.expected = some 6 ∧ acquiring.reception.gapTimer = none ∧
    { running.reception with coast := 15 }.adoptTiming.coast <
      { running.reception with coast := 15 }.adoptTiming.coastLimit ∧
    { running.reception with coast := 16 }.adoptTiming.coastLimit ≤
      { running.reception with coast := 16 }.adoptTiming.coast := by
  refine ⟨rfl, ?_, rfl, ?_, rfl, ?_, rfl, rfl, ?_, ?_⟩ <;> decide

theorem witness_LayoutWordOffered : running.Up ∧ running.linkOpen = true ∧
    running.areaOf 0x20000040 = .layoutBlock ∧ running.areaOf 0x2000013C = .layoutBlock ∧
    ((0x2000013C : Word) - running.landingBase).toNat = 64 + 32 * 7 + 4 * 7 ∧
    acquiring.areaOf 0x20000040 = .layoutBlock ∧ acquiring.reception.openFrame = none ∧
    (running.layout.buffers[7].write 7 5).mask ≠ 0xFF ∧
    ({ words := Vector.replicate 8 1, mask := 0x7F : AsmBuffer }.write 7 1).mask = 0xFF ∧
    byteAt ({ words := Vector.replicate 8 1, mask := 0x7F : AsmBuffer }.write 7 1).bytes 0 ≠ 0 := by
  refine ⟨rfl, ?_, ?_, ?_, ?_, ?_, rfl, ?_, ?_, ?_⟩ <;> decide +kernel

/-- A layout record of its first bytes, with its check (R12). -/
def layoutRecord (bytes : List Byte) : List Byte :=
  let body := padTo 30 bytes
  body ++ halfBytes (crc16 body)

theorem witness_LayoutWordOffered_classes :
    let stream := layoutRecord [0x31, 15, 1, 47, 0x40, 3, 128, 10]
    let long := layoutRecord [0x31, 15, 1, 47, 0x41, 3, 128, 10]
    let summary := layoutRecord [0x32, 15, 48, 1, 2, 1, 15, 3, 4, 48]
    let wide := layoutRecord [0x32, 15, 49]
    (byteAt stream 0 = 0x31 ∧ crc16 (stream.take 30) = halfAt stream 30 ∧
      (byteAt stream 1).toNat ≤ 15 ∧ (byteAt stream 3).toNat ≤ 47 ∧
      (halfAt stream 4).toNat + (byteAt stream 6).toNat = 960 ∧ (byteAt stream 7).toNat = 10) ∧
    (crc16 (long.take 30) = halfAt long 30 ∧
      (halfAt long 4).toNat + (byteAt long 6).toNat = 961) ∧
    (byteAt summary 0 = 0x32 ∧ crc16 (summary.take 30) = halfAt summary 30 ∧
      (byteAt summary 2).toNat = 48 ∧ (byteAt summary 5).toNat = 1 ∧
      (byteAt summary 6).toNat ≤ 15 ∧ (byteAt summary 9).toNat = 48) ∧
    (crc16 (wide.take 30) = halfAt wide 30 ∧ ¬ (byteAt wide 2).toNat ≤ 48) ∧
    (byteAt (layoutRecord [0x33]) 0 = 0x33 ∧
      crc16 ((layoutRecord [0x33]).take 30) = halfAt (layoutRecord [0x33]) 30) ∧
    crc16 ((List.replicate 32 1).take 30) ≠ halfAt (List.replicate 32 1) 30 := by
  decide +kernel

/-- The current map in a state with expectations, stream 9 collected at cell 0. -/
def mapped (state : CurrentState) (count : Nat) (sum : BitVec 16) : State :=
  { tapped with layout := { tapped.layout with
    cur := { tapped.layout.cur with state := state, expCount := count, expSum := sum } } }

def stream8 : StreamRecord :=
  { version := 0, next := false, id := 8, start := 0, count := 1, depth := .d1 }

theorem witness_LayoutWordOffered_current :
    let sum := mapChecksum 0 tapped.layout.cur.entries (fun e => e.collected)
    configured.layout.cur.state = .empty ∧ tapped.layout.cur.version = some 0 ∧
    tapped.layout.cur.version ≠ some 1 ∧
    collectedCount (mapped .collecting 1 sum).layout.cur.entries = 1 ∧
    mapChecksum (versionNat (some 0)) (mapped .collecting 1 (sum + 1)).layout.cur.entries
      (fun e => e.collected) ≠ sum + 1 ∧
    collectedCount (mapped .collecting 2 sum).layout.cur.entries ≠ 2 ∧
    stream8.Meets tapped.layout.cur.entries (fun e => e.collected = true) ∧
    (∃ e, entryOf tapped.layout.cur.entries 9 = some e ∧
      { stream8 with id := 9 }.Describes e) ∧
    (∃ e, entryOf tapped.layout.cur.entries 9 = some e ∧
      ¬ { stream8 with id := 9, start := 1 }.Describes e) ∧
    entryOf tapped.layout.cur.entries 8 = none := by
  refine ⟨rfl, ?_, ?_, ?_, ?_, ?_, ⟨9, ⟨0, 1, .d1, true⟩, ?_, ?_, rfl, ?_, ?_⟩,
    ⟨⟨0, 1, .d1, true⟩, ?_, rfl, rfl, rfl⟩, ⟨⟨0, 1, .d1, true⟩, ?_, ?_⟩, ?_⟩
  all_goals first
    | decide +kernel
    | (unfold StreamRecord.Describes; decide +kernel)

/-- A SUSPECT map whose entry of stream 9 is not collected. -/
def suspect : State :=
  (mapped .suspect 1 0).setEntries (setEntry MapEntries.absent 9 (some ⟨0, 1, .d1, false⟩))

theorem witness_LayoutWordOffered_notices :
    suspect.layout.cur.state = .suspect ∧ (9 : StreamId) ≠ stream8.id ∧
    suspect.curEntry 9 = some ⟨0, 1, .d1, false⟩ ∧
    (stream8.start < 0 + 1 ∧ 0 < stream8.start + stream8.count) ∧
    (suspect.tap 2).bound = true ∧ (suspect.tap 2).stream = some 9 ∧
    (∃ j ∈ ([9] : List StreamId), (suspect.tap 2).stream = some j) ∧
    (suspect.tap 0).state = .closed ∧
    ((suspect.updTap 2 fun tp => { tp with state := .orphaned }).tap 2).state = .orphaned ∧
    ((suspect.updTap 2 fun tp => { tp with state := .waiting, stream := some 8 }).tap 2).state =
      .waiting ∧
    (suspect.updTap 2 fun tp => { tp with state := .waiting, stream := some 8 }).streamEntry 2 =
      none := by
  refine ⟨rfl, ?_, ?_, ⟨?_, ?_⟩, ?_, ?_, ⟨9, ?_, ?_⟩, ?_, ?_, ?_, ?_⟩ <;> decide +kernel

/-- A pending map in a state, stream 9 collected at cell 0. -/
def pendingMap (state : PendingState) (count : Nat) (sum : BitVec 16) : State :=
  { configured with layout := { configured.layout with
    pend := { PendingMap.none with
      state := state, version := some 1, switchFrame := 100, expCount := count, expSum := sum
      entries := setEntry MapEntries.absent 9 (some ⟨0, 1, .d1, true⟩) } } }

theorem witness_LayoutWordOffered_pending :
    let m := setEntry MapEntries.absent 9 (some ⟨0, 1, .d1, true⟩)
    let sum := mapChecksum 1 m (fun _ => true)
    configured.layout.pend.state = .none ∧ (pendingMap .collecting 2 0).layout.pend.state ≠ .none ∧
    ((100 : FrameNo) - 100).toNat < 1 ∧ 1024 < ((100 : FrameNo) - 3171).toNat ∧
    1 ≤ ((100 : FrameNo) - 99).toNat ∧ ((1124 : FrameNo) - 100).toNat = 1024 ∧
    collectedCount (pendingMap .collecting 1 sum).layout.pend.entries = 1 ∧
    mapChecksum (versionNat (some 1)) m (fun _ => true) ≠ sum + 1 ∧
    stream8.Meets m (fun _ => True) ∧ entryOf m 8 = none ∧
    ∃ e, entryOf m 9 = some e ∧ { stream8 with id := 9 }.Describes e := by
  refine ⟨rfl, ?_, ?_, ?_, ?_, ?_, ?_, ?_, ⟨9, ⟨0, 1, .d1, true⟩, ?_, ?_, trivial, ?_, ?_⟩, ?_,
    ⟨⟨0, 1, .d1, true⟩, ?_, rfl, rfl, rfl⟩⟩ <;> decide +kernel

theorem witness_SettledFrontJudged :
    let s := settling running 0 .holding .pass
    let busy := s.updSlot slotA fun e => { e with outstanding := 1 }
    running.Up ∧ s.device ≠ .halted ∧ (running.tap 2).settling = [] ∧
    (s.tap 2).settling = { frame := 5, kind := .slot slotA, run := 1, number := 1 } :: [] ∧
    (∃ e, s.slot slotA = some e ∧ e.outstanding = 0) ∧
    ∃ e, busy.slot slotA = some e ∧ e.outstanding ≠ 0 := by
  refine ⟨rfl, ?_, ?_, ?_, ⟨{ entryA with state := .complete, depth := .d5 }, ?_, rfl⟩,
    ⟨{ entryA with state := .complete, depth := .d5, outstanding := 1 }, ?_, ?_⟩⟩ <;> decide +kernel

theorem witness_HoldDecisionQueued :
    let s := settling running 3 .running .silent
    s.Up ∧ s.device ≠ .halted ∧
    (s.tap 2).settling = [{ frame := 5, kind := .slot slotA, run := 1, number := 1 }] ∧
    s.slot slotA = some { entryA with state := .complete, depth := .d5, erased := 3 } ∧
    (s.tap 2).queue.length < 8 ∧
    ¬ (TapState.running ≠ .holding ∧ classCount 3 ≤ (s.tap 2).params.tolerance) ∧
    classCount 1 ≤ (s.tap 2).params.tolerance ∧ (s.tap 2).bound = true := by
  refine ⟨rfl, ?_, ?_, ?_, ?_, ?_, ?_, ?_⟩ <;> decide +kernel

theorem witness_HoldDecisionQueued_repeat :
    let s := (settling running 3 .running .repeating).updTap 2 fun tp =>
      { tp with retained := some 0x30001000 }
    (s.tap 2).retained = some 0x30001000 ∧
    (s.tap 2).repeatCount < (s.tap 2).params.repeatLimit ∧ s.slot 0x30001000 = none ∧
    (s.tap 2).inst = some instA ∧ instA.ended = false ∧ instA.number = 1 := by
  refine ⟨?_, ?_, ?_, ?_, rfl, rfl⟩ <;> decide +kernel

/-- A damaged completion settles under REPEAT beside a retained slot posted so often, which one queue
entry names. -/
def claiming (posted : Nat) : State :=
  let s := settling running 3 .running .repeating
  let e := { entryA with addr := 0x30001000, state := .posted, posted := posted, retained := true }
  ({ s with supply := { s.supply with table := s.supply.table ++ [e] } }).updTap 2 fun tp =>
    { tp with retained := some 0x30001000, queue := [{ queueA with slot := some 0x30001000 }] }

/-- Repeated at 15 claims, silenced at 16 (R130, R131). -/
theorem witness_HoldDecisionQueued_claims :
    ((claiming 14).slot 0x30001000).map (claiming 14).claims = some 15 ∧
    ((claiming 15).slot 0x30001000).map (claiming 15).claims = some 16 ∧
    after (exec (.settledCompletionJudged 2) (claiming 14))
      (fun t => (t.tap 2).queue.map (·.outcome)) = some [.clean, .repeated] ∧
    after (exec (.settledCompletionJudged 2) (claiming 15))
      (fun t => (t.tap 2).queue.map (·.outcome)) = some [.clean, .silent] ∧
    classCount 0x3FF = 10 ∧ classCount 0x201 = 2 := by
  refine ⟨?_, ?_, ?_, ?_, ?_, ?_⟩ <;> decide +kernel

/-- Tap 2's queue holds n STARVED entries of a run, and a completion settles. -/
def starving (n run more : Nat) (kind : CompletionKind) (frame : FrameNo) : State :=
  running.updTap 2 fun tp => { tp with
    queue := List.replicate n (starvedRun run)
    settling := [{ frame := frame, kind := kind, run := more, number := 1 }] }

theorem witness_HoldDecisionQueued_others :
    ((starving 8 1 254 .starved 6).tap 2).queue.getLast? = some (starvedRun 1) ∧
    (5 : FrameNo) + BitVec.ofNat 12 1 = 6 ∧ 1 + 254 ≤ 255 ∧
    ((starving 8 254 2 .starved 259).tap 2).queue.getLast? = some (starvedRun 254) ∧
    ((starving 7 254 2 .starved 259).tap 2).queue.getLast? = some (starvedRun 254) ∧
    (5 : FrameNo) + BitVec.ofNat 12 254 = 259 ∧ 254 < 255 ∧ 255 < 254 + 2 ∧
    8 ≤ ((starving 8 1 1 .abandoned 6).tap 2).queue.length ∧
    ((starving 7 1 1 .abandoned 6).tap 2).queue.length < 8 ∧
    ((starving 1 255 1 .starved 260).tap 2).queue.getLast? = some (starvedRun 255) ∧
    (running.tap 2).queue.getLast? = none := by
  refine ⟨?_, ?_, ?_, ?_, ?_, ?_, ?_, ?_, ?_, ?_, ?_, ?_⟩ <;> decide +kernel

theorem witness_HoldDecisionQueued_due :
    running.reporter.interval ≠ 0 ∧ running.reporter.queue = [] ∧
    ((queued running false).tap 2).queue.filter (fun q => !q.due) = [queueA] ∧
    5 ≤ ((running.updTap 2 fun tp => { tp with queue := List.replicate 5 queueA }).tap
      2).queue.length ∧
    queueA.due = false := by
  refine ⟨?_, rfl, ?_, ?_, rfl⟩ <;> decide +kernel

theorem witness_FreeIndexTaken : configured.Up ∧ configured.device ≠ .halted ∧
    configured.regions = some regions ∧ halted.device = .halted ∧ State.reset.regions = none ∧
    configured.supply.refill = none ∧ configured.supply.stack.length < 4 ∧
    (refilling configured).supply.refill = some refillA ∧
    (flying running (snooped .free) txn).oldestPiece 1 = some (snooped .free) :=
  ⟨rfl, by decide, rfl, rfl, rfl, rfl, by decide, rfl, rfl⟩

theorem witness_RefillAddressesTaken : (refilling configured).Up ∧
    (refilling configured).oldestBurst .refill = some (ownBurst .refill, .live) ∧
    (refilling configured).supply.refill = some refillA ∧ refillA.waiting = [] ∧
    (refilling configured).ownInFlight .refill .live = 1 ∧
    ([0x30000000, 0] : List Word).length = (ownBurst .refill).len ∧
    (refilling configured).regions = some regions ∧
    (owning configured .refill .resetDiscarded).oldestBurst .refill =
      some (ownBurst .refill, .resetDiscarded) ∧
    configured.validSlot regions 0x30000000 = true ∧ configured.validSlot regions 0 = false ∧
    ((refilling configured).takeAddrs regions [0x30000000, 0]).2 = [0] ∧ 0 < regions.freeSize := by
  refine ⟨rfl, ?_, rfl, rfl, ?_, rfl, rfl, ?_, ?_, ?_, ?_, ?_⟩ <;> decide +kernel

theorem witness_AwaitingPushReleased :
    (holding running { entryA with awaitingPush := true }).slot slotA =
      some { entryA with awaitingPush := true } ∧ entryA.outstanding = 0 ∧ running.Up ∧
    (holding running { entryA with awaitingPush := true }).device ≠ .halted ∧
    ∀ e, running.slot slotA = some e → e.awaitingPush = false ∨ e.outstanding ≠ 0 := by
  refine ⟨?_, rfl, rfl, ?_, ?_⟩
  · decide +kernel
  · decide +kernel
  · have : running.slot slotA = none := by decide +kernel
    simp [this]

theorem witness_ReportIndexTaken : configured.Up ∧ configured.device ≠ .halted ∧
    configured.regions = some regions ∧ configured.reporter.write = none ∧
    (waitingReport configured).nextReport = some (.queued (.supply [0])) ∧
    (0 + 16 - 1 % 16) % 16 + 1 = 16 ∧ (0 + 16 - 2 % 16) % 16 + 1 < 16 ∧
    (flying running (snooped .report) txn).oldestPiece 1 = some (snooped .report) := by
  refine ⟨rfl, ?_, rfl, rfl, ?_, ?_, ?_, rfl⟩ <;> decide +kernel

theorem witness_ReportPrepared : (waitingReport configured).Up ∧
    (waitingReport configured).device ≠ .halted ∧
    (waitingReport configured).regions = some regions ∧
    (waitingReport configured).reporter.write = none ∧
    (waitingReport configured).nextReport = some (.queued (.supply [0])) ∧
    configured.nextReport = none ∧ 14 + 1 < regions.reportSize ∧ regions.reportSize ≤ 15 + 1 ∧
    (List.replicate 6 queueA).length ≤ 6 ∧ (List.replicate 12 slotA).length ≤ 12 := by
  refine ⟨rfl, ?_, rfl, rfl, ?_, ?_, ?_, ?_, ?_, ?_⟩ <;> decide +kernel

def heldReport : QueuedReport :=
  { body := .tapState 2 .running .holding .starvation none, flush := 1 }

theorem witness_ReportPreference :
    let s := { queued running true with
      reporter := { running.reporter with queue := [heldReport] } }
    s.reporter.queue = heldReport :: [] ∧ 0 < heldReport.flush ∧ (s.tap 2).queue ≠ [] ∧
    (waitingReport running).reporter.queue = supplyReport :: [] ∧
    (∀ u old new reason stream, supplyReport.body ≠ .tapState u old new reason stream) ∧
    (holding running { entryA with state := .returning }).returning ≠ [] ∧
    (queued running true).returning = [] ∧
    ((queued running true).tap 2).queue.takeWhile (·.due) ≠ [] ∧
    ∀ v : TapNo, v < 2 → ((queued running true).tap v).queue.takeWhile (·.due) = [] := by
  refine ⟨rfl, ?_, ?_, rfl, ?_, ?_, ?_, ?_, ?_⟩
  · decide
  · decide +kernel
  · simp [supplyReport]
  · decide +kernel
  · decide +kernel
  · decide +kernel
  · decide +kernel

theorem witness_ReportWritten :
    let s := reporting (queued (holding configured { entryA with state := .complete }) true)
      (.frames 2 [{ queueA with due := true }])
    s.Up ∧ s.oldestBurst .report = some (ownBurst .report, .live) ∧ s.regions = some regions ∧
    (s.tap 2).queue = [{ queueA with due := true }] ++ [] ∧
    s.slot slotA = some { entryA with state := .complete } := by
  refine ⟨rfl, rfl, rfl, ?_, ?_⟩ <;> decide +kernel

theorem witness_ReportWritten_others :
    let merged := { starvedRun 3 with due := true }
    let s := reporting (configured.updTap 2 fun tp => { tp with queue := [merged, queueA] })
      (.frames 2 [starvedRun 1])
    s.oldestBurst .report = some (ownBurst .report, .live) ∧ [starvedRun 1] = [] ++ [starvedRun 1] ∧
    (s.tap 2).queue = [] ++ merged :: [queueA] ∧ (starvedRun 1).run < merged.run ∧
    (owning configured .report .haltDiscarded).oldestBurst .report =
      some (ownBurst .report, .haltDiscarded) ∧
    configured.device ≠ .halted ∧ 32 ≤ (List.replicate 32 supplyReport).length := by
  refine ⟨rfl, rfl, ?_, ?_, ?_, ?_, ?_⟩ <;> decide +kernel

/-- A RETURN report carries the only RETURNING entry, or one of two. -/
theorem witness_ReportWritten_returned :
    let back := { entryA with state := .returning }
    let s := reporting (holding configured back) (.returned [slotA])
    let two := { s with supply := { s.supply with table := [back, { back with addr := 0x30001000 }] } }
    s.oldestBurst .report = some (ownBurst .report, .live) ∧ s.supply.refill = none ∧
    after (exec .reportWriteComplete s) (·.returning) = some [] ∧
    after (exec .reportWriteComplete two) (·.returning) = some [0x30001000] ∧
    (refilling configured).supply.refill = some refillA := by
  refine ⟨rfl, rfl, ?_, ?_, rfl⟩ <;> decide +kernel

theorem witness_ReportWritten_handed :
    (List.replicate 31 supplyReport).length < 32 ∧ 32 ≤ (List.replicate 32 supplyReport).length ∧
    halted.device = .halted ∧ configured.device ≠ .halted := by
  refine ⟨?_, ?_, rfl, ?_⟩ <;> decide

theorem witness_CoalescingExpiryMakesDue : (queued configured false).Up ∧
    (queued configured false).device ≠ .halted ∧
    ((queued configured false).tap 2).timer = some 4 ∧ configured.reporter.interval ≤ 4 ∧
    (configured.tap 2).timer = none := by
  refine ⟨rfl, ?_, ?_, ?_, ?_⟩ <;> decide +kernel

theorem witness_CoalescingExpiryMakesDue_readiness :
    (∃ e ∈ ((queued configured false).tap 2).queue, e.due = false) ∧
    ∀ e ∈ ((queued configured true).tap 2).queue, e.due = true := by
  refine ⟨⟨queueA, ?_, rfl⟩, ?_⟩ <;> decide +kernel

theorem witness_DirectiveIndexTaken : configured.Up ∧ configured.directive.batch = .idle ∧
    (1 : Word).toNat % 32 ≠ configured.directive.consumer.val ∧
    (32 : Word).toNat % 32 = configured.directive.consumer.val ∧
    configured.ownInFlight .fetch .haltDiscarded = 0 ∧
    (owning halted .fetch .haltDiscarded).ownInFlight .fetch .haltDiscarded ≠ 0 ∧
    (fetching configured).directive.batch = .inProgress := by
  refine ⟨rfl, rfl, ?_, ?_, rfl, ?_, rfl⟩ <;> decide +kernel

theorem witness_UnreadableRecordRejected : (fetching configured).Up ∧
    (List.replicate 64 (0 : Byte)).length = 64 ∧ (fetching configured).FetchEnds ∧
    directiveCheck (List.replicate 64 0) = false ∧ directiveCheck (record [0x14]) = true ∧
    readDirective (record [0x14]) = none ∧
    ∀ k ∈ ([0x10, 0x11, 0x12, 0x13, 0x20, 0x21, 0x22, 0x30, 0x40, 0x41, 0x50, 0x51, 0x5A] :
      List Byte), byteAt (record [k]) 0 = k :=
  ⟨rfl, by decide, ⟨rfl, rfl⟩, by decide +kernel, by decide +kernel, by decide +kernel,
    by decide +kernel⟩

theorem witness_FetchedDirectiveRuns : (fetching configured).Up ∧ (record [0x13]).length = 64 ∧
    (fetching configured).FetchEnds ∧ directiveCheck (record [0x13]) = true ∧
    readDirective (record [0x13]) = some .stop ∧ directiveCheck (record [0x5A]) = true ∧
    readDirective (record [0x5A]) = some .warmReset :=
  ⟨rfl, by decide +kernel, ⟨rfl, rfl⟩, by decide +kernel, by decide +kernel, by decide +kernel,
    by decide +kernel⟩

/-- n fetches discarded at the entry to HALTED in flight, a batch begun since. -/
def refetching (n : Nat) : State :=
  { halted with
    link := { halted.link with inFlight := List.replicate n (.own fetchA .haltDiscarded) }
    directive := { halted.directive with batch := .inProgress, fetch := none, recorded := 1 } }

theorem witness_FetchedDirectiveRuns_discarded : (refetching 1).Up ∧
    (refetching 1).oldestBurst .fetch = some (fetchA, .haltDiscarded) ∧
    (refetching 1).ownInFlight .fetch .haltDiscarded = 1 ∧
    1 < (refetching 2).ownInFlight .fetch .haltDiscarded ∧
    (refetching 1).directive.batch = .inProgress ∧ (refetching 1).directive.fetch = none ∧
    (owning configured .fetch .resetDiscarded).oldestBurst .fetch =
      some (ownBurst .fetch, .resetDiscarded) ∧ configured.directive.batch ≠ .inProgress := by
  refine ⟨rfl, ?_, ?_, ?_, rfl, rfl, ?_, ?_⟩ <;> decide

theorem witness_NextRecordAdvances :
    configured.directive.consumer + 1 ≠ configured.directive.recorded ∧
    configured.ownInFlight .fetch .haltDiscarded = 0 ∧
    (fetching configured).directive.consumer + 1 = (fetching configured).directive.recorded ∧
    (fetching halted).device = .halted ∧ (fetching configured).device ≠ .halted := by
  refine ⟨?_, rfl, rfl, rfl, ?_⟩ <;> decide

theorem witness_WrongStateRejected : halted.Up ∧ (Directive.command .stop).wf = true ∧
    ¬ Directive.executedIn halted .stop ∧ ¬ Directive.executedIn State.reset .start ∧
    ¬ Directive.executedIn running (.configure params) ∧
    ¬ Directive.executedIn configured .forceResync := by
  refine ⟨rfl, rfl, ?_, ?_, ?_, ?_⟩ <;>
    simp [Directive.executedIn, halted, State.reset, State.coldReset, running, configured]

theorem witness_ConfigureTaken : State.reset.Up ∧
    Directive.executedIn State.reset (.configure params) ∧ State.reset.ConfigureAllowed params ∧
    ¬ State.reset.ConfigureAllowed { params with landingBase := 0x3FFF8000 } := by
  refine ⟨rfl, ⟨rfl, rfl, rfl⟩, ⟨?_, .inr rfl, ?_, ?_, ?_, ?_, ?_, ?_, ?_, ?_, ?_, ?_, ?_, ?_, ?_, ?_⟩,
    fun h => absurd h.2.2.2.2.2.2.2.2.2.1 ?_⟩
  · decide
  · decide
  · decide
  · decide
  · decide
  · decide
  · decide
  · decide
  · decide
  · decide
  · decide
  · decide
  · decide
  · decide
  · intro a h; cases h
  · decide

theorem witness_SetTimingPends : running.Up ∧ running.device ≠ .halted ∧
    (36 ≤ (36 : Byte).toNat ∧ (60 : Byte).toNat ≤ 60 ∧ 1 ≤ (1 : Byte).toNat ∧
      (64 : Byte).toNat ≤ 64 ∧ (63 : Byte).toNat ≤ 63) ∧
    ¬ 36 ≤ (35 : Byte).toNat ∧ ¬ (61 : Byte).toNat ≤ 60 ∧ ¬ (65 : Byte).toNat ≤ 64 ∧
    ¬ (64 : Byte).toNat ≤ 63 :=
  ⟨rfl, by decide, by decide, by decide, by decide, by decide, by decide⟩

theorem witness_StartAndStop : configured.Up ∧ Directive.executedIn configured .start ∧
    configured.device = .stopped ∧ running.Up ∧ running.device.active = true ∧
    (tapped.tap 2).bound = true ∧ (tapped.tap 0).state = .closed ∧
    ((tapped.updTap 2 fun tp => { tp with state := .orphaned }).tap 2).state = .orphaned :=
  ⟨rfl, ⟨rfl, by simp [configured]⟩, rfl, rfl, rfl, by decide +kernel, by decide +kernel,
    by decide +kernel⟩

theorem witness_TapOpenTaken : configured.Up ∧ configured.device ≠ .halted ∧
    ((7 : Byte).toNat ≤ 7 ∧ (47 : Byte).toNat ≤ 47 ∧ ParamsInRange 2 9 15 3) ∧
    (∀ v : TapNo, v.val ≠ 7 → (configured.tap v).state = .closed ∧
      (configured.tap v).pendingOpen = none) ∧
    (configured.tap 7).state = .closed ∧ (configured.tap 7).pendingOpen = none ∧
    (tapped.tap 2).state ≠ .closed ∧ (tapped.tap 2).NamesByte 9 ∧ ¬ ParamsInRange 3 0 1 0 := by
  refine ⟨rfl, by decide, ⟨by decide, by decide, by unfold ParamsInRange; decide⟩,
    by decide +kernel, by decide +kernel, by decide +kernel, by decide +kernel,
    .inl ⟨by decide +kernel, by decide +kernel⟩, by unfold ParamsInRange; decide⟩

theorem witness_TapAdjustTaken : configured.Up ∧ configured.device ≠ .halted ∧
    ParamsInRange 0 0 1 0 ∧ ¬ ParamsInRange 0 0 16 0 ∧ (configured.tap 0).state = .closed ∧
    (configured.tap 0).pendingOpen = none ∧ (tapped.tap 2).state ≠ .closed ∧
    (tapped.tap 2).pendingOpen = none ∧
    ((configured.openTap 1 0 (configured.tap 1).params).tap 1).pendingOpen =
      some (0, (configured.tap 1).params) := by
  refine ⟨rfl, by decide, by unfold ParamsInRange; decide, by unfold ParamsInRange; decide,
    by decide +kernel, by decide +kernel, by decide +kernel, by decide +kernel, by decide +kernel⟩

theorem witness_TapCloseTaken : tapped.Up ∧ tapped.device ≠ .halted ∧ 7 < (8 : Byte).toNat ∧
    (2 : TapNo).val = (2 : Byte).toNat ∧ (tapped.tap 2).state ≠ .closed ∧
    (tapped.tap 7).state = .closed ∧
    (∃ l ∈ (tapped.tap 2).openFrames, l.slot = some slotA) ∧ tapped.slot slotA = some entryA := by
  refine ⟨rfl, by decide +kernel, by decide, by decide, by decide +kernel, by decide +kernel, ?_,
    by decide +kernel⟩
  exact ⟨{ frame := 5, slot := some slotA }, by decide +kernel, rfl⟩

/-- The dropped slot has writes outstanding, and another slot is retained. -/
theorem witness_TapCloseTaken_outstanding :
    let kept := { entryA with addr := 0x30001000, state := .posted, retained := true }
    let s := tapped.updTap 2 fun tp => { tp with retained := some 0x30001000 }
    let s := { s with supply := { s.supply with table := [{ entryA with outstanding := 1 }, kept] } }
    s.Up ∧ (s.tap 2).state ≠ .closed ∧ (s.tap 2).retained = some 0x30001000 ∧
    (s.slot slotA).map (·.outstanding) = some 1 ∧ s.slot 0x30001000 = some kept := by
  refine ⟨rfl, ?_, ?_, ?_, ?_⟩ <;> decide +kernel

theorem witness_ReleaseTaken :
    let one := { entryA with state := .posted, posted := 1 }
    running.Up ∧ running.device ≠ .halted ∧ (0 : Byte).toNat < 1 ∧
    12 < (13 : Byte).toNat ∧ (12 : Byte).toNat ≤ (List.replicate 12 slotA).length ∧
    (holding running { one with posted := 2 }).slot slotA = some { one with posted := 2 } ∧
    (holding running { one with retained := true }).slot slotA = some { one with retained := true } ∧
    (holding running one).slot slotA = some one ∧
    (∀ u, ((holding running one).tap u).queue = []) ∧
    queueA ∈ ((queued (holding running one) false).tap 2).queue ∧ queueA.slot = some slotA ∧
    running.slot slotA = none := by
  refine ⟨rfl, ?_, ?_, ?_, ?_, ?_, ?_, ?_, ?_, ?_, rfl, ?_⟩ <;> decide +kernel

theorem witness_ForceResyncTaken : tapped.Up ∧ tapped.device.active = true ∧
    (tapped.tap 2).bound = true ∧ (tapped.tap 0).bound = false ∧ tapped.device ≠ .acquiring := by
  refine ⟨rfl, ?_, ?_, ?_, ?_⟩ <;> decide +kernel

theorem witness_ForgetLayoutTaken : tapped.Up ∧ tapped.device ≠ .halted ∧
    (tapped.tap 2).bound = true ∧ (tapped.tap 0).state = .closed ∧
    ((tapped.updTap 2 fun tp => { tp with state := .orphaned }).tap 2).state = .orphaned := by
  refine ⟨rfl, ?_, ?_, ?_, ?_⟩ <;> decide +kernel

theorem witness_ClearFaultsAndSetAlerts : halted.Up ∧ running.Up ∧ running.device ≠ .halted ∧
    1 < (2 : Byte).toNat ∧ (1 : Byte).toNat ≤ 1 :=
  ⟨rfl, rfl, by decide, by decide, by decide⟩

theorem witness_WarmResetTaken : halted.Up := rfl

theorem witness_OwnErrorHalts : (fetching running).Up ∧ (fetching running).device ≠ .halted ∧
    (fetching running).oldestOwn .fetch = some .live ∧ (fetching running).supply.refill = none ∧
    (refilling running).oldestOwn .refill = some .live := by
  refine ⟨rfl, ?_, ?_, rfl, ?_⟩ <;> decide

/-- A fetch in flight before a refill's burst, n of whose entries were issued. -/
def fetchingBeside (n : Nat) (inFlight : List Issued) : State :=
  { running with
    link := { running.link with inFlight := .own fetchA .live :: inFlight }
    supply := { running.supply with refill := some { refillA with issuedEntries := n } } }

theorem witness_OwnErrorHalts_refill :
    (fetchingBeside 0 []).oldestOwn .fetch = some .live ∧
    OwnKind.fetch ≠ .refill ∧ (fetchingBeside 2 []).supply.refill ≠ none ∧
    (fetchingBeside 2 [.own (ownBurst .refill) .live]).ownInFlight .refill .live ≠ 0 ∧
    (fetchingBeside 2 []).ownInFlight .refill .live = 0 ∧
    (fetchingBeside 2 []).regions = some regions := by
  refine ⟨?_, ?_, ?_, ?_, ?_, rfl⟩ <;> decide

theorem witness_OwnErrorHalts_discarded :
    (owning running .status .resetDiscarded).oldestOwn .status = some .resetDiscarded ∧
    (owning halted .refill .live).oldestOwn .refill = some .live ∧ halted.device = .halted ∧
    (fetching halted).oldestOwn .fetch = some .live ∧
    (owning halted .fetch .haltDiscarded).oldestOwn .fetch = some .haltDiscarded ∧
    (owning halted .fetch .haltDiscarded).ownInFlight .fetch .haltDiscarded = 1 ∧
    (owning halted .fetch .haltDiscarded).directive.fetch = none := by
  refine ⟨?_, ?_, rfl, ?_, ?_, ?_, rfl⟩ <;> decide

theorem witness_StatusWrite :
    let s := { configured with directive := { configured.directive with
      statusRequest := true, statusEnable := true } }
    let w : State := { owning configured .status .live with directive := { configured.directive with
      status := some [] } }
    s.Up ∧ s.device ≠ .halted ∧ s.directive.statusRequest = true ∧
    s.directive.statusEnable = true ∧ s.directive.status = none ∧
    w.oldestBurst .status = some (ownBurst .status, .live) ∧ w.directive.status = some [] ∧
    w.ownInFlight .status .live = 1 ∧
    (owning configured .status .resetDiscarded).oldestBurst .status =
      some (ownBurst .status, .resetDiscarded) := by
  refine ⟨rfl, ?_, rfl, rfl, rfl, ?_, rfl, ?_, ?_⟩ <;> decide

theorem witness_StatusWrite_again :
    let d : DirectiveUnit := { configured.directive with
      status := some [], statusRequest := true, statusEnable := true }
    let w : State := { owning configured .status .live with directive := d }
    w.device ≠ .halted ∧ w.directive.statusRequest = true ∧ w.directive.statusEnable = true ∧
    w.directive.status = some [] ∧ w.ownInFlight .status .live = 1 := by
  refine ⟨?_, rfl, rfl, rfl, ?_⟩ <;> decide

/-- The lanes of a word, a field and a buffer, and the counts of entries. -/
theorem witness_lanes_and_counts :
    toWords [1, 2, 3, 4, 5, 6, 7, 8, 9] = [0x04030201, 0x08070605] ∧ wordAt [1, 2, 3, 4, 5] 1 =
      0x05040302 ∧ halfAt [1, 2, 3] 1 = 0x0302 ∧
    byteAt (AsmBuffer.clear.write 7 0x04030201).bytes 28 = 1 ∧
    collectedCount (setEntry (setEntry MapEntries.absent 9 (some ⟨0, 1, .d1, true⟩)) 47
      (some ⟨4, 1, .d1, false⟩)) = 1 ∧
    (holding running { entryA with state := .returning }).workingSlots = 0 ∧
    tapped.workingSlots = 1 ∧ tapped.returning = [] := by
  refine ⟨?_, ?_, ?_, ?_, ?_, ?_, ?_, ?_⟩ <;> decide +kernel

theorem witness_StatusBlockLayout : State.reset.device = .stopped ∧ acquiring.device = .acquiring ∧
    running.device = .running ∧ { running with device := .coasting }.device = .coasting :=
  ⟨rfl, rfl, rfl, rfl⟩

end Sys2Proof.Tests
end

section
/-! SUPPORT. The free index word: a value given to slot supply by FREE_INDEX_TAKEN, and the values of
a piece of the directive page handed over by the snoop (R19, R107). -/

namespace Sys2Proof.Machine

/-- A command given while nRESET is high has its own meaning. -/
theorem State.whileUp_of_up {s : State} (up : s.Up) (k : Host.Outcome State Fault Refusal) :
    s.whileUp k = k := by
  unfold State.Up at up
  simp [State.whileUp, up]

/-! ## A value taken -/

theorem exec_freeIndexTaken {s : State} (up : s.Up) (v : Word) :
    exec (.freeIndexTaken v) s = .next (s.takeFreeIndex v) :=
  State.whileUp_of_up up _

/-- The rows of R107's table that ignore the value. -/
theorem State.takeFreeIndex_ignored {s : State} (h : s.device = .halted ∨ s.regions = none)
    (v : Word) : s.takeFreeIndex v = s := by
  unfold State.takeFreeIndex
  rcases h with halted | unconfigured
  · exact if_pos halted
  · rw [unconfigured]
    exact ite_self s

/-- The row of R107's table that records the value, and then tests for a refill (R109). -/
theorem State.takeFreeIndex_recorded {s : State} {r : Regions} (live : s.device ≠ .halted)
    (configured : s.regions = some r) (v : Word) :
    s.takeFreeIndex v =
      (s.updSupply fun p => { p with recorded := v.toNat % r.freeSize }).testRefill := by
  unfold State.takeFreeIndex
  rw [if_neg live, configured]

/-! ## The values of one piece -/

/-- A beat that lacks a strobe carries no value (R19). -/
theorem State.handIndex_partial {w : IndexWord} {b : WriteBeat} (h : ¬ allStrobes b = true)
    (s : State) : s.handIndex w b = s :=
  if_neg h

theorem State.handIndex_free {b : WriteBeat} (h : allStrobes b = true) (s : State) :
    s.handIndex .free b = s.takeFreeIndex b.data :=
  if_pos h

/-- The beats of an index word hand over the values of the fully strobed ones, in beat order (R19). -/
theorem State.foldl_handIndex {w : IndexWord} {take : State → Word → State}
    (full : ∀ (b : WriteBeat) (s : State), allStrobes b = true → s.handIndex w b = take s b.data)
    (beats : List WriteBeat) (s : State) :
    beats.foldl (State.handIndex w) s =
      ((beats.filter allStrobes).map (·.data)).foldl take s := by
  rw [List.foldl_map, List.foldl_filter]
  congr 1
  funext x b
  split
  · exact full b x ‹_›
  · exact State.handIndex_partial ‹_› x

theorem State.snoop_ok {p : Piece} {w : IndexWord} (h : p.snoop = some w) (s : State) :
    s.snoop .ok p = p.beats.foldl (State.handIndex w) s := by
  unfold State.snoop
  rw [h]

/-- The answer to a piece that no slot entry counts changes the links, and then what the snoop does. -/
theorem State.pieceAnswered_of_unredirected {p : Piece} (h : p.redirect = none) (s : State)
    (resp : Resp) (data : List Word) :
    ∃ u, s.OnlyLink u ∧ s.pieceAnswered p resp data = u.snoop resp p := by
  unfold State.pieceAnswered
  rw [h]
  refine ⟨_, ?_, rfl⟩
  rfl

/-- A write piece is answered by a response without data (R14, R16). -/
theorem exec_forwardedPieceResponse_write {s : State} {tag : Tag} {p : Piece} (up : s.Up)
    (oldest : s.oldestPiece tag = some p) (write : p.write = true) (resp : Resp) :
    exec (.forwardedPieceResponse tag resp []) s = .next (s.pieceAnswered p resp []) := by
  refine (State.whileUp_of_up up _).trans ?_
  simp [oldest, write]

end Sys2Proof.Machine
end

section
/-! CLAIMS. Slot supply: the free index value (R107). -/

namespace Sys2Proof.Machine

/-- A recorded value leaves a refill in flight as it is, and tests R109 where there is none. -/
theorem State.takeFreeIndex_spec {s : State} {r : Regions} (live : s.device ≠ .halted)
    (configured : s.regions = some r) (v : Word) :
    let t := s.takeFreeIndex v
    t = { s with supply := { s.supply with
      recorded := v.toNat % r.freeSize, refill := t.supply.refill } } ∧
    (∀ f, s.supply.refill = some f → t.supply.refill = some f) ∧
    (s.supply.refill = none → t.RefillTested r) := by
  rw [State.takeFreeIndex_recorded live configured v]
  obtain ⟨only, inFlight⟩ := State.testRefill_only
    (s.updSupply fun p => { p with recorded := v.toNat % r.freeSize })
  refine ⟨only, fun f hf => ?_, fun idle => State.testRefill_tested _ r configured idle⟩
  rw [inFlight f hf]
  exact hf

/-- An OK answer to a piece of the free index word takes its values in beat order (R19, R107). -/
theorem exec_forwardedPieceResponse_free {s : State} {tag : Tag} {p : Piece} (up : s.Up)
    (oldest : s.oldestPiece tag = some p) (write : p.write = true) (plain : p.redirect = none)
    (free : p.snoop = some .free) :
    ∃ t u, exec (.forwardedPieceResponse tag .ok []) s = .next t ∧ s.OnlyLink u ∧
      t = ((p.beats.filter allStrobes).map (·.data)).foldl State.takeFreeIndex u := by
  obtain ⟨u, links, answered⟩ := State.pieceAnswered_of_unredirected plain s .ok []
  refine ⟨_, u, exec_forwardedPieceResponse_write up oldest write .ok, links, ?_⟩
  calc s.pieceAnswered p .ok []
      = u.snoop .ok p := answered
    _ = p.beats.foldl (State.handIndex .free) u := State.snoop_ok free u
    _ = _ := State.foldl_handIndex (fun _ x full => State.handIndex_free full x) p.beats u

/-- Settles O34: the two rows that ignore a value, the row that records it, and the values of one
piece. -/
theorem freeIndexTaken : Obligations.FreeIndexTaken := by
  unfold Obligations.FreeIndexTaken
  refine ⟨fun s v up => ⟨fun ignored => ?_, fun r live configured => ?_⟩,
    fun _ _ _ up oldest write plain free =>
      exec_forwardedPieceResponse_free up oldest write plain free⟩
  · rw [exec_freeIndexTaken up, State.takeFreeIndex_ignored ignored]
  · exact ⟨_, exec_freeIndexTaken up v, State.takeFreeIndex_spec live configured v⟩

end Sys2Proof.Machine
end

section
/-! SUPPORT. The report index word: a value given to the reporter by REPORT_INDEX_TAKEN, and the
values of a piece of an index word handed over by the snoop (R19, R140). -/

namespace Sys2Proof.Machine

/-! ## A value taken -/

theorem exec_reportIndexTaken {s : State} (up : s.Up) (v : Word) :
    exec (.reportIndexTaken v) s = .next (s.takeReportIndex v) :=
  State.whileUp_of_up up _

/-- The device state and the ring that ignore the value (R140). -/
theorem State.takeReportIndex_ignored {s : State} (h : s.device = .halted ∨ s.regions = none)
    (v : Word) : s.takeReportIndex v = s := by
  unfold State.takeReportIndex
  rcases h with halted | unconfigured
  · exact if_pos halted
  · rw [unconfigured]
    exact ite_self s

/-- Otherwise the value is recorded, nREPORT judged again and readiness tested (R140, R142). -/
theorem State.takeReportIndex_recorded {s : State} {r : Regions} (live : s.device ≠ .halted)
    (configured : s.regions = some r) (v : Word) :
    s.takeReportIndex v =
      (s.updReporter fun x =>
        { x with recorded := v.toNat % r.reportSize }).judgeReport.testReports := by
  unfold State.takeReportIndex
  rw [if_neg live, configured]

/-- With the ring configured, nREPORT is low with alerts enabled and the indices apart (R150). -/
theorem State.judgeReport_configured {s : State} {r : Regions} (configured : s.regions = some r) :
    s.judgeReport = { s with reporter := { s.reporter with
      nReportLow := s.reporter.alertEnable && s.reporter.producer != s.reporter.recorded } } := by
  have level (e : Bool) (p n : Nat) : reportLevelLow s.regions.isSome e p n = (e && p != n) := by
    simp [reportLevelLow, configured]
  simp only [State.judgeReport, level]
  rfl

/-! ## The values of one piece -/

theorem State.handIndex_report {b : WriteBeat} (h : allStrobes b = true) (s : State) :
    s.handIndex .report b = s.takeReportIndex b.data :=
  if_pos h

/-- An OK answer to a piece of an index word gives the word's owner its values in beat order, after
the change to the links (R19). -/
theorem exec_forwardedPieceResponse_snooped {s : State} {tag : Tag} {p : Piece} {w : IndexWord}
    {take : State → Word → State} (up : s.Up) (oldest : s.oldestPiece tag = some p)
    (write : p.write = true) (plain : p.redirect = none) (snooped : p.snoop = some w)
    (full : ∀ (b : WriteBeat) (x : State),
      allStrobes b = true → x.handIndex w b = take x b.data) :
    ∃ t u, exec (.forwardedPieceResponse tag .ok []) s = .next t ∧ s.OnlyLink u ∧
      t = ((p.beats.filter allStrobes).map (·.data)).foldl take u := by
  obtain ⟨u, links, answered⟩ := State.pieceAnswered_of_unredirected plain s .ok []
  refine ⟨_, u, exec_forwardedPieceResponse_write up oldest write .ok, links, ?_⟩
  rw [answered, State.snoop_ok snooped]
  exact State.foldl_handIndex full p.beats u

end Sys2Proof.Machine
end

section
/-! CLAIMS. The reporter: the report index value (R140). -/

namespace Sys2Proof.Machine

/-- A recorded value and the level of nREPORT that follows it are what readiness is tested on. -/
theorem State.takeReportIndex_spec {s : State} {r : Regions} (live : s.device ≠ .halted)
    (configured : s.regions = some r) (v : Word) :
    State.TestsReports
      { s with reporter := { s.reporter with
        recorded := v.toNat % r.reportSize
        nReportLow := s.reporter.alertEnable &&
          s.reporter.producer != v.toNat % r.reportSize } }
      (s.takeReportIndex v) := by
  have judged := State.judgeReport_configured
    (s := s.updReporter fun x => { x with recorded := v.toNat % r.reportSize }) configured
  rw [State.takeReportIndex_recorded live configured v, judged]
  exact State.testReports_tests _

/-- Settles O37: the states that ignore a value, the value recorded, and the values of one piece. -/
theorem reportIndexTaken : Obligations.ReportIndexTaken := by
  unfold Obligations.ReportIndexTaken
  refine ⟨fun s v up => ⟨fun ignored => ?_, fun r live configured => ?_⟩,
    fun _ _ _ up oldest write plain snooped =>
      exec_forwardedPieceResponse_snooped up oldest write plain snooped
        fun _ x full => State.handIndex_report full x⟩
  · rw [exec_reportIndexTaken up, State.takeReportIndex_ignored ignored]
  · exact ⟨_, exec_reportIndexTaken up v, State.takeReportIndex_spec live configured v⟩

end Sys2Proof.Machine
end

section
/-! SUPPORT. A directive run behind its tests (R161, R162), and what CONFIGURE, CLEAR_FAULTS and
SET_ALERTS test and set (R149 to R151, R163, R169). -/

namespace Sys2Proof.Machine

/-! ## The tests of R161 -/

theorem State.isHalted_of_live {s : State} (live : s.device ≠ .halted) : s.isHalted = false :=
  beq_false_of_ne live

/-- A directive that passes tests 3 to 5 is executed. -/
theorem State.runUnless_executed {wrong bad : Bool} (s : State) (kind : Byte) (executed : State)
    (placed : wrong = false) (inRange : bad = false) :
    s.runUnless kind (firstFailure wrong bad false) executed = executed := by
  rw [placed, inRange]
  rfl

/-- Test 4 rejects a directive that passed test 3, whatever test 5 would say. -/
theorem State.runUnless_badParameter {wrong bad : Bool} (s : State) (kind : Byte) (busy : Bool)
    (executed : State) (placed : wrong = false) (outOfRange : bad = true) :
    s.RejectedAs (s.runUnless kind (firstFailure wrong bad busy) executed) kind
      .badParameter [] := by
  rw [placed, outOfRange]
  exact s.reject_rejected kind .badParameter []

/-! ## The parameters of CONFIGURE (R163) -/

theorem landingModeOf_isSome (b : Byte) : (landingModeOf b).isSome = true ↔ b = 1 ∨ b = 2 := by
  unfold landingModeOf
  split_ifs with linear streamed
  · simp [linear]
  · simp [streamed]
  · exact iff_of_false Bool.false_ne_true (not_or.mpr ⟨linear, streamed⟩)

/-- A landing mode byte in range names LINEAR or STREAMED. -/
theorem landingModeOf_getD {b : Byte} (h : b = 1 ∨ b = 2) :
    (landingModeOf b).getD .unconfigured = if b = 1 then .linear else .streamed := by
  rcases h with rfl | rfl <;> rfl

theorem rangesApart_iff : ∀ l : List (Nat × Nat), rangesApart l = true ↔
    l.Pairwise fun x y => rangesMeet x.1 x.2 y.1 y.2 = false
  | [] => by simp [rangesApart]
  | (b, n) :: rest => by simp [rangesApart, rangesApart_iff rest]

/-- The model's one test of a CONFIGURE's parameters is the list of R163. -/
theorem State.configureGood_iff (s : State) (p : ConfigureParams) :
    s.configureGood p = true ↔ s.ConfigureAllowed p := by
  simp only [State.configureGood, State.ConfigureAllowed, Bool.and_eq_true, landingModeOf_isSome,
    rangesApart_iff, configureRanges, beq_iff_eq, List.contains_iff_mem, List.all_cons,
    List.all_nil, List.all_eq_true, Bool.not_eq_true', decide_eq_true_eq, List.pairwise_cons,
    List.mem_cons, List.not_mem_nil, or_false, forall_eq_or_imp, forall_eq, and_true, and_assoc,
    forall_and, List.Pairwise.nil, false_implies, implies_true]

/-- In the state R162 asks of CONFIGURE, test 3 passes. -/
theorem State.configure_placed {s : State} {p : ConfigureParams}
    (placed : Directive.executedIn s (.configure p)) :
    (s.device != .stopped || s.supply.refill.isSome || s.reporter.write.isSome) = false := by
  obtain ⟨stopped, noRefill, noWrite⟩ := placed
  simp [stopped, noRefill, noWrite]

theorem State.runConfigure_rejected {s : State} {p : ConfigureParams}
    (placed : Directive.executedIn s (.configure p)) (bad : ¬ s.ConfigureAllowed p) :
    s.RejectedAs (s.runConfigure p) 0x10 .badParameter [] := by
  rw [← s.configureGood_iff p] at bad
  exact s.runUnless_badParameter _ _ _ (State.configure_placed placed) (by simp [bad])

theorem State.runConfigure_executed {s : State} {p : ConfigureParams}
    (placed : Directive.executedIn s (.configure p)) (allowed : s.ConfigureAllowed p) :
    s.runConfigure p = s.configure p := by
  rw [← s.configureGood_iff p] at allowed
  exact s.runUnless_executed _ _ (State.configure_placed placed) (by simp [allowed])

/-! ## Readiness with the ring empty (R139, R142, R150) -/

/-- What the readiness test can do: nothing, prepare a report in a ring with room, or latch
REPORTS_BLOCKED over a full one (R142). -/
theorem State.testReports_cases (s : State) :
    s.testReports = s ∨
    (∃ r c, s.regions = some r ∧ s.reportRoom r = true ∧ s.testReports = s.startReport r c) ∨
    ∃ r, s.regions = some r ∧ s.reportRoom r = false ∧
      s.testReports = s.latch .reportsBlocked := by
  by_cases quiet : s.device = .halted ∨ s.regions = none ∨ s.reporter.write ≠ none ∨
      s.nextReport = none
  · exact .inl (s.testReports_tests.1 quiet)
  · simp only [not_or, not_not] at quiet
    obtain ⟨live, configured, idle, ready⟩ := quiet
    obtain ⟨r, regions⟩ := Option.ne_none_iff_exists'.mp configured
    obtain ⟨c, next⟩ := Option.ne_none_iff_exists'.mp ready
    have tested : s.testReports =
        if s.reportRoom r then s.startReport r c else s.latch .reportsBlocked := by
      simp [State.testReports, live, regions, idle, next]
    cases room : s.reportRoom r with
    | true => exact .inr (.inl ⟨r, c, regions, room, by simp [tested, room]⟩)
    | false => exact .inr (.inr ⟨r, regions, room, by simp [tested, room]⟩)

/-- The readiness test moves neither index of the report ring. -/
theorem State.testReports_indices (s : State) :
    s.testReports.reporter.producer = s.reporter.producer ∧
      s.testReports.reporter.recorded = s.reporter.recorded := by
  rcases s.testReports_cases with same | ⟨_, _, _, _, started⟩ | ⟨_, _, _, blocked⟩
  · rw [same]
    exact ⟨rfl, rfl⟩
  · rw [started]
    exact ⟨rfl, rfl⟩
  · rw [blocked]
    exact ⟨rfl, rfl⟩

/-- With room in the ring the readiness test latches no flag. -/
theorem State.testReports_flags {s : State}
    (room : ∀ r, s.regions = some r → s.reportRoom r = true) :
    s.testReports.reporter.flags = s.reporter.flags := by
  rcases s.testReports_cases with same | ⟨_, _, _, _, started⟩ | ⟨r, regions, full, _⟩
  · rw [same]
  · rw [started]
    rfl
  · exact absurd (room r regions) (by simp [full])

/-- With its indices equal a ring of two entries or more has room. -/
theorem State.reportRoom_of_empty {s : State} {r : Regions}
    (empty : s.reporter.producer = 0 ∧ s.reporter.recorded = 0) (size : 1 < r.reportSize) :
    s.reportRoom r = true := by
  simp [State.reportRoom, State.reportsOutstanding, ringDistance, empty, size]

/-- With the indices of the report ring equal nREPORT is released (R150). -/
theorem State.judgeReport_of_empty {s : State} (empty : s.reporter.producer = s.reporter.recorded) :
    s.judgeReport = { s with reporter := { s.reporter with nReportLow := false } } := by
  simp [State.judgeReport, State.updReporter, reportLevelLow, empty]

/-- What an allowed CONFIGURE sets, its landing mode spelled out (R163). -/
theorem State.setRegions_of_mode {p : ConfigureParams} (s : State)
    (mode : p.landingMode = 1 ∨ p.landingMode = 2) :
    s.setRegions p =
      { s with
        regions := some
          { landingBase := p.landingBase, reportBase := p.reportBase
            reportSize := p.reportSize.toNat, freeBase := p.freeBase
            freeSize := p.freeSize.toNat }
        reception := { s.reception with
          mode := if p.landingMode = 1 then .linear else .streamed }
        supply := { s.supply with consumer := 0, recorded := 0 }
        reporter := { s.reporter with producer := 0, recorded := 0 } } := by
  rw [← landingModeOf_getD mode]
  rfl

/-- The report ring of an allowed CONFIGURE has room: its indices are 0 and its size is at least 16
(R139, R163). -/
theorem State.setRegions_room {s : State} {p : ConfigureParams} (allowed : s.ConfigureAllowed p) :
    ∀ r, (s.setRegions p).regions = some r → (s.setRegions p).reportRoom r = true := by
  intro r regions
  obtain ⟨-, -, -, sizes, -⟩ := allowed
  have size : r.reportSize = p.reportSize.toNat := by
    rw [← Option.some.inj regions]
    rfl
  refine State.reportRoom_of_empty ⟨rfl, rfl⟩ ?_
  simp only [List.mem_cons, List.not_mem_nil, or_false] at sizes
  omega

/-! ## Flags and pin enables (R149, R151, R169) -/

/-- nFAULT as judged, flag by flag (R151). -/
theorem Reporter.judgeFault_low_iff (r : Reporter) : r.judgeFault.nFaultLow = true ↔
    ∃ f : Flag, r.flagSet f = true ∧ (f = .busError ∨ r.pinEnables.getLsbD f.bit = true) :=
  faultLevelLow_iff r.flags r.pinEnables

/-- A flag left by CLEAR_FAULTS was set, and was not named or is BUS_ERROR in HALTED (R149). -/
theorem clearedFlags_bit (device : DeviceState) (flags named : BitVec 8) (f : Flag) :
    (clearedFlags device flags named).getLsbD f.bit = (flags.getLsbD f.bit &&
      (!named.getLsbD f.bit || (device == .halted && f == .busError))) := by
  have kept : (if device = .halted then Flag.busError.mask else 0).getLsbD f.bit =
      (device == .halted && f == .busError) := by
    split
    · simp [*, Flag.mask_bit]
    · simp [*]
  simp only [clearedFlags, BitVec.getLsbD_and, BitVec.getLsbD_or, BitVec.getLsbD_not, kept,
    f.bit_lt, decide_true, Bool.true_and]

/-- An empty set clears nothing (R169). -/
theorem clearedFlags_zero (device : DeviceState) (flags : BitVec 8) :
    clearedFlags device flags 0 = flags := by
  apply BitVec.eq_of_getLsbD_eq
  intro i inByte
  obtain ⟨f, rfl⟩ := flag_of_bit inByte
  simp [clearedFlags_bit]

/-- The pin enables that SET_ALERTS stores are those named, the BUS_ERROR bit ignored (R169). -/
theorem storedPins_bit (pins : BitVec 8) {f : Flag} (other : f ≠ .busError) :
    (pins &&& ~~~Flag.busError.mask).getLsbD f.bit = pins.getLsbD f.bit := by
  simp only [BitVec.getLsbD_and, BitVec.getLsbD_not, Flag.mask_bit, f.bit_lt, beq_false_of_ne other,
    decide_true, Bool.not_false, Bool.and_true]

/-- nFAULT goes low for BUS_ERROR with or without its pin enable, so ignoring that bit does not move
the line (R151, R169). -/
theorem fault_iff_storedPins (pins : BitVec 8) (f : Flag) :
    f = .busError ∨ (pins &&& ~~~Flag.busError.mask).getLsbD f.bit = true ↔
      f = .busError ∨ pins.getLsbD f.bit = true := by
  by_cases bus : f = .busError
  · simp [bus]
  · rw [storedPins_bit pins bus]

theorem reportLevelLow_iff (configured enabled : Bool) (producer recorded : Nat) :
    reportLevelLow configured enabled producer recorded = true ↔
      configured = true ∧ enabled = true ∧ producer ≠ recorded := by
  simp [reportLevelLow, and_assoc]

end Sys2Proof.Machine
end

section
/-! CLAIMS. Directives: CONFIGURE, SET_TIMING, CLEAR_FAULTS and SET_ALERTS (R149 to R151, R163,
R164, R169). -/

namespace Sys2Proof.Machine

/-! ## CONFIGURE -/

theorem exec_configure {s : State} (up : s.Up) (p : ConfigureParams) :
    exec (.configure p) s = .next (s.runConfigure p) :=
  State.whileUp_of_up up _

/-- After an allowed CONFIGURE readiness is tested on an empty ring, so no flag is latched, and
nREPORT is released (R142, R150, R163). -/
theorem State.configure_spec {s : State} {p : ConfigureParams} (allowed : s.ConfigureAllowed p) :
    let v := (s.setRegions p).testReports
    s.configure p = { v with reporter := { v.reporter with nReportLow := false } } ∧
      v.reporter.flags = s.reporter.flags := by
  obtain ⟨producer, recorded⟩ := (s.setRegions p).testReports_indices
  exact ⟨State.judgeReport_of_empty (producer.trans recorded.symm),
    State.testReports_flags (State.setRegions_room allowed)⟩

/-- Settles O47: the rejection, and the regions, mode and indices set before readiness is tested. -/
theorem configureTaken : Obligations.ConfigureTaken := by
  unfold Obligations.ConfigureTaken
  refine fun s p up placed => ⟨fun bad => ?_, fun allowed => ?_⟩
  · exact ⟨_, exec_configure up p, State.runConfigure_rejected placed bad⟩
  · have ⟨_, mode, _⟩ := allowed
    rw [exec_configure up, State.runConfigure_executed placed allowed, ← s.setRegions_of_mode mode]
    exact ⟨_, _, rfl, State.testReports_tests _, State.configure_spec allowed⟩

/-! ## SET_TIMING -/

theorem exec_setTiming {s : State} (up : s.Up) (gap coast summary : Byte) :
    exec (.setTiming gap coast summary) s = .next (s.runSetTiming gap coast summary) :=
  State.whileUp_of_up up _

theorem timingGood_iff (gap coast summary : Byte) : timingGood gap coast summary = true ↔
    36 ≤ gap.toNat ∧ gap.toNat ≤ 60 ∧ 1 ≤ coast.toNat ∧ coast.toNat ≤ 64 ∧ summary.toNat ≤ 63 := by
  simp [timingGood, and_assoc]

/-- The status block shows the timing values in force, not the pending ones (R164, R174). -/
theorem statusBytes_setTiming (s : State) (gap coast summary : Byte) (sequence : BitVec 8) :
    statusBytes (s.setTiming gap coast summary) sequence = statusBytes s sequence := rfl

/-- Settles O48: the values handed as pending, and the rejection. -/
theorem setTimingPends : Obligations.SetTimingPends := by
  unfold Obligations.SetTimingPends
  intro s gap coast summary up live good
  have placed := State.isHalted_of_live live
  refine ⟨fun inRange => ?_, fun bad => ?_⟩
  · have executed : s.runSetTiming gap coast summary = s.setTiming gap coast summary :=
      s.runUnless_executed _ _ placed (by simp [(timingGood_iff gap coast summary).mpr inRange])
    rw [exec_setTiming up, executed]
    exact ⟨_, rfl, rfl, statusBytes_setTiming s gap coast summary⟩
  · refine ⟨_, exec_setTiming up gap coast summary, s.runUnless_badParameter _ _ _ placed ?_⟩
    rw [Bool.not_eq_true', ← Bool.not_eq_true]
    exact mt (timingGood_iff gap coast summary).mp bad

/-! ## CLEAR_FAULTS and SET_ALERTS -/

theorem exec_clearFaults {s : State} (up : s.Up) (flags : Byte) :
    exec (.clearFaults flags) s = .next (s.runClearFaults flags) :=
  State.whileUp_of_up up _

theorem exec_setAlerts {s : State} (up : s.Up) (enable pins : Byte) :
    exec (.setAlerts enable pins) s = .next (s.runSetAlerts enable pins) :=
  State.whileUp_of_up up _

/-- CLEAR_FAULTS judges nFAULT again on the flags it leaves (R149, R151). -/
theorem State.runClearFaults_nFault_iff (s : State) (flags : Byte) :
    (s.runClearFaults flags).reporter.nFaultLow = true ↔
      ∃ f : Flag, (s.runClearFaults flags).reporter.flagSet f = true ∧
        (f = .busError ∨ s.reporter.pinEnables.getLsbD f.bit = true) :=
  Reporter.judgeFault_low_iff _

theorem State.runClearFaults_flags_of_empty (s : State) {flags : Byte} (empty : flags = 0) :
    (s.runClearFaults flags).reporter.flags = s.reporter.flags := by
  rw [empty]
  exact clearedFlags_zero s.device s.reporter.flags

/-- SET_ALERTS judges nFAULT on the pin enables named, BUS_ERROR needing none (R151, R169). -/
theorem State.setAlerts_nFault_iff (s : State) (enable pins : Byte) :
    (s.setAlerts enable pins).reporter.nFaultLow = true ↔
      ∃ f : Flag, s.reporter.flagSet f = true ∧
        (f = .busError ∨ pins.getLsbD f.bit = true) := by
  refine (Reporter.judgeFault_low_iff _).trans ?_
  simp only [fault_iff_storedPins]
  rfl

/-- SET_ALERTS judges nREPORT on the alert enable named (R150, R169). -/
theorem State.setAlerts_nReport_iff (s : State) (enable pins : Byte) :
    (s.setAlerts enable pins).reporter.nReportLow = true ↔
      s.regions ≠ none ∧ enable = 1 ∧ s.reporter.producer ≠ s.reporter.recorded :=
  (reportLevelLow_iff _ _ _ _).trans <|
    and_congr Option.isSome_iff_ne_none (and_congr beq_iff_eq .rfl)

/-- The status block shows no enable and no line (R169, R174). -/
theorem statusBytes_setAlerts (s : State) (enable pins : Byte) (sequence : BitVec 8) :
    statusBytes (s.setAlerts enable pins) sequence = statusBytes s sequence := rfl

/-- Settles O56: the flags CLEAR_FAULTS leaves, the rejection of SET_ALERTS, and the enables and
lines it sets. -/
theorem clearFaultsAndSetAlerts : Obligations.ClearFaultsAndSetAlerts := by
  unfold Obligations.ClearFaultsAndSetAlerts
  refine ⟨fun s flags up => ?_, fun s enable pins up live => ⟨fun high => ?_, fun inRange => ?_⟩⟩
  · exact ⟨_, exec_clearFaults up flags, rfl, clearedFlags_bit _ _ _,
      s.runClearFaults_nFault_iff flags, s.runClearFaults_flags_of_empty⟩
  · exact ⟨_, exec_setAlerts up enable pins,
      s.runUnless_badParameter _ _ _ (State.isHalted_of_live live) (decide_eq_true high)⟩
  · have executed : s.runSetAlerts enable pins = s.setAlerts enable pins :=
      s.runUnless_executed _ _ (State.isHalted_of_live live)
        (decide_eq_false (Nat.not_lt.mpr inRange))
    rw [exec_setAlerts up, executed]
    exact ⟨_, rfl, rfl, beq_iff_eq, fun _ other => storedPins_bit pins other,
      s.setAlerts_nFault_iff enable pins, s.setAlerts_nReport_iff enable pins,
      statusBytes_setAlerts s enable pins⟩

end Sys2Proof.Machine
end

section
/-! SUPPORT. The meaning of each command while nRESET is high, and while it is low (R182). -/

namespace Sys2Proof.Machine

/-- While nRESET is low every command but the two of nRESET leaves the state (R182, log 6). -/
theorem exec_of_low {s : State} {c : Instr} (low : s.nResetLow = true) (fall : c ≠ .nresetLow)
    (rise : ∀ band, c ≠ .nresetRise band) : exec c s = .next s := by
  have idle (k : Host.Outcome State Fault Refusal) : s.whileUp k = .next s := if_pos low
  cases c with
  | nresetLow => exact absurd rfl fall
  | nresetRise band => exact absurd rfl (rise band)
  | _ => exact idle _

section
variable {s : State} (up : s.Up)
include up

theorem exec_upstreamWriteAccept (tag : Tag) (a : Word) (k : BurstKind) (bs : List WriteBeat) :
    exec (.upstreamWriteAccept tag a k bs) s =
      if linkPresents a bs.length then
        .next (if s.linkOpen then s.acceptWrite tag a k bs else s)
      else .refused .notPresented :=
  State.whileUp_of_up up _

theorem exec_upstreamReadAccept (tag : Tag) (a : Word) (k : BurstKind) (n : Nat) :
    exec (.upstreamReadAccept tag a k n) s =
      if linkPresents a n then .next (if s.linkOpen then s.acceptRead tag a k n else s)
      else .refused .notPresented :=
  State.whileUp_of_up up _

theorem exec_upstreamResponseDelivery :
    exec .upstreamResponseDelivery s = .next (s.updLink Link.deliver) :=
  State.whileUp_of_up up _

theorem exec_arbiterGrant : exec .arbiterGrant s = .next s.grant := State.whileUp_of_up up _

theorem exec_directiveIndexTaken (v : Word) :
    exec (.directiveIndexTaken v) s = .next (s.takeDirectiveIndex v) :=
  State.whileUp_of_up up _

theorem exec_reportPrepare : exec .reportPrepare s = .next s.testReports :=
  State.whileUp_of_up up _

theorem exec_statusBlockWriteStart : exec .statusBlockWriteStart s = .next s.testStatus :=
  State.whileUp_of_up up _

theorem exec_frameGapTimerExpiry : exec .frameGapTimerExpiry s = .next s.timerExpiry :=
  State.whileUp_of_up up _

theorem exec_coalescingTimerExpiry (u : TapNo) : exec (.coalescingTimerExpiry u) s =
    .next (if s.device = .halted then s else s.timerCheck u) :=
  State.whileUp_of_up up _

theorem exec_settledCompletionJudged (u : TapNo) : exec (.settledCompletionJudged u) s =
    .next (if s.device = .halted then s else s.settle u) :=
  State.whileUp_of_up up _

theorem exec_awaitingPushReleased (a : Word) : exec (.awaitingPushReleased a) s =
    .next (if s.device = .halted then s else s.releaseAwaiting a) :=
  State.whileUp_of_up up _

theorem exec_start : exec .start s = .next s.runStart := State.whileUp_of_up up _

theorem exec_stop : exec .stop s = .next s.runStop := State.whileUp_of_up up _

theorem exec_tapOpen (tap stream policy tolerance repeatLimit floor : Byte) :
    exec (.tapOpen tap stream policy tolerance repeatLimit floor) s =
      .next (s.runTapOpen tap stream policy tolerance repeatLimit floor) :=
  State.whileUp_of_up up _

theorem exec_tapAdjust (tap policy tolerance repeatLimit floor : Byte) :
    exec (.tapAdjust tap policy tolerance repeatLimit floor) s =
      .next (s.runTapAdjust tap policy tolerance repeatLimit floor) :=
  State.whileUp_of_up up _

theorem exec_tapClose (tap : Byte) : exec (.tapClose tap) s = .next (s.runTapClose tap) :=
  State.whileUp_of_up up _

theorem exec_release (n : Byte) (l : List Word) : exec (.release n l) s =
    if n.toNat ≤ 12 ∧ l.length < n.toNat then .refused .badShape else .next (s.runRelease n l) :=
  State.whileUp_of_up up _

theorem exec_forceResync : exec .forceResync s = .next s.runForceResync :=
  State.whileUp_of_up up _

theorem exec_forgetLayout : exec .forgetLayout s = .next s.runForgetLayout :=
  State.whileUp_of_up up _

theorem exec_warmReset : exec .warmReset s = .next s.runWarmReset := State.whileUp_of_up up _

end

end Sys2Proof.Machine
end

section
/-! SUPPORT. The commands that answer a burst or a piece: what each leaves when it completes (R15,
R16, R33), and the directives run as commands (R161). -/

namespace Sys2Proof.Machine

/-- A command that completes leaves one state. -/
theorem eq_of_next {s t : State} (h : (.next s : Host.Outcome State Fault Refusal) = .next t) :
    t = s := by
  cases h
  rfl

section
variable {s : State} (up : s.Up)
include up

/-! ## Responses that answer nothing issued (R16) -/

theorem exec_refillComplete_none (data : List Word) (none : s.oldestBurst .refill = none) :
    exec (.refillComplete data) s = .fault .nothingToAnswer := by
  refine (State.whileUp_of_up up _).trans ?_
  rw [none]

theorem exec_reportWriteComplete_none (none : s.oldestOwn .report = none) :
    exec .reportWriteComplete s = .fault .nothingToAnswer := by
  refine (State.whileUp_of_up up _).trans ?_
  rw [none]

theorem exec_statusBlockWriteComplete_none (none : s.oldestOwn .status = none) :
    exec .statusBlockWriteComplete s = .fault .nothingToAnswer := by
  refine (State.whileUp_of_up up _).trans ?_
  rw [none]

theorem exec_ownAccessError_none {k : OwnKind} (data : List Word) (none : s.oldestOwn k = none) :
    exec (.ownAccessError k data) s = .fault .nothingToAnswer := by
  refine (State.whileUp_of_up up _).trans ?_
  rw [none]

theorem exec_directiveFetchComplete_none {bytes : List Byte} (shape : bytes.length = 64)
    (none : s.oldestOwn .fetch = none) :
    exec (.directiveFetchComplete bytes) s = .fault .nothingToAnswer := by
  refine (State.whileUp_of_up up _).trans ?_
  rw [if_neg (not_not.mpr shape), none]

theorem exec_forwardedPieceResponse_none {tag : Tag} (resp : Resp) (data : List Word)
    (none : s.oldestPiece tag = none) :
    exec (.forwardedPieceResponse tag resp data) s = .fault .nothingToAnswer := by
  refine (State.whileUp_of_up up _).trans ?_
  rw [none]

/-! ## Responses to a burst in flight (R16, R33) -/

theorem exec_refillComplete_live {b : OwnBurst} {data : List Word}
    (oldest : s.oldestBurst .refill = some (b, .live)) (shape : data.length = b.len) :
    exec (.refillComplete data) s =
      .next ((s.answerOwn .refill).gatherRefill data).refillAnswered := by
  refine (State.whileUp_of_up up _).trans ?_
  simp [oldest, shape]

theorem exec_refillComplete_discarded {b : OwnBurst} {life : Life} {data : List Word}
    (oldest : s.oldestBurst .refill = some (b, life)) (shape : data.length = b.len)
    (dead : life ≠ .live) : exec (.refillComplete data) s = .next (s.answerOwn .refill) := by
  refine (State.whileUp_of_up up _).trans ?_
  simp [oldest, shape, dead]

theorem exec_reportWriteComplete_live (oldest : s.oldestOwn .report = some .live) :
    exec .reportWriteComplete s = .next (s.answerOwn .report).reportAnswered := by
  refine (State.whileUp_of_up up _).trans ?_
  rw [oldest]

theorem exec_reportWriteComplete_discarded {life : Life}
    (oldest : s.oldestOwn .report = some life) (dead : life ≠ .live) :
    exec .reportWriteComplete s = .next (s.answerOwn .report) := by
  refine (State.whileUp_of_up up _).trans ?_
  rw [oldest]
  cases life with
  | live => exact absurd rfl dead
  | haltDiscarded => rfl
  | resetDiscarded => rfl

theorem exec_statusBlockWriteComplete_live (oldest : s.oldestOwn .status = some .live) :
    exec .statusBlockWriteComplete s = .next (s.answerOwn .status).statusAnswered := by
  refine (State.whileUp_of_up up _).trans ?_
  rw [oldest]

theorem exec_statusBlockWriteComplete_discarded {life : Life}
    (oldest : s.oldestOwn .status = some life) (dead : life ≠ .live) :
    exec .statusBlockWriteComplete s = .next (s.answerOwn .status) := by
  refine (State.whileUp_of_up up _).trans ?_
  rw [oldest]
  cases life with
  | live => exact absurd rfl dead
  | haltDiscarded => rfl
  | resetDiscarded => rfl

theorem exec_ownAccessError_some {k : OwnKind} {life : Life} (data : List Word)
    (oldest : s.oldestOwn k = some life) :
    exec (.ownAccessError k data) s = .next ((s.answerOwn k).ownError k life) := by
  refine (State.whileUp_of_up up _).trans ?_
  rw [oldest]

theorem exec_directiveFetchComplete_live {bytes : List Byte} (shape : bytes.length = 64)
    (ends : s.FetchEnds) :
    exec (.directiveFetchComplete bytes) s = .next (s.fetched.takeDirectiveRecord bytes) := by
  obtain ⟨oldest, fetch⟩ := ends
  refine (State.whileUp_of_up up _).trans ?_
  rw [if_neg (not_not.mpr shape), oldest]
  exact if_pos fetch

theorem exec_directiveFetchComplete_haltDiscarded {bytes : List Byte} (shape : bytes.length = 64)
    (oldest : s.oldestOwn .fetch = some .haltDiscarded) :
    exec (.directiveFetchComplete bytes) s = .next (s.answerOwn .fetch).resumeFetch := by
  refine (State.whileUp_of_up up _).trans ?_
  rw [if_neg (not_not.mpr shape), oldest]

theorem exec_directiveFetchComplete_resetDiscarded {bytes : List Byte} (shape : bytes.length = 64)
    (oldest : s.oldestOwn .fetch = some .resetDiscarded) :
    exec (.directiveFetchComplete bytes) s = .next (s.answerOwn .fetch) := by
  refine (State.whileUp_of_up up _).trans ?_
  rw [if_neg (not_not.mpr shape), oldest]

theorem exec_forwardedPieceResponse_last {tag : Tag} {p : Piece} {data : List Word} (resp : Resp)
    (oldest : s.oldestPiece tag = some p) (shape : data.length = if p.write then 0 else p.len) :
    exec (.forwardedPieceResponse tag resp data) s = .next (s.pieceAnswered p resp data) := by
  refine (State.whileUp_of_up up _).trans ?_
  rw [oldest]
  exact if_pos shape

theorem exec_forwardedPieceResponse_words {tag : Tag} {p : Piece} {data : List Word} (resp : Resp)
    (oldest : s.oldestPiece tag = some p) (read : p.write = false) (some : data ≠ [])
    (short : data.length < p.len) :
    exec (.forwardedPieceResponse tag resp data) s = .next (s.wordsArrived p data) := by
  refine (State.whileUp_of_up up _).trans ?_
  simp [oldest, read, some, short, short.ne]

/-! ## What a response that completes leaves -/

theorem exec_refillComplete_next {data : List Word} {t : State}
    (h : exec (.refillComplete data) s = .next t) :
    t = s.answerOwn .refill ∨ t = ((s.answerOwn .refill).gatherRefill data).refillAnswered := by
  rw [exec, execRefillComplete, State.whileUp_of_up up] at h
  split at h
  · cases h
  · split_ifs at h with shape live
    · exact .inr (eq_of_next h)
    · exact .inl (eq_of_next h)

theorem exec_reportWriteComplete_next {t : State} (h : exec .reportWriteComplete s = .next t) :
    t = s.answerOwn .report ∨ t = (s.answerOwn .report).reportAnswered := by
  rw [exec, execReportWriteComplete, State.whileUp_of_up up] at h
  split at h
  · cases h
  · exact .inr (eq_of_next h)
  · exact .inl (eq_of_next h)

theorem exec_statusBlockWriteComplete_next {t : State}
    (h : exec .statusBlockWriteComplete s = .next t) :
    t = s.answerOwn .status ∨ t = (s.answerOwn .status).statusAnswered := by
  rw [exec, execStatusBlockWriteComplete, State.whileUp_of_up up] at h
  split at h
  · cases h
  · exact .inr (eq_of_next h)
  · exact .inl (eq_of_next h)

theorem exec_ownAccessError_next {k : OwnKind} {data : List Word} {t : State}
    (h : exec (.ownAccessError k data) s = .next t) :
    ∃ life, s.oldestOwn k = some life ∧ t = (s.answerOwn k).ownError k life := by
  cases oldest : s.oldestOwn k with
  | none => rw [exec_ownAccessError_none up data oldest] at h; cases h
  | some life =>
    rw [exec_ownAccessError_some up data oldest] at h
    exact ⟨life, rfl, eq_of_next h⟩

theorem exec_directiveFetchComplete_next {bytes : List Byte} {t : State}
    (h : exec (.directiveFetchComplete bytes) s = .next t) :
    t = s.answerOwn .fetch ∨ t = (s.answerOwn .fetch).resumeFetch ∨
      t = s.fetched.takeDirectiveRecord bytes := by
  rw [exec, execDirectiveFetchComplete, State.whileUp_of_up up] at h
  split at h
  · cases h
  split at h
  · cases h
  · split at h
    · exact .inr (.inr (eq_of_next h))
    · cases h
  · exact .inr (.inl (eq_of_next h))
  · exact .inl (eq_of_next h)

theorem exec_forwardedPieceResponse_next {tag : Tag} {resp : Resp} {data : List Word} {t : State}
    (h : exec (.forwardedPieceResponse tag resp data) s = .next t) :
    ∃ p, s.oldestPiece tag = some p ∧
      (t = s.pieceAnswered p resp data ∨ t = s.wordsArrived p data) := by
  rw [exec, execForwardedPieceResponse, State.whileUp_of_up up] at h
  split at h
  · cases h
  · rename_i p oldest
    generalize (if p.write then 0 else p.len) = expected at h
    split at h
    · exact ⟨p, oldest, .inl (eq_of_next h)⟩
    · split at h
      · exact ⟨p, oldest, .inr (eq_of_next h)⟩
      · cases h

theorem exec_upstreamWriteAccept_next {tag : Tag} {a : Word} {k : BurstKind} {bs : List WriteBeat}
    {t : State} (h : exec (.upstreamWriteAccept tag a k bs) s = .next t) :
    t = s ∨ (s.linkOpen = true ∧ t = s.acceptWrite tag a k bs) := by
  rw [exec_upstreamWriteAccept up] at h
  split_ifs at h with shape opened
  · exact .inr ⟨opened, eq_of_next h⟩
  · exact .inl (eq_of_next h)

theorem exec_upstreamReadAccept_next {tag : Tag} {a : Word} {k : BurstKind} {n : Nat}
    {t : State} (h : exec (.upstreamReadAccept tag a k n) s = .next t) :
    t = s ∨ (s.linkOpen = true ∧ t = s.acceptRead tag a k n) := by
  rw [exec_upstreamReadAccept up] at h
  split_ifs at h with shape opened
  · exact .inr ⟨opened, eq_of_next h⟩
  · exact .inl (eq_of_next h)

/-! ## The directives as commands -/

/-- A directive of a good shape runs as its command, in the present state (R161, log 2). -/
theorem exec_command (d : Directive) (shape : d.command.wf = true) :
    exec d.command s = .next (s.runDirective d) := by
  cases d with
  | release n l =>
    have fits : ¬ (n.toNat ≤ 12 ∧ l.length < n.toNat) := by
      simp only [Directive.command, Instr.wf, Bool.or_eq_true, decide_eq_true_eq] at shape
      omega
    exact (exec_release up n l).trans (if_neg fits)
  | _ => exact State.whileUp_of_up up _

theorem exec_command_next {d : Directive} {t : State} (h : exec d.command s = .next t) :
    t = s.runDirective d := by
  cases d with
  | release n l =>
    rw [Directive.command, exec_release up] at h
    split_ifs at h
    exact eq_of_next h
  | _ => exact eq_of_next ((State.whileUp_of_up up _).symm.trans h)

end

end Sys2Proof.Machine
end

section
/-! SUPPORT. What every command keeps: the pins and the queue of commands, and the invariants of
Safety (R7, R14, R65, R94, R97, R108, R114, R121, R141, R150, R151). -/

namespace Sys2Proof.Machine

/-- The pins, the strap band and the queue of commands are as before, and every invariant of Safety
but HALTED's quiet that held holds. -/
structure State.Sound (s t : State) : Prop where
  nResetLow : t.nResetLow = s.nResetLow
  strap : t.strap = s.strap
  pending : t.pending = s.pending
  apart : s.SlotsApart → t.SlotsApart
  capacity : s.WithinCapacity → t.WithinCapacity
  lines : s.Up → s.LinesTrue → t.LinesTrue
  maps : s.MapsSound → t.MapsSound

/-- A change that is sound and does not enter HALTED. -/
structure State.Runs (s t : State) : Prop extends State.Sound s t where
  live : s.device ≠ .halted → t.device ≠ .halted

theorem State.Sound.up {s t : State} (h : s.Sound t) (up : s.Up) : t.Up := h.nResetLow.trans up

theorem State.Sound.trans {s t u : State} (h : s.Sound t) (k : t.Sound u) : s.Sound u where
  nResetLow := k.nResetLow.trans h.nResetLow
  strap := k.strap.trans h.strap
  pending := k.pending.trans h.pending
  apart := k.apart ∘ h.apart
  capacity := k.capacity ∘ h.capacity
  lines := fun up l => k.lines (h.up up) (h.lines up l)
  maps := k.maps ∘ h.maps

theorem State.Runs.trans {s t u : State} (h : s.Runs t) (k : t.Runs u) : s.Runs u :=
  ⟨h.toSound.trans k.toSound, k.live ∘ h.live⟩

theorem State.Upkeep.runs {s t : State} (h : s.Upkeep t) : s.Runs t := by
  obtain ⟨low, strap, -, -, pending⟩ := h.outside
  exact ⟨⟨low, strap, pending, h.apart, h.capacity, h.lines, h.maps⟩, h.up⟩

theorem State.Runs.refl (s : State) : s.Runs s := (State.Upkeep.refl s).runs

theorem State.Runs.foldl {α : Type} (f : State → α → State) (h : ∀ (s : State) a, s.Runs (f s a))
    (l : List α) (s : State) : s.Runs (l.foldl f s) := by
  induction l generalizing s with
  | nil => exact .refl s
  | cons a l ih => exact (h s a).trans (ih (f s a))

/-- A change of the links that keeps the outstanding-transaction table within its 16 entries. -/
theorem State.OnlyLink.runs {s t : State} (h : s.OnlyLink t)
    (txns : s.link.txns.length ≤ Config.maxOutstanding →
      t.link.txns.length ≤ Config.maxOutstanding) : s.Runs t := by
  have same : t = { s with link := t.link } := h
  rw [same]
  exact
    { nResetLow := rfl, strap := rfl, pending := rfl, apart := id, live := id
      capacity := fun k => ⟨txns k.txns, k.stack, k.table, k.settling, k.queue, k.reports⟩
      lines := fun _ k => ⟨k.fault, k.report⟩
      maps := State.MapsSound.ofLayout rfl }

theorem State.answerOwn_runs (s : State) (k : OwnKind) : s.Runs (s.answerOwn k) :=
  (s.answerOwn_only k).runs id

/-! ## The lines judged again (R150, R151) -/

theorem State.LinesTrue.faultTrue {s : State} (k : s.LinesTrue) (up : s.Up) :
    s.reporter.FaultTrue := by
  have fault := k.fault
  rw [show s.nResetLow = false from up] at fault
  simpa [Reporter.FaultTrue] using fault

/-- With nFAULT as its function says, nREPORT judged again makes both lines true. -/
theorem State.judgeReport_lines {s : State} (up : s.Up) (fault : s.reporter.FaultTrue) :
    s.judgeReport.LinesTrue := by
  have up' : s.nResetLow = false := up
  constructor
  · simpa [State.judgeReport, up', Reporter.FaultTrue] using fault
  · simp [State.judgeReport, up']

/-- A change of the reporter that keeps its queue's length and leaves nFAULT as its function says,
behind which nREPORT is judged again. -/
theorem State.judgeReport_runs (s : State) (f : Reporter → Reporter)
    (queue : (f s.reporter).queue = s.reporter.queue)
    (fault : s.reporter.FaultTrue → (f s.reporter).FaultTrue) :
    s.Runs (s.updReporter f).judgeReport where
  nResetLow := rfl
  strap := rfl
  pending := rfl
  apart := id
  capacity := fun k =>
    ⟨k.txns, k.stack, k.table, k.settling, k.queue, (congrArg List.length queue).trans_le k.reports⟩
  lines := fun up k => State.judgeReport_lines up (fault (k.faultTrue up))
  maps := State.MapsSound.ofLayout rfl
  live := id

theorem State.takeReportIndex_runs (s : State) (v : Word) : s.Runs (s.takeReportIndex v) := by
  by_cases ignored : s.device = .halted ∨ s.regions = none
  · rw [State.takeReportIndex_ignored ignored]
    exact .refl s
  · obtain ⟨live, configured⟩ := not_or.mp ignored
    obtain ⟨r, configured⟩ := Option.ne_none_iff_exists'.mp configured
    rw [State.takeReportIndex_recorded live configured]
    exact (s.judgeReport_runs _ rfl id).trans (State.testReports_keeps _).upkeep.runs

theorem State.advanceProducer_runs (s : State) (n : Nat) : s.Runs (s.advanceProducer n) :=
  s.judgeReport_runs _ rfl id

theorem State.setAlerts_runs (s : State) (enable pins : Byte) : s.Runs (s.setAlerts enable pins) :=
  s.judgeReport_runs _ rfl fun _ => rfl

theorem State.runClearFaults_runs (s : State) (flags : Byte) : s.Runs (s.runClearFaults flags) where
  nResetLow := rfl
  strap := rfl
  pending := rfl
  apart := id
  capacity := fun k => ⟨k.txns, k.stack, k.table, k.settling, k.queue, k.reports⟩
  lines := fun up k => by
    have up' : s.nResetLow = false := up
    refine ⟨?_, k.report⟩
    simp [State.runClearFaults, Reporter.judgeFault, up']
  maps := State.MapsSound.ofLayout rfl
  live := id

/-- CONFIGURE judges nREPORT after the readiness test that its ring indices call for (R163). -/
theorem State.configure_runs (s : State) (p : ConfigureParams) : s.Runs (s.configure p) := by
  have tested := State.testReports_keeps (s.setRegions p)
  obtain ⟨low, strap, device, -, link, -, layout, -, pending⟩ := tested.same
  exact
    { nResetLow := low, strap := strap, pending := pending, apart := tested.apart
      capacity := fun k =>
        ⟨link ▸ k.txns, tested.stack k.stack, tested.table k.table,
          fun u => tested.settling u (k.settling u), fun u => tested.queue u (k.queue u),
          tested.reports k.reports⟩
      lines := fun up k =>
        State.judgeReport_lines (low.trans up) (tested.fault (k.faultTrue up))
      maps := State.MapsSound.ofLayout layout
      live := fun k => device ▸ k }

/-! ## Directives and their records -/

theorem State.runUnless_runs (s : State) (k : Byte) (f : Option RejectReason) {t : State}
    (h : s.Runs t) : s.Runs (s.runUnless k f t) := by
  cases f with
  | none => exact h
  | some r => exact (s.reject_keeps _ _ _).upkeep.runs

/-- A cold or warm reset's empty tables and released lines meet every invariant. -/
theorem State.warmValues_runs (s : State) : s.Runs s.warmValues where
  nResetLow := rfl
  strap := rfl
  pending := rfl
  apart := fun _ => List.nodup_nil
  capacity := fun k =>
    ⟨k.txns, Nat.zero_le _, Nat.zero_le _, fun u => by simp [State.tap, State.warmValues, Tap.reset],
      fun u => by simp [State.tap, State.warmValues, Tap.reset], Nat.zero_le _⟩
  lines := fun up _ => by
    have up' : s.warmValues.nResetLow = false := up
    constructor
    · simp [State.warmValues, Reporter.reset, faultLevelLow]
    · rw [up']; rfl
  maps := fun _ => ⟨.absent, .absent, fun _ => .absent, .absent⟩
  live := fun _ h => by cases h

theorem State.runWarmReset_runs (s : State) : s.Runs s.runWarmReset :=
  s.warmValues_runs.trans (State.requestStatus_upkeep _).runs

theorem State.runDirective_runs (s : State) (d : Directive) : s.Runs (s.runDirective d) := by
  cases d with
  | configure p => exact s.runUnless_runs _ _ (s.configure_runs p)
  | setTiming gap coast summary => exact (s.runSetTiming_upkeep _ _ _).runs
  | start => exact s.runStart_upkeep.runs
  | stop => exact s.runStop_upkeep.runs
  | tapOpen tap stream policy tolerance repeatLimit floor =>
    exact (s.runTapOpen_upkeep _ _ _ _ _ _).runs
  | tapAdjust tap policy tolerance repeatLimit floor =>
    exact (s.runTapAdjust_upkeep _ _ _ _ _).runs
  | tapClose tap => exact (s.runTapClose_upkeep _).runs
  | release n l => exact (s.runRelease_upkeep _ _).runs
  | forceResync => exact s.runForceResync_upkeep.runs
  | forgetLayout => exact s.runForgetLayout_upkeep.runs
  | clearFaults flags => exact s.runClearFaults_runs flags
  | setAlerts enable pins => exact s.runUnless_runs _ _ (s.setAlerts_runs enable pins)
  | warmReset => exact s.runWarmReset_runs

theorem State.takeDirectiveRecord_runs (s : State) (bytes : List Byte) :
    s.Runs (s.takeDirectiveRecord bytes) := by
  have rejected (r : RejectReason) : s.Runs (s.reject (byteAt bytes 0) r []).nextRecord :=
    (s.reject_keeps _ _ _).upkeep.runs.trans (State.nextRecord_only _).upkeep.runs
  unfold State.takeDirectiveRecord
  split
  · split
    · exact s.runWarmReset_runs
    · exact (s.runDirective_runs _).trans (State.nextRecord_only _).upkeep.runs
    · exact rejected _
  · exact rejected _

theorem State.fetched_runs (s : State) : s.Runs s.fetched :=
  (s.answerOwn_runs .fetch).trans
    (show (s.answerOwn .fetch).OnlyDirective s.fetched from rfl).upkeep.runs

/-! ## The links -/

theorem State.acceptWrite_runs {s : State} (opened : s.linkOpen = true) (tag : Tag) (a : Word)
    (k : BurstKind) (bs : List WriteBeat) : s.Runs (s.acceptWrite tag a k bs) := by
  obtain ⟨u, x, pieces, kept, enters, -⟩ := s.acceptWrite_enters tag a k bs
  have link : u.link = s.link := kept.outside.2.2.2.1
  rw [enters]
  refine kept.runs.trans (State.OnlyLink.runs rfl fun _ => ?_)
  have room : s.link.txns.length < Config.maxOutstanding := of_decide_eq_true opened
  simpa [Link.enter, link] using room

theorem State.acceptRead_runs {s : State} (opened : s.linkOpen = true) (tag : Tag) (a : Word)
    (k : BurstKind) (n : Nat) : s.Runs (s.acceptRead tag a k n) := by
  have room : s.link.txns.length < Config.maxOutstanding := of_decide_eq_true opened
  refine (s.acceptRead_only tag a k n).runs fun _ => ?_
  simpa [State.acceptRead, Link.enter] using room

theorem Link.deliver_txns (l : Link) : l.deliver.txns.length ≤ l.txns.length := by
  unfold Link.deliver
  split
  · exact List.length_filter_le _ _
  · exact le_rfl

/-- The own burst that the arbiter prefers comes from one kind's unissued bursts (R32). -/
theorem State.ownWaiting_takes {s u : State} {b : OwnBurst} (h : s.ownWaiting = some (b, u)) :
    ∃ k rest, s.unissued k = some (b :: rest) ∧ u = s.takeBurst b rest k := by
  obtain ⟨k, -, found⟩ := List.exists_of_findSome?_eq_some h
  cases bursts : s.unissued k with
  | none => simp [bursts, nextBurst] at found
  | some l =>
    cases l with
    | nil => simp [bursts, nextBurst] at found
    | cons c rest =>
      simp only [bursts, nextBurst, Option.map_some, Option.some.injEq, Prod.mk.injEq] at found
      obtain ⟨rfl, rfl⟩ := found
      exact ⟨k, rest, bursts, rfl⟩

theorem State.takeBurst_runs (s : State) (b : OwnBurst) (rest : List OwnBurst) (k : OwnKind) :
    s.Runs (s.takeBurst b rest k) := by
  cases k with
  | fetch => exact (show s.OnlyDirective (s.takeBurst b rest .fetch) from rfl).upkeep.runs
  | refill =>
    exact (s.supplyIndices_keeps
      (fun p => { p with refill := p.refill.map fun r => r.issue b rest }) rfl rfl).upkeep.runs
  | report =>
    exact (s.updReporter_keeps
      (fun r => { r with write := r.write.map fun w => { w with waiting := rest } })
      id id ⟨rfl, rfl, rfl, rfl, rfl⟩).upkeep.runs
  | status => exact (show s.OnlyDirective (s.takeBurst b rest .status) from rfl).upkeep.runs

theorem State.grant_runs (s : State) : s.Runs s.grant := by
  have own {b : OwnBurst} {u : State} (h : s.ownWaiting = some (b, u)) : s.Runs (u.issueOwn b) := by
    obtain ⟨k, rest, -, rfl⟩ := State.ownWaiting_takes h
    exact (s.takeBurst_runs b rest k).trans (State.OnlyLink.runs rfl id)
  have piece (p : Piece) (rest : List Piece) : s.Runs (s.updLink fun l => l.issuePiece p rest) :=
    State.OnlyLink.runs rfl id
  unfold State.grant
  split
  · exact .refl s
  · exact own ‹_›
  · exact piece _ _
  · split
    · exact piece _ _
    · exact own ‹_›

theorem State.handIndex_runs (w : IndexWord) (s : State) (b : WriteBeat) :
    s.Runs (State.handIndex w s b) := by
  unfold State.handIndex
  split
  · cases w with
    | directive => exact (s.takeDirectiveIndex_only _).upkeep.runs
    | report => exact s.takeReportIndex_runs _
    | free => exact (s.takeFreeIndex_keeps _).upkeep.runs
  · exact .refl s

theorem State.snoop_runs (s : State) (resp : Resp) (p : Piece) : s.Runs (s.snoop resp p) := by
  unfold State.snoop
  split
  · exact .foldl _ (State.handIndex_runs _) _ s
  · exact .refl s

theorem State.pieceAnswered_runs (s : State) (p : Piece) (resp : Resp) (data : List Word) :
    s.Runs (s.pieceAnswered p resp data) := by
  have links : s.Runs (s.updLink fun l =>
      (l.answerPiece p.tag).answer p resp (s.pieceData (s.examines p) p data)) :=
    State.OnlyLink.runs rfl (by simp [Link.answer, Link.answerPiece])
  exact (links.trans (State.redirectAnswered_keeps _ _ _).upkeep.runs).trans
    (State.snoop_runs _ _ _)

theorem State.wordsArrived_runs (s : State) (p : Piece) (data : List Word) :
    s.Runs (s.wordsArrived p data) :=
  State.OnlyLink.runs rfl (by simp [State.wordsArrived, Link.gather])

/-! ## Answers to own accesses -/

theorem State.reportAnswered_runs (s : State) : s.Runs s.reportAnswered := by
  unfold State.reportAnswered
  split
  · rename_i w r _ _
    have written := (s.advanceProducer_runs r.reportSize).trans
      (State.reportWritten_keeps _ w.content).upkeep.runs
    refine State.Runs.trans ?_ (State.testReports_keeps _).upkeep.runs
    split
    · split
      · exact written.trans (State.testRefill_keeps _).upkeep.runs
      · exact written
    · exact written
  · exact .refl s

theorem State.statusAnswered_only (s : State) : s.OnlyDirective s.statusAnswered := by
  unfold State.statusAnswered
  split
  · exact State.OnlyDirective.trans (s := s) (t := s.updDirective _) rfl (State.testStatus_only _)
  · rfl

/-- What HALTED sets at its entry keeps every invariant; nFAULT is judged with BUS_ERROR latched
(R151, R179). -/
theorem State.haltAt_sound (s : State) (k : OwnKind) : s.Sound (s.haltAt k) where
  nResetLow := rfl
  strap := rfl
  pending := rfl
  apart := id
  capacity := fun c => ⟨c.txns, c.stack, c.table, c.settling, c.queue, c.reports⟩
  lines := fun up c => by
    have up' : s.nResetLow = false := up
    refine ⟨?_, c.report⟩
    simp [State.haltAt, Reporter.latch, Reporter.judgeFault, up']
  maps := State.MapsSound.ofLayout rfl

theorem State.haltedError_runs (s : State) (k : OwnKind) : s.Runs (s.haltedError k) := by
  cases k with
  | fetch => exact (show s.OnlyDirective (s.haltedError .fetch) from rfl).upkeep.runs
  | refill =>
    exact (s.supplyIndices_keeps (fun p => { p with refill := none }) rfl rfl).upkeep.runs.trans
      (State.OnlyLink.runs rfl id)
  | report => exact .refl s
  | status => exact .refl s

theorem State.ownError_sound (s : State) (k : OwnKind) (life : Life) :
    s.Sound (s.ownError k life) := by
  cases life with
  | live =>
    rw [State.ownError]
    split
    · exact (s.haltedError_runs k).toSound
    · exact (s.haltAt_sound k).trans (State.enterHalted_keeps s k).upkeep.runs.toSound
  | haltDiscarded =>
    rw [State.ownError]
    split
    · exact (s.resumeFetch_only).upkeep.runs.toSound
    · exact (State.Runs.refl s).toSound
  | resetDiscarded => exact (State.Runs.refl s).toSound

/-! ## Every command -/

/-- No command but the two of nRESET and an ERROR to an own access enters HALTED or breaks an
invariant. -/
theorem exec_runs {c : Instr} {s t : State} (up : s.Up) (h : exec c s = .next t)
    (fall : c ≠ .nresetLow) (rise : ∀ band, c ≠ .nresetRise band)
    (error : ∀ k data, c ≠ .ownAccessError k data) : s.Runs t := by
  have directive {d : Directive} (h : exec d.command s = .next t) : s.Runs t := by
    rw [exec_command_next up h]
    exact s.runDirective_runs d
  cases c with
  | nresetLow => exact absurd rfl fall
  | nresetRise band => exact absurd rfl (rise band)
  | ownAccessError k data => exact absurd rfl (error k data)
  | upstreamWriteAccept tag a k bs =>
    obtain rfl | ⟨opened, rfl⟩ := exec_upstreamWriteAccept_next up h
    · exact .refl _
    · exact State.acceptWrite_runs opened tag a k bs
  | upstreamReadAccept tag a k n =>
    obtain rfl | ⟨opened, rfl⟩ := exec_upstreamReadAccept_next up h
    · exact .refl _
    · exact State.acceptRead_runs opened tag a k n
  | upstreamResponseDelivery =>
    rw [eq_of_next ((exec_upstreamResponseDelivery up).symm.trans h)]
    exact State.OnlyLink.runs rfl (Link.deliver_txns s.link).trans
  | arbiterGrant =>
    rw [eq_of_next ((exec_arbiterGrant up).symm.trans h)]
    exact s.grant_runs
  | forwardedPieceResponse tag resp data =>
    obtain ⟨p, -, rfl | rfl⟩ := exec_forwardedPieceResponse_next up h
    · exact s.pieceAnswered_runs p resp data
    · exact s.wordsArrived_runs p data
  | directiveIndexTaken v =>
    rw [eq_of_next ((exec_directiveIndexTaken up v).symm.trans h)]
    exact (s.takeDirectiveIndex_only v).upkeep.runs
  | reportIndexTaken v =>
    rw [eq_of_next ((exec_reportIndexTaken up v).symm.trans h)]
    exact s.takeReportIndex_runs v
  | freeIndexTaken v =>
    rw [eq_of_next ((exec_freeIndexTaken up v).symm.trans h)]
    exact (s.takeFreeIndex_keeps v).upkeep.runs
  | directiveFetchComplete bytes =>
    obtain rfl | rfl | rfl := exec_directiveFetchComplete_next up h
    · exact s.answerOwn_runs _
    · exact (s.answerOwn_runs _).trans (State.resumeFetch_only _).upkeep.runs
    · exact s.fetched_runs.trans (State.takeDirectiveRecord_runs _ bytes)
  | refillComplete data =>
    obtain rfl | rfl := exec_refillComplete_next up h
    · exact s.answerOwn_runs _
    · exact (s.answerOwn_runs _).trans
        ((State.gatherRefill_keeps _ data).trans (State.refillAnswered_keeps _)).upkeep.runs
  | reportPrepare =>
    rw [eq_of_next ((exec_reportPrepare up).symm.trans h)]
    exact s.testReports_keeps.upkeep.runs
  | reportWriteComplete =>
    obtain rfl | rfl := exec_reportWriteComplete_next up h
    · exact s.answerOwn_runs _
    · exact (s.answerOwn_runs _).trans (State.reportAnswered_runs _)
  | statusBlockWriteStart =>
    rw [eq_of_next ((exec_statusBlockWriteStart up).symm.trans h)]
    exact s.testStatus_upkeep.runs
  | statusBlockWriteComplete =>
    obtain rfl | rfl := exec_statusBlockWriteComplete_next up h
    · exact s.answerOwn_runs _
    · exact (s.answerOwn_runs _).trans (State.statusAnswered_only _).upkeep.runs
  | frameGapTimerExpiry =>
    rw [eq_of_next ((exec_frameGapTimerExpiry up).symm.trans h)]
    exact s.timerExpiry_upkeep.runs
  | coalescingTimerExpiry u =>
    rw [eq_of_next ((exec_coalescingTimerExpiry up u).symm.trans h)]
    split
    · exact .refl s
    · exact (s.timerCheck_keeps u).upkeep.runs
  | settledCompletionJudged u =>
    rw [eq_of_next ((exec_settledCompletionJudged up u).symm.trans h)]
    split
    · exact .refl s
    · exact (s.settle_keeps u).upkeep.runs
  | awaitingPushReleased a =>
    rw [eq_of_next ((exec_awaitingPushReleased up a).symm.trans h)]
    split
    · exact .refl s
    · exact (s.releaseAwaiting_keeps a).upkeep.runs
  | configure p => exact directive (d := .configure p) h
  | setTiming gap coast summary => exact directive (d := .setTiming gap coast summary) h
  | start => exact directive (d := .start) h
  | stop => exact directive (d := .stop) h
  | tapOpen tap stream policy tolerance repeatLimit floor =>
    exact directive (d := .tapOpen tap stream policy tolerance repeatLimit floor) h
  | tapAdjust tap policy tolerance repeatLimit floor =>
    exact directive (d := .tapAdjust tap policy tolerance repeatLimit floor) h
  | tapClose tap => exact directive (d := .tapClose tap) h
  | release n l => exact directive (d := .release n l) h
  | forceResync => exact directive (d := .forceResync) h
  | forgetLayout => exact directive (d := .forgetLayout) h
  | clearFaults flags => exact directive (d := .clearFaults flags) h
  | setAlerts enable pins => exact directive (d := .setAlerts enable pins) h
  | warmReset => exact directive (d := .warmReset) h

/-- No command but the two of nRESET breaks an invariant. -/
theorem exec_sound {c : Instr} {s t : State} (up : s.Up) (h : exec c s = .next t)
    (fall : c ≠ .nresetLow) (rise : ∀ band, c ≠ .nresetRise band) : s.Sound t := by
  by_cases error : ∃ k data, c = .ownAccessError k data
  · obtain ⟨k, data, rfl⟩ := error
    obtain ⟨life, -, rfl⟩ := exec_ownAccessError_next up h
    exact (s.answerOwn_runs k).toSound.trans (State.ownError_sound _ k life)
  · exact (exec_runs up h fall rise fun k data e => error ⟨k, data, e⟩).toSound

/-! ## nRESET (R182) -/

/-- The commands that reset or leave the part alone: while nRESET is low any command but the rise,
and the two of nRESET. -/
theorem exec_cases {c : Instr} {s t : State} (h : exec c s = .next t) :
    t = s ∨ (c = .nresetLow ∧ t = s.resetLow) ∨ (∃ band, c = .nresetRise band ∧
      t = { State.coldReset band with pending := s.pending }) ∨
      (s.Up ∧ c ≠ .nresetLow ∧ ∀ band, c ≠ .nresetRise band) := by
  by_cases fall : c = .nresetLow
  · subst fall
    exact .inr (.inl ⟨rfl, eq_of_next h⟩)
  by_cases rise : ∃ band, c = .nresetRise band
  · obtain ⟨band, rfl⟩ := rise
    have raised := eq_of_next h
    split at raised
    · exact .inr (.inr (.inl ⟨band, rfl, raised⟩))
    · exact .inl raised
  have rise' : ∀ band, c ≠ .nresetRise band := fun band e => rise ⟨band, e⟩
  by_cases low : s.nResetLow = true
  · exact .inl (eq_of_next ((exec_of_low low fall rise').symm.trans h))
  · exact .inr (.inr (.inr ⟨by simpa [State.Up] using low, fall, rise'⟩))

/-- A step idles, or runs the front command on the queue's rest. -/
theorem step_cases {s t : State} (h : step s = .next t) :
    t = s ∨ ∃ c rest, s.pending = c :: rest ∧ exec c (s.withPending rest) = .next t := by
  unfold step at h
  split at h
  · exact .inl (eq_of_next h)
  · exact .inr ⟨_, _, ‹_›, h⟩

/-- A property of all but the queue that every step keeps: it is kept by every command while nRESET is
high, and holds after each edge of nRESET. -/
theorem step_keeps {P : State → Prop} {s t : State} (h : step s = .next t) (holds : P s)
    (queue : ∀ (s : State) rest, P s → P (s.withPending rest))
    (fall : ∀ s : State, P s → P s.resetLow)
    (rise : ∀ band rest, P { State.coldReset band with pending := rest })
    (run : ∀ c (s t : State), s.Up → exec c s = .next t → c ≠ .nresetLow →
      (∀ band, c ≠ .nresetRise band) → P s → P t) : P t := by
  obtain rfl | ⟨c, rest, -, taken⟩ := step_cases h
  · exact holds
  have holds' := queue s rest holds
  obtain rfl | ⟨-, rfl⟩ | ⟨band, -, rfl⟩ | ⟨up, notFall, notRise⟩ := exec_cases taken
  · exact holds'
  · exact fall _ holds'
  · exact rise band _
  · exact run c _ t up taken notFall notRise holds'

end Sys2Proof.Machine
end

section
/-! CLAIMS. Invariants that every step keeps (R7, R14, R65, R71, R94, R97, R108, R114, R121, R141,
R150, R151), and the queue and strap band that no command changes (R154). -/

namespace Sys2Proof.Machine

/-- The tables, lists and lines after a cold reset meet every invariant (R182). -/
theorem State.coldReset_invariants (band : StrapBand) (rest : List Instr) :
    let s : State := { State.coldReset band with pending := rest }
    s.SlotsApart ∧ s.WithinCapacity ∧ s.LinesTrue ∧ s.MapsSound ∧ s.HaltedQuiet := by
  refine ⟨List.nodup_nil, ⟨Nat.zero_le _, Nat.zero_le _, Nat.zero_le _, fun u => ?_, fun u => ?_,
    Nat.zero_le _⟩, ⟨?_, rfl⟩, ⟨.absent, .absent, fun _ => .absent, .absent⟩, fun h => by cases h⟩
  · simp [State.tap, State.coldReset, Tap.reset]
  · simp [State.tap, State.coldReset, Tap.reset]
  · simp [State.coldReset, Reporter.reset, faultLevelLow, Flag.mask, Flag.bit]

/-- Settles O4: the state after reset is the cold reset with the first band. -/
theorem invariantsHoldAtReset : Obligations.InvariantsHoldAtReset :=
  State.coldReset_invariants .band1 []

/-- Settles O5: no command places an address that the stack or the table holds. -/
theorem slotAddressesStayApart : Obligations.SlotAddressesStayApart := by
  unfold Obligations.SlotAddressesStayApart
  refine fun s t holds h => step_keeps h holds (fun _ _ k => k) (fun _ k => k)
    (fun band rest => (State.coldReset_invariants band rest).1)
    fun c s t up run fall rise => (exec_sound up run fall rise).apart

/-- Settles O6: every operation that lengthens a list tests its capacity first. -/
theorem capacitiesKept : Obligations.CapacitiesKept := by
  unfold Obligations.CapacitiesKept
  refine fun s t holds h => step_keeps h holds
    (fun _ _ k => ⟨k.txns, k.stack, k.table, k.settling, k.queue, k.reports⟩)
    (fun _ k => ⟨Nat.zero_le _, k.stack, k.table, k.settling, k.queue, k.reports⟩)
    (fun band rest => (State.coldReset_invariants band rest).2.1)
    fun c s t up run fall rise => (exec_sound up run fall rise).capacity

/-- Settles O7: every change of what a line is judged from judges the line again. -/
theorem alertLinesStayTrue : Obligations.AlertLinesStayTrue := by
  unfold Obligations.AlertLinesStayTrue
  refine fun s t holds h => step_keeps h holds (fun _ _ k => ⟨k.fault, k.report⟩)
    (fun _ _ => ⟨rfl, rfl⟩) (fun band rest => (State.coldReset_invariants band rest).2.2.1)
    fun c s t up run fall rise => (exec_sound up run fall rise).lines up

/-- Settles O8: an entry joins a map only where the conflict test found its run free. -/
theorem mapsStaySound : Obligations.MapsStaySound := by
  unfold Obligations.MapsStaySound
  refine fun s t holds h => step_keeps h holds (fun _ _ => State.MapsSound.ofLayout rfl)
    (fun _ => State.MapsSound.ofLayout rfl)
    (fun band rest => (State.coldReset_invariants band rest).2.2.2.1)
    fun c s t up run fall rise => (exec_sound up run fall rise).maps

/-- Settles O2: each edge of nRESET by what it sets, every other command by what it keeps. -/
theorem queueAndStrapKept : Obligations.QueueAndStrapKept := by
  unfold Obligations.QueueAndStrapKept
  intro c s t h
  obtain rfl | ⟨-, rfl⟩ | ⟨band, rfl, rfl⟩ | ⟨up, fall, rise⟩ := exec_cases h
  · exact ⟨rfl, fun _ => rfl⟩
  · exact ⟨rfl, fun _ => rfl⟩
  · exact ⟨rfl, fun other => absurd rfl (other band)⟩
  · have sound := exec_sound up h fall rise
    exact ⟨sound.pending, fun _ => sound.strap⟩

end Sys2Proof.Machine
end

section
/-! SUPPORT. Writes whose beats only pass: they are planned as they stand, and the write changes
nothing but the links (R18, R20, R21). -/

namespace Sys2Proof.Machine

/-- The plans of a write's beats from number n on, each forwarded at its own address (R20). -/
def State.passedBeats (s : State) (addr : Word) (kind : BurstKind) (n : Nat)
    (beats : List WriteBeat) : List PlannedBeat :=
  beats.mapIdx fun i b =>
    { plan := BeatPlan.forward (s.areaOf (beatAddr addr kind (n + i))) (beatAddr addr kind (n + i))
      number := n + i, beat := some b }

theorem State.passedBeats_cons (s : State) (addr : Word) (kind : BurstKind) (n : Nat)
    (b : WriteBeat) (rest : List WriteBeat) :
    s.passedBeats addr kind n (b :: rest) =
      { plan := BeatPlan.forward (s.areaOf (beatAddr addr kind n)) (beatAddr addr kind n)
        number := n, beat := some b } :: s.passedBeats addr kind (n + 1) rest := by
  simp [State.passedBeats, List.mapIdx_cons, Nat.add_assoc, Nat.add_comm 1]

/-- Beats that only pass leave the state they are resolved against (R14, R20). -/
theorem State.writeBeats_passes {s : State} {addr : Word} {kind : BurstKind}
    {beats : List WriteBeat} {n : Nat}
    (passes : ∀ i b, beats[i]? = some b → s.PassesBeat (beatAddr addr kind (n + i)) b) :
    s.writeBeats addr kind n beats = (s, s.passedBeats addr kind n beats) := by
  induction beats generalizing n with
  | nil => rfl
  | cons b rest ih =>
    have first := s.writeBeat_passes _ b (passes 0 b rfl)
    have others := ih (n := n + 1) fun i c found => by
      rw [Nat.add_right_comm]
      exact passes (i + 1) c (by simpa using found)
    rw [State.passedBeats_cons, State.writeBeats]
    simp only [Nat.add_zero] at first
    simp only [first, others]

/-- In STOPPED and HALTED no address lies in the cells, the header or the layout block (R18). -/
theorem State.areaOf_of_inactive {s : State} (inactive : s.device.active = false) (a : Word) :
    (∃ w, s.areaOf a = .index w) ∨ s.areaOf a = .page ∨ s.areaOf a = .dram := by
  unfold State.areaOf
  simp only [inactive]
  split
  · unfold pageArea
    split_ifs
    · exact .inl ⟨_, rfl⟩
    · exact .inl ⟨_, rfl⟩
    · exact .inl ⟨_, rfl⟩
    · exact .inr (.inl rfl)
  · exact .inr (.inr rfl)

theorem State.passesBeat_of_inactive {s : State} (inactive : s.device.active = false) (a : Word)
    (b : WriteBeat) : s.PassesBeat a b := by
  obtain ⟨w, area⟩ | area | area := State.areaOf_of_inactive inactive a <;>
    exact ⟨by simp [area], by simp [area], by simp [area]⟩

/-! ## Pieces of planned beats (R16, R21) -/

/-- The piece of a run of beats takes its address, number and slot entry from the first. -/
theorem pieceOf_eq_some {txn : Nat} {tag : Tag} {write : Bool} {kind : BurstKind}
    {g : List PlannedBeat} {p : Piece} (h : pieceOf txn tag write kind g = some p) :
    ∃ b rest, g = b :: rest ∧ b.plan.handling ≠ .absorbed ∧ p =
      { txn := txn, tag := tag, write := write, addr := b.plan.addr,
        kind := pieceKind kind b.plan.handling, len := rest.length + 1, first := b.number,
        beats := (b :: rest).filterMap (·.beat), redirect := b.plan.redirect,
        snoop := if write then b.plan.area.snooped else none } := by
  cases g with
  | nil => cases h
  | cons b rest =>
    rw [pieceOf] at h
    split at h
    · cases h
    · exact ⟨b, rest, rfl, ‹_›, (Option.some.inj h).symm⟩

theorem mem_piecesOf {txn : Nat} {tag : Tag} {write : Bool} {kind : BurstKind}
    {beats : List PlannedBeat} {p : Piece} (h : p ∈ piecesOf txn tag write kind beats) :
    ∃ b rest, b :: rest ∈ cutBeats kind beats ∧ b ∈ beats ∧ b.plan.handling ≠ .absorbed ∧ p =
      { txn := txn, tag := tag, write := write, addr := b.plan.addr,
        kind := pieceKind kind b.plan.handling, len := rest.length + 1, first := b.number,
        beats := (b :: rest).filterMap (·.beat), redirect := b.plan.redirect,
        snoop := if write then b.plan.area.snooped else none } := by
  obtain ⟨g, cut, piece⟩ := List.mem_filterMap.mp h
  obtain ⟨b, rest, rfl, shown, rfl⟩ := pieceOf_eq_some piece
  have mem : b ∈ (cutBeats kind beats).flatten := List.mem_flatten.mpr ⟨_, cut, by simp⟩
  exact ⟨b, rest, cut, cutBeats_flatten kind beats ▸ mem, shown, rfl⟩

/-- Pieces that name no slot entry raise no outstanding count (R27). -/
theorem State.foldl_raiseOutstanding {pieces : List Piece} (h : ∀ p ∈ pieces, p.redirect = none)
    (s : State) : pieces.foldl State.raiseOutstanding s = s := by
  induction pieces with
  | nil => rfl
  | cons p rest ih =>
    have first : s.raiseOutstanding p = s := by
      unfold State.raiseOutstanding
      rw [h p (by simp)]
    rw [List.foldl_cons, first]
    exact ih fun q mem => h q (by simp [mem])

theorem State.plan_of_mem_passedBeats {s : State} {addr : Word} {kind : BurstKind} {n : Nat}
    {beats : List WriteBeat} {b : PlannedBeat} (h : b ∈ s.passedBeats addr kind n beats) :
    ∃ a, b.plan = BeatPlan.forward (s.areaOf a) a := by
  obtain ⟨i, _, rfl⟩ := List.mem_mapIdx.mp h
  exact ⟨_, rfl⟩

/-- The pieces of a write whose beats only pass. -/
def State.passedPieces (s : State) (tag : Tag) (addr : Word) (kind : BurstKind)
    (beats : List WriteBeat) : List Piece :=
  piecesOf s.link.serial tag true kind (s.passedBeats addr kind 0 beats)

theorem State.passedPieces_redirect {s : State} {tag : Tag} {addr : Word} {kind : BurstKind}
    {beats : List WriteBeat} : ∀ p ∈ s.passedPieces tag addr kind beats, p.redirect = none := by
  intro p mem
  obtain ⟨b, _, -, planned, -, rfl⟩ := mem_piecesOf mem
  obtain ⟨a, plan⟩ := State.plan_of_mem_passedBeats planned
  simp [plan, BeatPlan.forward]

/-- An accepted write whose beats only pass changes the links alone (R18, R20). -/
theorem State.acceptWrite_passes {s : State} {tag : Tag} {addr : Word} {kind : BurstKind}
    {beats : List WriteBeat}
    (passes : ∀ i b, beats[i]? = some b → s.PassesBeat (beatAddr addr kind i) b) :
    s.acceptWrite tag addr kind beats = s.updLink fun l => l.enter
      { id := s.link.serial, tag := tag, write := true, len := beats.length,
        unanswered := (s.passedPieces tag addr kind beats).length, err := false, data := [],
        activeAtAccept := s.device.active }
      (s.passedPieces tag addr kind beats) := by
  have resolved := s.writeBeats_passes (addr := addr) (kind := kind) (n := 0) (beats := beats)
    fun i b found => by rw [Nat.zero_add]; exact passes i b found
  simp only [State.acceptWrite, resolved]
  exact congrArg (State.updLink · _) (State.foldl_raiseOutstanding State.passedPieces_redirect s)

end Sys2Proof.Machine
end

section
/-! SUPPORT. What each operation can do in HALTED (R54, R111, R122, R148, R180). -/

namespace Sys2Proof.Machine

/-- What an operation in HALTED may change: the links; the recorded index, consumer, batch and fetch
of the directive unit; flags, those it raises and those it clears named by two predicates, with
nFAULT; and the refill. With `refilling` it may also place a refill's addresses. -/
structure State.Rests (refilling : Prop) (raised cleared : Flag → Prop) (s t : State) : Prop where
  only : t = { s with
    link := t.link
    supply := t.supply
    reporter := { s.reporter with flags := t.reporter.flags, nFaultLow := t.reporter.nFaultLow }
    directive := { s.directive with
      recorded := t.directive.recorded, consumer := t.directive.consumer
      batch := t.directive.batch, fetch := t.directive.fetch } }
  working : t.supply.table.filter (fun e => e.state != .returning) =
    s.supply.table.filter (fun e => e.state != .returning)
  recordedFree : t.supply.recorded = s.supply.recorded
  idle : s.supply.refill = none → t.supply = s.supply
  plain : ¬ refilling → t.supply = { s.supply with refill := t.supply.refill }
  raises : ∀ f : Flag, s.reporter.flagSet f = false → t.reporter.flagSet f = true → raised f
  clears : ∀ f : Flag, s.reporter.flagSet f = true → t.reporter.flagSet f = false → cleared f
  busError : s.reporter.flagSet .busError = true → t.reporter.flagSet .busError = true
  fault : s.reporter.flagSet .busError = true → s.reporter.nFaultLow = true →
    t.reporter.nFaultLow = true

section
variable {refilling : Prop} {raised cleared : Flag → Prop} {s t u : State}

/-! ## Composition -/

theorem State.Rests.refl (s : State) : s.Rests refilling raised cleared s :=
  ⟨rfl, rfl, rfl, fun _ => rfl, fun _ => rfl, fun f h k => by simp [h] at k,
    fun f h k => by simp [h] at k, id, fun _ => id⟩

theorem State.Rests.trans (h : s.Rests refilling raised cleared t)
    (k : t.Rests refilling raised cleared u) : s.Rests refilling raised cleared u where
  only := by
    have first := h.only
    have second := k.only
    rw [first] at second
    exact second
  working := k.working.trans h.working
  recordedFree := k.recordedFree.trans h.recordedFree
  idle := fun none => by
    have first := h.idle none
    rw [k.idle (by rw [first, none]), first]
  plain := fun other => by
    have first := h.plain other
    have second := k.plain other
    rw [first] at second
    exact second
  raises := fun f off on => by
    by_cases mid : t.reporter.flagSet f = true
    · exact h.raises f off mid
    · exact k.raises f (by simpa using mid) on
  clears := fun f on off => by
    by_cases mid : t.reporter.flagSet f = true
    · exact k.clears f mid off
    · exact h.clears f on (by simpa using mid)
  busError := k.busError ∘ h.busError
  fault := fun set low => k.fault (h.busError set) (h.fault set low)

theorem State.Rests.foldl {α : Type} {f : State → α → State}
    (h : ∀ (s : State) a, s.device = .halted → s.Rests refilling raised cleared (f s a))
    (l : List α) (halted : s.device = .halted) :
    s.Rests refilling raised cleared (l.foldl f s) := by
  induction l generalizing s with
  | nil => exact .refl s
  | cons a l ih =>
    have first := h s a halted
    exact first.trans (ih (by rw [first.only]; exact halted))

theorem State.Rests.halted (h : s.Rests refilling raised cleared t) (halted : s.device = .halted) :
    t.device = .halted := by
  rw [h.only]
  exact halted

theorem State.Rests.quiet (h : s.Rests refilling raised cleared t) (halted : s.device = .halted)
    (quiet : s.HaltedQuiet) : t.HaltedQuiet := by
  intro _
  rw [h.only]
  exact quiet halted

theorem State.Rests.frozen (h : s.Rests refilling raised cleared t) : s.Frozen t := by
  have only := h.only
  constructor
  case working => exact h.working
  case recordedFree => exact h.recordedFree
  case busError => exact h.busError
  all_goals rw [only]

/-! ## Kinds of change -/

/-- A change that leaves the reporter as it is. -/
theorem State.Rests.of_reporter
    (only : t = { s with
      link := t.link
      supply := t.supply
      directive := { s.directive with
        recorded := t.directive.recorded, consumer := t.directive.consumer
        batch := t.directive.batch, fetch := t.directive.fetch } })
    (working : t.supply.table.filter (fun e => e.state != .returning) =
      s.supply.table.filter (fun e => e.state != .returning))
    (recordedFree : t.supply.recorded = s.supply.recorded)
    (idle : s.supply.refill = none → t.supply = s.supply)
    (plain : ¬ refilling → t.supply = { s.supply with refill := t.supply.refill }) :
    s.Rests refilling raised cleared t := by
  have reporter : t.reporter = s.reporter := by rw [only]
  refine ⟨?_, working, recordedFree, idle, plain, fun f off on => ?_, fun f on off => ?_, ?_, ?_⟩
  · rw [reporter]
    exact only
  · rw [reporter, off] at on
    cases on
  · rw [reporter, on] at off
    cases off
  · rw [reporter]
    exact id
  · rw [reporter]
    exact fun _ => id

theorem State.OnlyLink.rests (h : s.OnlyLink t) : s.Rests refilling raised cleared t := by
  have same : t = { s with link := t.link } := h
  rw [same]
  exact .of_reporter rfl rfl rfl (fun _ => rfl) fun _ => rfl

/-- A change of the directive unit that HALTED does not freeze. -/
theorem State.OnlyDirective.rests (h : s.OnlyDirective t)
    (sequence : t.directive.sequence = s.directive.sequence)
    (enable : t.directive.statusEnable = s.directive.statusEnable)
    (request : t.directive.statusRequest = s.directive.statusRequest)
    (status : t.directive.status = s.directive.status) :
    s.Rests refilling raised cleared t := by
  have same : t = { s with directive := t.directive } := h
  have supply : t.supply = s.supply := by rw [same]
  refine .of_reporter ?_ (by rw [supply]) (by rw [supply]) (fun _ => supply) fun _ => by rw [supply]
  rw [same]
  simp only [← sequence, ← enable, ← request, ← status]

/-- A change of the refill in flight. -/
theorem State.updRefill_rests (f : Refill → Option Refill) :
    s.Rests refilling raised cleared
      (s.updSupply fun p => { p with refill := p.refill.bind f }) :=
  .of_reporter rfl rfl rfl (fun none => by rw [State.updSupply_supply, none, Option.bind_none, ← none])
    fun _ => rfl

theorem State.latch_rests {g : Flag} (h : raised g) :
    s.Rests refilling raised cleared (s.latch g) := by
  obtain ⟨-, flags, low⟩ := s.latch_latches g
  refine ⟨rfl, rfl, rfl, fun _ => rfl, fun _ => rfl, fun f off on => ?_, fun f on off => ?_,
    fun set => ?_, fun set _ => ?_⟩
  · rw [flags f, off, Bool.false_or, beq_iff_eq] at on
    exact on ▸ h
  · simp [flags f, on] at off
  · simp [flags, set]
  · exact low.mpr ⟨.busError, by simp [flags, set], .inl rfl⟩

theorem State.runClearFaults_rests (halted : s.device = .halted) (flags : Byte)
    (h : ∀ f : Flag, f ≠ .busError → flags.getLsbD f.bit = true → cleared f) :
    s.Rests refilling raised cleared (s.runClearFaults flags) := by
  have left (f : Flag) : (s.runClearFaults flags).reporter.flagSet f =
      (s.reporter.flagSet f && (!flags.getLsbD f.bit || f == .busError)) :=
    (clearedFlags_bit s.device s.reporter.flags flags f).trans (by simp [halted, Reporter.flagSet])
  refine ⟨rfl, rfl, rfl, fun _ => rfl, fun _ => rfl, fun f off on => ?_, fun f on off => ?_,
    fun set => ?_, fun set _ => ?_⟩
  · simp [left, off] at on
  · rw [left, on] at off
    simp only [Bool.true_and, Bool.or_eq_false_iff, Bool.not_eq_false', beq_eq_false_iff_ne] at off
    exact h f off.2 off.1
  · simp [left, set]
  · exact (s.runClearFaults_nFault_iff flags).mpr ⟨.busError, by simp [left, set], .inl rfl⟩

/-! ## Operations that HALTED turns away -/

theorem State.testReports_halted (halted : s.device = .halted) : s.testReports = s :=
  s.testReports_tests.1 (.inl halted)

theorem State.hand_halted (halted : s.device = .halted) (b : ReportBody) : s.hand b = s :=
  if_pos halted

theorem State.testStatus_halted (halted : s.device = .halted) : s.testStatus = s := by
  simp [State.testStatus, halted]

theorem State.testRefill_halted (halted : s.device = .halted) : s.testRefill = s := by
  unfold State.testRefill
  split
  · rfl
  · exact if_neg fun k => k.1 halted

/-! ## The directive unit -/

theorem State.startFetch_rests : s.Rests refilling raised cleared s.startFetch :=
  s.startFetch_only.rests rfl rfl rfl rfl

theorem State.resumeFetch_rests : s.Rests refilling raised cleared s.resumeFetch := by
  unfold State.resumeFetch
  split
  · exact State.startFetch_rests
  · exact .refl s

theorem State.takeDirectiveIndex_rests (v : Word) :
    s.Rests refilling raised cleared (s.takeDirectiveIndex v) := by
  have recorded : s.Rests refilling raised cleared
      (s.updDirective fun d => { d with recorded := Fin.ofNat 32 v.toNat }) :=
    State.OnlyDirective.rests rfl rfl rfl rfl rfl
  simp only [State.takeDirectiveIndex]
  split
  · exact recorded.trans State.startFetch_rests
  · exact recorded

theorem State.endBatch_rests (halted : s.device = .halted) :
    s.Rests refilling raised cleared s.endBatch := by
  have ended : s.endBatch = s.updDirective fun d => { d with batch := .idle } := if_pos halted
  rw [ended]
  exact State.OnlyDirective.rests rfl rfl rfl rfl rfl

theorem State.nextRecord_rests (halted : s.device = .halted) :
    s.Rests refilling raised cleared s.nextRecord := by
  have advanced : s.Rests refilling raised cleared
      (s.updDirective fun d => { d with consumer := d.consumer + 1 }) :=
    State.OnlyDirective.rests rfl rfl rfl rfl rfl
  simp only [State.nextRecord]
  split
  · exact advanced.trans (State.endBatch_rests halted)
  · exact advanced.trans State.startFetch_rests

theorem State.reject_rests (halted : s.device = .halted) (h : raised .directiveRejected)
    (kind : Byte) (r : RejectReason) (l : List Word) :
    s.Rests refilling raised cleared (s.reject kind r l) := by
  rw [State.reject, State.hand_halted halted]
  exact State.latch_rests h

/-- In HALTED every directive but CLEAR_FAULTS and WARM_RESET is rejected (R162). -/
theorem State.runDirective_halted (halted : s.device = .halted) {d : Directive}
    (reset : d ≠ .warmReset) : (∃ flags, d = .clearFaults flags) ∨
      ∃ kind reason, s.runDirective d = s.reject kind reason [] := by
  have isHalted : s.isHalted = true := beq_iff_eq.mpr halted
  have rejected (kind : Byte) (bad busy : Bool) (u : State) :
      s.runUnless kind (firstFailure s.isHalted bad busy) u = s.reject kind .wrongState [] := by
    rw [isHalted]
    rfl
  have stopped : (s.device != .stopped) = true := by rw [halted]; rfl
  cases d with
  | warmReset => exact absurd rfl reset
  | clearFaults flags => exact .inl ⟨flags, rfl⟩
  | configure p =>
    refine .inr ⟨0x10, .wrongState, ?_⟩
    simp [State.runDirective, State.runConfigure, State.configureFailure, firstFailure, stopped,
      State.runUnless]
  | start =>
    refine .inr ⟨0x12, .wrongState, ?_⟩
    simp [State.runDirective, State.runStart, firstFailure, stopped, State.runUnless]
  | forceResync =>
    refine .inr ⟨0x40, .wrongState, ?_⟩
    simp [State.runDirective, State.runForceResync, firstFailure, halted, DeviceState.active,
      State.runUnless]
  | tapOpen tap stream policy tolerance repeatLimit floor =>
    rw [State.runDirective, State.runTapOpen]
    split
    · exact .inr ⟨_, _, rejected _ _ _ _⟩
    · exact .inr ⟨_, _, rfl⟩
  | tapAdjust tap policy tolerance repeatLimit floor =>
    rw [State.runDirective, State.runTapAdjust]
    split
    · exact .inr ⟨_, _, rejected _ _ _ _⟩
    · exact .inr ⟨_, _, rfl⟩
  | tapClose tap =>
    rw [State.runDirective, State.runTapClose]
    split
    · exact .inr ⟨_, _, rejected _ _ _ _⟩
    · exact .inr ⟨_, _, rfl⟩
  | setTiming _ _ _ => exact .inr ⟨_, _, rejected _ _ _ _⟩
  | stop => exact .inr ⟨_, _, rejected _ _ _ _⟩
  | release _ _ => exact .inr ⟨_, _, rejected _ _ _ _⟩
  | forgetLayout => exact .inr ⟨_, _, rejected _ _ _ _⟩
  | setAlerts _ _ => exact .inr ⟨_, _, rejected _ _ _ _⟩

theorem State.runDirective_rests (halted : s.device = .halted) {d : Directive}
    (reset : d ≠ .warmReset) (rejects : raised .directiveRejected)
    (h : ∀ flags (f : Flag), d = .clearFaults flags → f ≠ .busError → flags.getLsbD f.bit = true →
      cleared f) : s.Rests refilling raised cleared (s.runDirective d) := by
  obtain ⟨flags, rfl⟩ | ⟨kind, reason, run⟩ := State.runDirective_halted halted reset
  · exact State.runClearFaults_rests halted flags fun f => h flags f rfl
  · rw [run]
    exact State.reject_rests halted rejects _ _ _

theorem State.takeDirectiveRecord_rests (halted : s.device = .halted) {bytes : List Byte}
    (reset : resetsPart (.directiveFetchComplete bytes) = false)
    (rejects : raised .directiveRejected)
    (h : ∀ flags (f : Flag), directiveCheck bytes = true →
      readDirective bytes = some (.clearFaults flags) → f ≠ .busError →
      flags.getLsbD f.bit = true → cleared f) :
    s.Rests refilling raised cleared (s.takeDirectiveRecord bytes) := by
  have rejected (r : RejectReason) : s.Rests refilling raised cleared
      (s.reject (byteAt bytes 0) r []).nextRecord := by
    have first : s.Rests refilling raised cleared (s.reject (byteAt bytes 0) r []) :=
      State.reject_rests halted rejects _ r _
    exact first.trans (State.nextRecord_rests (first.halted halted))
  simp only [resetsPart, Bool.and_eq_false_iff, beq_eq_false_iff_ne] at reset
  unfold State.takeDirectiveRecord
  split
  · rename_i check
    split
    · exact absurd ‹_› (reset.resolve_left (by simp [check]))
    · rename_i d other read
      have first : s.Rests refilling raised cleared (s.runDirective d) :=
        State.runDirective_rests halted other rejects
          fun flags f e => h flags f check (read.trans (congrArg some e))
      exact first.trans (State.nextRecord_rests (first.halted halted))
    · exact rejected _
  · exact rejected _

theorem State.fetched_rests : s.Rests refilling raised cleared s.fetched :=
  (s.answerOwn_only .fetch).rests.trans (State.OnlyDirective.rests rfl rfl rfl rfl rfl)

/-! ## The links -/

theorem State.acceptWrite_rests (halted : s.device = .halted) (tag : Tag) (a : Word)
    (k : BurstKind) (bs : List WriteBeat) :
    s.Rests refilling raised cleared (s.acceptWrite tag a k bs) := by
  have inactive : s.device.active = false := by rw [halted]; rfl
  rw [State.acceptWrite_passes fun _ b _ => State.passesBeat_of_inactive inactive _ b]
  exact State.OnlyLink.rests rfl

/-- In HALTED only a fetch or a refill has bursts left to issue (R179). -/
theorem State.takeBurst_rests (halted : s.device = .halted) (quiet : s.HaltedQuiet) {b : OwnBurst}
    {rest : List OwnBurst} {k : OwnKind} (waits : s.unissued k = some (b :: rest)) :
    s.Rests refilling raised cleared (s.takeBurst b rest k) := by
  obtain ⟨noReport, noStatus, -, -⟩ := quiet halted
  cases k with
  | fetch => exact State.OnlyDirective.rests rfl rfl rfl rfl rfl
  | refill =>
    simp only [State.takeBurst, Option.map_eq_bind]
    exact State.updRefill_rests _
  | report => simp [State.unissued, noReport] at waits
  | status => simp [State.unissued, noStatus] at waits

theorem State.grant_rests (halted : s.device = .halted) (quiet : s.HaltedQuiet) :
    s.Rests refilling raised cleared s.grant := by
  have own {b : OwnBurst} {u : State} (h : s.ownWaiting = some (b, u)) :
      s.Rests refilling raised cleared (u.issueOwn b) := by
    obtain ⟨k, rest, waits, rfl⟩ := State.ownWaiting_takes h
    exact (State.takeBurst_rests halted quiet waits).trans (State.OnlyLink.rests rfl)
  have piece (p : Piece) (rest : List Piece) :
      s.Rests refilling raised cleared (s.updLink fun l => l.issuePiece p rest) :=
    State.OnlyLink.rests rfl
  unfold State.grant
  split
  · exact .refl s
  · exact own ‹_›
  · exact piece _ _
  · split
    · exact piece _ _
    · exact own ‹_›

theorem State.handIndex_rests (w : IndexWord) (s : State) (b : WriteBeat)
    (halted : s.device = .halted) : s.Rests refilling raised cleared (State.handIndex w s b) := by
  unfold State.handIndex
  split
  · cases w with
    | directive => exact State.takeDirectiveIndex_rests _
    | report => simpa only [State.takeReportIndex_ignored (.inl halted)] using .refl s
    | free => simpa only [State.takeFreeIndex_ignored (.inl halted)] using .refl s
  · exact .refl s

theorem State.pieceAnswered_rests (halted : s.device = .halted) (p : Piece) (resp : Resp)
    (data : List Word) : s.Rests refilling raised cleared (s.pieceAnswered p resp data) := by
  have frozen (u : State) (h : u.device = .halted) : u.redirectAnswered resp p.redirect = u := by
    unfold State.redirectAnswered
    split
    · exact if_pos h
    · rfl
  have links : s.Rests refilling raised cleared (s.updLink fun l =>
      (l.answerPiece p.tag).answer p resp (s.pieceData (s.examines p) p data)) :=
    State.OnlyLink.rests rfl
  simp only [State.pieceAnswered]
  rw [frozen _ (links.halted halted)]
  unfold State.snoop
  split
  · exact links.trans (.foldl (State.handIndex_rests _) _ halted)
  · exact links

/-! ## A refill in HALTED (R111, R122) -/

/-- A push in HALTED places its address, and the reporter takes no notice (R108, R122). -/
theorem State.push_halted (halted : s.device = .halted) (a : Word) :
    s.push a = s.updSupply fun p => p.place a := by
  unfold State.push
  simp only
  split
  · rfl
  · exact State.testReports_halted halted

theorem Supply.place_working (p : Supply) (a : Word) :
    (p.place a).table.filter (fun e => e.state != .returning) =
      p.table.filter (fun e => e.state != .returning) := by
  unfold Supply.place
  split
  · rfl
  · simp [List.filter_append, returningEntry]

theorem Supply.place_only (p : Supply) (a : Word) :
    p.place a = { p with stack := (p.place a).stack, table := (p.place a).table } := by
  unfold Supply.place
  split <;> rfl

/-- A refill's addresses are placed on the stack or as RETURNING entries, and change nothing else. -/
theorem State.takeAddrs_halted (r : Regions) (l : List Word) {s : State}
    (halted : s.device = .halted) :
    let t := (s.takeAddrs r l).1
    t = { s with supply := { s.supply with stack := t.supply.stack, table := t.supply.table } } ∧
      t.supply.table.filter (fun e => e.state != .returning) =
        s.supply.table.filter (fun e => e.state != .returning) := by
  induction l generalizing s with
  | nil => exact ⟨rfl, rfl⟩
  | cons a l ih =>
    rw [State.takeAddrs]
    split
    · rw [State.push_halted halted]
      obtain ⟨only, working⟩ := ih (s := s.updSupply fun p => p.place a) halted
      refine ⟨only.trans ?_, working.trans (Supply.place_working s.supply a)⟩
      simp only [State.updSupply]
      rw [Supply.place_only s.supply a]
    · exact ih halted

theorem State.reportSkipped_rests (halted : s.device = .halted) (h : raised .badSlot)
    (skipped : List Word) : s.Rests refilling raised cleared (s.reportSkipped skipped) := by
  unfold State.reportSkipped
  split
  · exact .refl s
  · rw [State.hand_halted (s := s.latch .badSlot) halted]
    exact State.latch_rests h

theorem State.finishRefill_rests (halted : s.device = .halted) {f : Refill}
    (inFlight : s.supply.refill = some f) (h : raised .badSlot) (refills : refilling) (r : Regions)
    (data : List Word) : s.Rests refilling raised cleared (s.finishRefill r data) := by
  obtain ⟨only, working⟩ := State.takeAddrs_halted r data halted
  have placed : s.Rests refilling raised cleared
      ((s.takeAddrs r data).1.updSupply fun p =>
        { p with consumer := (p.consumer + data.length) % r.freeSize }) := by
    rw [only]
    exact .of_reporter rfl working rfl (fun none => by simp [inFlight] at none)
      fun other => absurd refills other
  have skipped := placed.trans (State.reportSkipped_rests (placed.halted halted) h (s.takeAddrs r data).2)
  have ended := skipped.trans (State.updRefill_rests fun _ => none)
  simp only [Option.bind_fun_none] at ended
  simp only [State.finishRefill]
  rw [State.testRefill_halted (ended.halted halted)]
  exact ended

/-- The last answer to a refill in HALTED takes its addresses; without a refill nothing changes. -/
theorem State.refillAnswered_rests (halted : s.device = .halted)
    (h : s.supply.refill ≠ none → raised .badSlot) (refills : refilling) :
    s.Rests refilling raised cleared s.refillAnswered := by
  unfold State.refillAnswered
  split
  · rename_i f r inFlight _
    split
    · exact State.finishRefill_rests halted inFlight (h (by simp [inFlight])) refills r _
    · exact .refl s
  · exact .refl s

theorem State.gatherRefill_rests (data : List Word) :
    s.Rests refilling raised cleared (s.gatherRefill data) := by
  simp only [State.gatherRefill, Option.map_eq_bind]
  exact State.updRefill_rests _

/-! ## Errors in HALTED (R111, R159) -/

theorem State.haltedError_rests (k : OwnKind) :
    s.Rests refilling raised cleared (s.haltedError k) := by
  cases k with
  | fetch => exact State.OnlyDirective.rests rfl rfl rfl rfl rfl
  | refill =>
    exact .of_reporter rfl rfl rfl (fun none => by rw [State.haltedError, ← none]) fun _ => rfl
  | report => exact .refl s
  | status => exact .refl s

theorem State.ownError_rests (halted : s.device = .halted) (k : OwnKind) (life : Life) :
    s.Rests refilling raised cleared (s.ownError k life) := by
  cases life with
  | live =>
    rw [State.ownError, if_pos halted]
    exact State.haltedError_rests k
  | haltDiscarded =>
    rw [State.ownError]
    split
    · exact State.resumeFetch_rests
    · exact .refl s
  | resetDiscarded => exact .refl s

end

end Sys2Proof.Machine
end

section
/-! CLAIMS. HALTED: what every command but a reset leaves frozen, and that it stays quiet (R45, R54,
R111, R122, R142, R149, R171, R179, R180). -/

namespace Sys2Proof.Machine

/-- The flags that a command may newly set in HALTED (R149, R180). -/
def State.RaisedBy (s : State) (c : Instr) (f : Flag) : Prop :=
  (f = .directiveRejected ∧
    ((∃ d : Directive, c = d.command) ∨ ∃ bytes, c = .directiveFetchComplete bytes)) ∨
  (f = .badSlot ∧ s.supply.refill ≠ none ∧ ∃ data, c = .refillComplete data)

/-- The flags that a command may clear in HALTED (R149). -/
def ClearedBy (c : Instr) (f : Flag) : Prop :=
  f ≠ .busError ∧ ∃ flags : Byte, flags.getLsbD f.bit = true ∧
    (c = .clearFaults flags ∨ ∃ bytes, c = .directiveFetchComplete bytes ∧
      directiveCheck bytes = true ∧ readDirective bytes = some (.clearFaults flags))

/-- What a command does in HALTED, in the terms of Rests. -/
abbrev State.RestsBy (s : State) (c : Instr) (t : State) : Prop :=
  s.Rests (∃ data, c = .refillComplete data) (s.RaisedBy c) (ClearedBy c) t

section
variable {s t : State}

theorem State.runDirective_restsBy (halted : s.device = .halted) {d : Directive}
    (reset : d ≠ .warmReset) : s.RestsBy d.command (s.runDirective d) :=
  State.runDirective_rests halted reset (.inl ⟨rfl, .inl ⟨d, rfl⟩⟩) fun flags f clears other named =>
    ⟨other, flags, named, .inl (by rw [clears]; rfl)⟩

theorem State.refillComplete_restsBy (halted : s.device = .halted) (data : List Word) :
    s.RestsBy (.refillComplete data)
      ((s.answerOwn .refill).gatherRefill data).refillAnswered := by
  have answered : s.RestsBy (.refillComplete data) (s.answerOwn .refill) :=
    (s.answerOwn_only .refill).rests
  have gathered := answered.trans (State.gatherRefill_rests data)
  refine gathered.trans (State.refillAnswered_rests (gathered.halted halted) (fun inFlight => ?_)
    ⟨data, rfl⟩)
  refine .inr ⟨rfl, fun idle => inFlight ?_, data, rfl⟩
  show Option.map _ s.supply.refill = none
  rw [idle]
  rfl

/-- In HALTED a report in flight has been discarded, so its answer ends nothing (R33, R179). -/
theorem State.reportAnswered_of_none (none : s.reporter.write = none) : s.reportAnswered = s := by
  unfold State.reportAnswered
  rw [none]

theorem State.statusAnswered_of_none (none : s.directive.status = none) : s.statusAnswered = s := by
  unfold State.statusAnswered
  rw [if_neg fun k => by rw [none] at k; cases k.1]

/-- In HALTED every command but a reset rests (R180). -/
theorem exec_rests {c : Instr} (halted : s.device = .halted) (quiet : s.HaltedQuiet)
    (reset : resetsPart c = false) (h : exec c s = .next t) : s.RestsBy c t := by
  have ⟨noReport, noStatus, _, noTimer⟩ := quiet halted
  obtain rfl | ⟨rfl, -⟩ | ⟨band, rfl, -⟩ | ⟨up, fall, rise⟩ := exec_cases h
  · exact .refl _
  · cases reset
  · cases reset
  have same (kept : exec c s = .next s) : s.RestsBy c t := by
    rw [eq_of_next (kept.symm.trans h)]
    exact .refl s
  have links (k : OwnKind) : s.RestsBy c (s.answerOwn k) := (s.answerOwn_only k).rests
  have directive {d : Directive} (other : d ≠ .warmReset) (run : exec d.command s = .next t) :
      s.RestsBy d.command t := by
    rw [exec_command_next up run]
    exact State.runDirective_restsBy halted other
  cases c with
  | nresetLow => cases reset
  | nresetRise band => cases reset
  | warmReset => cases reset
  | upstreamWriteAccept tag a k bs =>
    obtain rfl | ⟨-, rfl⟩ := exec_upstreamWriteAccept_next up h
    · exact .refl _
    · exact State.acceptWrite_rests halted tag a k bs
  | upstreamReadAccept tag a k n =>
    obtain rfl | ⟨-, rfl⟩ := exec_upstreamReadAccept_next up h
    · exact .refl _
    · exact (s.acceptRead_only tag a k n).rests
  | upstreamResponseDelivery =>
    rw [eq_of_next ((exec_upstreamResponseDelivery up).symm.trans h)]
    exact State.OnlyLink.rests rfl
  | arbiterGrant =>
    rw [eq_of_next ((exec_arbiterGrant up).symm.trans h)]
    exact State.grant_rests halted quiet
  | forwardedPieceResponse tag resp data =>
    obtain ⟨p, -, rfl | rfl⟩ := exec_forwardedPieceResponse_next up h
    · exact State.pieceAnswered_rests halted p resp data
    · exact State.OnlyLink.rests rfl
  | directiveIndexTaken v =>
    rw [eq_of_next ((exec_directiveIndexTaken up v).symm.trans h)]
    exact State.takeDirectiveIndex_rests v
  | reportIndexTaken v =>
    exact same (by rw [exec_reportIndexTaken up, State.takeReportIndex_ignored (.inl halted)])
  | freeIndexTaken v =>
    exact same (by rw [exec_freeIndexTaken up, State.takeFreeIndex_ignored (.inl halted)])
  | directiveFetchComplete bytes =>
    obtain rfl | rfl | rfl := exec_directiveFetchComplete_next up h
    · exact links .fetch
    · exact (links .fetch).trans State.resumeFetch_rests
    · exact State.fetched_rests.trans <|
        State.takeDirectiveRecord_rests (s := s.fetched) halted reset
          (.inl ⟨rfl, .inr ⟨bytes, rfl⟩⟩) fun flags f check read other named =>
            ⟨other, flags, named, .inr ⟨bytes, rfl, check, read⟩⟩
  | refillComplete data =>
    obtain rfl | rfl := exec_refillComplete_next up h
    · exact links .refill
    · exact State.refillComplete_restsBy halted data
  | reportPrepare =>
    exact same (by rw [exec_reportPrepare up, State.testReports_halted halted])
  | reportWriteComplete =>
    obtain rfl | rfl := exec_reportWriteComplete_next up h
    · exact links .report
    · rw [State.reportAnswered_of_none (s := s.answerOwn .report) noReport]
      exact links .report
  | statusBlockWriteStart =>
    exact same (by rw [exec_statusBlockWriteStart up, State.testStatus_halted halted])
  | statusBlockWriteComplete =>
    obtain rfl | rfl := exec_statusBlockWriteComplete_next up h
    · exact links .status
    · rw [State.statusAnswered_of_none (s := s.answerOwn .status) noStatus]
      exact links .status
  | ownAccessError k data =>
    obtain ⟨life, -, rfl⟩ := exec_ownAccessError_next up h
    exact (links k).trans (State.ownError_rests ((links k).halted halted) k life)
  | frameGapTimerExpiry =>
    exact same (by rw [exec_frameGapTimerExpiry up, State.timerExpiry, if_pos noTimer])
  | coalescingTimerExpiry u =>
    exact same (by rw [exec_coalescingTimerExpiry up, if_pos halted])
  | settledCompletionJudged u =>
    exact same (by rw [exec_settledCompletionJudged up, if_pos halted])
  | awaitingPushReleased a =>
    exact same (by rw [exec_awaitingPushReleased up, if_pos halted])
  | configure p => exact directive (d := .configure p) nofun h
  | setTiming gap coast summary => exact directive (d := .setTiming gap coast summary) nofun h
  | start => exact directive (d := .start) nofun h
  | stop => exact directive (d := .stop) nofun h
  | tapOpen tap stream policy tolerance repeatLimit floor =>
    exact directive (d := .tapOpen tap stream policy tolerance repeatLimit floor) nofun h
  | tapAdjust tap policy tolerance repeatLimit floor =>
    exact directive (d := .tapAdjust tap policy tolerance repeatLimit floor) nofun h
  | tapClose tap => exact directive (d := .tapClose tap) nofun h
  | release n l => exact directive (d := .release n l) nofun h
  | forceResync => exact directive (d := .forceResync) nofun h
  | forgetLayout => exact directive (d := .forgetLayout) nofun h
  | clearFaults flags => exact directive (d := .clearFaults flags) nofun h
  | setAlerts enable pins => exact directive (d := .setAlerts enable pins) nofun h

end

/-- Settles O10: every command but a reset rests in HALTED. -/
theorem haltedFreezesState : Obligations.HaltedFreezesState := by
  unfold Obligations.HaltedFreezesState
  intro c s t halted quiet reset h
  have rests := exec_rests halted quiet reset h
  exact ⟨rests.frozen, rests.idle, fun other => rests.plain fun ⟨data, same⟩ => other data same,
    rests.raises, rests.clears, rests.fault⟩

/-! ## HALTED stays quiet -/

theorem State.runWarmReset_device (s : State) : s.runWarmReset.device = .stopped := by
  have only : s.runWarmReset = { s.warmValues with directive := s.runWarmReset.directive } :=
    s.warmValues.requestStatus_only
  rw [only]
  rfl

/-- The entry to HALTED stops the timer and withdraws every write (R45, R179). -/
theorem State.enterHalted_quiet (s : State) (k : OwnKind) : (s.enterHalted k).HaltedQuiet := by
  have entered : (s.haltAt k).HaltedQuiet := fun _ => ⟨rfl, rfl, rfl, rfl⟩
  have rests : (s.haltAt k).Rests True (fun _ => True) (fun _ => True) (s.enterHalted k) :=
    State.refillAnswered_rests rfl (fun _ => trivial) trivial
  exact rests.quiet rfl entered

theorem State.ownError_quiet {s : State} (live : s.device ≠ .halted) (k : OwnKind) (life : Life) :
    (s.ownError k life).HaltedQuiet := by
  have vacuous : s.HaltedQuiet := fun halted => absurd halted live
  cases life with
  | live =>
    rw [State.ownError, if_neg live]
    exact s.enterHalted_quiet k
  | haltDiscarded =>
    rw [State.ownError]
    split
    · exact fun halted => absurd halted (s.resumeFetch_only.upkeep.up live)
    · exact vacuous
  | resetDiscarded => exact vacuous

/-- A command that resets the part in HALTED rests, when it answers a discarded fetch, or leaves
HALTED. -/
theorem exec_quiet_of_reset {c : Instr} {s t : State} (up : s.Up) (halted : s.device = .halted)
    (quiet : s.HaltedQuiet) (fall : c ≠ .nresetLow) (rise : ∀ band, c ≠ .nresetRise band)
    (reset : resetsPart c = true) (h : exec c s = .next t) : t.HaltedQuiet := by
  have left {u : State} (stopped : u.device = .stopped) : u.HaltedQuiet := fun k => by
    rw [stopped] at k
    cases k
  have answered : s.Rests True (fun _ => True) (fun _ => True) (s.answerOwn .fetch) :=
    (s.answerOwn_only .fetch).rests
  cases c with
  | nresetLow => exact absurd rfl fall
  | nresetRise band => exact absurd rfl (rise band)
  | warmReset =>
    rw [eq_of_next ((exec_warmReset up).symm.trans h)]
    exact left s.runWarmReset_device
  | directiveFetchComplete bytes =>
    obtain rfl | rfl | rfl := exec_directiveFetchComplete_next up h
    · exact answered.quiet halted quiet
    · exact (answered.trans State.resumeFetch_rests).quiet halted quiet
    · simp only [resetsPart, Bool.and_eq_true, beq_iff_eq] at reset
      rw [State.takeDirectiveRecord, if_pos reset.1, reset.2]
      exact left (State.runWarmReset_device _)
  | _ => cases reset

/-- Settles O9: HALTED is entered by an ERROR to an own access alone, and in HALTED every command
rests or resets the part. -/
theorem haltedStaysQuiet : Obligations.HaltedStaysQuiet := by
  unfold Obligations.HaltedStaysQuiet
  refine fun s t holds h => step_keeps h holds (fun _ _ k => k) (fun s k halted => ?_)
    (fun band rest => (State.coldReset_invariants band rest).2.2.2.2)
    fun c s t up run fall rise quiet => ?_
  · obtain ⟨-, -, noRequest, noTimer⟩ := k halted
    exact ⟨rfl, rfl, noRequest, noTimer⟩
  by_cases halted : s.device = .halted
  · cases reset : resetsPart c with
    | false => exact (exec_rests halted quiet reset run).quiet halted quiet
    | true => exact exec_quiet_of_reset up halted quiet fall rise reset run
  · by_cases error : ∃ k data, c = .ownAccessError k data
    · obtain ⟨k, data, rfl⟩ := error
      obtain ⟨life, -, rfl⟩ := exec_ownAccessError_next up run
      exact State.ownError_quiet (s := s.answerOwn k) halted k life
    · exact fun k => absurd k
        ((exec_runs up run fall rise fun k data e => error ⟨k, data, e⟩).live halted)

end Sys2Proof.Machine
end

section
/-! SUPPORT. Pieces of forwarded beats, the index words among the areas, and the outstanding counts
that an accepted write raises (R16, R17, R19, R21, R27). -/

namespace Sys2Proof.Machine

/-! ## Beat addresses (R14) -/

theorem beatAddr_zero (a : Word) (kind : BurstKind) : beatAddr a kind 0 = a := by
  cases kind with
  | incr => exact BitVec.add_zero a
  | fixed => rfl

/-- The beats behind the first are those of a burst from the address that follows it. -/
theorem beatAddr_succ (a : Word) (kind : BurstKind) (n : Nat) :
    beatAddr a kind (n + 1) = beatAddr (if kind = .fixed then a else a + 4) kind n := by
  cases kind with
  | fixed => rfl
  | incr =>
    simp only [beatAddr, reduceCtorEq, if_false, Nat.mul_add, BitVec.ofNat_add, BitVec.add_assoc]
    rw [BitVec.add_comm (BitVec.ofNat 32 (4 * n))]
    rfl

theorem beatAddr_aligned {a : Word} (aligned : a.toNat % 4 = 0) (kind : BurstKind) (n : Nat) :
    (beatAddr a kind n).toNat % 4 = 0 := by
  cases kind with
  | fixed => exact aligned
  | incr =>
    simp only [beatAddr, BitVec.toNat_add, BitVec.toNat_ofNat]
    omega

theorem linkPresents_iff {a : Word} {n : Nat} :
    linkPresents a n = true ↔ a.toNat % 4 = 0 ∧ 1 ≤ n ∧ n ≤ 16 := by
  simp [linkPresents, and_assoc]

/-! ## Runs of forwarded beats (R21) -/

/-- The beats of a forwarded run lie at the addresses of one burst from the first. -/
theorem addrs_of_joined {kind : BurstKind} {b : PlannedBeat} {rest : List PlannedBeat}
    (forwarded : ∀ x ∈ b :: rest, x.plan.handling = .forwarded)
    (joined : (b :: rest).IsChain fun p q => p.plan.Joins kind q.plan) :
    (List.range (rest.length + 1)).map (beatAddr b.plan.addr kind) =
      (b :: rest).map (·.plan.addr) := by
  induction rest generalizing b with
  | nil => simp [beatAddr_zero]
  | cons c rest ih =>
    obtain ⟨first, others⟩ := List.isChain_cons_cons.mp joined
    have here : b.plan.handling = .forwarded := forwarded b (by simp)
    obtain ⟨-, -, -, -, next⟩ := first
    have follows : c.plan.addr = if kind = .fixed then b.plan.addr else b.plan.addr + 4 := by
      simpa [here] using next (by simp [here])
    have tail := ih (fun x mem => forwarded x (List.mem_cons_of_mem _ mem)) others
    rw [List.range_succ_eq_map, List.map_cons, List.map_map, beatAddr_zero, List.map_cons, ← tail,
      follows]
    congr 1
    exact List.map_congr_left fun n _ => beatAddr_succ _ _ _

/-- What is read off each piece of forwarded beats, read off the beats instead. -/
theorem flatMap_piecesOf {α : Type} {txn : Nat} {tag : Tag} {write : Bool} {kind : BurstKind}
    {beats : List PlannedBeat} {f : Piece → List α} {h : PlannedBeat → List α}
    (forwarded : ∀ b ∈ beats, b.plan.handling = .forwarded)
    (each : ∀ g ∈ cutBeats kind beats, ∀ p, pieceOf txn tag write kind g = some p →
      f p = g.flatMap h) : (piecesOf txn tag write kind beats).flatMap f = beats.flatMap h := by
  have shown : ∀ g ∈ cutBeats kind beats, ∃ p, pieceOf txn tag write kind g = some p := by
    intro g cut
    cases g with
    | nil => exact absurd rfl (cutBeats_nonempty kind beats [] cut)
    | cons b rest =>
      have mem : b ∈ (cutBeats kind beats).flatten := List.mem_flatten.mpr ⟨_, cut, by simp⟩
      rw [cutBeats_flatten] at mem
      exact ⟨_, if_neg (by simp [forwarded b mem])⟩
  have grouped (gs : List (List PlannedBeat)) (sub : ∀ g ∈ gs, g ∈ cutBeats kind beats) :
      (gs.filterMap (pieceOf txn tag write kind)).flatMap f = gs.flatten.flatMap h := by
    induction gs with
    | nil => rfl
    | cons g gs ih =>
      obtain ⟨p, piece⟩ := shown g (sub g (by simp))
      rw [List.filterMap_cons_some piece, List.flatMap_cons, List.flatten_cons,
        List.flatMap_append, each g (sub g (by simp)) p piece,
        ih fun x mem => sub x (List.mem_cons_of_mem _ mem)]
  rw [piecesOf, grouped _ fun _ => id, cutBeats_flatten]

theorem Piece.addrs_of_forwarded {txn : Nat} {tag : Tag} {write : Bool} {kind : BurstKind}
    {beats : List PlannedBeat} (forwarded : ∀ b ∈ beats, b.plan.handling = .forwarded) :
    (piecesOf txn tag write kind beats).flatMap Piece.addrs = beats.map (·.plan.addr) := by
  rw [← List.flatMap_pure_eq_map]
  refine flatMap_piecesOf forwarded fun g cut p piece => ?_
  obtain ⟨b, rest, rfl, -, rfl⟩ := pieceOf_eq_some piece
  have inBeats : ∀ x ∈ b :: rest, x.plan.handling = .forwarded := fun x mem =>
    forwarded x (cutBeats_flatten kind beats ▸ List.mem_flatten.mpr ⟨_, cut, mem⟩)
  have kept : pieceKind kind b.plan.handling = kind := if_pos (inBeats b (by simp))
  simp only [Piece.addrs, kept]
  rw [addrs_of_joined inBeats ((cutBeats_cut kind beats).joined _ cut), ← List.flatMap_pure_eq_map]

/-! ## Index words (R17, R19) -/

theorem pageBase_room (band : StrapBand) : (pageBase band).toNat + 4096 ≤ 2 ^ 32 := by
  cases band <;> decide

theorem landingArea_snooped (off : Nat) : (landingArea off).snooped = none := by
  unfold landingArea
  split_ifs <;> rfl

theorem State.slotArea_snooped (s : State) (a : Word) : (s.slotArea a).snooped = none := by
  unfold State.slotArea
  split <;> rfl

theorem State.workArea_snooped (s : State) (a : Word) : (s.workArea a).snooped = none := by
  unfold State.workArea
  split
  · split_ifs
    · exact landingArea_snooped _
    · rfl
    · rfl
    · exact s.slotArea_snooped a
  · exact s.slotArea_snooped a

theorem pageArea_snooped {off : Nat} (aligned : off % 4 = 0) : (pageArea off).snooped =
    if off = 0 then some .directive else if off = 4 then some .report
    else if off = 8 then some .free else none := by
  unfold pageArea
  by_cases zero : off = 0
  · rw [if_pos zero, if_pos (show off < 4 by omega)]
    rfl
  · rw [if_neg zero, if_neg (show ¬ off < 4 by omega)]
    by_cases four : off = 4
    · rw [if_pos four, if_pos (show off < 8 by omega)]
      rfl
    · rw [if_neg four, if_neg (show ¬ off < 8 by omega)]
      by_cases eight : off = 8
      · rw [if_pos eight, if_pos (show off < 12 by omega)]
        rfl
      · rw [if_neg eight, if_neg (show ¬ off < 12 by omega)]
        rfl

/-- A word-aligned address is an index word when it is one of the page's first three (R19). -/
theorem State.areaOf_snooped (s : State) {a : Word} (aligned : a.toNat % 4 = 0) :
    (s.areaOf a).snooped =
      if a = pageBase s.strap then some .directive
      else if a = pageBase s.strap + 4 then some .report
      else if a = pageBase s.strap + 8 then some .free
      else none := by
  have pageAligned : (pageBase s.strap).toNat % 4 = 0 := by cases s.strap <;> decide
  have room := pageBase_room s.strap
  generalize page : pageBase s.strap = base at pageAligned room
  have at_iff (k : Nat) (hk : k < 12) : a = base + BitVec.ofNat 32 k ↔
      a.toNat = base.toNat + k := by
    rw [← BitVec.toNat_inj, BitVec.toNat_add, BitVec.toNat_ofNat]
    omega
  have first : a = base ↔ a.toNat = base.toNat := BitVec.toNat_inj.symm
  have second : a = base + 4 ↔ a.toNat = base.toNat + 4 := at_iff 4 (by decide)
  have third : a = base + 8 ↔ a.toNat = base.toNat + 8 := at_iff 8 (by decide)
  simp only [State.areaOf, page, first, second, third]
  by_cases within : inRange a base 4096 = true
  · rw [if_pos within, toNat_sub_of_inRange within, pageArea_snooped (by have := (inRange_iff.mp within).1; omega)]
    have low := (inRange_iff.mp within).1
    congr 1
    · simp only [eq_iff_iff]; omega
    · congr 1
      · simp only [eq_iff_iff]; omega
      · congr 1
        simp only [eq_iff_iff]; omega
  · have outside : ¬ (base.toNat ≤ a.toNat ∧ a.toNat < base.toNat + 4096) := fun k =>
      within (inRange_iff.mpr k)
    rw [if_neg within, if_neg (c := a.toNat = base.toNat) (by omega),
      if_neg (c := a.toNat = base.toNat + 4) (by omega),
      if_neg (c := a.toNat = base.toNat + 8) (by omega)]
    split
    · exact s.workArea_snooped a
    · rfl

/-! ## Outstanding counts (R27) -/

/-- Redirected pieces change nothing but the slot table. -/
theorem State.foldl_raiseOutstanding_only (pieces : List Piece) (s : State) :
    let t := pieces.foldl State.raiseOutstanding s
    t = { s with supply := { s.supply with table := t.supply.table } } := by
  induction pieces generalizing s with
  | nil => rfl
  | cons p pieces ih =>
    have first : s.raiseOutstanding p =
        { s with supply := { s.supply with table := (s.raiseOutstanding p).supply.table } } := by
      unfold State.raiseOutstanding
      split <;> rfl
    have rest := ih (s.raiseOutstanding p)
    rw [List.foldl_cons]
    generalize pieces.foldl State.raiseOutstanding (s.raiseOutstanding p) = t at rest
    rw [first] at rest
    exact rest

/-- Each redirected piece raises the count of the entry it names by one (R27). -/
theorem State.slot_foldl_raiseOutstanding (pieces : List Piece) (s : State) (a : Word) :
    (pieces.foldl State.raiseOutstanding s).slot a = (s.slot a).map fun e => { e with
      outstanding := e.outstanding +
        (pieces.filter fun p => p.redirect.map (·.1) == some a).length } := by
  induction pieces generalizing s with
  | nil => simp
  | cons p pieces ih =>
    rw [List.foldl_cons, ih]
    unfold State.raiseOutstanding
    split
    · rename_i a' c redirect
      rw [State.slot_updSlot s a' a (fun e => { e with outstanding := e.outstanding + 1 })
        fun _ => rfl]
      by_cases same : a = a'
      · subst same
        simp [redirect, Function.comp_def, Nat.add_assoc, Nat.add_comm 1]
      · have other : ¬ a' = a := fun k => same k.symm
        simp [redirect, same, other]
    · rename_i redirect
      simp [redirect]

end Sys2Proof.Machine
end

section
/-! CLAIMS. Steps, resets and the upstream link (R3, R14 to R22, R25, R27, R154, R182). -/

namespace Sys2Proof.Machine

/-! ## Steps and resets -/

/-- Settles O1: the two rows of a step's table. -/
theorem stepTakesFrontCommand : Obligations.StepTakesFrontCommand := by
  unfold Obligations.StepTakesFrontCommand
  refine ⟨fun s c rest front => ?_, fun s rest => rfl, fun s empty => ?_⟩
  · rw [step, front]
  · rw [step, empty]

theorem AsmBuffer.clear_words (i : Fin 8) : AsmBuffer.clear.mask = 0 ∧
    AsmBuffer.clear.words[i] = 0 := by
  simp [AsmBuffer.clear]

theorem State.coldReset_tap (band : StrapBand) (u : TapNo) :
    (State.coldReset band).tap u = Tap.reset := by
  simp [State.tap, State.coldReset]

theorem State.coldReset_buffer (band : StrapBand) (p : Fin 8) :
    (State.coldReset band).layout.buffers[p] = AsmBuffer.clear := by
  simp [State.coldReset, Layout.reset, clearBuffers]

theorem State.coldReset_flags (band : StrapBand) (f : Flag) :
    (State.coldReset band).reporter.flagSet f = Decidable.decide (f = .powerOn) ∧
    (State.coldReset band).reporter.pinEnables.getLsbD f.bit =
      Decidable.decide (f = .layoutMismatch ∨ f = .badSlot) := by
  show (0x01 : BitVec 8).getLsbD f.bit = _ ∧ (0x0C : BitVec 8).getLsbD f.bit = _
  cases f <;> decide

/-- Settles O3: each field by what its block's reset sets. -/
theorem coldResetValues : Obligations.ColdResetValues := by
  unfold Obligations.ColdResetValues
  intro band
  have maps (i : StreamId) : (State.coldReset band).curEntry i = none ∧
      entryOf (State.coldReset band).layout.pend.entries i = none :=
    ⟨entryOf_absent i, entryOf_absent i⟩
  have buffers (p i : Fin 8) : (State.coldReset band).layout.buffers[p].mask = 0 ∧
      (State.coldReset band).layout.buffers[p].words[i] = 0 := by
    rw [State.coldReset_buffer]
    exact AsmBuffer.clear_words i
  have flags := State.coldReset_flags band
  simp only [State.coldReset_tap]
  refine ⟨rfl, rfl, rfl, rfl, rfl, rfl, rfl, rfl, rfl, rfl, rfl, rfl, rfl, rfl, rfl, rfl, rfl, rfl,
    rfl, rfl, rfl, rfl, rfl, rfl, rfl, rfl, rfl, rfl, rfl, rfl, maps, buffers, rfl, rfl, rfl,
    fun u => ⟨rfl, rfl, rfl, rfl, rfl, rfl, rfl, rfl, rfl, rfl, rfl, rfl, rfl, rfl, rfl, rfl⟩,
    rfl, rfl, rfl, rfl, rfl, rfl, rfl, rfl, rfl, rfl, rfl, rfl, fun f => (flags f).1, rfl,
    fun f => (flags f).2, rfl, rfl, rfl, rfl, rfl, rfl, rfl, rfl, rfl, rfl⟩

/-- With nothing waiting on either side no own burst is granted (R182). -/
theorem State.resetLow_ownWaiting (s : State) : s.resetLow.ownWaiting = none := rfl

/-- Settles O11: what the fall sets, and that a command waits for the rise. -/
theorem resetFallLosesTransactions : Obligations.ResetFallLosesTransactions := by
  unfold Obligations.ResetFallLosesTransactions
  exact ⟨fun s => ⟨s.resetLow, rfl, rfl, rfl, rfl, rfl, rfl, rfl, rfl, s.resetLow_ownWaiting, rfl,
    rfl⟩, fun c s low fall rise => exec_of_low low fall rise⟩

/-- Settles O12: the rise after a fall, and the four page bases. -/
theorem resetRiseGivesColdReset : Obligations.ResetRiseGivesColdReset := by
  unfold Obligations.ResetRiseGivesColdReset
  intro s band low
  refine ⟨?_, rfl, rfl, rfl, rfl⟩
  show Host.Outcome.next _ = _
  rw [if_pos low]

/-! ## What the link presents -/

theorem State.linkOpen_iff (s : State) : s.linkOpen = true ↔ s.link.txns.length < 16 :=
  decide_eq_true_iff

theorem exec_upstreamWriteAccept_opened {s : State} (up : s.Up) {tag : Tag} {a : Word}
    {k : BurstKind} {bs : List WriteBeat} (presents : linkPresents a bs.length = true)
    (opened : s.linkOpen = true) :
    exec (.upstreamWriteAccept tag a k bs) s = .next (s.acceptWrite tag a k bs) := by
  rw [exec_upstreamWriteAccept up, if_pos presents, if_pos opened]

theorem exec_upstreamReadAccept_opened {s : State} (up : s.Up) {tag : Tag} {a : Word}
    {k : BurstKind} {n : Nat} (presents : linkPresents a n = true) (opened : s.linkOpen = true) :
    exec (.upstreamReadAccept tag a k n) s = .next (s.acceptRead tag a k n) := by
  rw [exec_upstreamReadAccept up, if_pos presents, if_pos opened]

/-- Settles O16: the full table and the unpresented transaction, and what the link presents. -/
theorem linkTurnsAway : Obligations.LinkTurnsAway := by
  unfold Obligations.LinkTurnsAway
  refine ⟨fun s tag a k bs n up => ?_, fun a n => linkPresents_iff, State.linkOpen_iff,
    fun a b => ⟨rfl, rfl⟩⟩
  have closed (full : 16 ≤ s.link.txns.length) : ¬ s.linkOpen = true := by
    rw [s.linkOpen_iff]
    omega
  have unpresented {m : Nat} (h : linkPresents a m = false) : ¬ linkPresents a m = true := by
    simp [h]
  refine ⟨fun presents full => ?_, fun presents full => ?_, fun h => ?_, fun h => ?_⟩
  · rw [exec_upstreamWriteAccept up, if_pos presents, if_neg (closed full)]
  · rw [exec_upstreamReadAccept up, if_pos presents, if_neg (closed full)]
  · rw [exec_upstreamWriteAccept up, if_neg (unpresented h)]
  · rw [exec_upstreamReadAccept up, if_neg (unpresented h)]

/-! ## Writes that pass, and the areas of an address -/

theorem State.passedBeats_forwarded {s : State} {a : Word} {k : BurstKind} {n : Nat}
    {bs : List WriteBeat} : ∀ b ∈ s.passedBeats a k n bs, b.plan.handling = .forwarded := by
  intro b mem
  obtain ⟨x, plan⟩ := State.plan_of_mem_passedBeats mem
  rw [plan]
  rfl

theorem State.passedBeats_addr (s : State) (a : Word) (k : BurstKind) (bs : List WriteBeat) :
    (s.passedBeats a k 0 bs).map (·.plan.addr) = (List.range bs.length).map (beatAddr a k) := by
  apply List.ext_getElem
  · simp [State.passedBeats]
  · intro i h1 h2
    simp [State.passedBeats, BeatPlan.forward]

theorem State.passedBeats_beat (s : State) (a : Word) (k : BurstKind) (n : Nat)
    (bs : List WriteBeat) : (s.passedBeats a k n bs).filterMap (·.beat) = bs := by
  induction bs generalizing n with
  | nil => rfl
  | cons b bs ih => simp [State.passedBeats_cons, ih]

/-- An accepted write whose beats only pass is forwarded unaltered (R18 to R20). -/
theorem State.acceptWrite_forwards {s : State} {tag : Tag} {a : Word} {k : BurstKind}
    {bs : List WriteBeat} (aligned : a.toNat % 4 = 0)
    (passes : ∀ i b, bs[i]? = some b → s.PassesBeat (beatAddr a k i) b) :
    s.ForwardsWrite (s.acceptWrite tag a k bs) tag a k bs := by
  rw [State.acceptWrite_passes passes]
  refine ⟨rfl, s.passedPieces tag a k bs, rfl, ?_, ?_, fun p mem => ?_⟩
  · have beats := flatMap_piecesOf (txn := s.link.serial) (tag := tag) (write := true) (kind := k)
      (f := (·.beats)) (h := fun b => b.beat.toList) (beats := s.passedBeats a k 0 bs)
      State.passedBeats_forwarded fun g _ p piece => by
        obtain ⟨b, rest, rfl, -, rfl⟩ := pieceOf_eq_some piece
        exact List.filterMap_eq_flatMap_toList _ _
    rw [State.passedPieces, beats, ← List.filterMap_eq_flatMap_toList, s.passedBeats_beat]
  · rw [State.passedPieces, Piece.addrs_of_forwarded State.passedBeats_forwarded,
      s.passedBeats_addr]
  · refine ⟨State.passedPieces_redirect p mem, ?_⟩
    obtain ⟨b, rest, -, planned, -, rfl⟩ := mem_piecesOf mem
    refine ⟨rfl, rfl, if_pos (State.passedBeats_forwarded b planned), ?_⟩
    obtain ⟨i, _, rfl⟩ := List.mem_mapIdx.mp planned
    exact s.areaOf_snooped (beatAddr_aligned aligned k _)

theorem State.areaOf_page {s : State} {a : Word} (within : inRange a (pageBase s.strap) 4096 = true) :
    s.areaOf a = pageArea (a.toNat - (pageBase s.strap).toNat) := by
  simp only [State.areaOf]
  rw [if_pos within, toNat_sub_of_inRange within]

theorem State.areaOf_inactive {s : State} {a : Word}
    (outside : ¬ inRange a (pageBase s.strap) 4096 = true) (inactive : s.device.active = false) :
    s.areaOf a = .dram := by
  simp [State.areaOf, outside, inactive]

theorem State.areaOf_active {s : State} {a : Word}
    (outside : ¬ inRange a (pageBase s.strap) 4096 = true) (active : s.device.active = true) :
    s.areaOf a = s.workArea a := by
  simp [State.areaOf, outside, active]

theorem State.workArea_unconfigured {s : State} (none : s.regions = none) (a : Word) :
    s.workArea a = s.slotArea a := by
  simp [State.workArea, none]

theorem State.workArea_configured {s : State} {r : Regions} (configured : s.regions = some r)
    (a : Word) : s.workArea a =
      if inRange a r.landingBase 32768 then landingArea (a - r.landingBase).toNat
      else if inRange a r.reportBase (64 * r.reportSize) then .reportRing
      else if inRange a r.freeBase (4 * r.freeSize) then .freeRing
      else s.slotArea a := by
  simp [State.workArea, configured]

theorem pageArea_rows (off : Nat) :
    (off < 4 → pageArea off = .index .directive) ∧
    (4 ≤ off → off < 8 → pageArea off = .index .report) ∧
    (8 ≤ off → off < 12 → pageArea off = .index .free) ∧ (12 ≤ off → pageArea off = .page) := by
  unfold pageArea
  split_ifs <;> simp <;> omega

theorem landingArea_rows (off : Nat) :
    (off < 64 → landingArea off = .header) ∧
    (64 ≤ off → off < 320 → landingArea off = .layoutBlock) ∧
    (320 ≤ off → off < 1024 → landingArea off = .unused) ∧
    (1024 ≤ off → off < 31744 → landingArea off = .cells) ∧
    (31744 ≤ off → landingArea off = .tail) := by
  unfold landingArea
  split_ifs <;> simp <;> omega

theorem DeviceState.active_iff (d : DeviceState) : d.active = true ↔
    d = .acquiring ∨ d = .running ∨ d = .coasting := by
  cases d <;> simp [DeviceState.active]

/-- Settles O13: a write with no beat that does anything is forwarded unaltered, and the chain of
areas in the order in which they are told apart. -/
theorem stoppedWritePassesUnaltered : Obligations.StoppedWritePassesUnaltered := by
  unfold Obligations.StoppedWritePassesUnaltered
  refine ⟨fun s tag a k bs up inactive presents opened => ?_,
    fun s tag a k bs up active presents opened passes => ?_,
    fun s => ⟨s.device.active_iff, fun r configured => ?_⟩, fun s a => ?_⟩
  · exact ⟨_, exec_upstreamWriteAccept_opened up presents opened,
      State.acceptWrite_forwards (linkPresents_iff.mp presents).1
        fun _ b _ => State.passesBeat_of_inactive inactive _ b⟩
  · exact ⟨_, exec_upstreamWriteAccept_opened up presents opened,
      State.acceptWrite_forwards (linkPresents_iff.mp presents).1 passes⟩
  · rw [State.landingBase, configured]
  · have slotOrDram (area : s.areaOf a = s.slotArea a) :
        ((∃ e ∈ s.supply.table, inRange a e.addr 4096 = true) →
          ∃ e ∈ s.supply.table, inRange a e.addr 4096 = true ∧ s.areaOf a = .slot e.addr) ∧
        ((∀ e ∈ s.supply.table, ¬ inRange a e.addr 4096 = true) → s.areaOf a = .dram) := by
      rw [area]
      exact ⟨State.slotArea_slot, fun h => State.slotArea_dram fun e mem => by simpa using h e mem⟩
    simp only [← inRange_iff]
    refine ⟨fun within => ?_, State.areaOf_inactive, fun outside active unconfigured => ?_,
      fun r outside active configured => ?_⟩
    · rw [State.areaOf_page within]
      exact pageArea_rows _
    · exact slotOrDram ((State.areaOf_active outside active).trans
        (State.workArea_unconfigured unconfigured a))
    · have area := (State.areaOf_active outside active).trans
        (State.workArea_configured configured a)
      refine ⟨fun within => ?_, fun notLanding within => ?_, fun notLanding notReport within => ?_,
        fun notLanding notReport notFree => ?_⟩
      · rw [area, if_pos within, toNat_sub_of_inRange within]
        exact landingArea_rows _
      · rw [area, if_neg notLanding, if_pos within]
      · rw [area, if_neg notLanding, if_neg notReport, if_pos within]
      · exact slotOrDram (by rw [area, if_neg notLanding, if_neg notReport, if_neg notFree])

end Sys2Proof.Machine
end

section
/-! CLAIMS. The outstanding-transaction table: reads and writes entering it, and the delivery of
responses (R14 to R16, R20 to R22, R25, R27, R29). -/

namespace Sys2Proof.Machine

/-! ## Reads -/

theorem State.mem_readBeats {s : State} {a : Word} {k : BurstKind} {n : Nat} {b : PlannedBeat}
    (h : b ∈ s.readBeats a k n) :
    ∃ x, b.plan = BeatPlan.forward (s.areaOf x) x ∧ b.beat = none := by
  obtain ⟨i, -, rfl⟩ := List.mem_map.mp h
  exact ⟨_, rfl, rfl⟩

theorem State.readBeats_forwarded {s : State} {a : Word} {k : BurstKind} {n : Nat} :
    ∀ b ∈ s.readBeats a k n, b.plan.handling = .forwarded := by
  intro b mem
  obtain ⟨x, plan, -⟩ := State.mem_readBeats mem
  rw [plan]
  rfl

theorem State.readBeats_addr (s : State) (a : Word) (k : BurstKind) (n : Nat) :
    (s.readBeats a k n).map (·.plan.addr) = (List.range n).map (beatAddr a k) :=
  List.map_map

/-- The beats of a read are told apart by area and address alone (R21). -/
theorem State.readBeats_joins {s : State} {a : Word} {k : BurstKind} {n : Nat} {p q : PlannedBeat}
    (hp : p ∈ s.readBeats a k n) (hq : q ∈ s.readBeats a k n) :
    p.plan.Joins k q.plan ↔ s.areaOf q.plan.addr = s.areaOf p.plan.addr ∧
      q.plan.addr = if k = .fixed then p.plan.addr else p.plan.addr + 4 := by
  obtain ⟨x, planP, -⟩ := State.mem_readBeats hp
  obtain ⟨y, planQ, -⟩ := State.mem_readBeats hq
  simp [planP, planQ, BeatPlan.Joins, BeatPlan.forward]

theorem State.readBeats_pieces {s : State} {tag : Tag} {a : Word} {k : BurstKind} {n txn : Nat}
    {p : Piece} (h : p ∈ piecesOf txn tag false k (s.readBeats a k n)) :
    p.redirect = none ∧ p.snoop = none ∧ p.write = false ∧ p.tag = tag ∧ p.txn = txn := by
  obtain ⟨b, rest, -, planned, -, rfl⟩ := mem_piecesOf h
  obtain ⟨x, plan, -⟩ := State.mem_readBeats planned
  exact ⟨by rw [plan]; rfl, rfl, rfl, rfl, rfl⟩

/-- The piece of a run of a read's beats (R16, R21). -/
theorem State.pieceOf_readBeats {s : State} {a : Word} {k : BurstKind} {n : Nat} (txn : Nat)
    (tag : Tag) {b : PlannedBeat} {rest : List PlannedBeat}
    (cut : b :: rest ∈ cutBeats k (s.readBeats a k n)) :
    pieceOf txn tag false k (b :: rest) = some
      { txn := txn, tag := tag, write := false, addr := b.plan.addr, kind := k,
        len := (b :: rest).length, first := b.number, beats := [], redirect := none,
        snoop := none } := by
  have inBeats : ∀ x ∈ b :: rest, x ∈ s.readBeats a k n := fun x mem =>
    cutBeats_flatten k (s.readBeats a k n) ▸ List.mem_flatten.mpr ⟨_, cut, mem⟩
  obtain ⟨x, plan, -⟩ := State.mem_readBeats (inBeats b (by simp))
  have noData : (b :: rest).filterMap (·.beat) = [] := List.filterMap_eq_nil_iff.mpr fun x mem => by
    obtain ⟨_, -, none⟩ := State.mem_readBeats (inBeats x mem)
    exact none
  simp [pieceOf, noData, plan, BeatPlan.forward, pieceKind]

theorem Link.enter_of_pieces (l : Link) (t : Txn) {pieces : List Piece} (some : pieces ≠ []) :
    l.enter t pieces =
      { l with queue := l.queue ++ pieces, txns := l.txns ++ [t], serial := l.serial + 1 } := by
  simp [Link.enter, some]

theorem filterMap_congr_mem {α β : Type} {l : List α} {f g : α → Option β}
    (h : ∀ x ∈ l, f x = g x) : l.filterMap f = l.filterMap g := by
  induction l with
  | nil => rfl
  | cons x l ih =>
    have rest := ih fun y mem => h y (List.mem_cons_of_mem _ mem)
    rw [List.filterMap_cons, List.filterMap_cons, h x (by simp), rest]

/-- Settles O14: the plan of a read's beats, their cutting, and the entry. -/
theorem readIsForwarded : Obligations.ReadIsForwarded := by
  unfold Obligations.ReadIsForwarded
  intro s tag a k n up presents opened
  let planned := s.readBeats a k n
  let pieces := piecesOf s.link.serial tag false k planned
  have addrs : pieces.flatMap Piece.addrs = (List.range n).map (beatAddr a k) := by
    rw [Piece.addrs_of_forwarded State.readBeats_forwarded, s.readBeats_addr]
  have some : pieces ≠ [] := by
    obtain ⟨-, len, -⟩ := linkPresents_iff.mp presents
    rintro empty
    rw [empty] at addrs
    have := congrArg List.length addrs
    simp only [List.flatMap_nil, List.length_nil, List.length_map, List.length_range] at this
    omega
  refine ⟨s.acceptRead tag a k n, _, planned, cutBeats k planned, pieces,
    exec_upstreamReadAccept_opened up presents opened, rfl, rfl, cutBeats_cut k planned,
    fun p q => State.readBeats_joins, filterMap_congr_mem fun g cut => ?_,
    s.link.enter_of_pieces _ some, rfl, addrs, fun p => State.readBeats_pieces, rfl, rfl, rfl, rfl,
    rfl, rfl, rfl⟩
  cases g with
  | nil => rfl
  | cons b rest => exact State.pieceOf_readBeats _ tag cut

/-! ## Writes -/

/-- The entry of an accepted write (R15, R22). -/
def State.writeTxn (s : State) (tag : Tag) (len : Nat) (pieces : List Piece) : Txn :=
  { id := s.link.serial, tag := tag, write := true, len := len, unanswered := pieces.length,
    err := false, data := [], activeAtAccept := s.device.active }

/-- An accepted write: its beats resolved, the counts of its pieces' entries raised, and its entry
beside the links as they were (R14, R15, R27). -/
theorem State.acceptWrite_spec {s u : State} {a : Word} {k : BurstKind} {bs : List WriteBeat}
    {planned : List PlannedBeat} (tag : Tag) (resolved : s.writeBeats a k 0 bs = (u, planned)) :
    let pieces := piecesOf s.link.serial tag true k planned
    ∃ v : State, v = { u with supply := { u.supply with table := v.supply.table } } ∧ s.Upkeep u ∧
      v.link = s.link ∧
      (∀ x, v.slot x = (u.slot x).map fun e => { e with outstanding := e.outstanding +
        (pieces.filter fun p : Piece => p.redirect.map (·.1) == some x).length }) ∧
      s.acceptWrite tag a k bs =
        v.updLink fun l => l.enter (s.writeTxn tag bs.length pieces) pieces := by
  intro pieces
  have kept := State.writeBeats_upkeep a k bs 0 s
  rw [resolved] at kept
  have only := u.foldl_raiseOutstanding_only pieces
  refine ⟨pieces.foldl State.raiseOutstanding u, only, kept, ?_,
    State.slot_foldl_raiseOutstanding pieces u, ?_⟩
  · rw [only]
    exact kept.outside.2.2.2.1
  · simp only [State.acceptWrite, resolved]
    rfl

theorem Link.enter_fields (l : Link) (t : Txn) (pieces : List Piece) :
    (l.enter t pieces).txns = l.txns ++ [t] ∧ (l.enter t pieces).serial = l.serial + 1 ∧
    (l.enter t pieces).delivered = l.delivered ∧
    (l.enter t pieces).queue = l.queue ++ pieces ∧
    (l.enter t pieces).ready = l.ready ++ (if pieces = [] then [t.id] else []) ∧
    (l.enter t pieces).inFlight = l.inFlight ∧ (l.enter t pieces).lastGrant = l.lastGrant := by
  refine ⟨rfl, rfl, rfl, rfl, ?_, rfl, rfl⟩
  unfold Link.enter
  split <;> simp [*]

/-- A beat outside the cell area is planned at its own address (R20). -/
theorem State.writeBeat_plan {s : State} {a : Word} (other : s.areaOf a ≠ .cells) (b : WriteBeat) :
    (s.writeBeat a b).2 = BeatPlan.forward (s.areaOf a) a := by
  unfold State.writeBeat
  simp only
  split
  · rename_i area; rw [area]
  · rename_i area; rw [area]
  · rename_i area; exact absurd area other
  · rfl

/-- Settles O15: the entry, the cutting of the planned beats, and the beats in order. -/
theorem writeEntersTable : Obligations.WriteEntersTable := by
  unfold Obligations.WriteEntersTable
  refine ⟨fun s tag a k bs up presents opened => ?_, fun s tag a k bs up presents opened => ?_,
    fun s a k n b rest => ⟨rfl, ⟨_, _, _, _, rfl, rfl, rfl⟩, fun a u plan beat => ⟨fun other => ?_,
      fun passes => ?_⟩⟩⟩
  · obtain ⟨⟨u, planned⟩, resolved⟩ : ∃ r, s.writeBeats a k 0 bs = r := ⟨_, rfl⟩
    obtain ⟨v, only, kept, link, -, accepted⟩ := State.acceptWrite_spec tag resolved
    obtain ⟨low, strap, regions, -, -⟩ := kept.outside
    let pieces := piecesOf s.link.serial tag true k planned
    obtain ⟨txns, serial, delivered, queue, ready, inFlight, last⟩ :=
      s.link.enter_fields (s.writeTxn tag bs.length pieces) pieces
    rw [exec_upstreamWriteAccept_opened up presents opened, accepted]
    refine ⟨_, s.writeTxn tag bs.length pieces, pieces, rfl, ?_⟩
    simp only [State.updLink_link, link, State.updLink_fields]
    refine ⟨txns, rfl, rfl, rfl, serial, rfl, rfl, delivered, rfl, rfl, rfl, queue, fun p mem => ?_,
      ready, inFlight, last, ?_, ?_, ?_⟩
    · obtain ⟨b, rest, -, -, -, rfl⟩ := mem_piecesOf mem
      exact ⟨rfl, rfl⟩
    · rw [only]; exact low
    · rw [only]; exact strap
    · rw [only]; exact regions
  · obtain ⟨⟨u, planned⟩, resolved⟩ : ∃ r, s.writeBeats a k 0 bs = r := ⟨_, rfl⟩
    obtain ⟨v, only, -, link, counts, accepted⟩ := State.acceptWrite_spec tag resolved
    rw [exec_upstreamWriteAccept_opened up presents opened, accepted]
    refine ⟨_, u, planned, cutBeats k planned, piecesOf s.link.serial tag true k planned, rfl,
      resolved, cutBeats_cut k planned, filterMap_congr_mem fun g cut => ?_, ?_, ?_, counts⟩
    · cases g with
      | nil => rfl
      | cons b rest => rfl
    · rw [← link]
      rfl
    · rw [only]
      rfl
  · exact (congrArg Prod.snd beat).symm.trans (State.writeBeat_plan other b)
  · rw [State.writeBeat_passes s a b passes] at beat
    exact (Prod.mk.inj beat).1.symm

/-! ## Delivery -/

/-- An entry with its number to itself among those before it is held back by an earlier one of its
tag, and by nothing else (R15). -/
theorem Link.firstOfTag_of_split {l : Link} {x : Txn} {pre post : List Txn}
    (split : l.txns = pre ++ x :: post) (other : ∀ u ∈ pre, u.id ≠ x.id) :
    l.firstOfTag x = true ↔ ∀ u ∈ pre, u.tag ≠ x.tag := by
  unfold Link.firstOfTag
  rw [split, List.find?_append]
  cases found : pre.find? (fun u => u.tag == x.tag) with
  | none =>
    simp only [List.find?_eq_none, beq_iff_eq] at found
    simpa using found
  | some y =>
    have mem := List.mem_of_find?_eq_some found
    have tag : y.tag = x.tag := by simpa using List.find?_some found
    exact iff_of_false (by simpa using other y mem) fun free => free y mem tag

theorem Link.txn_split {l : Link} {id : Nat} {x : Txn} (h : l.txn id = some x) :
    x.id = id ∧ ∃ pre post, l.txns = pre ++ x :: post ∧ ∀ u ∈ pre, u.id ≠ id := by
  obtain ⟨same, pre, post, split, others⟩ := List.find?_eq_some_iff_append.mp h
  exact ⟨by simpa using same, pre, post, split, fun u mem => by simpa using others u mem⟩

theorem Link.nextDelivery_split {l : Link} {x : Txn} (h : l.nextDelivery = some x) :
    x.id ∈ l.ready ∧ ∃ pre post, l.txns = pre ++ x :: post ∧ ∀ u ∈ pre, u.tag ≠ x.tag := by
  obtain ⟨id, mem, found⟩ := List.exists_of_findSome?_eq_some h
  split at found
  · rename_i t entry
    split at found
    · rename_i first
      obtain rfl := Option.some.inj found
      obtain ⟨rfl, pre, post, split, others⟩ := Link.txn_split entry
      exact ⟨mem, pre, post, split, (Link.firstOfTag_of_split split others).mp first⟩
    · cases found
  · cases found

theorem ids_of_split {txns pre post : List Txn} {x : Txn} (nodup : (txns.map (·.id)).Nodup)
    (split : txns = pre ++ x :: post) : ∀ u ∈ pre ++ post, u.id ≠ x.id := by
  rw [split, List.map_append, List.map_cons, List.nodup_middle, List.nodup_cons,
    ← List.map_append] at nodup
  exact fun u mem same => nodup.1 (same ▸ List.mem_map_of_mem mem)

/-- Of the complete transactions the first that no earlier one of its tag holds back is next
(R15). -/
theorem Link.nextDelivery_of_split {l : Link} {x : Txn} {pre post : List Txn}
    {blocked rest : List Nat} (nodup : (l.txns.map (·.id)).Nodup) (split : l.txns = pre ++ x :: post)
    (ready : l.ready = blocked ++ x.id :: rest) (free : ∀ u ∈ pre, u.tag ≠ x.tag)
    (held : ∀ i ∈ blocked, ∃ y before after, l.txns = before ++ y :: after ∧ y.id = i ∧
      ∃ u ∈ before, u.tag = y.tag) : l.nextDelivery = some x := by
  have others := ids_of_split nodup split
  have first : l.firstOfTag x = true := (Link.firstOfTag_of_split split fun u mem =>
    others u (List.mem_append_left _ mem)).mpr free
  unfold Link.nextDelivery
  rw [ready, List.findSome?_append, List.findSome?_eq_none_iff.mpr fun i mem => ?_]
  · simp [Link.txn_of_split split rfl others, first]
  · obtain ⟨y, before, after, splitY, rfl, u, earlier, tag⟩ := held i mem
    have othersY := ids_of_split nodup splitY
    have behind : ¬ l.firstOfTag y = true := fun k =>
      (Link.firstOfTag_of_split splitY fun u mem => othersY u (List.mem_append_left _ mem)).mp k
        u earlier tag
    simp [Link.txn_of_split splitY rfl othersY, behind]

theorem Link.deliver_of_none {l : Link} (h : l.nextDelivery = none) : l.deliver = l := by
  unfold Link.deliver
  rw [h]

theorem Link.deliver_of_some {l : Link} {x : Txn} (h : l.nextDelivery = some x) : l.deliver =
    { l with
      txns := l.txns.filter (fun u => u.id != x.id), ready := l.ready.filter (· != x.id),
      delivered := some x.response } := by
  unfold Link.deliver
  rw [h]

/-- Settles O17: what is delivered, what comes next, and when nothing does. -/
theorem responseDelivered : Obligations.ResponseDelivered := by
  unfold Obligations.ResponseDelivered
  refine ⟨fun s up => ⟨_, exec_upstreamResponseDelivery up, rfl, ?_⟩,
    fun s x pre post blocked rest up split nodup ready free held => ?_, State.nextDelivery_none⟩
  · cases next : s.link.nextDelivery with
    | none =>
      refine .inl ⟨rfl, ?_⟩
      rw [State.updLink, Link.deliver_of_none next]
    | some x =>
      obtain ⟨mem, pre, post, split, free⟩ := Link.nextDelivery_split next
      rw [State.updLink_link, Link.deliver_of_some next]
      exact .inr ⟨x, pre, post, split, mem, free, rfl, rfl, rfl, rfl, rfl, rfl, rfl⟩
  · have next := Link.nextDelivery_of_split nodup split ready free held
    refine ⟨_, exec_upstreamResponseDelivery up, ?_⟩
    rw [State.updLink_link, Link.deliver_of_some next]
    exact ⟨rfl, fun mem => by simp at mem⟩

end Sys2Proof.Machine
end

section
/-! SUPPORT. One write beat to the cell area: how it is resolved in each mode, and the piece it leaves
(R5, R6, R23 to R27, R41, R42). -/

namespace Sys2Proof.Machine

/-! ## A write of one beat -/

/-- The piece of a write of one beat. -/
def onePiece (txn : Nat) (tag : Tag) (kind : BurstKind) (plan : BeatPlan) (b : WriteBeat) : Piece :=
  { txn := txn, tag := tag, write := true, addr := plan.addr, kind := pieceKind kind plan.handling,
    len := 1, first := 0, beats := [b], redirect := plan.redirect, snoop := plan.area.snooped }

theorem State.writeBeats_one {s u : State} {a : Word} {b : WriteBeat} {plan : BeatPlan}
    (kind : BurstKind) (resolved : s.writeBeat a b = (u, plan)) :
    s.writeBeats a kind 0 [b] = (u, [{ plan := plan, number := 0, beat := some b }]) := by
  simp only [State.writeBeats, beatAddr_zero, resolved]

theorem piecesOf_one_absorbed {plan : BeatPlan} (absorbed : plan.handling = .absorbed) (txn : Nat)
    (tag : Tag) (kind : BurstKind) (b : WriteBeat) :
    piecesOf txn tag true kind [{ plan := plan, number := 0, beat := some b }] = [] := by
  simp [piecesOf, cutBeats, pieceOf, absorbed]

theorem piecesOf_one {plan : BeatPlan} (shown : plan.handling ≠ .absorbed) (txn : Nat) (tag : Tag)
    (kind : BurstKind) (b : WriteBeat) :
    piecesOf txn tag true kind [{ plan := plan, number := 0, beat := some b }] =
      [onePiece txn tag kind plan b] := by
  simp [piecesOf, cutBeats, pieceOf, shown, onePiece]

section
variable {s u : State} {a : Word} {b : WriteBeat} {plan : BeatPlan} (up : s.Up)
  (opened : s.linkOpen = true) (aligned : a.toNat % 4 = 0)
include up opened aligned

theorem exec_oneBeat_accepted (tag : Tag) (kind : BurstKind) :
    exec (.upstreamWriteAccept tag a kind [b]) s = .next (s.acceptWrite tag a kind [b]) :=
  exec_upstreamWriteAccept_opened up
    (linkPresents_iff.mpr ⟨aligned, le_rfl, show 1 ≤ 16 by decide⟩) opened

/-- An absorbed beat leaves no piece, and its response is ready (R22, R25). -/
theorem exec_oneBeat_absorbed (tag : Tag) (kind : BurstKind)
    (resolved : s.writeBeat a b = (u, plan)) (absorbed : plan.handling = .absorbed) :
    ∃ t, exec (.upstreamWriteAccept tag a kind [b]) s = .next t ∧ u.OnlyLink t ∧ s.Absorbs t := by
  have link : u.link = s.link := by
    have kept := s.writeBeat_upkeep a b
    rw [resolved] at kept
    exact kept.outside.2.2.2.1
  have accepted : s.acceptWrite tag a kind [b] =
      u.updLink fun l => l.enter (s.writeTxn tag 1 []) [] := by
    simp only [State.acceptWrite, State.writeBeats_one kind resolved,
      piecesOf_one_absorbed absorbed]
    rfl
  refine ⟨_, exec_oneBeat_accepted up opened aligned tag kind, ?_⟩
  rw [accepted]
  refine ⟨rfl, ?_, ?_⟩
  · rw [State.updLink_link, link]
    exact List.append_nil _
  · rw [State.updLink_link, link]
    rfl

/-- Any other beat leaves one piece, with its count raised in the entry it names (R16, R27). -/
theorem exec_oneBeat_shown (tag : Tag) (kind : BurstKind) (resolved : s.writeBeat a b = (u, plan))
    (shown : plan.handling ≠ .absorbed) :
    ∃ t, exec (.upstreamWriteAccept tag a kind [b]) s = .next t ∧
      (u.raiseOutstanding (onePiece s.link.serial tag kind plan b)).OnlyLink t ∧
      s.QueuesPiece t plan.addr (pieceKind kind plan.handling) b plan.redirect := by
  have kept := s.writeBeat_upkeep a b
  rw [resolved] at kept
  let p := onePiece s.link.serial tag kind plan b
  have link : (u.raiseOutstanding p).link = s.link :=
    (u.raiseOutstanding_keeps p).same.2.2.2.2.1.trans kept.outside.2.2.2.1
  have accepted : s.acceptWrite tag a kind [b] =
      (u.raiseOutstanding p).updLink fun l => l.enter (s.writeTxn tag 1 [p]) [p] := by
    simp only [State.acceptWrite, State.writeBeats_one kind resolved, piecesOf_one shown]
    rfl
  refine ⟨_, exec_oneBeat_accepted up opened aligned tag kind, ?_⟩
  rw [accepted]
  refine ⟨rfl, p, ?_, rfl, rfl, rfl, rfl, rfl⟩
  rw [State.updLink_link, link]
  rfl

end

/-- A piece that names no slot entry raises no count; one that does raises that entry's alone. -/
theorem State.raiseOutstanding_none {p : Piece} (h : p.redirect = none) (s : State) :
    s.raiseOutstanding p = s := by
  unfold State.raiseOutstanding
  rw [h]

theorem State.raiseOutstanding_some {p : Piece} {a : Word} {c : Nat}
    (h : p.redirect = some (a, c)) (s : State) : s.raiseOutstanding p =
      s.updSlot a fun e => { e with outstanding := e.outstanding + 1 } := by
  unfold State.raiseOutstanding
  rw [h]

/-! ## A cell area beat (R23) -/

/-- The reception record after a beat counted late or stray by the seal-late mark (R41). -/
theorem Reception.countOutside_eq (r : Reception) : r.countOutside =
    if r.sealLate then { r with late := r.late + 1 } else { r with stray := r.stray + 1 } := rfl

theorem Reception.advanceCursor_of_open {r : Reception} {o : OpenRecord}
    (frame : r.openFrame = some o) :
    r.advanceCursor = { r with openFrame := some { o with cursor := o.cursor + 1 } } := by
  rw [Reception.advanceCursor, frame]
  rfl

theorem linear_cell {off k j : Nat} (h : off = 1024 + 32 * k + 4 * j) (small : j < 8) :
    (off - 1024) / 32 = k ∧ (off - 1024) % 32 / 4 = j := by
  omega

section
variable {s : State} {a : Word} (area : s.areaOf a = .cells) (b : WriteBeat)
include area

theorem State.writeBeat_cells :
    s.writeBeat a b = s.cellBeat (a - s.landingBase).toNat a := by
  unfold State.writeBeat
  rw [area]

theorem State.writeBeat_linear (linear : s.reception.mode = .linear) :
    s.writeBeat a b = s.linearBeat (a - s.landingBase).toNat a := by
  rw [State.writeBeat_cells area, State.cellBeat, linear]

theorem State.writeBeat_streamed (streamed : s.reception.mode = .streamed) :
    s.writeBeat a b = s.streamedBeat (a - s.landingBase).toNat a := by
  rw [State.writeBeat_cells area, State.cellBeat, streamed]

theorem State.writeBeat_linear_open {o : OpenRecord} {k j : Nat}
    (linear : s.reception.mode = .linear) (frame : s.reception.openFrame = some o)
    (off : (a - s.landingBase).toNat = 1024 + 32 * k + 4 * j) (small : j < 8) :
    s.writeBeat a b = (s, s.wordPlan o.num k j .forwarded a) := by
  obtain ⟨cell, word⟩ := linear_cell off small
  rw [State.writeBeat_linear area b linear, State.linearBeat]
  simp only [frame, cell, word]

theorem State.writeBeat_linear_closed {k j : Nat} (linear : s.reception.mode = .linear)
    (frame : s.reception.openFrame = none)
    (off : (a - s.landingBase).toNat = 1024 + 32 * k + 4 * j) (small : j < 8) :
    s.writeBeat a b = (s.updReception Reception.countOutside, s.latePlan k j a) := by
  obtain ⟨cell, word⟩ := linear_cell off small
  rw [State.writeBeat_linear area b linear, State.linearBeat]
  simp only [frame, cell, word]

/-- With no frame open every word is late, whatever its cell (R23 step 3). -/
theorem State.writeBeat_linear_late (linear : s.reception.mode = .linear)
    (frame : s.reception.openFrame = none) :
    ∃ k j, s.writeBeat a b = (s.updReception Reception.countOutside, s.latePlan k j a) := by
  rw [State.writeBeat_linear area b linear, State.linearBeat]
  simp only [frame]
  exact ⟨_, _, rfl⟩

theorem State.writeBeat_streamed_outside (streamed : s.reception.mode = .streamed)
    (off : 1056 ≤ (a - s.landingBase).toNat) :
    s.writeBeat a b = (s.updReception Reception.countStray, BeatPlan.absorb a) := by
  rw [State.writeBeat_streamed area b streamed, State.streamedBeat, if_pos off]

theorem State.writeBeat_streamed_closed (streamed : s.reception.mode = .streamed)
    (off : (a - s.landingBase).toNat < 1056) (frame : s.reception.openFrame = none) :
    s.writeBeat a b = (s.updReception Reception.countOutside, BeatPlan.absorb a) := by
  rw [State.writeBeat_streamed area b streamed, State.streamedBeat, if_neg (Nat.not_le.mpr off)]
  simp only [frame]

theorem State.writeBeat_streamed_full {o : OpenRecord} (streamed : s.reception.mode = .streamed)
    (off : (a - s.landingBase).toNat < 1056) (frame : s.reception.openFrame = some o)
    (full : 7680 ≤ o.cursor) :
    s.writeBeat a b =
      ((s.updReception Reception.countStray).latch .landingOverrun, BeatPlan.absorb a) := by
  rw [State.writeBeat_streamed area b streamed, State.streamedBeat, if_neg (Nat.not_le.mpr off)]
  simp only [frame]
  exact if_pos full

theorem State.writeBeat_streamed_port {o : OpenRecord} (streamed : s.reception.mode = .streamed)
    (off : (a - s.landingBase).toNat < 1056) (frame : s.reception.openFrame = some o)
    (room : o.cursor < 7680) :
    s.writeBeat a b = (s.updReception Reception.advanceCursor,
      s.wordPlan o.num (o.cursor / 8) (o.cursor % 8) .linearised
        (s.landingBase + BitVec.ofNat 32 (1024 + 32 * (o.cursor / 8) + 4 * (o.cursor % 8)))) := by
  rw [State.writeBeat_streamed area b streamed, State.streamedBeat, if_neg (Nat.not_le.mpr off)]
  simp only [frame]
  exact if_neg (Nat.not_le.mpr room)

/-- A cell area beat changes the reception record and the flags at most. -/
theorem State.writeBeat_cells_only : (s.writeBeat a b).1 = { s with
    reception := (s.writeBeat a b).1.reception, reporter := (s.writeBeat a b).1.reporter } := by
  rw [State.writeBeat_cells area]
  unfold State.cellBeat State.streamedBeat State.linearBeat
  simp only
  repeat' split
  all_goals rfl

end

/-- The word of a stream no tap is bound to has the untapped handling and address (R23). -/
theorem State.wordPlan_untapped {s : State} {k : Nat} (f : FrameNo) (j : Nat) (h : Handling)
    (a : Word) (untapped : s.streamAt k = none ∨
      ∃ i e, s.streamAt k = some (i, e) ∧ s.boundTap i = none) :
    (s.wordPlan f k j h a).handling = h ∧ (s.wordPlan f k j h a).addr = a ∧
      (s.wordPlan f k j h a).redirect = none := by
  have resolves := s.wordPlan_resolves f k j h a
  obtain none | ⟨i, e, stream, none⟩ := untapped
  · rw [resolves.noStream none]
    exact ⟨rfl, rfl, rfl⟩
  · rw [resolves.noTap i e stream none]
    exact ⟨rfl, rfl, rfl⟩

end Sys2Proof.Machine
end

section
/-! CLAIMS. The region decoder: cell words (R5 to R10, R23 to R27, R41, R42, R80). -/

namespace Sys2Proof.Machine

/-- Each lag below the depth belongs to one class: 3 and 2 are inverse modulo 5, 7 and 3 modulo 10
(R9). -/
theorem Depth.lag_bijective (d : Depth) (l : Nat) (h : l < d.frames) :
    ∃ c, c < d.frames ∧ d.lag c = l ∧ ∀ c', c' < d.frames → d.lag c' = l → c' = c := by
  cases d with
  | d1 =>
    simp only [Depth.frames] at h ⊢
    exact ⟨0, by omega, by simp only [Depth.lag]; omega, fun c' small _ => by omega⟩
  | d5 =>
    simp only [Depth.frames, Depth.lag] at h ⊢
    exact ⟨2 * l % 5, by omega, by omega, fun c' small lag => by omega⟩
  | d10 =>
    simp only [Depth.frames, Depth.lag] at h ⊢
    exact ⟨3 * l % 10, by omega, by omega, fun c' small lag => by omega⟩

theorem Tap.bound_iff (tp : Tap) :
    tp.bound = true ↔ tp.state = .running ∨ tp.state = .holding := by
  simp [Tap.bound]

theorem State.slot_raiseOutstanding {p : Piece} {a : Word} {c : Nat}
    (h : p.redirect = some (a, c)) (s : State) :
    (s.raiseOutstanding p).slot a =
      (s.slot a).map (fun x => { x with outstanding := x.outstanding + 1 }) ∧
    ∀ a', a' ≠ a → (s.raiseOutstanding p).slot a' = s.slot a' := by
  rw [State.raiseOutstanding_some h]
  have changed (x : Word) := s.slot_updSlot a x
    (fun e => { e with outstanding := e.outstanding + 1 }) fun _ => rfl
  exact ⟨(changed a).trans (if_pos rfl), fun a' other => (changed a').trans (if_neg other)⟩

/-- Settles O18: the redirected word of R23, and the lookups by which it is resolved. -/
theorem cellWordRedirected : Obligations.CellWordRedirected := by
  unfold Obligations.CellWordRedirected
  refine ⟨fun s tag addr kind b o k j i e u n a up opened aligned area linear frame off small stream
      tapped running early slot => ?_, fun c => ⟨rfl, rfl, rfl⟩, ⟨rfl, rfl, rfl⟩,
    Depth.lag_bijective, fun s k => ⟨fun i e => State.streamAt_sound, fun i e present low high =>
      State.streamAt_complete present low high⟩, fun s i => ?_, fun tp g => ⟨Tap.slotFor_none,
      fun l pre post split frame others => ?_⟩⟩
  · have plan := (s.wordPlan_resolves o.num k j .forwarded addr).redirected i e u n a stream tapped
      running early slot
    have resolved := State.writeBeat_linear_open area b linear frame off small
    generalize s.wordPlan o.num k j .forwarded addr = q at plan resolved
    obtain ⟨t, accepted, links, p, queue, -, addr', kind', beats, redirect⟩ :=
      exec_oneBeat_shown up opened aligned tag kind resolved (by rw [plan]; nofun)
    have names : (onePiece s.link.serial tag kind q b).redirect =
        some (a, (8 * (k - e.start) + j) % n.depth.frames) := by rw [plan]; rfl
    obtain ⟨raised, others⟩ := State.slot_raiseOutstanding names s
    have same (x : Word) := State.slot_of_supply (show t.supply = _ by rw [links]) x
    rw [plan] at addr' kind' redirect
    refine ⟨t, p, accepted, ?_, queue, addr', beats, kind', redirect, (same a).trans raised,
      fun a' other => (same a').trans (others a' other)⟩
    rw [State.OnlyLinkSupply, links, State.raiseOutstanding_some names]
    rfl
  · simp only [← Tap.bound_iff, ← and_assoc]
    simp only [and_assoc]
    refine ⟨fun u n => State.boundTap_sound, fun u n ⟨bound, stream, inst⟩ => ?_⟩
    have found := (State.boundTap_complete bound stream inst).1
    refine ⟨found, fun only => ?_⟩
    obtain ⟨⟨v, m⟩, bound'⟩ := Option.ne_none_iff_exists'.mp found
    have names := State.boundTap_sound bound'
    obtain rfl := only v m names
    rw [bound', Option.some.inj (names.2.2.symm.trans inst)]
  · rw [← frame]
    exact Tap.slotFor_split split fun m mem => frame ▸ others m mem

/-- Settles O19: steps 6 to 8 of R23. -/
theorem cellWordAbsorbed : Obligations.CellWordAbsorbed := by
  unfold Obligations.CellWordAbsorbed
  intro s tag addr kind b o k j i e u n up opened aligned area linear frame off small stream tapped
    gone
  have plan := (s.wordPlan_resolves o.num k j .forwarded addr).absorbed i e u n stream tapped gone
  have resolved := State.writeBeat_linear_open area b linear frame off small
  rw [plan] at resolved
  obtain ⟨t, accepted, links, queue, ready⟩ :=
    exec_oneBeat_absorbed up opened aligned tag kind resolved rfl
  exact ⟨t, accepted, links, queue, ready⟩

end Sys2Proof.Machine
end

section
/-! CLAIMS. One cell area beat in every mode (R5, R6, R8 to R10, R21, R23 to R27, R41, R42). -/

namespace Sys2Proof.Machine

/-- A write of one beat to the cell area, in terms of what the beat does to the state and its plan. -/
theorem exec_cellBeat {s : State} {a : Word} (up : s.Up) (opened : s.linkOpen = true)
    (aligned : a.toNat % 4 = 0) (area : s.areaOf a = .cells) (tag : Tag) (kind : BurstKind)
    (b : WriteBeat) :
    let u := (s.writeBeat a b).1
    let plan := (s.writeBeat a b).2
    ∃ t, exec (.upstreamWriteAccept tag a kind [b]) s = .next t ∧
      t = { s with
        link := t.link, reception := u.reception, supply := t.supply, reporter := u.reporter } ∧
      (plan.handling = .absorbed → t.supply = s.supply ∧ s.Absorbs t) ∧
      (plan.handling ≠ .absorbed →
        s.QueuesPiece t plan.addr (pieceKind kind plan.handling) b plan.redirect) ∧
      (plan.handling ≠ .absorbed → plan.redirect = none → t.supply = s.supply) ∧
      ∀ x c, plan.handling ≠ .absorbed → plan.redirect = some (x, c) →
        t.slot x = (s.slot x).map (fun e => { e with outstanding := e.outstanding + 1 }) ∧
        ∀ x', x' ≠ x → t.slot x' = s.slot x' := by
  intro u plan
  have only : u = { s with reception := u.reception, reporter := u.reporter } :=
    State.writeBeat_cells_only area b
  have supply : u.supply = s.supply := by rw [only]
  by_cases absorbed : plan.handling = .absorbed
  · obtain ⟨t, accepted, links, absorbs⟩ :=
      exec_oneBeat_absorbed (u := u) up opened aligned tag kind rfl absorbed
    have links : t = { u with link := t.link } := links
    refine ⟨t, accepted, ?_, fun _ => ⟨?_, absorbs⟩, absurd absorbed, absurd absorbed,
      fun _ _ => absurd absorbed⟩
    · rw [links]
      rw [only]
    · rw [links]
      exact supply
  · obtain ⟨t, accepted, links, queued⟩ :=
      exec_oneBeat_shown (u := u) up opened aligned tag kind rfl absorbed
    let p := onePiece s.link.serial tag kind plan b
    have links : t = { u.raiseOutstanding p with link := t.link } := links
    refine ⟨t, accepted, ?_, fun h => absurd h absorbed, fun _ => queued, fun _ none => ?_,
      fun x c _ redirect => ?_⟩
    · have raised : u.raiseOutstanding p = { u with supply := (u.raiseOutstanding p).supply } := by
        unfold State.raiseOutstanding
        split <;> rfl
      rw [links, raised]
      rw [only]
    · rw [links, State.raiseOutstanding_none none]
      exact supply
    · obtain ⟨raised, others⟩ := State.slot_raiseOutstanding (p := p) redirect u
      have same (y : Word) : t.slot y = (u.raiseOutstanding p).slot y :=
        State.slot_of_supply (by rw [links]) y
      have before (y : Word) : u.slot y = s.slot y := State.slot_of_supply supply y
      exact ⟨by rw [same, raised, before], fun y other => by rw [same, others y other, before]⟩

theorem State.landing_latch (s : State) :
    ((s.updReception Reception.countStray).latch .landingOverrun).reporter =
      { s.reporter with
        flags := (s.latch .landingOverrun).reporter.flags
        nFaultLow := (s.latch .landingOverrun).reporter.nFaultLow } := rfl

/-- Settles O20: the beat of a write of one beat, and the plan of any beat. -/
theorem portBeatAdvancesCursor : Obligations.PortBeatAdvancesCursor := by
  unfold Obligations.PortBeatAdvancesCursor
  refine ⟨fun s tag addr kind b up opened aligned area => ?_, fun s v a b p area beat => ?_⟩
  · intro off r stray outside untapped
    obtain ⟨t, accepted, only, absorbed, queued, plain, raised⟩ :=
      exec_cellBeat up opened aligned area tag kind b
    have reception : t.reception = (s.writeBeat addr b).1.reception := by rw [only]
    have reporter : t.reporter = (s.writeBeat addr b).1.reporter := by rw [only]
    refine ⟨t, accepted, ?_, fun linear frame => ?_, fun o k j linear frame cell small free => ?_,
      fun streamed out => ?_, fun streamed inside frame => ?_, fun o streamed inside frame =>
        ⟨fun full => ?_, fun room => ?_⟩⟩
    · rw [reception, reporter]
      exact only
    · obtain ⟨k, j, late⟩ := State.writeBeat_linear_late area b linear frame
      rw [late] at reception reporter queued plain
      exact ⟨reception, plain nofun rfl, reporter, queued nofun⟩
    · have beat := State.writeBeat_linear_open area b linear frame cell small
      obtain ⟨handling, address, redirect⟩ :=
        s.wordPlan_untapped o.num j .forwarded addr free
      rw [beat] at reception reporter queued plain
      have shown : (s.wordPlan o.num k j .forwarded addr).handling ≠ .absorbed := by
        rw [handling]; nofun
      have queued := queued shown
      simp only [handling, address, redirect] at queued
      have supply := plain shown redirect
      refine ⟨?_, queued⟩
      rw [State.OnlyLink]
      rw [beat, supply] at only
      exact only
    · rw [State.writeBeat_streamed_outside area b streamed out] at reception reporter absorbed
      exact ⟨reception, (absorbed rfl).1, reporter, (absorbed rfl).2⟩
    · rw [State.writeBeat_streamed_closed area b streamed inside frame] at reception reporter absorbed
      exact ⟨reception, (absorbed rfl).1, reporter, (absorbed rfl).2⟩
    · rw [State.writeBeat_streamed_full area b streamed inside frame full]
        at reception reporter absorbed
      have latched := (s.latch_latches .landingOverrun).2.1
      refine ⟨reception, (absorbed rfl).1, ?_, fun f => ?_, (absorbed rfl).2⟩
      · rw [reporter]
        rfl
      · rw [reporter]
        exact latched f
    · intro k j
      have beat := State.writeBeat_streamed_port area b streamed inside frame room
      rw [beat] at reception reporter queued plain absorbed raised
      have resolves := s.wordPlan_resolves o.num k j .linearised
        (s.landingBase + BitVec.ofNat 32 (1024 + 32 * k + 4 * j))
      have unbound := s.wordPlan_untapped (k := k) o.num j .linearised
        (s.landingBase + BitVec.ofNat 32 (1024 + 32 * k + 4 * j))
      simp only at absorbed queued plain raised
      generalize s.wordPlan o.num k j .linearised
        (s.landingBase + BitVec.ofNat 32 (1024 + 32 * k + 4 * j)) = q
        at resolves unbound absorbed queued plain raised
      refine ⟨reception.trans (Reception.advanceCursor_of_open frame), reporter, fun free => ?_,
        fun i e u n stream tapped => ?_⟩
      · obtain ⟨handling, address, redirect⟩ := unbound free
        have shown : q.handling ≠ .absorbed := by rw [handling]; nofun
        have queued := queued shown
        simp only [handling, address, redirect] at queued
        exact ⟨plain shown redirect, queued⟩
      · intro w c g
        refine ⟨fun gone => absorbed ?_, fun x running early slot => ?_⟩
        · rw [resolves.absorbed i e u n stream tapped gone]
        · have plan := resolves.redirected i e u n x stream tapped running early slot
          have shown : q.handling ≠ .absorbed := by rw [plan]; nofun
          have redirect : q.redirect = some (x, c) := by rw [plan]
          have queued := queued shown
          rw [redirect] at queued
          rw [plan] at queued
          exact ⟨queued, raised x c shown redirect⟩
  · intro off r stray outside gone
    refine ⟨fun o k j linear frame cell small => ?_, fun k j linear frame cell small => ?_,
      fun streamed out => ?_, fun streamed inside frame => ?_, fun o streamed inside frame =>
        ⟨fun full => ?_, fun room => ?_⟩⟩
    · rw [State.writeBeat_linear_open area b linear frame cell small] at beat
      obtain ⟨rfl, rfl⟩ := Prod.mk.inj beat
      exact ⟨rfl, State.wordPlan_resolves _ _ _ _ _ _⟩
    · rw [State.writeBeat_linear_closed area b linear frame cell small] at beat
      obtain ⟨rfl, rfl⟩ := Prod.mk.inj beat
      exact ⟨rfl, _, State.wordPlan_resolves _ _ _ _ _ _, rfl⟩
    · rw [State.writeBeat_streamed_outside area b streamed out] at beat
      obtain ⟨rfl, rfl⟩ := Prod.mk.inj beat
      exact ⟨rfl, rfl⟩
    · rw [State.writeBeat_streamed_closed area b streamed inside frame] at beat
      obtain ⟨rfl, rfl⟩ := Prod.mk.inj beat
      exact ⟨rfl, rfl⟩
    · rw [State.writeBeat_streamed_full area b streamed inside frame full] at beat
      obtain ⟨rfl, rfl⟩ := Prod.mk.inj beat
      exact ⟨rfl, rfl⟩
    · rw [State.writeBeat_streamed_port area b streamed inside frame room] at beat
      obtain ⟨rfl, rfl⟩ := Prod.mk.inj beat
      refine ⟨?_, State.wordPlan_resolves _ _ _ _ _ _⟩
      rw [State.updReception, Reception.advanceCursor_of_open frame]

end Sys2Proof.Machine
end

section
/-! CLAIMS. The arbiter, and responses to forwarded pieces (R15, R16, R18, R19, R22, R27 to R32, R94,
R116). -/

namespace Sys2Proof.Machine

/-! ## The arbiter -/

theorem nextBurst_eq_none {l : Option (List OwnBurst)} :
    nextBurst l = none ↔ ∀ b bs, l ≠ some (b :: bs) := by
  unfold nextBurst
  split
  · simp
  · rename_i other
    exact iff_of_true rfl other

/-- An own burst waits for a grant when a kind has an unissued burst (R32). -/
theorem State.ownWaiting_eq_none {s : State} :
    s.ownWaiting = none ↔ ∀ k b bs, s.unissued k ≠ some (b :: bs) := by
  unfold State.ownWaiting
  simp only [List.findSome?_eq_none_iff, Option.map_eq_none_iff, nextBurst_eq_none]
  refine ⟨fun h k => h k ?_, fun h k _ => h k⟩
  cases k <;> simp

/-- The burst that waits is that of the most preferred kind with one (R32). -/
theorem State.ownWaiting_of_preferred {s : State} {k : OwnKind} {b : OwnBurst}
    {rest : List OwnBurst} (waits : s.unissued k = some (b :: rest))
    (preferred : ∀ k' b' bs', ownPreference k' < ownPreference k → s.unissued k' ≠ some (b' :: bs')) :
    s.ownWaiting = some (b, s.takeBurst b rest k) := by
  have idle (k' : OwnKind) (h : ownPreference k' < ownPreference k) :
      nextBurst (s.unissued k') = none :=
    nextBurst_eq_none.mpr fun b' bs' => preferred k' b' bs' h
  have first : nextBurst (s.unissued k) = some (b, rest) := by rw [waits]; rfl
  cases k with
  | fetch => simp [State.ownWaiting, first]
  | refill => simp [State.ownWaiting, first, idle .fetch (by decide)]
  | report => simp [State.ownWaiting, first, idle .fetch (by decide), idle .refill (by decide)]
  | status =>
    simp [State.ownWaiting, first, idle .fetch (by decide), idle .refill (by decide),
      idle .report (by decide)]

theorem State.grant_piece {s : State} {p : Piece} {rest : List Piece}
    (queue : s.link.queue = p :: rest) (turn : s.ownWaiting = none ∨ s.link.lastGrant = .own) :
    s.grant = s.updLink fun l => l.issuePiece p rest := by
  unfold State.grant
  rw [queue]
  cases waiting : s.ownWaiting with
  | none => rfl
  | some x => exact if_pos (turn.resolve_left (by simp [waiting]))

theorem State.grant_own {s u : State} {b : OwnBurst} (waiting : s.ownWaiting = some (b, u))
    (turn : s.link.queue = [] ∨ s.link.lastGrant = .forwarded) : s.grant = u.issueOwn b := by
  unfold State.grant
  rw [waiting]
  cases queue : s.link.queue with
  | nil => rfl
  | cons p rest =>
    have forwarded := turn.resolve_left (by simp [queue])
    exact if_neg (by rw [forwarded]; nofun)

theorem State.grant_idle {s : State} (queue : s.link.queue = []) (waiting : s.ownWaiting = none) :
    s.grant = s := by
  unfold State.grant
  rw [queue, waiting]

/-- A burst taken leaves the rest of its access waiting, and every other access as it was (R32). -/
theorem State.unissued_takeBurst {s : State} {k : OwnKind} {b : OwnBurst} {rest : List OwnBurst}
    (waits : s.unissued k = some (b :: rest)) :
    ((s.takeBurst b rest k).issueOwn b).unissued k = some rest ∧
    ∀ k', k' ≠ k → ((s.takeBurst b rest k).issueOwn b).unissued k' = s.unissued k' := by
  have others (k' : OwnKind) (other : k' ≠ k) :
      ((s.takeBurst b rest k).issueOwn b).unissued k' = s.unissued k' := by
    cases k <;> cases k' <;> simp at other <;> rfl
  refine ⟨?_, others⟩
  cases k with
  | fetch => rfl
  | status => rfl
  | refill =>
    obtain ⟨f, inFlight, -⟩ := Option.map_eq_some_iff.mp waits
    simp [State.unissued, State.takeBurst, State.issueOwn, inFlight, Refill.issue]
  | report =>
    obtain ⟨w, inFlight, -⟩ := Option.map_eq_some_iff.mp waits
    simp [State.unissued, State.takeBurst, State.issueOwn, inFlight]

/-- Settles O21: whose turn it is, and what each kind's grant takes. -/
theorem grantsAlternate : Obligations.GrantsAlternate := by
  unfold Obligations.GrantsAlternate
  refine ⟨fun s p rest up queue turn => ?_, fun s k b rest up waits preferred turn => ?_,
    fun s up queue none => ?_, fun s => ⟨rfl, rfl, rfl, rfl⟩⟩
  · have granted := State.grant_piece queue (turn.imp_left State.ownWaiting_eq_none.mpr)
    rw [exec_arbiterGrant up, granted]
    exact ⟨_, rfl, rfl, rfl⟩
  · have granted := State.grant_own (State.ownWaiting_of_preferred waits preferred) turn
    obtain ⟨taken, others⟩ := State.unissued_takeBurst waits
    rw [exec_arbiterGrant up, granted]
    refine ⟨_, rfl, taken, others, ?_, ?_, ?_, ?_⟩
    · rintro rfl
      rfl
    · rintro rfl
      obtain ⟨f, inFlight, -⟩ := Option.map_eq_some_iff.mp waits
      refine ⟨f, inFlight, ?_⟩
      simp [State.takeBurst, State.issueOwn, State.updLink, State.updSupply, inFlight, Refill.issue]
    · rintro rfl
      obtain ⟨w, inFlight, -⟩ := Option.map_eq_some_iff.mp waits
      refine ⟨w, inFlight, ?_⟩
      simp [State.takeBurst, State.issueOwn, State.updLink, State.updReporter, inFlight]
    · rintro rfl
      rfl
  · rw [exec_arbiterGrant up, State.grant_idle queue (State.ownWaiting_eq_none.mpr none)]

/-! ## A piece's response in its transaction's entry -/

theorem State.handIndex_link (w : IndexWord) (s : State) (b : WriteBeat) :
    (State.handIndex w s b).link = s.link := by
  unfold State.handIndex
  split
  · cases w with
    | directive =>
      have only : s.takeDirectiveIndex b.data = _ := s.takeDirectiveIndex_only b.data
      rw [only]
    | report =>
      have only : s.takeReportIndex b.data = _ := s.takeReportIndex_only b.data
      rw [only]
    | free => exact (s.takeFreeIndex_keeps b.data).same.2.2.2.2.1
  · rfl

theorem State.snoop_link (s : State) (resp : Resp) (p : Piece) :
    (s.snoop resp p).link = s.link := by
  have folded (w : IndexWord) (beats : List WriteBeat) (u : State) :
      (beats.foldl (State.handIndex w) u).link = u.link := by
    induction beats generalizing u with
    | nil => rfl
    | cons b beats ih => exact (ih _).trans (State.handIndex_link w u b)
  unfold State.snoop
  split
  · exact folded _ _ s
  · rfl

/-- The response to a piece changes the links by the answer alone (R15, R16). -/
theorem State.pieceAnswered_link (s : State) (p : Piece) (resp : Resp) (data : List Word) :
    (s.pieceAnswered p resp data).link = (s.link.answerPiece p.tag).answer p resp
      (s.pieceData (s.examines p) p data) :=
  (State.snoop_link _ resp p).trans (State.redirectAnswered_keeps _ resp p.redirect).same.2.2.2.2.1

theorem State.snoop_none {p : Piece} (h : p.snoop = none) (resp : Resp) (s : State) :
    s.snoop resp p = s := by
  unfold State.snoop
  rw [h]
  cases resp <;> rfl

theorem State.snoop_error (p : Piece) (s : State) : s.snoop .error p = s := rfl

theorem State.pieceAnswered_onlyLink {p : Piece} {resp : Resp} (plain : p.redirect = none)
    (silent : p.snoop = none ∨ resp = .error) (s : State) (data : List Word) :
    s.OnlyLink (s.pieceAnswered p resp data) := by
  obtain ⟨u, links, answered⟩ := State.pieceAnswered_of_unredirected plain s resp data
  have same : u.snoop resp p = u := by
    obtain none | rfl := silent
    · exact State.snoop_none none resp u
    · exact State.snoop_error p u
  rw [answered, same]
  exact links

/-- The answered piece leaves its place in the order of issue (R16). -/
theorem Link.answerPiece_of_split {l : Link} {tag : Tag} {p : Piece} {pre post : List Issued}
    (split : l.inFlight = pre ++ .piece p :: post) (same : p.tag = tag)
    (first : ∀ q, .piece q ∈ pre → q.tag ≠ tag) :
    l.answerPiece tag = { l with inFlight := pre ++ post } := by
  have others : ∀ i ∈ pre, ¬ i.isPiece tag = true := fun i mem => by
    cases i with
    | piece q => simpa [Issued.isPiece] using first q mem
    | own b life => nofun
  rw [Link.answerPiece, split, List.eraseP_append_right _ others]
  simp [Issued.isPiece, same]

/-- Settles O22: the piece leaves flight, its transaction's entry counts the answer, and the lookups
of the oldest unanswered transaction. -/
theorem pieceResponseRecorded : Obligations.PieceResponseRecorded := by
  unfold Obligations.PieceResponseRecorded
  refine ⟨fun s tag resp data p pre post up split same first shape => ?_,
    fun s tag p => State.oldestPiece_iff, ⟨rfl, rfl, rfl, rfl⟩,
    fun s k b life => State.oldestBurst_iff, fun s k => rfl, fun s k life => ?_⟩
  · have oldest := State.oldestPiece_iff.mpr ⟨pre, post, split, same, first⟩
    have link := s.pieceAnswered_link p resp data
    rw [Link.answerPiece_of_split (split.trans rfl) rfl (same ▸ first)] at link
    refine ⟨_, exec_forwardedPieceResponse_last up resp oldest shape, ?_, ?_, ?_, ?_,
      fun plain silent => State.pieceAnswered_onlyLink plain (.inl silent) s data⟩
    · rw [link]
      rfl
    · rw [link]
      simp only [Link.answer, List.map_map]
      refine List.map_congr_left fun x _ => ?_
      simp only [Function.comp_apply, beq_iff_eq]
      split <;> rfl
    · rintro ⟨x, mem, owner, last⟩
      rw [link]
      refine if_pos ?_
      simp only [List.any_map, List.any_eq_true]
      exact ⟨x, mem, by simp [owner, Txn.answer, last]⟩
    · intro open'
      rw [link]
      refine if_neg ?_
      simp only [List.any_map, List.any_eq_true, not_exists, not_and]
      intro x mem
      by_cases owner : x.id = p.txn
      · simp [owner, Txn.answer, open' x mem owner]
      · simp [owner]
  · rw [State.ownInFlight]
    congr 2

/-- Settles O23: the words of the last command of a piece, and of one ahead of it. -/
theorem readWordsPlaced : Obligations.ReadWordsPlaced := by
  unfold Obligations.ReadWordsPlaced
  refine ⟨fun s tag resp data p x pre post up oldest read shape split owner others fit => ?_,
    fun s tag resp data p x pre post before after up flight same first read some short split owner
      others fit => ?_⟩
  · have examined : s.examines p = (s.device.active && x.activeAtAccept) := by
      simp [State.examines, Link.txn_of_split split owner others]
    let words := s.pieceData (s.examines p) p data
    have length : words.length = p.len := State.pieceData_length.trans shape
    have txns : (s.pieceAnswered p resp data).link.txns = pre ++ x.answer p resp words :: post := by
      rw [State.pieceAnswered_link, ← map_at_split (fun t => t.answer p resp words) owner others,
        ← split]
      rfl
    refine ⟨_, x.answer p resp words,
      exec_forwardedPieceResponse_last up resp oldest (by rw [shape, read]; rfl), txns, rfl,
      fun n w found => ?_, fun m outside => ?_⟩
    · rw [← examined]
      exact placeWords_inside (State.pieceData_getElem? found) (by rw [length]; exact fit)
    · exact placeWords_outside (by rw [length]; exact outside)
  · have oldest := State.oldestPiece_iff.mpr ⟨before, after, flight, same, first⟩
    have gathered := State.wordsArrived_gathers (data := data) flight (same ▸ first) split owner
      others
    let words := s.pieceData (s.device.active && x.activeAtAccept) p data
    have length : words.length = data.length := State.pieceData_length
    refine ⟨_, placeWords x.data p.first words,
      exec_forwardedPieceResponse_words up resp oldest read some short, gathered,
      fun n w found => ?_, fun m outside => ?_⟩
    · exact placeWords_inside (State.pieceData_getElem? found) (by omega)
    · exact placeWords_outside (by rw [length]; exact outside)

/-! ## Read substitution -/

theorem Depth.classes_bit (d : Depth) (c : Nat) :
    hasClass d.classes c = Decidable.decide (c < d.frames) := by
  have small : d.frames ≤ 10 := by cases d <;> decide
  have mask : d.classes = BitVec.ofNat 10 (2 ^ d.frames - 1) := rfl
  rw [hasClass, mask, BitVec.getLsbD_ofNat, Nat.testBit_two_pow_sub_one]
  by_cases low : c < d.frames
  · simp [low, low.trans_le small]
  · simp [low]

/-- The unavailable set of an entry (R29). -/
theorem SlotEntry.unavailable_iff (e : SlotEntry) (c : Nat) : hasClass e.unavailable c = true ↔
    hasClass e.erased c = true ∨
      (e.state = .opened ∧ c < e.depth.frames ∧ hasClass e.arrived c = false) := by
  have small : c < e.depth.frames → c < 10 := fun h =>
    h.trans_le (by cases e.depth <;> decide)
  have classes := e.depth.classes_bit c
  unfold hasClass at classes ⊢
  unfold SlotEntry.unavailable
  split
  · rename_i opened
    simp only [BitVec.getLsbD_or, BitVec.getLsbD_and, BitVec.getLsbD_not, classes, opened,
      Bool.or_eq_true, Bool.and_eq_true, decide_eq_true_eq, Bool.not_eq_true', true_and]
    exact or_congr_right ⟨fun h => ⟨h.1, h.2.2⟩, fun h => ⟨h.1, small h.1, h.2⟩⟩
  · rename_i other
    simp [other]

theorem State.mem_of_slot {s : State} {a : Word} {e : SlotEntry} (entry : s.slot a = some e) :
    e ∈ s.supply.table ∧ e.addr = a := by
  unfold State.slot at entry
  exact ⟨List.mem_of_find?_eq_some entry, by simpa using List.find?_some entry⟩

theorem State.slot_eq_none {s : State} {a : Word} :
    s.slot a = none ↔ ∀ e ∈ s.supply.table, e.addr ≠ a := by
  simp [State.slot, List.find?_eq_none]

theorem State.mem_of_slotOver {s : State} {a : Word} {e : SlotEntry}
    (entry : s.slotOver a = some e) : e ∈ s.supply.table ∧ inRange a e.addr 4096 = true := by
  unfold State.slotOver at entry
  exact ⟨List.mem_of_find?_eq_some entry,
    List.find?_some (p := fun e : SlotEntry => inRange a e.addr 4096) entry⟩

/-- Settles O24: the rows of R29 in order, and the lookups of an entry. -/
theorem substitutionTable : Obligations.SubstitutionTable := by
  unfold Obligations.SubstitutionTable
  refine ⟨fun s a d => ⟨fun absent => ?_, fun e covers => ?_⟩, fun m c => rfl, fun s a => ?_⟩
  · unfold State.substitute
    rw [absent]
  · intro w c open_
    have delivered : s.substitute a d = e.deliver w d := by
      unfold State.substitute
      rw [covers]
    have unavailable := e.unavailable_iff c
    rw [delivered, SlotEntry.deliver]
    refine ⟨fun returning => if_pos returning, fun working beyond => ?_,
      fun working within zero => ?_, fun working within whole => ?_⟩
    · rw [if_neg working, if_pos beyond]
    · rw [if_neg working, if_neg (Nat.not_le.mpr within)]
      by_cases silenced : e.silenced = true
      · rw [if_pos silenced]
      · rw [if_neg silenced]
        exact if_pos (unavailable.mpr (zero.resolve_left silenced))
    · rw [if_neg working, if_neg (Nat.not_le.mpr within), if_neg fun k => whole (.inl k)]
      exact if_neg fun k => whole (.inr (unavailable.mp k))
  · intro holds
    have holds_iff (e : SlotEntry) : inRange a e.addr 4096 = true ↔ holds e := inRange_iff
    have addr_iff (e : SlotEntry) : (e.addr == a) = true ↔ e.addr = a := beq_iff_eq
    refine ⟨fun e covers => ?_, fun e mem inside => ?_, fun e found => ?_, fun e mem same => ?_⟩
    · exact (State.mem_of_slotOver covers).imp_right (holds_iff e).mp
    · obtain ⟨some, unique⟩ :=
        find?_unique (p := fun e => inRange a e.addr 4096) mem ((holds_iff e).mpr inside)
      exact ⟨some, fun only => unique fun x mem inside => only x mem ((holds_iff x).mp inside)⟩
    · exact State.mem_of_slot found
    · obtain ⟨some, unique⟩ := find?_unique (p := fun e => e.addr == a) mem ((addr_iff e).mpr same)
      exact ⟨some, fun only => unique fun x mem same => only x mem ((addr_iff x).mp same)⟩

/-! ## Redirected pieces and index words -/

theorem hasClass_onlyClass {c : Nat} (small : c < 10) (c' : Nat) :
    hasClass (onlyClass c) c' = (c' == c) := by
  have bit : hasClass (onlyClass c) c' = ((1#10) <<< c).getLsbD c' := rfl
  rw [Bool.eq_iff_iff, bit, BitVec.getLsbD_shiftLeft]
  simp only [BitVec.getLsbD_one, Bool.and_eq_true, decide_eq_true_eq, Bool.not_eq_true',
    decide_eq_false_iff_not, beq_iff_eq]
  omega

theorem hasClass_joinClass {c : Nat} (small : c < 10) (m : ClassSet) (c' : Nat) :
    hasClass (joinClass m c) c' = (hasClass m c' || c' == c) := by
  rw [← hasClass_onlyClass small c']
  exact BitVec.getLsbD_or

theorem hasClass_leaveClass {c : Nat} (small : c < 10) (m : ClassSet) (c' : Nat) :
    hasClass (leaveClass m c) c' = (hasClass m c' && !(c' == c)) := by
  rw [← hasClass_onlyClass small c', hasClass, leaveClass, BitVec.getLsbD_and, BitVec.getLsbD_not]
  by_cases low : c' < 10
  · simp [low, hasClass]
  · simp [hasClass, BitVec.getLsbD_of_ge m c' (by omega)]

/-- An ERROR marks the class erased; an OK changes none (R27, R28). -/
theorem SlotEntry.writeAnswered_ok (c : Nat) (e : SlotEntry) :
    e.writeAnswered c .ok = { e with outstanding := e.outstanding - 1 } := rfl

theorem SlotEntry.writeAnswered_error (c : Nat) (e : SlotEntry) :
    e.writeAnswered c .error = { e with
      outstanding := e.outstanding - 1
      arrived := leaveClass e.arrived c
      erased := joinClass e.erased c } := rfl

theorem State.redirectAnswered_live {s : State} (live : s.device ≠ .halted) (resp : Resp) (a : Word)
    (c : Nat) : s.redirectAnswered resp (some (a, c)) =
      (s.updSlot a (SlotEntry.writeAnswered c resp)).drained a :=
  if_neg live

/-- A change of the entry at an address that names none changes nothing. -/
theorem State.updSlot_of_none {s : State} {a : Word} (absent : s.slot a = none)
    (f : SlotEntry → SlotEntry) : s.updSlot a f = s := by
  have still : s.supply.table.map (changeEntry a f) = s.supply.table := by
    conv_rhs => rw [← List.map_id s.supply.table]
    refine List.map_congr_left fun e mem => ?_
    exact if_neg (by simpa using State.slot_eq_none.mp absent e mem)
  rw [State.updSlot, State.updSupply, still]

theorem State.redirectAnswered_idle {s : State} {a : Word} (idle : s.device = .halted ∨
    s.slot a = none) (resp : Resp) (c : Nat) : s.redirectAnswered resp (some (a, c)) = s := by
  by_cases halted : s.device = .halted
  · exact if_pos halted
  have absent := idle.resolve_left halted
  have still : s.updSlot a (SlotEntry.writeAnswered c resp) = s := State.updSlot_of_none absent _
  rw [State.redirectAnswered_live halted, still, State.drained, absent]

/-- What the drained count releases (R94, R116). -/
theorem State.drained_busy {s : State} {a : Word} {x : SlotEntry} (entry : s.slot a = some x)
    (busy : x.outstanding ≠ 0) : s.drained a = s := by
  rw [State.drained, entry]
  exact if_neg busy

theorem State.drained_zero {s : State} {a : Word} {x : SlotEntry} (entry : s.slot a = some x)
    (zero : x.outstanding = 0) :
    s.drained a = if x.awaitingPush then s.releaseAwaiting a else s.settle x.owner := by
  rw [State.drained, entry]
  exact if_pos zero

/-- Settles O25: the answered entry, and what the last answer releases. -/
theorem redirectErrorErases : Obligations.RedirectErrorErases := by
  unfold Obligations.RedirectErrorErases
  intro s tag resp p a c up oldest write redirect silent small
  let u := s.updLink fun l =>
    (l.answerPiece p.tag).answer p resp (s.pieceData (s.examines p) p [])
  have answered : exec (.forwardedPieceResponse tag resp []) s =
      .next (u.redirectAnswered resp (some (a, c))) := by
    rw [exec_forwardedPieceResponse_write up oldest write, State.pieceAnswered,
      State.snoop_none silent, redirect]
  refine ⟨fun idle => ⟨u, ?_, rfl⟩, fun e live entry busy => ?_⟩
  · rw [answered, State.redirectAnswered_idle (s := u) idle]
  · let v := u.updSlot a (SlotEntry.writeAnswered c resp)
    let x := e.writeAnswered c resp
    have slots (a' : Word) :
        v.slot a' = if a' = a then (s.slot a).map (SlotEntry.writeAnswered c resp) else s.slot a' :=
      State.slot_updSlot u a a' _ fun e => (e.writeAnswered_place c resp).1
    have changed : v.slot a = some x := by
      rw [slots, if_pos rfl, entry]
      rfl
    have outstanding : x.outstanding = e.outstanding - 1 := by cases resp <;> rfl
    have awaiting : x.awaitingPush = e.awaitingPush := by cases resp <;> rfl
    have owner : x.owner = e.owner := by cases resp <;> rfl
    have next : exec (.forwardedPieceResponse tag resp []) s = .next (v.drained a) := by
      rw [answered, State.redirectAnswered_live (s := u) live]
    refine ⟨v.drained a, v, x, next, rfl, changed, ?_, ?_, ?_, fun a' other => ?_, fun more => ?_,
      fun last awaits => ?_, fun last settles => ?_⟩
    · cases resp <;> rfl
    · rintro rfl
      exact ⟨rfl, rfl⟩
    · rintro rfl
      refine ⟨?_, ?_, fun c' other => ⟨?_, ?_⟩⟩ <;>
        simp [x, SlotEntry.writeAnswered_error, hasClass_joinClass small,
          hasClass_leaveClass small, *]
    · rw [slots, if_neg other]
    · exact State.drained_busy changed (by omega)
    · rw [exec_awaitingPushReleased (s := v) up, if_neg (show v.device ≠ _ from live),
        State.drained_zero changed (by omega), awaiting, awaits]
      rfl
    · rw [exec_settledCompletionJudged (s := v) up, if_neg (show v.device ≠ _ from live),
        State.drained_zero changed (by omega), awaiting, settles, owner]
      rfl

theorem State.handIndex_directive {b : WriteBeat} (full : allStrobes b = true) (s : State) :
    s.handIndex .directive b = s.takeDirectiveIndex b.data :=
  if_pos full

/-- Settles O26: an ERROR hands nothing over, an OK hands each full beat to the word's owner. -/
theorem snoopHandsOver : Obligations.SnoopHandsOver := by
  unfold Obligations.SnoopHandsOver
  refine ⟨fun s tag p w up oldest write plain snooped => ⟨?_, ?_⟩, fun b => beq_iff_eq⟩
  · exact ⟨_, exec_forwardedPieceResponse_write up oldest write .error,
      State.pieceAnswered_onlyLink plain (.inr rfl) s []⟩
  · refine exec_forwardedPieceResponse_snooped up oldest write plain snooped fun b x full => ?_
    cases w with
    | directive => exact State.handIndex_directive full x
    | report => exact State.handIndex_report full x
    | free => exact State.handIndex_free full x

/-- Settles O27: each response asks for what it answers. -/
theorem unaskedResponsesFault : Obligations.UnaskedResponsesFault := by
  unfold Obligations.UnaskedResponsesFault
  intro s up
  have absent {k : OwnKind} (idle : s.oldestOwn k = none) : s.oldestBurst k = none :=
    Option.map_eq_none_iff.mp idle
  exact ⟨fun tag resp data idle => exec_forwardedPieceResponse_none up resp data idle,
    fun bytes shape idle => exec_directiveFetchComplete_none up shape idle,
    fun data idle => exec_refillComplete_none up data (absent idle),
    fun idle => exec_reportWriteComplete_none up idle,
    fun idle => exec_statusBlockWriteComplete_none up idle,
    fun k data idle => exec_ownAccessError_none up data idle⟩

end Sys2Proof.Machine
end

section
/-! SUPPORT. What a refill's addresses do, whatever the links hold and whichever refill is in flight
(R108, R110, R142); and the count of the bursts in flight at an answer (R16). -/

namespace Sys2Proof.Machine

/-! ## An answered burst (R16) -/

/-- The answer to a burst lowers the number of its kind and fate in flight by one. -/
theorem State.ownInFlight_of_oldest {s : State} {k : OwnKind} {b : OwnBurst} {life : Life}
    (oldest : s.oldestBurst k = some (b, life)) :
    s.ownInFlight k life = (s.answerOwn k).ownInFlight k life + 1 := by
  obtain ⟨pre, i, post, split, found, before⟩ := List.findSome?_eq_some_iff.mp oldest
  obtain ⟨rfl, tag⟩ := Issued.ownOf_eq_some.mp found
  have others : ∀ i ∈ pre, i.hasTag k = false := fun i mem => Issued.ownOf_eq_none.mp (before i mem)
  have left := (State.oldestBurst_of_split split others tag).2
  have counted : (Issued.own b life).isOwn k life = true := by simp [Issued.isOwn, tag]
  simp only [State.ownInFlight, left, split, List.filter_append, List.filter_cons_of_pos counted,
    List.length_append, List.length_cons]
  omega

/-! ## Readiness (R142) -/

theorem State.testReports_idle {s : State} (idle : s.device = .halted ∨ s.regions = none ∨
    s.reporter.write ≠ none ∨ s.nextReport = none) : s.testReports = s :=
  s.testReports_tests.1 idle

theorem State.testReports_ready {s : State} {r : Regions} {c : ReportContent}
    (live : s.device ≠ .halted) (configured : s.regions = some r)
    (free : s.reporter.write = none) (next : s.nextReport = some c) :
    s.testReports = if s.reportRoom r then s.startReport r c else s.latch .reportsBlocked := by
  simp [State.testReports, live, configured, free, next]

/-- A refill's read apart: the links and the refill in flight, which neither readiness nor a push
reads. -/
def State.withRefill (s : State) (l : Link) (f : Option Refill) : State :=
  { s with link := l, supply := { s.supply with refill := f } }

section
variable (s : State) (l : Link) (f : Option Refill)

theorem State.testReports_withRefill :
    (s.withRefill l f).testReports = s.testReports.withRefill l f := by
  by_cases idle : s.device = .halted ∨ s.regions = none ∨ s.reporter.write ≠ none ∨
      s.nextReport = none
  · rw [State.testReports_idle idle, State.testReports_idle (s := s.withRefill l f) idle]
  · simp only [not_or, not_not] at idle
    obtain ⟨live, configured, free, next⟩ := idle
    obtain ⟨r, configured⟩ := Option.ne_none_iff_exists'.mp configured
    obtain ⟨c, next⟩ := Option.ne_none_iff_exists'.mp next
    rw [State.testReports_ready live configured free next,
      State.testReports_ready (s := s.withRefill l f) live configured free next,
      apply_ite (State.withRefill · l f)]
    rfl

theorem State.hand_withRefill (b : ReportBody) :
    (s.withRefill l f).hand b = (s.hand b).withRefill l f := by
  by_cases halted : s.device = .halted
  · rw [State.hand_halted halted, State.hand_halted (s := s.withRefill l f) halted]
  · have handed (u : State) (live : u.device ≠ .halted) :
        u.hand b = (u.updReporter fun r => r.accept b 0).testReports := if_neg live
    rw [handed s halted, handed (s.withRefill l f) halted, ← State.testReports_withRefill]
    rfl

theorem State.push_withRefill (a : Word) :
    (s.withRefill l f).push a = (s.push a).withRefill l f := by
  have placed : (s.withRefill l f).updSupply (fun p => p.place a) =
      (s.updSupply fun p => p.place a).withRefill l f := by
    have place (p : Supply) : { p with refill := f }.place a = { p.place a with refill := f } := by
      by_cases room : p.stack.length < Config.stackCapacity <;> simp [Supply.place, room]
    exact congrArg (fun p : Supply => { s with link := l, supply := p }) (place s.supply)
  simp only [State.push, placed, State.testReports_withRefill]
  exact (apply_ite (State.withRefill · l f) ..).symm

theorem State.takeAddrs_withRefill (r : Regions) (addrs : List Word) :
    (s.withRefill l f).takeAddrs r addrs =
      ((s.takeAddrs r addrs).1.withRefill l f, (s.takeAddrs r addrs).2) := by
  induction addrs generalizing s with
  | nil => rfl
  | cons a addrs ih =>
    have same : (s.withRefill l f).validSlot r a = s.validSlot r a := rfl
    rw [State.takeAddrs, State.takeAddrs, same]
    split
    · rw [State.push_withRefill, ih]
    · rw [ih]

theorem State.reportSkipped_withRefill (skipped : List Word) :
    (s.withRefill l f).reportSkipped skipped = (s.reportSkipped skipped).withRefill l f := by
  have latched : (s.withRefill l f).latch .badSlot = (s.latch .badSlot).withRefill l f := rfl
  unfold State.reportSkipped
  rw [latched, State.hand_withRefill, apply_ite (State.withRefill · l f)]

end

/-! ## What a refill's addresses leave alone (R110) -/

theorem State.push_only (s : State) (a : Word) : s.OnlySupply (s.push a) := by
  have placed : s.OnlySupply (s.updSupply fun p => p.place a) := rfl
  simp only [State.push]
  split
  · exact placed
  · exact placed.trans (State.testReports_only _).onlySupply

theorem State.push_indices (s : State) (a : Word) :
    (s.push a).supply.consumer = s.supply.consumer ∧
      (s.push a).supply.recorded = s.supply.recorded := by
  have placed : (s.supply.place a).consumer = s.supply.consumer ∧
      (s.supply.place a).recorded = s.supply.recorded := by
    rw [Supply.place_only]
    exact ⟨rfl, rfl⟩
  simp only [State.push]
  split
  · exact placed
  · rw [State.testReports_only (s.updSupply fun p => p.place a)]
    exact placed

theorem State.takeAddrs_only (r : Regions) (addrs : List Word) (s : State) :
    let t := (s.takeAddrs r addrs).1
    s.OnlySupply t ∧ t.supply.consumer = s.supply.consumer ∧
      t.supply.recorded = s.supply.recorded := by
  induction addrs generalizing s with
  | nil => exact ⟨rfl, rfl, rfl⟩
  | cons a addrs ih =>
    rw [State.takeAddrs]
    split
    · obtain ⟨only, consumer, recorded⟩ := ih (s.push a)
      have pushed := s.push_indices a
      exact ⟨(s.push_only a).trans only, consumer.trans pushed.1, recorded.trans pushed.2⟩
    · exact ih s

theorem State.takeAddrs_valid {s : State} {r : Regions} {a : Word} (valid : s.validSlot r a = true)
    (rest : List Word) : s.takeAddrs r (a :: rest) = (s.push a).takeAddrs r rest := by
  rw [State.takeAddrs, if_pos valid]

theorem State.takeAddrs_skipped {s : State} {r : Regions} {a : Word}
    (skipped : s.validSlot r a = false) (rest : List Word) :
    s.takeAddrs r (a :: rest) = ((s.takeAddrs r rest).1, a :: (s.takeAddrs r rest).2) := by
  rw [State.takeAddrs, if_neg (by simp [skipped])]

theorem State.reportSkipped_only (s : State) (skipped : List Word) :
    s.OnlyReporter (s.reportSkipped skipped) := by
  unfold State.reportSkipped
  split
  · rfl
  · exact (s.latch_latches .badSlot).only.trans ((s.latch .badSlot).hand_hands _).only

theorem rangesMeet_iff {base₁ size₁ base₂ size₂ : Nat} : rangesMeet base₁ size₁ base₂ size₂ = true ↔
    base₁ < base₂ + size₂ ∧ base₂ < base₁ + size₁ := by
  simp [rangesMeet]

/-- The four tests of R110. -/
theorem State.validSlot_iff (s : State) (r : Regions) (a : Word) : s.validSlot r a = true ↔
    a ≠ 0 ∧ a.toNat % 4096 = 0 ∧
    rangesMeet a.toNat 4096 r.landingBase.toNat 32768 = false ∧
    rangesMeet a.toNat 4096 (pageBase s.strap).toNat 4096 = false ∧
    rangesMeet a.toNat 4096 r.reportBase.toNat (64 * r.reportSize) = false ∧
    rangesMeet a.toNat 4096 r.freeBase.toNat (4 * r.freeSize) = false ∧
    a ∉ s.heldAddrs := by
  simp [State.validSlot, State.meetsRegions, and_assoc]

theorem State.mem_heldAddrs (s : State) (a : Word) :
    a ∈ s.heldAddrs ↔ a ∈ s.supply.stack ∨ ∃ e ∈ s.supply.table, e.addr = a := by
  simp [State.heldAddrs]

end Sys2Proof.Machine
end

section
/-! CLAIMS. Slot supply: a refill's end, the release of an entry awaiting push, and a coalescing
timer's expiry (R33, R108 to R110, R116, R145). -/

namespace Sys2Proof.Machine

/-! ## A refill's answers -/

theorem State.refillAnswered_waits {s : State} {f : Refill} {r : Regions}
    (refill : s.supply.refill = some f) (configured : s.regions = some r)
    (waits : ¬ (f.waiting = [] ∧ s.ownInFlight .refill .live = 0)) : s.refillAnswered = s := by
  rw [State.refillAnswered, refill, configured]
  exact if_neg waits

theorem State.refillAnswered_ends {s : State} {f : Refill} {r : Regions}
    (refill : s.supply.refill = some f) (configured : s.regions = some r)
    (waiting : f.waiting = []) (answered : s.ownInFlight .refill .live = 0) :
    s.refillAnswered = s.finishRefill r f.data := by
  rw [State.refillAnswered, refill, configured]
  exact if_pos ⟨waiting, answered⟩

/-- The end of a refill in a state that differs in the links and the refill alone (R110). -/
theorem State.finishRefill_withRefill (s : State) (l : Link) (f : Option Refill) (r : Regions)
    (data : List Word) :
    let v := (s.takeAddrs r data).1.updSupply fun p =>
      { p with consumer := (p.consumer + data.length) % r.freeSize }
    (s.withRefill l f).finishRefill r data =
      ((v.reportSkipped (s.takeAddrs r data).2).withRefill l none).testRefill := by
  have advanced (u : State) : ((u.withRefill l f).updSupply fun p =>
      { p with consumer := (p.consumer + data.length) % r.freeSize }) =
      (u.updSupply fun p =>
        { p with consumer := (p.consumer + data.length) % r.freeSize }).withRefill l f := rfl
  simp only [State.finishRefill, State.takeAddrs_withRefill, advanced,
    State.reportSkipped_withRefill]
  rfl

theorem State.reportSkipped_reports {s : State} {skipped : List Word} (some : skipped ≠ []) :
    ∃ m : State, s.Latches m .badSlot ∧ m.Hands (s.reportSkipped skipped) (.supply skipped) 0 := by
  rw [State.reportSkipped, if_neg some]
  exact ⟨_, s.latch_latches .badSlot, State.hand_hands _ _⟩

/-- Settles O35: the two answers to a burst, the four tests, and the order of the pushes. -/
theorem refillAddressesTaken : Obligations.RefillAddressesTaken := by
  unfold Obligations.RefillAddressesTaken
  refine ⟨fun s r f b data up oldest refill shape configured => ?_,
    fun s b life data up oldest dead shape => ?_, State.validSlot_iff, fun _ _ _ _ => rangesMeet_iff,
    State.mem_heldAddrs, fun s r a rest => ⟨rfl, fun valid => ?_, fun skipped => ?_⟩⟩
  · intro last entries
    let l := (s.answerOwn .refill).link
    have answers : s.link.AnswersOldest l 17 b := State.answerOwn_answersOldest oldest
    have gathered : (s.answerOwn .refill).gatherRefill data =
        s.withRefill l (some { f with data := entries }) := by
      simp only [State.gatherRefill, State.updSupply, State.answerOwn_fields, refill]
      rfl
    have count := State.ownInFlight_of_oldest oldest
    have command := exec_refillComplete_live up oldest shape
    rw [gathered] at command
    by_cases ends : last
    · obtain ⟨waiting, one⟩ := ends
      let u := (s.takeAddrs r entries).1
      let v := u.updSupply fun p =>
        { p with consumer := (p.consumer + entries.length) % r.freeSize }
      let w := v.reportSkipped (s.takeAddrs r entries).2
      have finished : (s.withRefill l (some { f with data := entries })).refillAnswered =
          (w.withRefill l none).testRefill :=
        (State.refillAnswered_ends (s := s.withRefill l (some { f with data := entries }))
          (f := { f with data := entries }) rfl configured waiting
          (show (s.answerOwn .refill).ownInFlight .refill .live = 0 by omega)).trans
          (s.finishRefill_withRefill l _ r entries)
      rw [finished] at command
      obtain ⟨taken, consumer, recorded⟩ := State.takeAddrs_only r entries s
      have skipped := v.reportSkipped_only (s.takeAddrs r entries).2
      have placed : s.OnlySupply w :=
        (taken.trans (show u.OnlySupply v from rfl)).trans skipped.onlySupply
      have only := (w.withRefill l none).testRefill_only.1
      have configured' : (w.withRefill l none).regions = some r := by
        rw [show (w.withRefill l none).regions = w.regions from rfl, placed]
        exact configured
      refine ⟨_, command, ?_, fun more => absurd ⟨waiting, one⟩ more, fun _ =>
        ⟨u, _, w, rfl, ?_, ?_, ?_, ?_, ?_, ?_⟩⟩
      · rw [only]
        exact answers
      · intro none
        have still : w = v := if_pos none
        rw [still, ← consumer]
        rfl
      · intro some
        obtain ⟨m, latched, handed⟩ := State.reportSkipped_reports (s := v) some
        refine ⟨m, ?_, handed⟩
        rw [← consumer]
        exact latched
      · rw [only]
        rfl
      · exact State.testRefill_tested _ r configured' rfl
      · rw [only]
        change ({ w with link := l, supply := _ } : State) = _
        rw [placed]
        rfl
      · rw [only]
        change w.supply.recorded = s.supply.recorded
        exact (congrArg (·.supply.recorded) skipped).trans recorded
    · have waits : ¬ (f.waiting = [] ∧ (s.answerOwn .refill).ownInFlight .refill .live = 0) :=
        fun k => ends ⟨k.1, by omega⟩
      have still : (s.withRefill l (some { f with data := entries })).refillAnswered =
          s.withRefill l (some { f with data := entries }) :=
        State.refillAnswered_waits rfl configured waits
      rw [still] at command
      exact ⟨_, command, answers, fun _ => rfl, fun last => absurd last ends⟩
  · exact ⟨_, exec_refillComplete_discarded up oldest shape dead, s.answerOwn_only .refill,
      State.answerOwn_answersOldest oldest⟩
  · exact ⟨State.takeAddrs_valid valid rest, s.push_pushes a⟩
  · rw [State.takeAddrs_skipped skipped]
    exact ⟨rfl, rfl⟩

/-! ## An entry awaiting push (R116) -/

theorem State.releaseAwaiting_of_ready {s : State} {a : Word} {e : SlotEntry}
    (entry : s.slot a = some e) (awaits : e.awaitingPush = true) (zero : e.outstanding = 0) :
    s.releaseAwaiting a = s.removeAndPush a := by
  rw [State.releaseAwaiting, entry]
  exact if_pos ⟨awaits, zero⟩

theorem State.releaseAwaiting_of_idle {s : State} {a : Word}
    (idle : ∀ e, s.slot a = some e → e.awaitingPush = false ∨ e.outstanding ≠ 0) :
    s.releaseAwaiting a = s := by
  unfold State.releaseAwaiting
  split
  · rfl
  · rename_i e entry
    refine if_neg fun ⟨awaits, zero⟩ => ?_
    exact (idle e entry).elim (fun no => by simp [no] at awaits) (· zero)

/-- Settles O36: the entry that is released, and the ones that stay. -/
theorem awaitingPushReleased : Obligations.AwaitingPushReleased := by
  unfold Obligations.AwaitingPushReleased
  refine fun s a up => ⟨fun e live entry awaits zero => ⟨_, exec_awaitingPushReleased up a, ?_⟩,
    fun idle => ?_⟩
  · rw [if_neg live, State.releaseAwaiting_of_ready entry awaits zero]
    exact s.removeAndPush_pushes a
  · rw [exec_awaitingPushReleased up]
    split
    · rfl
    · rename_i live
      rw [State.releaseAwaiting_of_idle (idle.resolve_left live)]

/-! ## A coalescing timer (R145) -/

theorem State.timerCheck_expired {s : State} {u : TapNo} {n : Nat}
    (timer : (s.tap u).timer = some n) (expired : s.reporter.interval ≤ n) :
    s.timerCheck u = s.makeDue u := by
  rw [State.timerCheck, timer]
  exact if_pos expired

theorem State.timerCheck_running {s : State} {u : TapNo}
    (running : ∀ n, (s.tap u).timer = some n → n < s.reporter.interval) : s.timerCheck u = s := by
  unfold State.timerCheck
  split
  · exact if_neg (Nat.not_le.mpr (running _ ‹_›))
  · rfl

/-- Settles O41: a timer at or above the interval, and one below it. -/
theorem coalescingExpiryMakesDue : Obligations.CoalescingExpiryMakesDue := by
  unfold Obligations.CoalescingExpiryMakesDue
  refine fun s u up => ⟨fun n live timer expired => ⟨_, exec_coalescingTimerExpiry up u, ?_⟩,
    fun idle => ?_⟩
  · rw [if_neg live, State.timerCheck_expired timer expired]
    exact s.makeDue_makes u
  · rw [exec_coalescingTimerExpiry up]
    split
    · rfl
    · rename_i live
      rw [State.timerCheck_running (idle.resolve_left live)]

end Sys2Proof.Machine
end

section
/-! SUPPORT. Bytes read back from strings that are joined, padded or built entry by entry (00
Conventions, R152, R174). -/

namespace Sys2Proof.Machine

variable {as bs : List Byte} {i j n : Nat}

theorem byteAt_getElem (inside : i < bs.length) : byteAt bs i = bs[i] :=
  List.getD_eq_getElem _ _ inside

theorem byteAt_beyond (beyond : bs.length ≤ i) : byteAt bs i = 0 :=
  List.getD_eq_default _ _ beyond

theorem byteAt_append_left (inside : i < as.length) : byteAt (as ++ bs) i = byteAt as i :=
  List.getD_append _ _ _ _ inside

theorem byteAt_append_right (as bs : List Byte) (i : Nat) :
    byteAt (as ++ bs) (as.length + i) = byteAt bs i := by
  rw [byteAt, List.getD_append_right _ _ _ _ (by omega), Nat.add_sub_cancel_left, byteAt]

/-- Padding changes no byte within the length padded to. -/
theorem byteAt_padTo (within : i < n ∨ bs.length ≤ n) : byteAt (padTo n bs) i = byteAt bs i := by
  by_cases inside : i < bs.length
  · have low : i < n := by omega
    simp [byteAt, padTo, low, List.getElem?_append_left inside]
  · have beyond := Nat.le_of_not_lt inside
    rw [byteAt_beyond beyond, byteAt, List.getD_eq_getElem?_getD, padTo, List.getElem?_take,
      List.getElem?_append_right beyond, List.getElem?_replicate]
    split
    · split <;> rfl
    · rfl

/-- A field is read from its bytes alone. -/
theorem halfAt_congr (same : ∀ k < 2, byteAt as (i + k) = byteAt bs (j + k)) :
    halfAt as i = halfAt bs j := by
  have low := same 0 (by decide)
  have high := same 1 (by decide)
  rw [halfAt, halfAt, high, show byteAt as i = byteAt bs j from low]

theorem wordAt_congr (same : ∀ k < 4, byteAt as (i + k) = byteAt bs (j + k)) :
    wordAt as i = wordAt bs j := by
  have low : halfAt as i = halfAt bs j := halfAt_congr fun k small => same k (by omega)
  have high : halfAt as (i + 2) = halfAt bs (j + 2) := halfAt_congr fun k small => by
    rw [Nat.add_assoc, Nat.add_assoc, same (2 + k) (by omega)]
  rw [wordAt, wordAt, low, high]

/-- The bytes of an entry of a string built entry by entry. -/
theorem byteAt_flatMap {α : Type} {f : α → List Byte} {w k : Nat} (sized : ∀ x, (f x).length = w)
    (small : k < w) : ∀ {l : List α} {i : Nat} (inside : i < l.length),
    byteAt (l.flatMap f) (w * i + k) = byteAt (f l[i]) k
  | x :: l, 0, _ => by
    rw [List.flatMap_cons, Nat.mul_zero, Nat.zero_add, byteAt_append_left (by rw [sized]; exact small)]
    rfl
  | x :: l, i + 1, inside => by
    have later : w * (i + 1) + k = (f x).length + (w * i + k) := by
      rw [sized, Nat.mul_succ]
      omega
    rw [List.flatMap_cons, later, byteAt_append_right]
    exact byteAt_flatMap sized small (Nat.lt_of_succ_lt_succ inside)

theorem length_flatMap_sized {α : Type} {f : α → List Byte} {w : Nat} (sized : ∀ x, (f x).length = w)
    (l : List α) : (l.flatMap f).length = w * l.length := by
  simp [List.length_flatMap, sized, Nat.mul_comm]

/-- Addresses written as words read back. -/
theorem wordAt_wordBytes_flatMap {l : List Word} {i : Nat} (inside : i < l.length) :
    wordAt (l.flatMap wordBytes) (4 * i) = l[i] := by
  have field : wordAt (l.flatMap wordBytes) (4 * i) = wordAt (wordBytes l[i] ++ []) 0 := by
    refine wordAt_congr fun k small => ?_
    rw [byteAt_flatMap length_wordBytes small inside, List.append_nil, Nat.zero_add]
  exact field.trans (wordAt_wordBytes _ [])

/-- Two bytes that spell a value read back, wherever they stand. -/
theorem halfAt_spelled {h : BitVec 16} (low : byteAt bs i = h.extractLsb' 0 8)
    (high : byteAt bs (i + 1) = h.extractLsb' 8 8) : halfAt bs i = h := by
  rw [halfAt, low, high]
  exact half_joined h

end Sys2Proof.Machine
end

section
/-! CLAIMS. The reporter: what is prepared, in which order, with which bytes (R139, R142, R152,
R153). -/

namespace Sys2Proof.Machine

/-! ## The bytes of a record (R152, R153) -/

/-- A record's bytes before the padding. -/
def reportBytes (c : ReportContent) (dropped : Nat) (frame : FrameNo) : List Byte :=
  [byteOf c.code, byteOf dropped] ++ frameBytes frame ++ c.bytes

section
variable (c : ReportContent) (dropped : Nat) (frame : FrameNo)

theorem reportRecord_byte {i : Nat} (low : i < 64) :
    byteAt (reportRecord c dropped frame) i = byteAt (reportBytes c dropped frame) i :=
  byteAt_padTo (.inl low)

theorem reportRecord_beyond {i : Nat} (fits : (reportBytes c dropped frame).length ≤ 64)
    (beyond : (reportBytes c dropped frame).length ≤ i) :
    byteAt (reportRecord c dropped frame) i = 0 :=
  (byteAt_padTo (.inr fits)).trans (byteAt_beyond beyond)

theorem reportRecord_header : byteAt (reportRecord c dropped frame) 1 = BitVec.ofNat 8 dropped ∧
    halfAt (reportRecord c dropped frame) 2 = frame.setWidth 16 := by
  have spelled : frameBytes frame = halfBytes (frame.setWidth 16) := half_toNat frame
  refine ⟨reportRecord_byte c dropped frame (by decide), halfAt_spelled ?_ ?_⟩
  · rw [reportRecord_byte c dropped frame (by decide), reportBytes, spelled]
    rfl
  · rw [reportRecord_byte c dropped frame (by decide), reportBytes, spelled]
    rfl

end

/-- A list of addresses behind eight header bytes (R153). -/
theorem reportRecord_addresses {c : ReportContent} {dropped : Nat} {frame : FrameNo}
    {header : List Byte} {addrs : List Word} (spelled : reportBytes c dropped frame =
      header ++ addrs.flatMap wordBytes) (eight : header.length = 8) (few : addrs.length ≤ 12) :
    (∀ i (h : i < addrs.length), wordAt (reportRecord c dropped frame) (8 + 4 * i) = addrs[i]) ∧
      ∀ i, 8 + 4 * addrs.length ≤ i → byteAt (reportRecord c dropped frame) i = 0 := by
  have length : (reportBytes c dropped frame).length = 8 + 4 * addrs.length := by
    rw [spelled, List.length_append, eight, length_flatMap_sized length_wordBytes]
  refine ⟨fun i inside => ?_, fun i beyond => reportRecord_beyond c dropped frame (by omega) (by omega)⟩
  rw [← wordAt_wordBytes_flatMap inside]
  refine wordAt_congr fun k small => ?_
  rw [reportRecord_byte c dropped frame (by omega), spelled, ← eight, Nat.add_assoc,
    byteAt_append_right]

theorem length_entryBytes (e : QueueEntry) : (entryBytes e).length = 8 := rfl

theorem FrameOutcome.code_byte (o : FrameOutcome) : byteOf o.code = (match o with
    | .clean => 1 | .partly => 2 | .repeated => 3 | .silent => 4 | .starved => 5
    | .abandoned => 6 : Byte) := by
  cases o <;> rfl

theorem TapState.code_byte (x : TapState) : byteOf x.code = (match x with
    | .closed => 0 | .waiting => 1 | .running => 2 | .holding => 3 | .orphaned => 4 : Byte) := by
  cases x <;> rfl

/-- The fields of one FRAMES entry (R153). -/
theorem entryBytes_fields (e : QueueEntry) :
    wordAt (entryBytes e) 0 = (e.slot.getD 0 ||| e.frame.setWidth 32) ∧
    halfAt (entryBytes e) 4 = e.erased.setWidth 16 ∧
    byteAt (entryBytes e) 6 = byteOf e.outcome.code ∧
    byteAt (entryBytes e) 7 = BitVec.ofNat 8 e.run := by
  have erased : half e.erased.toNat = halfBytes (e.erased.setWidth 16) := half_toNat e.erased
  refine ⟨?_, ?_, rfl, rfl⟩
  · rw [entryBytes, List.append_assoc]
    exact wordAt_wordBytes _ _
  · refine halfAt_spelled ?_ ?_ <;> rw [entryBytes, erased] <;> rfl

/-- The entries of a FRAMES record (R153). -/
theorem reportRecord_frames {u : TapNo} {es : List QueueEntry} (dropped : Nat) (frame : FrameNo)
    (few : es.length ≤ 6) :
    let b := reportRecord (.frames u es) dropped frame
    (∀ i (h : i < es.length),
      wordAt b (8 + 8 * i) = (es[i].slot.getD 0 ||| es[i].frame.setWidth 32) ∧
      halfAt b (12 + 8 * i) = es[i].erased.setWidth 16 ∧
      byteAt b (14 + 8 * i) = byteOf es[i].outcome.code ∧
      byteAt b (15 + 8 * i) = BitVec.ofNat 8 es[i].run) ∧
    ∀ i, 8 + 8 * es.length ≤ i → byteAt b i = 0 := by
  let header := reportBytes (.frames u []) dropped frame |>.set 5 (byteOf es.length)
  have spelled : reportBytes (.frames u es) dropped frame = header ++ es.flatMap entryBytes := rfl
  have length : (reportBytes (.frames u es) dropped frame).length = 8 + 8 * es.length := by
    rw [spelled, List.length_append, length_flatMap_sized length_entryBytes]
    rfl
  refine ⟨fun i inside => ?_, fun i beyond => reportRecord_beyond _ dropped frame (by omega) (by omega)⟩
  have entry (k : Nat) (small : k < 8) :
      byteAt (reportRecord (.frames u es) dropped frame) (8 + 8 * i + k) =
        byteAt (entryBytes es[i]) k := by
    rw [reportRecord_byte _ dropped frame (by omega), spelled, Nat.add_assoc,
      ← byteAt_flatMap length_entryBytes small inside]
    exact byteAt_append_right header _ _
  obtain ⟨slot, erased, outcome, run⟩ := entryBytes_fields es[i]
  refine ⟨?_, ?_, ?_, ?_⟩
  · rw [← slot]
    exact wordAt_congr fun k small => by rw [entry k (by omega), Nat.zero_add]
  · rw [← erased]
    refine halfAt_congr fun k small => ?_
    rw [← entry (4 + k) (by omega)]
    congr 1
    omega
  · rw [← outcome, ← entry 6 (by decide)]
    congr 1
    omega
  · rw [← run, ← entry 7 (by decide)]
    congr 1
    omega

/-- Settles O38: the readiness test taken alone, and the bytes of each kind of record. -/
theorem reportPrepared : Obligations.ReportPrepared := by
  unfold Obligations.ReportPrepared
  refine ⟨fun s up => ⟨_, exec_reportPrepare up, s.testReports_tests⟩, fun c dropped frame => ?_,
    fun bs => ⟨fun i h => byteAt_getElem h, fun i h => byteAt_beyond h, halfAt_lane bs,
      wordAt_lane bs, (toWords_eq bs).1, fun i w found k small => ?_⟩⟩
  · intro b stateCode addresses
    obtain ⟨drops, current⟩ := reportRecord_header c dropped frame
    have fixed {i : Nat} (low : i < 64) : byteAt b i = byteAt (reportBytes c dropped frame) i :=
      reportRecord_byte c dropped frame low
    have rest {i : Nat} (fits : (reportBytes c dropped frame).length ≤ 64)
        (beyond : (reportBytes c dropped frame).length ≤ i) : byteAt b i = 0 :=
      reportRecord_beyond c dropped frame fits beyond
    refine ⟨length_reportRecord c dropped frame, drops, current, ?_⟩
    cases c with
    | frames u es =>
      refine ⟨fixed (by decide), fixed (by decide), fixed (by decide), fixed (by decide),
        fixed (by decide), fun few => ?_⟩
      obtain ⟨entries, zero⟩ := reportRecord_frames (u := u) dropped frame few
      refine ⟨fun i inside => ?_, zero⟩
      obtain ⟨slot, erased, outcome, run⟩ := entries i inside
      exact ⟨slot, erased, outcome.trans (FrameOutcome.code_byte _), run⟩
    | returned addrs =>
      exact ⟨fixed (by decide), fixed (by decide), fixed (by decide), fixed (by decide),
        fixed (by decide), fun few => reportRecord_addresses
          (header := [6, byteOf dropped] ++ frameBytes frame ++ [byteOf addrs.length, 0, 0, 0])
          rfl rfl few⟩
    | queued body =>
      cases body with
      | tapState u old new reason stream =>
        refine ⟨fixed (by decide), fixed (by decide), ?_, ?_, ?_, ?_, fun i beyond =>
          rest (Nat.le_of_ble_eq_true rfl) beyond⟩
        · exact (fixed (by decide)).trans old.code_byte
        · exact (fixed (by decide)).trans new.code_byte
        · rw [fixed (by decide)]
          cases reason <;> rfl
        · rw [fixed (by decide)]
          cases stream <;> rfl
      | layout event version switchFrame lead =>
        have spelled : frameBytes switchFrame = halfBytes (switchFrame.setWidth 16) :=
          half_toNat switchFrame
        refine ⟨fixed (by decide), ?_, fixed (by decide), halfAt_spelled ?_ ?_,
          halfAt_spelled ?_ ?_, fun i beyond => rest (Nat.le_of_ble_eq_true rfl) beyond⟩
        · rw [fixed (by decide)]
          cases event <;> rfl
        · rw [fixed (by decide), reportBytes, ReportContent.bytes, spelled]
          rfl
        · rw [fixed (by decide), reportBytes, ReportContent.bytes, spelled]
          rfl
        · exact fixed (by decide)
        · exact fixed (by decide)
      | reception event lostFrames =>
        refine ⟨fixed (by decide), ?_, fixed (by decide), fun i beyond =>
          rest (Nat.le_of_ble_eq_true rfl) beyond⟩
        rw [fixed (by decide)]
        cases event <;> rfl
      | directive position kind reason addrs =>
        refine ⟨fixed (by decide), fixed (by decide), fixed (by decide), ?_, fixed (by decide),
          fun few => reportRecord_addresses
            (header := [5, byteOf dropped] ++ frameBytes frame ++
              [byteOf position, kind, byteOf reason.code, byteOf addrs.length]) rfl rfl few⟩
        rw [fixed (by decide)]
        cases reason <;> rfl
      | supply addrs =>
        exact ⟨fixed (by decide), fixed (by decide), fixed (by decide), fixed (by decide),
          fixed (by decide), fun few => reportRecord_addresses
            (header := [7, byteOf dropped] ++ frameBytes frame ++ [byteOf addrs.length, 0, 0, 0])
            rfl rfl few⟩
  · rw [(toWords_eq bs).2 i w found]
    exact wordAt_lane bs _ k small

/-! ## The order of preference (R142) -/

theorem allTaps_split : ∀ u : TapNo, allTaps = allTaps.take u ++ u :: allTaps.drop (u + 1) ∧
    ∀ v ∈ allTaps.take u, v < u := by
  decide

/-- The FRAMES report of some entries of a tap, none without entries (R142). -/
def framesOf (u : TapNo) : List QueueEntry → Option ReportContent
  | [] => none
  | es => some (.frames u es)

theorem framesOf_some {u : TapNo} {es : List QueueEntry} (some : es ≠ []) :
    framesOf u es = .some (.frames u es) := by
  cases es with
  | nil => exact absurd rfl some
  | cons e es => rfl

theorem State.framesLimit_pos (s : State) : 0 < s.framesLimit := by
  unfold State.framesLimit
  split <;> decide

/-- With no report queued, each tap's due front entries are writable (R142, R145). -/
theorem State.nextReport_idle {s : State} (queue : s.reporter.queue = [])
    (returning : s.returning = []) : s.nextReport = allTaps.findSome? fun u =>
      framesOf u (((s.tap u).queue.takeWhile (·.due)).take s.framesLimit) := by
  have writable (u : TapNo) : s.writableDue u = (s.tap u).queue.takeWhile (·.due) := by
    simp [State.writableDue, queue]
  simp only [State.nextReport, queue, returning, State.dueFrames, writable]
  rfl

theorem State.heldFor_tapState {s : State} {q : QueuedReport} {u : TapNo} {old new : TapState}
    {reason : TapReason} {stream : Option StreamId}
    (body : q.body = .tapState u old new reason stream) (flush : 0 < q.flush)
    (some : (s.tap u).queue ≠ []) :
    s.heldFor q = .some (u, (s.tap u).queue.take (min s.framesLimit q.flush)) := by
  have limit := s.framesLimit_pos
  have taken : (s.tap u).queue.take (min s.framesLimit q.flush) ≠ [] := by
    simp [List.take_eq_nil_iff, some]
    omega
  obtain ⟨e, es, cons⟩ := List.exists_cons_of_ne_nil taken
  simp only [State.heldFor, body, List.take_take, cons]

theorem State.heldFor_none {s : State} {q : QueuedReport}
    (free : ∀ u old new reason stream, q.body = .tapState u old new reason stream →
      q.flush = 0 ∨ (s.tap u).queue = []) : s.heldFor q = none := by
  unfold State.heldFor
  split
  · rename_i u old new reason stream body
    have nothing : ((s.tap u).queue.take q.flush).take s.framesLimit = [] := by
      obtain zero | empty := free u old new reason stream body
      · simp [zero]
      · simp [empty]
    rw [nothing]
  · rfl

/-- Settles O39: the four cases in order, and the RETURNING addresses. -/
theorem reportPreference : Obligations.ReportPreference := by
  unfold Obligations.ReportPreference
  refine ⟨fun s => ⟨fun q rest u old new reason stream queue body flush some => ?_,
    fun q rest queue free => ?_, fun queue some => ?_,
    fun queue returning => ⟨fun u before some => ?_, fun none => ?_⟩⟩, fun s => ?_⟩
  · simp only [State.nextReport, queue, State.heldFor_tapState body flush some]
    rfl
  · simp only [State.nextReport, queue, State.heldFor_none free]
  · rw [State.nextReport, queue]
    cases returning : s.returning with
    | nil => exact absurd returning some
    | cons a addrs => rfl
  · obtain ⟨split, lower⟩ := allTaps_split u
    rw [State.nextReport_idle queue returning, List.findSome?_eq_some_iff]
    refine ⟨_, u, _, split, framesOf_some ?_, fun v mem => ?_⟩
    · simp only [ne_eq, List.take_eq_nil_iff, not_or]
      exact ⟨s.framesLimit_pos.ne', some⟩
    · rw [before v (lower v mem), List.take_nil, framesOf]
  · rw [State.nextReport_idle queue returning, List.findSome?_eq_none_iff]
    intro u _
    rw [none u, List.take_nil, framesOf]
  · simp only [State.returning]
    rfl

end Sys2Proof.Machine
end

section
/-! SUPPORT. The effects of a written report (R143, R145, R147). -/

namespace Sys2Proof.Machine

/-! ## The flush counts (R145) -/

/-- A waiting report of tap u after n entries were written that it counts, but for the remainder it may
stand behind (R145). -/
def QueuedReport.lowerBy (u : TapNo) (n : Nat) (past : Bool) (q : QueuedReport) : QueuedReport :=
  if q.isTapState u && n != 0 then
    { q with flush := q.flush - (n - if q.pastRemainder then 1 else 0), pastRemainder := past }
  else q

theorem QueuedReport.lowerBy_zero (u : TapNo) (past : Bool) : QueuedReport.lowerBy u 0 past = id := by
  funext q
  simp [QueuedReport.lowerBy]

/-- One more entry written behind n that left no remainder. -/
theorem QueuedReport.lower_lowerBy (u : TapNo) (n : Nat) (past : Bool) (q : QueuedReport) :
    (q.lowerBy u n false).lower u past = q.lowerBy u (n + 1) past := by
  obtain ⟨body, flush, pastRemainder⟩ := q
  have mine (f : Nat) (p : Bool) : QueuedReport.isTapState u ⟨body, f, p⟩ =
    QueuedReport.isTapState u ⟨body, flush, pastRemainder⟩ := rfl
  unfold QueuedReport.lowerBy QueuedReport.lower
  cases tap : QueuedReport.isTapState u ⟨body, flush, pastRemainder⟩ with
  | false => simp [tap]
  | true =>
    obtain rfl | more := Nat.eq_zero_or_pos n
    · cases pastRemainder <;> simp [tap]
    · have later : n ≠ 0 := more.ne'
      cases pastRemainder <;> simp [tap, mine, later] <;> omega

/-- The flush counts in the words of R145, by the report's kind. -/
theorem QueuedReport.lowerBy_eq (u : TapNo) {n : Nat} (some : n ≠ 0) (past : Bool) (q : QueuedReport) :
    q.lowerBy u n past = (match q.body with
      | .tapState v _ _ _ _ =>
        if v = u then { q with
          flush := q.flush - (n - if q.pastRemainder then 1 else 0)
          pastRemainder := past }
        else q
      | _ => q) := by
  obtain ⟨body, flush, pastRemainder⟩ := q
  cases body with
  | tapState v old new reason stream =>
    by_cases mine : v = u <;> simp [QueuedReport.lowerBy, QueuedReport.isTapState, some, mine]
  | layout event version switchFrame lead => rfl
  | reception event lostFrames => rfl
  | directive position kind reason addrs => rfl
  | supply addrs => rfl

theorem QueuedReport.lower_body (u : TapNo) (past : Bool) (q : QueuedReport) :
    (q.lower u past).body = q.body := by
  unfold QueuedReport.lower
  split <;> rfl

/-! ## The entries of a written FRAMES report (R147) -/

section
variable (u : TapNo) (es : List QueueEntry) (s : State)

/-- Only the tap's queue, the slot entries and the flush counts change. -/
theorem State.foldl_entryWritten_only :
    let t := es.foldl (State.entryWritten u) s
    t = { s with
      taps := t.taps
      supply := { s.supply with table := t.supply.table }
      reporter := { s.reporter with queue := t.reporter.queue } } ∧
    t.reporter.queue.map (·.body) = s.reporter.queue.map (·.body) ∧
    ∀ v, v ≠ u → t.tap v = s.tap v := by
  induction es generalizing s with
  | nil => exact ⟨rfl, rfl, fun _ _ => rfl⟩
  | cons e es ih =>
    obtain ⟨written, -⟩ := s.entryWritten_writes u e
    obtain ⟨only, bodies, others⟩ := ih (State.entryWritten u s e)
    refine ⟨?_, bodies.trans ?_, fun v other => (others v other).trans ?_⟩
    · rw [List.foldl_cons]
      generalize es.foldl (State.entryWritten u) (State.entryWritten u s e) = t at only
      refine only.trans ?_
      rw [written]
    · rw [written, List.map_map]
      exact List.map_congr_left fun q _ => q.lower_body u _
    · rw [State.tap, written]
      exact s.tap_setTap_other _ other

/-- Each carried entry posts the slot it names (R147). -/
theorem State.foldl_entryWritten_slot {a : Word} {x : SlotEntry} (entry : s.slot a = some x) :
    (es.foldl (State.entryWritten u) s).slot a = some { x with
      posted := x.posted + (es.filter (QueueEntry.names a)).length
      state := if x.state = .complete ∧ es.filter (QueueEntry.names a) ≠ [] then .posted
        else x.state } := by
  induction es generalizing s x with
  | nil => simpa using entry
  | cons e es ih =>
    obtain ⟨-, slots⟩ := s.entryWritten_writes u e
    have step := slots a
    rw [entry] at step
    by_cases names : e.slot = some a
    · have named : QueueEntry.names a e = true := by simp [QueueEntry.names, names]
      rw [if_pos names] at step
      rw [List.foldl_cons, ih (State.entryWritten u s e) step, List.filter_cons_of_pos named]
      by_cases complete : x.state = .complete
      · simp [SlotEntry.post, complete]
        omega
      · simp [SlotEntry.post, complete]
        omega
    · have unnamed : ¬ QueueEntry.names a e = true := by simpa [QueueEntry.names] using names
      rw [if_neg names] at step
      rw [List.foldl_cons, ih (State.entryWritten u s e) step, List.filter_cons_of_neg unnamed]

/-- The tap's queue and the flush counts after one carried entry (R145, R147). -/
theorem State.entryWritten_queues (e : QueueEntry) :
    (State.entryWritten u s e).tap u = { s.tap u with queue := dropWritten e (s.tap u).queue } ∧
    (State.entryWritten u s e).reporter.queue =
      s.reporter.queue.map (QueuedReport.lower u (leavesRemainder e (s.tap u).queue)) := by
  obtain ⟨written, -⟩ := s.entryWritten_writes u e
  refine ⟨?_, ?_⟩
  · rw [State.tap, written]
    exact s.tap_setTap_same u _
  · rw [written]

variable {es s}

/-- Carried entries that nothing merged into leave the queue's front. -/
theorem State.foldl_entryWritten_whole {rest : List QueueEntry}
    (front : (s.tap u).queue = es ++ rest) :
    let t := es.foldl (State.entryWritten u) s
    t.tap u = { s.tap u with queue := rest } ∧
    t.reporter.queue = s.reporter.queue.map (QueuedReport.lowerBy u es.length false) := by
  induction es using List.reverseRecOn generalizing rest with
  | nil =>
    have queue : (s.tap u).queue = rest := front
    refine ⟨by rw [← queue]; rfl, ?_⟩
    rw [List.length_nil, QueuedReport.lowerBy_zero, List.map_id]
    rfl
  | append_singleton init c ih =>
    obtain ⟨tap, reports⟩ := ih (rest := c :: rest) (by rw [front, List.append_assoc]; rfl)
    obtain ⟨written, lowered⟩ := (init.foldl (State.entryWritten u) s).entryWritten_queues u c
    rw [tap] at written lowered
    simp only [List.foldl_append, List.foldl_cons, List.foldl_nil]
    refine ⟨?_, ?_⟩
    · rw [written]
      simp [dropWritten]
    · have whole : leavesRemainder c (c :: rest) = false := by simp [leavesRemainder]
      rw [lowered, whole, reports, List.map_map, List.length_append]
      exact List.map_congr_left fun q _ => q.lower_lowerBy u _ false

/-- The last carried entry, when more has merged into it, leaves a due remainder. -/
theorem State.foldl_entryWritten_merged {init rest : List QueueEntry} {c e : QueueEntry}
    (front : (s.tap u).queue = init ++ e :: rest) (merged : c.run < e.run) :
    let t := (init ++ [c]).foldl (State.entryWritten u) s
    t.tap u = { s.tap u with queue :=
      { e with frame := e.frame + BitVec.ofNat 12 c.run, run := e.run - c.run, due := true } ::
        rest } ∧
    t.reporter.queue = s.reporter.queue.map (QueuedReport.lowerBy u (init ++ [c]).length true) := by
  obtain ⟨tap, reports⟩ := State.foldl_entryWritten_whole u front
  obtain ⟨written, lowered⟩ := (init.foldl (State.entryWritten u) s).entryWritten_queues u c
  rw [tap] at written lowered
  simp only [List.foldl_append, List.foldl_cons, List.foldl_nil]
  refine ⟨?_, ?_⟩
  · rw [written]
    simp [dropWritten, merged]
  · have remains : leavesRemainder c (e :: rest) = true := by simp [leavesRemainder, merged]
    rw [lowered, remains, reports, List.map_map, List.length_append]
    exact List.map_congr_left fun q _ => q.lower_lowerBy u _ true

end

/-! ## The RETURNING addresses of a written report (R117, R143) -/

theorem State.foldl_removeSlot (addrs : List Word) (s : State) :
    addrs.foldl State.removeSlot s = { s with supply := { s.supply with
      table := s.supply.table.filter fun e => !addrs.contains e.addr } } := by
  induction addrs generalizing s with
  | nil => simp
  | cons a addrs ih =>
    rw [List.foldl_cons, ih]
    simp only [State.removeSlot, State.updSupply, List.filter_filter]
    congr 2
    refine List.filter_congr fun e _ => ?_
    simp only [List.contains_cons, Bool.not_or, Bool.and_comm]
    rfl

/-- A readiness test writes the report's write and the flag of a full ring alone (R142). -/
theorem State.testReports_writes (s : State) : s.testReports = { s with
    reporter := { s.reporter with
      write := s.testReports.reporter.write
      flags := s.testReports.reporter.flags
      nFaultLow := s.testReports.reporter.nFaultLow } } := by
  unfold State.testReports State.startReport State.latch
  repeat' split
  all_goals rfl

end Sys2Proof.Machine
end

section
/-! CLAIMS. The reporter: a written report (R33, R143, R145, R147). -/

namespace Sys2Proof.Machine

/-- The producer index past a written report (R141, R143). -/
theorem State.advanceProducer_written {s : State} {r : Regions} {w : ReportWrite}
    (write : s.reporter.write = some w) (configured : s.regions = some r) :
    s.advanceProducer r.reportSize = { s with reporter := { s.reporter with
      producer := (s.reporter.producer + 1) % r.reportSize
      dropped := w.droppedSince
      write := none
      nReportLow := s.reporter.alertEnable &&
        (s.reporter.producer + 1) % r.reportSize != s.reporter.recorded } } := by
  simp [State.advanceProducer, State.judgeReport, State.updReporter, Reporter.uncarried, write,
    configured, reportLevelLow]

/-- What follows the last RETURNING entry's removal (R117). -/
def State.refillTestedAfter (s : State) : ReportContent → State
  | .returned _ => if s.returning = [] then s.testRefill else s
  | _ => s

theorem State.reportAnswered_written {s : State} {r : Regions} {w : ReportWrite}
    (write : s.reporter.write = some w) (configured : s.regions = some r) : s.reportAnswered =
      (((s.advanceProducer r.reportSize).reportWritten w.content).refillTestedAfter
        w.content).testReports := by
  obtain ⟨content, record, waiting, droppedSince⟩ := w
  rw [State.reportAnswered, write, configured]
  cases content <;> rfl

theorem State.reportWritten_only (s : State) (c : ReportContent) : s.reportWritten c = { s with
    taps := (s.reportWritten c).taps
    supply := { s.supply with table := (s.reportWritten c).supply.table }
    reporter := { s.reporter with queue := (s.reportWritten c).reporter.queue } } := by
  cases c with
  | frames u es => exact (State.foldl_entryWritten_only u es s).1
  | queued body => rfl
  | returned addrs =>
    have removed : s.reportWritten (.returned addrs) = _ := State.foldl_removeSlot addrs s
    rw [removed]

/-- Settles O40: the answers to a live and to a discarded write, and the handing of a report. -/
theorem reportWritten : Obligations.ReportWritten := by
  unfold Obligations.ReportWritten
  refine ⟨fun s r w b up oldest write configured => ?_, fun s b life up oldest dead => ?_,
    fun s body flush => s.handWith_hands body flush⟩
  · have live : s.oldestOwn .report = some .live := by rw [State.oldestOwn, oldest]; rfl
    let x := (s.answerOwn .report).advanceProducer r.reportSize
    let m := x.reportWritten w.content
    let v := m.refillTestedAfter w.content
    have advanced : x = _ :=
      State.advanceProducer_written (s := s.answerOwn .report) write configured
    have only : m = _ := x.reportWritten_only w.content
    have upkept : v.Up := by
      have kept : v.nResetLow = m.nResetLow := by
        cases content : w.content with
        | returned addrs =>
          simp only [v, content, State.refillTestedAfter]
          split
          · rw [m.testRefill_only.1]
          · rfl
        | frames u es => simp only [v, content, State.refillTestedAfter]
        | queued body => simp only [v, content, State.refillTestedAfter]
      rw [State.Up, kept, only, advanced]
      exact up
    refine ⟨m, v, v.testReports, ?_, ?_, ?_, fun body content => ?_, fun addrs content => ?_,
      fun u es content => ?_, fun other => ?_, fun addrs content last => ?_,
      exec_reportPrepare upkept, v.testReports_writes⟩
    · rw [exec_reportWriteComplete_live up live]
      exact congrArg Host.Outcome.next
        (State.reportAnswered_written (s := s.answerOwn .report) write configured)
    · rw [only, advanced]
      exact State.answerOwn_answersOldest oldest
    · rw [only, advanced]
      rfl
    · have tail : m = x.updReporter fun q => { q with queue := q.queue.tail } := by
        simp only [m, content, State.reportWritten]
      rw [tail, advanced]
      exact ⟨rfl, rfl, rfl⟩
    · have removed : m = addrs.foldl State.removeSlot x := by
        simp only [m, content, State.reportWritten]
      rw [removed, State.foldl_removeSlot, advanced]
      exact ⟨rfl, rfl, rfl⟩
    · have folded : m = es.foldl (State.entryWritten u) x := by
        simp only [m, content, State.reportWritten]
      have taps (v : TapNo) : x.tap v = s.tap v := by rw [advanced]; rfl
      have queue : x.reporter.queue = s.reporter.queue := by rw [advanced]; rfl
      have slots (a : Word) : x.slot a = s.slot a := by rw [advanced]; rfl
      have lowered {n : Nat} (some : n ≠ 0) (past : Bool) :
          s.reporter.queue.map (QueuedReport.lowerBy u n past) = s.reporter.queue.map _ :=
        List.map_congr_left fun q _ => q.lowerBy_eq u some past
      obtain ⟨-, bodies, others⟩ := State.foldl_entryWritten_only u es x
      rw [folded]
      refine ⟨fun rest some front => ?_, fun init c e rest cut front merged => ?_,
        bodies.trans (by rw [queue]), fun v other => (others v other).trans (taps v),
        fun a y entry => State.foldl_entryWritten_slot u es x ((slots a).trans entry)⟩
      · obtain ⟨tap, reports⟩ :=
          State.foldl_entryWritten_whole u (s := x) ((congrArg Tap.queue (taps u)).trans front)
        rw [taps] at tap
        rw [queue, lowered (by simpa using some)] at reports
        exact ⟨tap, reports⟩
      · subst cut
        obtain ⟨tap, reports⟩ := State.foldl_entryWritten_merged u (s := x)
          ((congrArg Tap.queue (taps u)).trans front) merged
        rw [taps] at tap
        rw [queue, lowered (by simp)] at reports
        exact ⟨tap, reports⟩
    · cases content : w.content with
      | returned addrs =>
        have some : m.returning ≠ [] := other.resolve_left fun none => none addrs content
        simp only [v, content, State.refillTestedAfter, some, if_false]
      | frames u es => simp only [v, content, State.refillTestedAfter]
      | queued body => simp only [v, content, State.refillTestedAfter]
    · have tested : v = m.testRefill := by
        simp only [v, content, State.refillTestedAfter, last, if_true]
      have refill : m.supply.refill = s.supply.refill := by rw [only, advanced]; rfl
      have placed : m.regions = some r := by rw [only, advanced]; exact configured
      obtain ⟨tests, kept⟩ := m.testRefill_only
      rw [tested]
      refine ⟨tests, fun f inFlight => ?_, fun none => ?_⟩
      · rw [kept f (refill.trans inFlight)]
        exact refill.trans inFlight
      · exact m.testRefill_tested r placed (refill.trans none)
  · have discarded : s.oldestOwn .report = some life := by rw [State.oldestOwn, oldest]; rfl
    exact ⟨_, exec_reportWriteComplete_discarded up discarded dead, s.answerOwn_only .report,
      State.answerOwn_answersOldest oldest⟩

end Sys2Proof.Machine
end

section
/-! SUPPORT. The directive unit: fetches, the end of a batch, status block writes, and the directives out
of their place (R156, R157, R161, R162, R171). -/

namespace Sys2Proof.Machine

/-! ## Status block writes (R171) -/

theorem State.testStatus_idle {s : State} (idle : ¬ (s.device ≠ .halted ∧
    s.directive.statusRequest = true ∧ s.directive.statusEnable = true ∧
    s.directive.status = none)) : s.testStatus = s :=
  if_neg idle

theorem State.testStatus_ready {s : State} (live : s.device ≠ .halted)
    (request : s.directive.statusRequest = true) (enable : s.directive.statusEnable = true)
    (free : s.directive.status = none) : s.testStatus = s.updDirective fun d =>
      { d with
        statusRequest := false
        sequence := s.directive.sequence + 1
        status := some (statusBursts (pageBase s.strap)
          (statusBytes s (s.directive.sequence + 1))) } :=
  if_pos ⟨live, request, enable, free⟩

theorem State.statusAnswered_waits {s : State}
    (waits : ¬ (s.directive.status = some [] ∧ s.ownInFlight .status .live = 0)) :
    s.statusAnswered = s :=
  if_neg waits

theorem State.statusAnswered_ends {s : State} (written : s.directive.status = some [])
    (answered : s.ownInFlight .status .live = 0) :
    s.statusAnswered = (s.updDirective fun d => { d with status := none }).testStatus :=
  if_pos ⟨written, answered⟩

/-! ## Fetches (R157) -/

/-- The batch in progress with its next fetch, or none behind a discarded one. -/
theorem State.startFetch_directive (s : State) : s.startFetch.directive = { s.directive with
    batch := .inProgress
    fetch := if s.ownInFlight .fetch .haltDiscarded = 0 then
      some [{ tag := 16
              addr := pageBase s.strap + BitVec.ofNat 32 (0x800 + 64 * s.directive.consumer.val)
              kind := .incr, len := 16, beats := [] }]
      else none } := rfl

theorem State.resumeFetch_idle {s : State}
    (idle : ¬ (s.directive.batch = .inProgress ∧ s.directive.fetch = none)) : s.resumeFetch = s :=
  if_neg idle

theorem State.resumeFetch_waits {s : State}
    (waits : s.directive.batch = .inProgress ∧ s.directive.fetch = none) :
    s.resumeFetch = s.startFetch :=
  if_pos waits

/-- A request leaves the ring's indices (R171). -/
theorem State.requestStatus_indices (s : State) :
    s.requestStatus.directive.consumer = s.directive.consumer ∧
      s.requestStatus.directive.recorded = s.directive.recorded := by
  have tested (u : State) : u.testStatus.directive.consumer = u.directive.consumer ∧
      u.testStatus.directive.recorded = u.directive.recorded := by
    simp only [State.testStatus]
    split <;> exact ⟨rfl, rfl⟩
  unfold State.requestStatus
  split
  · exact ⟨rfl, rfl⟩
  · exact tested _

theorem State.endBatch_halted {s : State} (halted : s.device = .halted) :
    s.endBatch = s.updDirective fun d => { d with batch := .idle } :=
  if_pos halted

theorem State.endBatch_live {s : State} (live : s.device ≠ .halted) :
    s.endBatch = (s.updDirective fun d =>
      { d with batch := .idle, statusEnable := true }).requestStatus :=
  if_neg live

theorem State.endBatch_indices (s : State) :
    s.endBatch.directive.consumer = s.directive.consumer ∧
      s.endBatch.directive.recorded = s.directive.recorded := by
  by_cases halted : s.device = .halted
  · rw [State.endBatch_halted halted]
    exact ⟨rfl, rfl⟩
  · rw [State.endBatch_live halted]
    exact State.requestStatus_indices _

theorem State.requestStatus_enabled {s : State} (live : s.device ≠ .halted)
    (enable : s.directive.statusEnable = true) : s.requestStatus =
      (s.updDirective fun d => { d with statusRequest := true }).testStatus :=
  if_neg (by simp [live, enable])

/-! ## Records (R160, R173) -/

theorem readDirective_eq_none (bytes : List Byte) : readDirective bytes = none ↔
    (byteAt bytes 0).toNat ∉
      [0x10, 0x11, 0x12, 0x13, 0x20, 0x21, 0x22, 0x30, 0x40, 0x41, 0x50, 0x51, 0x5A] := by
  simp only [readDirective]
  split
  case h_14 =>
    simp only [List.mem_cons, List.not_mem_nil, or_false, not_or, true_iff]
    and_intros <;> assumption
  all_goals simp [*]

/-- A record's parameters have the shape their command asks for (R167, R173). -/
theorem readDirective_wf {bytes : List Byte} {d : Directive} (read : readDirective bytes = some d) :
    d.command.wf = true := by
  simp only [readDirective] at read
  split at read
  case h_8 =>
    obtain rfl := Option.some.inj read
    simp only [Directive.command, Instr.wf, List.length_map, List.length_range, Bool.or_eq_true,
      decide_eq_true_eq]
    omega
  case h_14 => cases read
  all_goals
    obtain rfl := Option.some.inj read
    rfl

/-! ## Directives out of their place (R161, R162) -/

theorem State.runUnless_wrongState {wrong : Bool} (s : State) (kind : Byte) (bad busy : Bool)
    (executed : State) (misplaced : wrong = true) :
    s.runUnless kind (firstFailure wrong bad busy) executed = s.reject kind .wrongState [] := by
  subst misplaced
  rfl

theorem State.isHalted_of_halted {s : State} (halted : s.device = .halted) : s.isHalted = true :=
  beq_iff_eq.mpr halted

/-- A directive not executed in the present device state is rejected before any other test. -/
theorem State.runDirective_misplaced {s : State} {d : Directive} (misplaced : ¬ d.executedIn s) :
    s.runDirective d = s.reject d.code .wrongState [] := by
  have halted (h : ¬ s.device ≠ .halted) : s.isHalted = true :=
    State.isHalted_of_halted (not_not.mp h)
  cases d with
  | configure p =>
    refine State.runUnless_wrongState s _ _ _ _ ?_
    by_cases stopped : s.device = .stopped
    · by_cases refill : s.supply.refill = none
      · have write : s.reporter.write ≠ none := fun free => misplaced ⟨stopped, refill, free⟩
        simp [Option.isSome_iff_ne_none.mpr write]
      · simp [Option.isSome_iff_ne_none.mpr refill]
    · simp [stopped]
  | start =>
    refine State.runUnless_wrongState s _ _ _ _ ?_
    by_cases stopped : s.device = .stopped
    · have regions : s.regions = none := not_not.mp fun some => misplaced ⟨stopped, some⟩
      simp [regions]
    · simp [stopped]
  | forceResync =>
    refine State.runUnless_wrongState s _ _ _ _ ?_
    have idle : ¬ s.device.active = true := fun active => misplaced ((DeviceState.active_iff _).mp active)
    simp [idle]
  | clearFaults flags => exact absurd trivial misplaced
  | warmReset => exact absurd trivial misplaced
  | setTiming gap coast summary => exact State.runUnless_wrongState s _ _ _ _ (halted misplaced)
  | stop => exact State.runUnless_wrongState s _ _ _ _ (halted misplaced)
  | tapOpen tap stream policy tolerance repeatLimit floor =>
    simp only [State.runDirective, State.runTapOpen, halted misplaced]
    split
    · exact State.runUnless_wrongState s _ _ _ _ rfl
    · rfl
  | tapAdjust tap policy tolerance repeatLimit floor =>
    simp only [State.runDirective, State.runTapAdjust, halted misplaced]
    split
    · exact State.runUnless_wrongState s _ _ _ _ rfl
    · rfl
  | tapClose tap =>
    simp only [State.runDirective, State.runTapClose, halted misplaced]
    split
    · exact State.runUnless_wrongState s _ _ _ _ rfl
    · rfl
  | release count addrs => exact State.runUnless_wrongState s _ _ _ _ (halted misplaced)
  | forgetLayout => exact State.runUnless_wrongState s _ _ _ _ (halted misplaced)
  | setAlerts enable pins => exact State.runUnless_wrongState s _ _ _ _ (halted misplaced)

end Sys2Proof.Machine
end

section
/-! CLAIMS. The directive unit: index values, batches and records, WARM_RESET and the status block's
writes (R156 to R162, R170, R171, R181). -/

namespace Sys2Proof.Machine

/-- Settles O42: the recorded index, and the batch an idle unit begins. -/
theorem directiveIndexTaken : Obligations.DirectiveIndexTaken := by
  unfold Obligations.DirectiveIndexTaken
  intro s v up
  let u := s.updDirective fun d => { d with recorded := Fin.ofNat 32 v.toNat }
  have taken : s.takeDirectiveIndex v =
      if u.directive.batch = .idle ∧ u.directive.recorded ≠ u.directive.consumer then u.startFetch
      else u := rfl
  have same : u.directive.recorded = s.directive.consumer ↔
      v.toNat % 32 = s.directive.consumer.val := Fin.ext_iff
  refine ⟨_, exec_directiveIndexTaken up v, ?_⟩
  rw [taken]
  by_cases begins : s.directive.batch = .idle ∧ v.toNat % 32 ≠ s.directive.consumer.val
  · obtain ⟨idle, new⟩ := begins
    rw [if_pos ⟨idle, fun k => new (same.mp k)⟩]
    refine ⟨rfl, rfl, fun ignored => ?_, fun _ _ => ⟨rfl, fun clear => ?_, fun behind => ?_⟩⟩
    · exact ignored.elim (fun busy => by simp [idle] at busy) fun k => absurd k new
    · exact if_pos clear
    · exact if_neg behind
  · have stays : ¬ (u.directive.batch = .idle ∧ u.directive.recorded ≠ u.directive.consumer) :=
      fun ⟨idle, new⟩ => begins ⟨idle, fun k => new (same.mpr k)⟩
    rw [if_neg stays]
    exact ⟨rfl, rfl, fun _ => ⟨rfl, rfl⟩, fun idle new => absurd ⟨idle, new⟩ begins⟩

theorem State.takeDirectiveRecord_badCheck {s : State} {bytes : List Byte}
    (check : directiveCheck bytes = false) : s.takeDirectiveRecord bytes =
      (s.reject (byteAt bytes 0) .badCheck []).nextRecord :=
  if_neg (by simp [check])

theorem State.takeDirectiveRecord_unknown {s : State} {bytes : List Byte}
    (check : directiveCheck bytes = true) (read : readDirective bytes = none) :
    s.takeDirectiveRecord bytes = (s.reject (byteAt bytes 0) .unknownKind []).nextRecord := by
  rw [State.takeDirectiveRecord, if_pos check, read]

theorem State.takeDirectiveRecord_executes {s : State} {bytes : List Byte} {d : Directive}
    (check : directiveCheck bytes = true) (read : readDirective bytes = some d)
    (other : d ≠ .warmReset) : s.takeDirectiveRecord bytes = (s.runDirective d).nextRecord := by
  rw [State.takeDirectiveRecord, if_pos check, read]
  cases d with
  | warmReset => exact absurd rfl other
  | _ => rfl

theorem State.takeDirectiveRecord_warmReset {s : State} {bytes : List Byte}
    (check : directiveCheck bytes = true) (read : readDirective bytes = some .warmReset) :
    s.takeDirectiveRecord bytes = s.runWarmReset := by
  rw [State.takeDirectiveRecord, if_pos check, read]

/-- Settles O43: the two rejections, the kinds with their parameters, and the check value. -/
theorem unreadableRecordRejected : Obligations.UnreadableRecordRejected := by
  unfold Obligations.UnreadableRecordRejected
  refine ⟨fun s bytes up shape ends => ⟨fun check => ?_, fun check read => ?_⟩,
    readDirective_eq_none, fun bytes => ?_, ⟨rfl, fun bs b => ?_⟩, fun bytes => beq_iff_eq⟩
  · rw [exec_directiveFetchComplete_live up shape ends, State.takeDirectiveRecord_badCheck check]
    exact ⟨_, State.reject_rejected _ _ _ _, rfl⟩
  · rw [exec_directiveFetchComplete_live up shape ends,
      State.takeDirectiveRecord_unknown check read]
    exact ⟨_, State.reject_rejected _ _ _ _, rfl⟩
  · refine ⟨?_, ?_, ?_, ?_, ?_, ?_, ?_, fun kind => ?_, ?_, ?_, ?_, ?_, ?_⟩
    case refine_8 =>
      refine ⟨(List.range 12).map fun a => wordAt bytes (4 + 4 * a), ?_, by simp, fun i h => by simp⟩
      simp [readDirective, kind]
    all_goals
      intro kind
      simp [readDirective, kind, readConfigure]
  · rw [crc8, List.foldl_append]
    rfl

/-- Settles O44: the record that runs, and the answers to discarded fetches. -/
theorem fetchedDirectiveRuns : Obligations.FetchedDirectiveRuns := by
  unfold Obligations.FetchedDirectiveRuns
  refine ⟨fun s bytes d up shape ends check read => ⟨fun other => ?_, fun reset => ?_⟩,
    fun s bytes b life up shape oldest dead => ?_,
    fun s b life oldest => ⟨State.answerOwn_answersOldest oldest, rfl⟩⟩
  · have fits := readDirective_wf read
    rw [exec_directiveFetchComplete_live up shape ends,
      State.takeDirectiveRecord_executes check read other]
    exact ⟨_, exec_command (s := s.fetched) up d fits, rfl⟩
  · subst reset
    rw [exec_directiveFetchComplete_live up shape ends,
      State.takeDirectiveRecord_warmReset check read, exec_warmReset (s := s.fetched) up]
  · intro waits
    have fate : s.oldestOwn .fetch = some life := by rw [State.oldestOwn, oldest]; rfl
    have answers : s.link.AnswersOldest (s.answerOwn .fetch).link 16 b :=
      State.answerOwn_answersOldest oldest
    cases life with
    | live => exact absurd rfl dead
    | resetDiscarded =>
      exact ⟨_, exec_directiveFetchComplete_resetDiscarded up shape fate, rfl, answers, fun _ => rfl,
        nofun, nofun⟩
    | haltDiscarded =>
      have count := State.ownInFlight_of_oldest oldest
      have only := (s.answerOwn .fetch).resumeFetch_only
      refine ⟨_, exec_directiveFetchComplete_haltDiscarded up shape fate, ?_, ?_, fun idle => ?_,
        fun _ waiting one => ?_, fun _ waiting more => ?_⟩
      · rw [only]
        rfl
      · rw [only]
        exact answers
      · rw [State.resumeFetch_idle (s := s.answerOwn .fetch) (idle.resolve_left nofun)]
        rfl
      · obtain ⟨batch, fetch⟩ := waiting
        rw [State.resumeFetch_waits (s := s.answerOwn .fetch) ⟨batch, fetch⟩, State.startFetch_directive, if_pos (by omega)]
        refine ⟨?_, rfl⟩
        rw [← batch]
        rfl
      · obtain ⟨batch, fetch⟩ := waiting
        rw [State.resumeFetch_waits (s := s.answerOwn .fetch) ⟨batch, fetch⟩, State.startFetch_directive, if_neg (by omega)]
        rw [← batch, ← fetch]
        rfl

/-- Settles O45: the next fetch, or the end of the batch. -/
theorem nextRecordAdvances : Obligations.NextRecordAdvances := by
  unfold Obligations.NextRecordAdvances
  intro u next
  let v := u.updDirective fun d => { d with consumer := d.consumer + 1 }
  have advanced : u.nextRecord = if next = u.directive.recorded then v.endBatch else v.startFetch :=
    rfl
  have indices : u.OnlyDirective u.nextRecord ∧ u.nextRecord.directive.consumer = next ∧
      u.nextRecord.directive.recorded = u.directive.recorded := by
    refine ⟨u.nextRecord_only, ?_⟩
    rw [advanced]
    split
    · exact v.endBatch_indices
    · exact ⟨rfl, rfl⟩
  obtain ⟨only, consumer, recorded⟩ := indices
  refine ⟨only, Fin.val_add _ _, consumer, recorded, fun other clear => ?_, fun last halted => ?_,
    fun last live => ?_⟩
  · rw [advanced, if_neg other, State.startFetch_directive, if_pos (show v.ownInFlight _ _ = 0 from clear)]
    rfl
  · rw [advanced, if_pos last, State.endBatch_halted (s := v) halted]
    rfl
  · rw [advanced, if_pos last, State.endBatch_live (s := v) live]
    exact State.requestStatus_once (v.updDirective fun d =>
      { d with batch := .idle, statusEnable := true }) live

/-- Settles O46: the rejection before every other test, and the codes. -/
theorem wrongStateRejected : Obligations.WrongStateRejected := by
  unfold Obligations.WrongStateRejected
  refine ⟨fun s d up shape misplaced => ?_, fun _ => rfl, fun _ _ _ => rfl, rfl, rfl,
    fun _ _ _ _ _ _ => rfl, fun _ _ _ _ _ => rfl, fun _ => rfl, fun _ _ => rfl, rfl, rfl,
    fun _ => rfl, fun _ _ => rfl, rfl⟩
  rw [exec_command up d shape, State.runDirective_misplaced misplaced]
  exact ⟨_, rfl, s.reject_rejected _ _ _⟩

/-- Settles O57: the reset values, what is kept, and the status block write that starts. -/
theorem warmResetTaken : Obligations.WarmResetTaken := by
  unfold Obligations.WarmResetTaken
  intro s up c
  let w := s.warmValues
  have enabled : s.runWarmReset =
      (w.updDirective fun d => { d with statusRequest := true }).testStatus :=
    State.requestStatus_enabled (s := w) nofun rfl
  rw [State.testStatus_ready (s := w.updDirective fun d => { d with statusRequest := true })
    nofun rfl rfl rfl] at enabled
  refine ⟨s.runWarmReset, statusBursts (pageBase s.strap) (statusBytes w 1), exec_warmReset up, ?_⟩
  rw [enabled]
  refine ⟨rfl, rfl, rfl, rfl, rfl, rfl, rfl, rfl, rfl, rfl, rfl, statusBursts_writes _ _, ?_⟩
  have issued : Issued.resetDiscard = fun i => match i with
      | .piece p => .piece { p with redirect := none }
      | .own b _ => .own b .resetDiscarded := by
    funext i
    cases i <;> rfl
  exact congrArg (fun f => ({ s.link with
    queue := s.link.queue.map Piece.forgetSlot
    lastGrant := .own
    inFlight := s.link.inFlight.map f } : Link)) issued

/-- Settles O59: the start, the answers to a live write, and the answer to a discarded one. -/
theorem statusWriteStartsAndCompletes : Obligations.StatusWriteStartsAndCompletes := by
  unfold Obligations.StatusWriteStartsAndCompletes
  refine ⟨fun s up => ⟨fun idle => ?_, fun holds => ?_⟩, fun s b up oldest => ?_,
    fun s b life up oldest dead => ?_⟩
  · rw [exec_statusBlockWriteStart up, State.testStatus_idle idle]
  · obtain ⟨live, request, enable, free⟩ := holds
    rw [exec_statusBlockWriteStart up, State.testStatus_ready live request enable free]
    exact ⟨_, _, rfl, rfl, rfl, statusBursts_writes _ _⟩
  · intro last again
    have fate : s.oldestOwn .status = some .live := by rw [State.oldestOwn, oldest]; rfl
    have answers : s.link.AnswersOldest (s.answerOwn .status).link 19 b :=
      State.answerOwn_answersOldest oldest
    have count := State.ownInFlight_of_oldest oldest
    have command := exec_statusBlockWriteComplete_live up fate
    by_cases ends : last
    · obtain ⟨written, one⟩ := ends
      rw [State.statusAnswered_ends (s := s.answerOwn .status) written (by omega)] at command
      let v := (s.answerOwn .status).updDirective fun d => { d with status := none }
      by_cases goes : again
      · obtain ⟨live, request, enable⟩ := goes
        rw [State.testStatus_ready (s := v) live request enable rfl] at command
        exact ⟨_, command, rfl, answers, fun more => absurd ⟨written, one⟩ more,
          fun _ stop => absurd ⟨live, request, enable⟩ stop,
          fun _ _ => ⟨_, statusBursts_writes _ _, rfl⟩⟩
      · rw [State.testStatus_idle (s := v) fun ⟨live, request, enable, _⟩ =>
          goes ⟨live, request, enable⟩] at command
        exact ⟨_, command, rfl, answers, fun more => absurd ⟨written, one⟩ more, fun _ _ => rfl,
          fun _ k => absurd k goes⟩
    · rw [State.statusAnswered_waits (s := s.answerOwn .status) fun ⟨written, zero⟩ =>
        ends ⟨written, by omega⟩] at command
      exact ⟨_, command, rfl, answers, fun _ => rfl, fun k => absurd k ends, fun k => absurd k ends⟩
  · have fate : s.oldestOwn .status = some life := by rw [State.oldestOwn, oldest]; rfl
    exact ⟨_, exec_statusBlockWriteComplete_discarded up fate dead, s.answerOwn_only .status,
      State.answerOwn_answersOldest oldest⟩

end Sys2Proof.Machine
end

section
/-! SUPPORT. The parameters that bytes name (R82, R166), one address of a RELEASE (R118), and the fields
of the status block (R174). -/

namespace Sys2Proof.Machine

/-! ## Taps, streams and parameters named by bytes (R82, R166) -/

theorem tapOf_eq_some {b : Byte} {u : TapNo} : tapOf b = some u ↔ u.val = b.toNat := by
  unfold tapOf
  split
  · simp [Fin.ext_iff, eq_comm]
  · have := u.isLt
    simp
    omega

theorem tapOf_eq_none {b : Byte} : tapOf b = none ↔ 7 < b.toNat := by
  unfold tapOf
  split <;> simp <;> omega

theorem streamOf_eq_some {b : Byte} {i : StreamId} : streamOf b = some i ↔ i.val = b.toNat := by
  unfold streamOf
  split
  · simp [Fin.ext_iff, eq_comm]
  · have := i.isLt
    simp
    omega

theorem policyOf_eq_some {b : Byte} {p : Policy} : policyOf b = some p ↔ p.code = b.toNat := by
  have byte (n : Nat) (h : n < 256) : b = BitVec.ofNat 8 n ↔ n = b.toNat := by
    rw [← BitVec.toNat_inj, BitVec.toNat_ofNat, Nat.mod_eq_of_lt h, eq_comm]
  have zero : b = 0 ↔ 0 = b.toNat := byte 0 (by decide)
  have one : b = 1 ↔ 1 = b.toNat := byte 1 (by decide)
  have two : b = 2 ↔ 2 = b.toNat := byte 2 (by decide)
  unfold policyOf
  simp only [zero, one, two]
  cases p <;> simp only [Policy.code] <;> split_ifs <;> simp <;> omega

/-- Four bytes in their ranges spell tap parameters. -/
theorem paramsOf_spells {policy tolerance repeatLimit floor : Byte} {p : TapParams}
    (read : paramsOf policy tolerance repeatLimit floor = some p) :
    p.Spells policy tolerance repeatLimit floor := by
  unfold paramsOf at read
  split at read
  · rename_i named
    split at read
    · obtain rfl := Option.some.inj read
      exact ⟨policyOf_eq_some.mp named, rfl, rfl, rfl⟩
    · cases read
  · cases read

theorem paramsOf_isSome {policy tolerance repeatLimit floor : Byte} :
    (paramsOf policy tolerance repeatLimit floor).isSome = true ↔
      ParamsInRange policy tolerance repeatLimit floor := by
  have named : (policyOf policy).isSome = true ↔ policy.toNat ≤ 2 := by
    rw [Option.isSome_iff_exists]
    simp only [policyOf_eq_some]
    constructor
    · rintro ⟨p, code⟩
      cases p <;> simp only [Policy.code] at code <;> omega
    · intro low
      interval_cases policy.toNat
      · exact ⟨.pass, rfl⟩
      · exact ⟨.repeating, rfl⟩
      · exact ⟨.silent, rfl⟩
  unfold paramsOf ParamsInRange
  rw [← named]
  cases policyOf policy with
  | none => simp
  | some p => simp [apply_ite Option.isSome]

/-- A tap names a stream as the bytes say it (R82). -/
theorem Tap.namesStream_iff (tp : Tap) {i : StreamId} {stream : Byte} (same : i.val = stream.toNat) :
    tp.namesStream i = true ↔ tp.NamesByte stream := by
  have stands : tp.stream = some i ↔ tp.stream.map (·.val) = some stream.toNat := by
    cases tp.stream <;> simp [← same, Fin.ext_iff]
  have pends : tp.pendingOpen.any (fun o => o.1 == i) = true ↔
      tp.pendingOpen.map (·.1.val) = some stream.toNat := by
    cases tp.pendingOpen <;> simp [← same, Fin.ext_iff]
  simp only [Tap.namesStream, Tap.NamesByte, Bool.or_eq_true, Bool.and_eq_true, bne_iff_ne, beq_iff_eq,
    stands, pends]

theorem mem_allTaps (u : TapNo) : u ∈ allTaps := by
  rw [(allTaps_split u).1]
  simp

theorem State.streamTaken_iff (s : State) {t : TapNo} {i : StreamId} {tap stream : Byte}
    (named : t.val = tap.toNat) (same : i.val = stream.toNat) : s.streamTaken t i = true ↔
      ∃ v : TapNo, v.val ≠ tap.toNat ∧ (s.tap v).NamesByte stream := by
  simp only [State.streamTaken, List.any_eq_true, Bool.and_eq_true, bne_iff_ne, ne_eq, ← named,
    Fin.val_inj, Tap.namesStream_iff _ same, mem_allTaps, true_and]

/-- A TAP_OPEN that passes the tests of its parameters (R82). -/
theorem State.readOpen_eq_some {s : State} {tap stream policy tolerance repeatLimit floor : Byte}
    {u : TapNo} (tapGood : u.val = tap.toNat) (streamGood : stream.toNat ≤ 47)
    (params : ParamsInRange policy tolerance repeatLimit floor)
    (free : ∀ v : TapNo, v.val ≠ tap.toNat → ¬ (s.tap v).NamesByte stream) :
    ∃ i p, i.val = stream.toNat ∧ p.Spells policy tolerance repeatLimit floor ∧
      s.readOpen tap stream policy tolerance repeatLimit floor = some (u, i, p) := by
  obtain ⟨p, read⟩ := Option.isSome_iff_exists.mp (paramsOf_isSome.mpr params)
  let i : StreamId := ⟨stream.toNat, Nat.lt_succ_of_le streamGood⟩
  have same : i.val = stream.toNat := rfl
  have untaken : s.streamTaken u i = false := by
    rw [Bool.eq_false_iff]
    intro taken
    obtain ⟨v, other, names⟩ := (s.streamTaken_iff tapGood same).mp taken
    exact free v other names
  refine ⟨i, p, same, paramsOf_spells read, ?_⟩
  rw [State.readOpen, tapOf_eq_some.mpr tapGood, streamOf_eq_some.mpr same, read]
  simp [untaken]

theorem State.readOpen_eq_none {s : State} {tap stream policy tolerance repeatLimit floor : Byte}
    (bad : ¬ (tap.toNat ≤ 7 ∧ stream.toNat ≤ 47 ∧
      ParamsInRange policy tolerance repeatLimit floor ∧
      ∀ v : TapNo, v.val ≠ tap.toNat → ¬ (s.tap v).NamesByte stream)) :
    s.readOpen tap stream policy tolerance repeatLimit floor = none := by
  unfold State.readOpen
  split
  · rename_i u i p tapGood streamGood params
    have named := tapOf_eq_some.mp tapGood
    have same := streamOf_eq_some.mp streamGood
    refine if_pos ((s.streamTaken_iff named same).mpr ?_)
    by_contra free
    push Not at free
    refine bad ⟨?_, ?_, paramsOf_isSome.mp (by rw [params]; rfl), free⟩
    · have := u.isLt
      omega
    · have := i.isLt
      omega
  · rfl

theorem readAdjust_eq_some {tap policy tolerance repeatLimit floor : Byte} {u : TapNo}
    (tapGood : u.val = tap.toNat) (params : ParamsInRange policy tolerance repeatLimit floor) :
    ∃ p, p.Spells policy tolerance repeatLimit floor ∧
      readAdjust tap policy tolerance repeatLimit floor = some (u, p) := by
  obtain ⟨p, read⟩ := Option.isSome_iff_exists.mp (paramsOf_isSome.mpr params)
  refine ⟨p, paramsOf_spells read, ?_⟩
  rw [readAdjust, tapOf_eq_some.mpr tapGood, read]

theorem readAdjust_eq_none {tap policy tolerance repeatLimit floor : Byte}
    (bad : ¬ (tap.toNat ≤ 7 ∧ ParamsInRange policy tolerance repeatLimit floor)) :
    readAdjust tap policy tolerance repeatLimit floor = none := by
  unfold readAdjust
  split
  · rename_i u p tapGood params
    have := tapOf_eq_some.mp tapGood
    have := u.isLt
    exact absurd ⟨by omega, paramsOf_isSome.mp (by rw [params]; rfl)⟩ bad
  · rfl

theorem State.runUnless_tapBusy {wrong bad busy : Bool} (s : State) (kind : Byte) (executed : State)
    (placed : wrong = false) (inRange : bad = false) (taken : busy = true) :
    s.RejectedAs (s.runUnless kind (firstFailure wrong bad busy) executed) kind .tapBusy [] := by
  subst placed inRange taken
  exact s.reject_rejected kind .tapBusy []

theorem State.runUnless_free {wrong bad busy : Bool} (s : State) (kind : Byte) (executed : State)
    (placed : wrong = false) (inRange : bad = false) (free : busy = false) :
    s.runUnless kind (firstFailure wrong bad busy) executed = executed := by
  subst placed inRange free
  rfl

/-! ## One address of a RELEASE (R118) -/

theorem State.slot_removeSlot (s : State) (a b : Word) :
    (s.removeSlot a).slot b = if b = a then none else s.slot b := by
  unfold State.slot
  rw [(s.removeSlot_supply a).2.2.2.2, List.find?_filter]
  split
  · rename_i same
    subst same
    rw [List.find?_eq_none]
    intro e _
    by_cases here : e.addr = b <;> simp [here]
  · rename_i other
    congr 1
    funext e
    by_cases here : e.addr = b
    · simp [here, other]
    · simp [here]

theorem State.slot_updSlot_same {s : State} {a : Word} {e : SlotEntry}
    {f : SlotEntry → SlotEntry} (entry : s.slot a = some e) (keeps : ∀ e, (f e).addr = e.addr) :
    (s.updSlot a f).slot a = some (f e) := by
  rw [s.slot_updSlot a a f keeps, if_pos rfl, entry]
  rfl

theorem State.slot_updSlot_other {s : State} {a b : Word} {f : SlotEntry → SlotEntry}
    (other : b ≠ a) (keeps : ∀ e, (f e).addr = e.addr) : (s.updSlot a f).slot b = s.slot b := by
  rw [s.slot_updSlot a b f keeps, if_neg other]

section
variable {s : State} {a : Word} {e : SlotEntry}

theorem State.releaseOne_claimed (entry : s.slot a = some e) (posted : e.state = .posted)
    (more : 2 ≤ e.posted) :
    s.releaseOne a = (s.updSlot a fun e => { e with posted := e.posted - 1 }, true) := by
  rw [State.releaseOne, entry]
  exact if_pos ⟨posted, more⟩

theorem State.releaseOne_last (entry : s.slot a = some e) (posted : e.state = .posted)
    (last : e.posted = 1) : s.releaseOne a =
      if e.retained ∨ s.namedInQueues a = true then
        (s.updSlot a fun e => { e with posted := 0 }, true)
      else (s.removeSlot a, true) := by
  rw [State.releaseOne, entry]
  exact (if_neg (by omega)).trans (if_pos ⟨posted, last⟩)

theorem State.releaseOne_rejected
    (unposted : ∀ e, s.slot a = some e → e.state ≠ .posted ∨ e.posted = 0) :
    s.releaseOne a = (s, false) := by
  unfold State.releaseOne
  split
  · rename_i e entry
    have idle := unposted e entry
    rw [if_neg, if_neg]
    · rintro ⟨posted, one⟩
      exact idle.elim (· posted) (by omega)
    · rintro ⟨posted, more⟩
      exact idle.elim (· posted) (by omega)
  · rfl

end

theorem State.releaseOne_only (s : State) (a : Word) : (s.releaseOne a).1 =
    { s with supply := { s.supply with table := (s.releaseOne a).1.supply.table } } := by
  unfold State.releaseOne
  repeat' split
  all_goals rfl

theorem State.releaseAll_only (l : List Word) (s : State) : (s.releaseAll l).1 =
    { s with supply := { s.supply with table := (s.releaseAll l).1.supply.table } } := by
  induction l generalizing s with
  | nil => rfl
  | cons a l ih =>
    have step : (s.releaseAll (a :: l)).1 = ((s.releaseOne a).1.releaseAll l).1 := rfl
    rw [step]
    have rest := ih (s.releaseOne a).1
    generalize ((s.releaseOne a).1.releaseAll l).1 = t at rest
    rw [rest, s.releaseOne_only a]

theorem State.namedInQueues_iff (s : State) (a : Word) :
    s.namedInQueues a = true ↔ ∃ u q, q ∈ (s.tap u).queue ∧ q.slot = some a := by
  rw [← not_iff_not, Bool.not_eq_true, State.namedInQueues_false]
  simp

theorem State.releaseList_taken {s : State} {addrs : List Word}
    (taken : (s.releaseAll addrs).2 = []) : s.releaseList addrs = (s.releaseAll addrs).1 :=
  if_pos taken

theorem State.releaseList_rejected {s : State} {addrs : List Word}
    (some : (s.releaseAll addrs).2 ≠ []) : s.releaseList addrs =
      (s.releaseAll addrs).1.reject 0x30 .unknownSlot (s.releaseAll addrs).2 :=
  if_neg some

/-- A RELEASE of a count of 1 to 12 that its list holds runs (R161, R167). -/
theorem exec_release_runs {s : State} (up : s.Up) (live : s.device ≠ .halted) {count : Byte}
    {addrs : List Word} (low : 1 ≤ count.toNat) (high : count.toNat ≤ 12)
    (held : count.toNat ≤ addrs.length) :
    exec (.release count addrs) s = .next (s.releaseList (addrs.take count.toNat)) := by
  have inRange : (decide (count.toNat < 1) || decide (12 < count.toNat)) = false := by
    simp
    omega
  rw [exec_release up, if_neg (by omega), State.runRelease,
    s.runUnless_executed 0x30 _ (State.isHalted_of_live live) inRange]

end Sys2Proof.Machine
end

section
/-! CLAIMS. TAP_OPEN, TAP_ADJUST and RELEASE (R82, R83, R118, R161, R166, R167). -/

namespace Sys2Proof.Machine

theorem State.rejectedAs_badParameter {s : State} (live : s.device ≠ .halted) (kind : Byte) :
    s.RejectedAs (s.reject kind (if s.isHalted then .wrongState else .badParameter) []) kind
      .badParameter [] := by
  rw [State.isHalted_of_live live]
  exact s.reject_rejected kind .badParameter []

/-- Settles O50: the parameters' tests, the busy tap, and the pending open. -/
theorem tapOpenTaken : Obligations.TapOpenTaken := by
  unfold Obligations.TapOpenTaken
  intro s tap stream policy tolerance repeatLimit floor up live good
  have awake := State.isHalted_of_live live
  refine ⟨fun bad => ⟨_, exec_tapOpen up _ _ _ _ _ _, ?_⟩, fun inRange u named => ?_⟩
  · rw [State.runTapOpen, State.readOpen_eq_none bad]
    exact State.rejectedAs_badParameter live 0x20
  · obtain ⟨-, streamGood, params, free⟩ := inRange
    obtain ⟨i, p, same, spells, read⟩ := State.readOpen_eq_some named streamGood params free
    have run : s.runTapOpen tap stream policy tolerance repeatLimit floor =
        s.runUnless 0x20 (firstFailure s.isHalted false (s.tap u).busyForOpen) (s.openTap u i p) := by
      rw [State.runTapOpen, read]
    refine ⟨fun busy => ⟨_, exec_tapOpen up _ _ _ _ _ _, ?_⟩, fun closed idle =>
      ⟨i, p, same, spells, ?_⟩⟩
    · have taken : (s.tap u).busyForOpen = true := by
        simpa [Tap.busyForOpen, Option.isSome_iff_ne_none] using busy
      rw [run]
      exact s.runUnless_tapBusy 0x20 _ awake rfl taken
    · have free : (s.tap u).busyForOpen = false := by simp [Tap.busyForOpen, closed, idle]
      rw [exec_tapOpen up, run, s.runUnless_free 0x20 _ awake rfl free]
      rfl

/-- Settles O51: the parameters' tests, the busy tap, and where the parameters go. -/
theorem tapAdjustTaken : Obligations.TapAdjustTaken := by
  unfold Obligations.TapAdjustTaken
  intro s tap policy tolerance repeatLimit floor up live good
  have awake := State.isHalted_of_live live
  refine ⟨fun bad => ⟨_, exec_tapAdjust up _ _ _ _ _, ?_⟩, fun inRange u named => ?_⟩
  · rw [State.runTapAdjust, readAdjust_eq_none bad]
    exact State.rejectedAs_badParameter live 0x21
  · obtain ⟨p, spells, read⟩ := readAdjust_eq_some named inRange.2
    have run : s.runTapAdjust tap policy tolerance repeatLimit floor =
        s.runUnless 0x21 (firstFailure s.isHalted false (s.tap u).busyForAdjust)
          (s.adjustTap u p) := by
      rw [State.runTapAdjust, read]
    have runs (free : (s.tap u).busyForAdjust = false) :
        exec (.tapAdjust tap policy tolerance repeatLimit floor) s = .next (s.adjustTap u p) := by
      rw [exec_tapAdjust up, run, s.runUnless_free 0x21 _ awake rfl free]
    refine ⟨fun closed idle => ⟨_, exec_tapAdjust up _ _ _ _ _, ?_⟩, fun i q pending =>
      ⟨p, spells, ?_⟩, fun opened idle => ⟨p, spells, ?_⟩⟩
    · have taken : (s.tap u).busyForAdjust = true := by simp [Tap.busyForAdjust, closed, idle]
      rw [run]
      exact s.runUnless_tapBusy 0x21 _ awake rfl taken
    · rw [runs (by simp [Tap.busyForAdjust, pending]), State.adjustTap, State.updTap, Tap.adjust,
        pending]
    · have adjusted : (s.tap u).adjust p = { s.tap u with pendingAdjust := some p } := by
        unfold Tap.adjust
        split
        · rename_i pending
          exact absurd (idle.symm.trans pending) nofun
        · rfl
      rw [runs (by simp [Tap.busyForAdjust, opened]), State.adjustTap, State.updTap, adjusted]

/-- Settles O53: the count's range, the order of the addresses, and the table for one of them. -/
theorem releaseTaken : Obligations.ReleaseTaken := by
  unfold Obligations.ReleaseTaken
  refine ⟨fun s count addrs up live => ⟨fun bad => ?_, fun low high held => ?_⟩,
    fun s a rest => ⟨rfl, rfl, ?_⟩, fun s a rest up live => ?_⟩
  · have outOfRange : (decide (count.toNat < 1) || decide (12 < count.toNat)) = true := by
      simpa using bad
    refine ⟨_, (exec_release up count addrs).trans (if_neg (by omega)), ?_⟩
    exact s.runUnless_badParameter 0x30 false _ (State.isHalted_of_live live) outOfRange
  · have runs := exec_release_runs up live low high held
    refine ⟨_, _, rfl, State.releaseAll_only _ s, fun none => ?_, fun some => ⟨_, runs, ?_⟩⟩
    · rw [runs, State.releaseList_taken none]
    · rw [State.releaseList_rejected some]
      exact State.reject_rejected _ _ _ _
  · have step : (s.releaseAll (a :: rest)).2 = if (s.releaseOne a).2 then
        ((s.releaseOne a).1.releaseAll rest).2
      else a :: ((s.releaseOne a).1.releaseAll rest).2 := rfl
    rw [step]
    split <;> rfl
  · intro named
    have runs := exec_release_runs (addrs := a :: rest) up live (count := 1) (by decide) (by decide)
      (Nat.succ_le_succ (Nat.zero_le _))
    have one : (a :: rest).take (1 : Byte).toNat = [a] := rfl
    rw [one] at runs
    refine ⟨fun e entry posted some => ?_, fun unposted => ⟨_, runs, ?_⟩⟩
    · have taken (u : State) (step : s.releaseOne a = (u, true)) : s.releaseList [a] = u := by
        have all : s.releaseAll [a] = (u, []) := by
          rw [State.releaseAll, step]
          rfl
        rw [State.releaseList_taken (by rw [all]), all]
      by_cases more : 2 ≤ e.posted
      · rw [taken _ (State.releaseOne_claimed entry posted more)] at runs
        refine ⟨_, runs, rfl, fun b other => ?_, fun _ => ?_, by omega, by omega⟩
        · exact State.slot_updSlot_other other fun _ => rfl
        · exact State.slot_updSlot_same entry fun _ => rfl
      · have last : e.posted = 1 := by omega
        have step := State.releaseOne_last entry posted last
        by_cases kept : e.retained = true ∨ s.namedInQueues a = true
        · rw [if_pos kept] at step
          rw [taken _ step] at runs
          refine ⟨_, runs, rfl, fun b other => ?_, by omega, fun _ free unnamed => ?_, fun _ _ => ?_⟩
          · exact State.slot_updSlot_other other fun _ => rfl
          · exact absurd ((s.namedInQueues_iff a).mp (kept.resolve_left (by simp [free]))) unnamed
          · exact State.slot_updSlot_same entry fun _ => rfl
        · rw [if_neg kept] at step
          rw [taken _ step] at runs
          refine ⟨_, runs, rfl, fun b other => ?_, by omega, fun _ _ _ => ?_, fun _ held => ?_⟩
          · rw [s.slot_removeSlot, if_neg other]
          · rw [s.slot_removeSlot, if_pos rfl]
          · exact absurd (held.imp_right (s.namedInQueues_iff a).mpr) kept
    · have rejected : s.releaseAll [a] = (s, [a]) := by
        rw [State.releaseAll, State.releaseOne_rejected unposted]
        rfl
      rw [State.releaseList_rejected (by rw [rejected]; nofun), rejected]
      exact State.reject_rejected _ _ _ _

end Sys2Proof.Machine
end

section
/-! CLAIMS. The status block's fields (R61, R149, R172 to R174). -/

namespace Sys2Proof.Machine

/-! ## Fields spelled by bytes -/

/-- Four bytes that spell a word read back, wherever they stand. -/
theorem wordAt_spelled {bs : List Byte} {i : Nat} {w : Word} (b0 : byteAt bs i = w.extractLsb' 0 8)
    (b1 : byteAt bs (i + 1) = w.extractLsb' 8 8) (b2 : byteAt bs (i + 2) = w.extractLsb' 16 8)
    (b3 : byteAt bs (i + 3) = w.extractLsb' 24 8) : wordAt bs i = w := by
  rw [wordAt, halfAt, halfAt, b0, b1, b2, b3]
  exact wordAt_wordBytes w []

theorem padTo_eq {n : Nat} {bs : List Byte} (fits : bs.length ≤ n) :
    padTo n bs = bs ++ List.replicate (n - bs.length) 0 :=
  List.take_of_length_le (by simp; omega)

/-- The entry at a place of a string built entry by entry. -/
theorem flatMap_entry {α : Type} {f : α → List Byte} {w : Nat} (sized : ∀ x, (f x).length = w)
    (tail : List Byte) : ∀ {l : List α} {i : Nat} (inside : i < l.length),
    ((l.flatMap f ++ tail).drop (w * i)).take w = f l[i]
  | x :: l, 0, _ => by
    rw [List.flatMap_cons, Nat.mul_zero, List.drop_zero, List.append_assoc, ← sized x,
      List.take_left]
    rfl
  | x :: l, i + 1, inside => by
    have later : w * (i + 1) = (f x).length + w * i := by rw [sized, Nat.mul_succ, Nat.add_comm]
    rw [List.flatMap_cons, later, List.append_assoc, List.drop_append]
    simp only [List.drop_of_length_le (Nat.le_add_right _ _), Nat.add_sub_cancel_left,
      List.nil_append]
    exact flatMap_entry sized tail (Nat.lt_of_succ_lt_succ inside)

/-! ## One tap's record (R174) -/

theorem bitByte_bits : ∀ a b c : Bool,
    (bitByte a 0 ||| bitByte b 1 ||| bitByte c 2).getLsbD 0 = a ∧
    (bitByte a 0 ||| bitByte b 1 ||| bitByte c 2).getLsbD 1 = b ∧
    (bitByte a 0 ||| bitByte b 1 ||| bitByte c 2).getLsbD 2 = c := by
  decide

/-- A bit vector written as two bytes reads back as its low 16 bits. -/
theorem halfAt_number {w : Nat} {bs : List Byte} {i : Nat} {c : BitVec w}
    (low : byteAt bs i = (BitVec.ofNat 16 c.toNat).extractLsb' 0 8)
    (high : byteAt bs (i + 1) = (BitVec.ofNat 16 c.toNat).extractLsb' 8 8) :
    halfAt bs i = c.setWidth 16 :=
  (halfAt_spelled low high).trans (by simp)

/-- The counters of a tap record (R174). -/
theorem tapBytes_counters (tp : Tap) :
    let x := tapBytes tp
    let n := tp.counters
    halfAt x 8 = n.clean.setWidth 16 ∧ halfAt x 10 = n.partly.setWidth 16 ∧
    halfAt x 12 = n.repeated.setWidth 16 ∧ halfAt x 14 = n.silent.setWidth 16 ∧
    halfAt x 16 = n.starved.setWidth 16 ∧ halfAt x 18 = n.abandoned.setWidth 16 ∧
    halfAt x 20 = n.discarded.setWidth 16 := by
  simp only [tapBytes]
  cases tp.inst <;> exact ⟨halfAt_number rfl rfl, halfAt_number rfl rfl, halfAt_number rfl rfl,
    halfAt_number rfl rfl, halfAt_number rfl rfl, halfAt_number rfl rfl, halfAt_number rfl rfl⟩

/-- The fields of a tap record that no instance moves (R174). -/
theorem tapBytes_fixed (tp : Tap) :
    let x := tapBytes tp
    byteAt x 0 = byteOf tp.state.code ∧ byteAt x 1 = streamByte tp.stream ∧
    halfAt x 4 = BitVec.ofNat 16 tp.recovery ∧ byteAt x 6 = BitVec.ofNat 8 tp.queue.length ∧
    byteAt x 7 = BitVec.ofNat 8 tp.settling.length ∧
    byteAt x 23 = bitByte tp.pendingOpen.isSome 0 ||| bitByte tp.pendingAdjust.isSome 1 |||
      bitByte (tp.inst.any (·.restart)) 2 := by
  simp only [tapBytes]
  cases tp.inst <;> exact ⟨rfl, rfl, halfAt_spelled rfl rfl, rfl, rfl, rfl⟩

theorem tapBytes_start (tp : Tap) : halfAt (tapBytes tp) 2 =
    (match tp.inst with | some i => i.start.setWidth 16 | none => 0xFFFF) := by
  simp only [tapBytes]
  cases tp.inst with
  | none =>
    change ((0xFF : Byte) ++ (0xFF : Byte) : BitVec 16) = 0xFFFF
    decide
  | some i => exact halfAt_number rfl rfl

theorem tapBytes_depth (tp : Tap) : byteAt (tapBytes tp) 22 =
    (match tp.inst with | some i => BitVec.ofNat 8 i.depth.frames | none => 0) := by
  simp only [tapBytes]
  cases tp.inst <;> rfl

theorem streamByte_eq (stream : Option StreamId) : streamByte stream =
    (match stream with | some i => BitVec.ofNat 8 i.val | none => 0xFF) := by
  cases stream <;> rfl

/-! ## The block (R174) -/

/-- The block's bytes before those of the taps. -/
def statusHead (s : State) (sequence : BitVec 8) : List Byte :=
  let r := s.reception
  let l := s.layout
  [byteOf s.device.code, s.reporter.flags, byteOf s.directive.consumer.val,
    byteOf s.reporter.producer] ++ half s.supply.consumer ++ frameBytes r.current ++
  [sequence, byteOf r.gapLimit, byteOf r.coastLimit, byteOf s.reporter.interval,
    byteOf r.mode.code, byteOf r.coast, 0, 0] ++
  [r.received, r.lost, r.synthesized, r.stray, r.late].flatMap wordBytes ++
  [byteOf l.cur.state.code, versionByte l.cur.version, byteOf (collectedCount l.cur.entries),
    byteOf l.pend.state.code, versionByte l.pend.version, 0] ++
  frameBytes l.pend.switchFrame ++
  [l.badCheck, l.outOfRange, l.conflict].flatMap wordBytes

section
variable (s : State) (q : BitVec 8)

theorem length_statusHead : (statusHead s q).length = 56 := rfl

theorem statusBytes_eq : statusBytes s q =
    statusHead s q ++ (s.taps.toList.flatMap tapBytes ++ (List.replicate 7 0 ++ [q])) := by
  have taps : (s.taps.toList.flatMap tapBytes).length = 192 := by
    rw [length_flatMap_sized length_tapBytes, Vector.length_toList]
  have padded : statusBytes s q =
      padTo 255 (statusHead s q ++ s.taps.toList.flatMap tapBytes) ++ [q] := rfl
  have length : (statusHead s q ++ s.taps.toList.flatMap tapBytes).length = 248 := by
    rw [List.length_append, length_statusHead, taps]
  rw [padded, padTo_eq (by omega), length, List.append_assoc, List.append_assoc]

theorem statusBytes_head {i : Nat} (low : i < 56) :
    byteAt (statusBytes s q) i = byteAt (statusHead s q) i := by
  rw [statusBytes_eq, byteAt_append_left low]

/-- The bytes behind the taps: seven zeros and the sequence number again. -/
theorem statusBytes_tail (i : Nat) : byteAt (statusBytes s q) (248 + i) =
    byteAt (List.replicate 7 0 ++ [q]) i := by
  have taps : (s.taps.toList.flatMap tapBytes).length = 192 := by
    rw [length_flatMap_sized length_tapBytes, Vector.length_toList]
  rw [statusBytes_eq, show 248 + i = (statusHead s q).length + (192 + i) by
    rw [length_statusHead]; omega, byteAt_append_right, ← taps, byteAt_append_right]

theorem statusBytes_tap (u : TapNo) :
    ((statusBytes s q).drop (56 + 24 * u.val)).take 24 = tapBytes (s.tap u) := by
  have place : u.val < s.taps.toList.length := by
    rw [Vector.length_toList]
    exact u.isLt
  rw [statusBytes_eq, ← length_statusHead s q, List.drop_append]
  simp only [List.drop_of_length_le (Nat.le_add_right _ _), Nat.add_sub_cancel_left, List.nil_append]
  rw [flatMap_entry length_tapBytes _ place]
  rfl

end

theorem versionByte_eq (v : Option (Fin 16)) : versionByte v =
    (match v with | some v => BitVec.ofNat 8 v.val | none => 0xFF) := by
  cases v <;> rfl

/-- The collected entries counted place by place (R61). -/
theorem collectedCount_eq (m : MapEntries) : collectedCount m =
    ((List.finRange 48).filter (fun i => match m[i] with
      | some e => e.collected
      | none => false)).length := by
  unfold collectedCount
  congr 1
  refine List.filter_congr fun i _ => ?_
  change (m[i]).any (·.collected) = _
  cases m[i] <;> rfl

/-- Settles O60: the fields before the taps, the taps, the tail, and the fields of a tap. -/
theorem statusBlockLayout : Obligations.StatusBlockLayout := by
  unfold Obligations.StatusBlockLayout
  refine ⟨fun s q => ?_, fun r => ⟨rfl, rfl, rfl, rfl, rfl, rfl, rfl, rfl, fun _ => rfl⟩,
    collectedCount_eq⟩
  intro b r l
  have head {i : Nat} (low : i < 56) : byteAt b i = byteAt (statusHead s q) i :=
    statusBytes_head s q low
  have device {d : DeviceState} (shown : s.device = d) : byteAt b 0 = byteOf d.code := by
    rw [head (by decide), ← shown]
    rfl
  have word {i : Nat} {w : Word} (low : i + 3 < 56)
      (b0 : byteAt (statusHead s q) i = w.extractLsb' 0 8)
      (b1 : byteAt (statusHead s q) (i + 1) = w.extractLsb' 8 8)
      (b2 : byteAt (statusHead s q) (i + 2) = w.extractLsb' 16 8)
      (b3 : byteAt (statusHead s q) (i + 3) = w.extractLsb' 24 8) : wordAt b i = w := by
    apply wordAt_spelled <;> rw [head (by omega)] <;> assumption
  refine ⟨length_statusBytes s q, head (by decide), device, device, device, device,
    head (by decide), head (by decide), halfAt_spelled (head (by decide)) (head (by decide)),
    halfAt_number (head (by decide)) (head (by decide)), head (by decide), head (by decide),
    head (by decide), head (by decide), ?_, head (by decide), head (by decide), head (by decide),
    word (by decide) rfl rfl rfl rfl, word (by decide) rfl rfl rfl rfl,
    word (by decide) rfl rfl rfl rfl, word (by decide) rfl rfl rfl rfl,
    word (by decide) rfl rfl rfl rfl, ?_, ?_, head (by decide), ?_, ?_, head (by decide),
    halfAt_number (head (by decide)) (head (by decide)), word (by decide) rfl rfl rfl rfl,
    word (by decide) rfl rfl rfl rfl, word (by decide) rfl rfl rfl rfl, statusBytes_tap s q,
    fun i low high => ?_, statusBytes_tail s q 7, fun tp => ?_⟩
  · rw [head (by decide)]
    change byteOf r.mode.code = _
    cases r.mode <;> rfl
  · rw [head (by decide)]
    change byteOf l.cur.state.code = _
    cases l.cur.state <;> rfl
  · exact (head (by decide)).trans (versionByte_eq _)
  · rw [head (by decide)]
    change byteOf l.pend.state.code = _
    cases l.pend.state <;> rfl
  · exact (head (by decide)).trans (versionByte_eq _)
  · obtain ⟨k, rfl⟩ := Nat.exists_eq_add_of_le low
    have zeros : k < (List.replicate 7 (0 : Byte)).length := by
      rw [List.length_replicate]
      omega
    rw [show byteAt b (248 + k) = _ from statusBytes_tail s q k, byteAt_append_left zeros,
      byteAt_getElem zeros, List.getElem_replicate]
  · obtain ⟨state, stream, recovery, queue, settling, bits⟩ := tapBytes_fixed tp
    obtain ⟨clean, partly, repeated, silent, starved, abandoned, discarded⟩ := tapBytes_counters tp
    obtain ⟨opens, adjusts, restarts⟩ := bitByte_bits tp.pendingOpen.isSome tp.pendingAdjust.isSome
      (tp.inst.any (·.restart))
    rw [← bits] at opens adjusts restarts
    exact ⟨length_tapBytes tp, state.trans (TapState.code_byte _), stream.trans (streamByte_eq _),
      tapBytes_start tp, recovery, queue, settling, clean, partly, repeated, silent, starved,
      abandoned, discarded, tapBytes_depth tp, opens, adjusts, restarts⟩

end Sys2Proof.Machine
end

section
/-! SUPPORT. The entry to HALTED: what it does to bursts in flight, and a refill that ends with it (R33,
R111, R179). -/

namespace Sys2Proof.Machine

/-! ## Bursts in flight -/

theorem State.oldestBurst_of_oldestOwn {s : State} {k : OwnKind} {life : Life}
    (oldest : s.oldestOwn k = some life) : ∃ b, s.oldestBurst k = some (b, life) := by
  obtain ⟨⟨b, fate⟩, found, rfl⟩ := Option.map_eq_some_iff.mp oldest
  exact ⟨b, found⟩

theorem OwnKind.ownTag_inj {k k' : OwnKind} (same : ownTag k = ownTag k') : k = k' := by
  cases k <;> cases k' <;> revert same <;> decide

/-- The answer to one kind leaves the bursts of every other in flight (R16). -/
theorem State.ownInFlight_answerOwn_other {s : State} {k k' : OwnKind} (other : k ≠ k')
    (life : Life) : (s.answerOwn k).ownInFlight k' life = s.ownInFlight k' life := by
  have unmatched (i : Issued) (mine : i.hasTag k = true) : i.isOwn k' life = false := by
    cases i with
    | piece p => rfl
    | own b l =>
      have tag : b.tag = ownTag k := beq_iff_eq.mp mine
      have differs : b.tag ≠ ownTag k' := fun same => other (OwnKind.ownTag_inj (tag.symm.trans same))
      simp [Issued.isOwn, differs]
  unfold State.ownInFlight
  change ((s.link.inFlight.eraseP (Issued.hasTag k)).filter (Issued.isOwn k' life)).length = _
  generalize s.link.inFlight = l
  induction l with
  | nil => rfl
  | cons i l ih =>
    by_cases mine : i.hasTag k = true
    · rw [List.eraseP_cons_of_pos mine, List.filter_cons_of_neg (by simp [unmatched i mine])]
    · rw [List.eraseP_cons_of_neg mine]
      by_cases counted : i.isOwn k' life = true
      · rw [List.filter_cons_of_pos counted, List.filter_cons_of_pos counted, List.length_cons,
          List.length_cons, ih]
      · rw [List.filter_cons_of_neg counted, List.filter_cons_of_neg counted, ih]

/-- A refill that goes on keeps its bursts live at the entry to HALTED (R33). -/
theorem State.ownInFlight_haltAt {s : State} {k : OwnKind}
    (goes : (haltedRefill k s.supply.refill).isSome = true) :
    (s.haltAt k).ownInFlight .refill .live = s.ownInFlight .refill .live := by
  unfold State.ownInFlight
  change ((s.link.inFlight.map (Issued.haltDiscard fun b =>
    !((haltedRefill k s.supply.refill).isSome && b.ofRefill))).filter _).length = _
  rw [List.filter_map, List.length_map]
  congr 1
  refine List.filter_congr fun i _ => ?_
  cases i with
  | piece p => rfl
  | own b life =>
    cases life with
    | live =>
      by_cases mine : b.tag = ownTag .refill <;>
        simp [Issued.haltDiscard, Issued.isOwn, OwnBurst.ofRefill, goes, mine]
    | haltDiscarded => rfl
    | resetDiscarded => rfl

theorem State.no_live_refill {s : State} (answered : s.ownInFlight .refill .live = 0)
    {c : OwnBurst} (mem : .own c .live ∈ s.link.inFlight) : c.tag ≠ 17 := by
  intro tag
  have none := List.filter_eq_nil_iff.mp (List.length_eq_zero_iff.mp answered) _ mem
  exact none (by simp [Issued.isOwn, tag, ownTag])

/-- The bursts discarded at the entry to HALTED, in the words of R33. -/
theorem haltDiscard_inFlight {l : List Issued} {refill left : Option Refill}
    (same : ∀ c, .own c .live ∈ l → c.tag = 17 → (refill.isSome = true ↔ left ≠ none)) :
    l.map (Issued.haltDiscard fun b => !(refill.isSome && b.ofRefill)) =
      l.map (fun i => match i with
        | .own c .live => if c.tag = 17 ∧ left ≠ none then .own c .live else .own c .haltDiscarded
        | i => i) := by
  refine List.map_congr_left fun i mem => ?_
  cases i with
  | piece p => rfl
  | own c life =>
    cases life with
    | live =>
      have tag : c.ofRefill = true ↔ c.tag = 17 := beq_iff_eq
      by_cases mine : c.tag = 17
      · have kept := same c mem mine
        by_cases goes : refill.isSome = true
        · simp [Issued.haltDiscard, goes, tag.mpr mine, mine, kept.mp goes]
        · have ended : left = none := by_contra fun some => goes (kept.mpr some)
          simp [Issued.haltDiscard, goes, mine, ended]
      · have other : c.ofRefill = false := Bool.eq_false_iff.mpr fun k => mine (tag.mp k)
        simp [Issued.haltDiscard, other, mine]
    | haltDiscarded => rfl
    | resetDiscarded => rfl

/-! ## A refill that ends with the entry (R111) -/

/-- In HALTED a refill's addresses depend on the band and the slots alone. -/
theorem State.takeAddrs_halted_congr (r : Regions) (l : List Word) {s t : State}
    (halted : s.device = .halted) (halted' : t.device = .halted) (strap : t.strap = s.strap)
    (supply : t.supply = { s.supply with refill := t.supply.refill }) :
    (t.takeAddrs r l).2 = (s.takeAddrs r l).2 ∧
      (t.takeAddrs r l).1.supply = { (s.takeAddrs r l).1.supply with refill := t.supply.refill } := by
  induction l generalizing s t with
  | nil => exact ⟨rfl, supply⟩
  | cons a l ih =>
    have same : t.validSlot r a = s.validSlot r a := by
      simp only [State.validSlot, State.meetsRegions, State.heldAddrs, strap]
      rw [supply]
    rw [State.takeAddrs, State.takeAddrs, same]
    split
    · rw [State.push_halted halted, State.push_halted halted']
      have placed : t.supply.place a = { s.supply.place a with refill := t.supply.refill } := by
        rw [supply]
        by_cases room : s.supply.stack.length < Config.stackCapacity <;> simp [Supply.place, room]
      have kept : (t.supply.place a).refill = t.supply.refill := by rw [placed]
      have step := ih (s := s.updSupply fun p => p.place a) (t := t.updSupply fun p => p.place a)
        halted halted' strap (by simp only [State.updSupply]; rw [kept]; exact placed)
      simp only [State.updSupply_supply, kept] at step
      exact step
    · have step := ih halted halted' strap supply
      exact ⟨congrArg (a :: ·) step.1, step.2⟩

/-- A refill's end in HALTED: its addresses placed, the consumer index past them, BAD_SLOT for a skipped
one, and no report (R110, R111). -/
theorem State.finishRefill_halted {s : State} (halted : s.device = .halted) (r : Regions)
    (data : List Word) : s.finishRefill r data = { s with
      supply := { (s.takeAddrs r data).1.supply with
        consumer := (s.supply.consumer + data.length) % r.freeSize, refill := none }
      reporter := if (s.takeAddrs r data).2 = [] then s.reporter
        else s.reporter.latch .badSlot } := by
  obtain ⟨only, -⟩ := State.takeAddrs_halted r data halted
  have consumer := (State.takeAddrs_only r data s).2.1
  simp only [State.finishRefill]
  generalize (s.takeAddrs r data).2 = skipped
  generalize (s.takeAddrs r data).1 = u at only consumer
  have awake : u.device = .halted := by rw [only]; exact halted
  by_cases none : skipped = []
  · rw [State.reportSkipped, if_pos none, if_pos none]
    refine (State.testRefill_halted (by exact awake)).trans ?_
    simp only [State.updSupply, consumer]
    rw [only]
  · rw [State.reportSkipped, if_neg none, if_neg none, State.hand_halted (by exact awake)]
    refine (State.testRefill_halted (by exact awake)).trans ?_
    simp only [State.updSupply, State.latch, State.updReporter, consumer]
    rw [only]

/-! ## The flags at the entry (R149, R151) -/

theorem Reporter.latch_flagSet (r : Reporter) (f g : Flag) :
    (r.latch f).flagSet g = (r.flagSet g || g == f) := by
  change (r.flags ||| f.mask).getLsbD g.bit = _
  rw [BitVec.getLsbD_or, Flag.mask_bit]
  rfl

theorem Reporter.latch_only (r : Reporter) (f : Flag) : r.latch f =
    { r with flags := (r.latch f).flags, nFaultLow := (r.latch f).nFaultLow } := rfl

/-- With BUS_ERROR set nFAULT is low (R151). -/
theorem Reporter.latch_low {r : Reporter} {f : Flag} (error : (r.latch f).flagSet .busError = true) :
    (r.latch f).nFaultLow = true :=
  (faultLevelLow_iff _ _).mpr ⟨.busError, error, .inl rfl⟩

end Sys2Proof.Machine
end

section
/-! CLAIMS. An ERROR to an own access (R33, R111, R159, R179, R180). -/

namespace Sys2Proof.Machine

/-- What every entry to HALTED leaves, whether or not a refill ends with it. -/
structure State.HaltsAs (s t : State) (refill : Option Refill) : Prop where
  only : t = { s with
    device := .halted
    link := { s.link with
      inFlight := s.link.inFlight.map
        (Issued.haltDiscard fun b => !(refill.isSome && b.ofRefill)) }
    reception := { s.reception with gapTimer := none }
    supply := t.supply
    reporter := { s.reporter with flags := t.reporter.flags, nFaultLow := true, write := none }
    directive := { s.directive with
      batch := .idle, fetch := none, statusRequest := false, status := none } }
  error : t.reporter.flagSet .busError = true
  others : ∀ f : Flag, f ≠ .busError → f ≠ .badSlot →
    t.reporter.flagSet f = s.reporter.flagSet f

theorem State.haltAt_haltsAs (s : State) (k : OwnKind) :
    s.HaltsAs (s.haltAt k) (haltedRefill k s.supply.refill) := by
  have error : (s.reporter.latch .busError).flagSet .busError = true := by
    rw [Reporter.latch_flagSet]
    simp
  refine ⟨?_, error, fun f other _ => ?_⟩
  · have low := Reporter.latch_low error
    unfold State.haltAt
    rw [Reporter.latch_only, low]
  · change (s.reporter.latch .busError).flagSet f = _
    rw [Reporter.latch_flagSet]
    simp [other]

theorem State.HaltsAs.finish {s t : State} {refill : Option Refill} (h : s.HaltsAs t refill)
    (r : Regions) (data : List Word) : s.HaltsAs (t.finishRefill r data) refill := by
  have halted : t.device = .halted := by rw [h.only]
  have only := h.only
  rw [State.finishRefill_halted halted]
  by_cases none : (t.takeAddrs r data).2 = []
  · simp only [none, if_true]
    refine ⟨?_, h.error, h.others⟩
    rw [only]
  · simp only [none, if_false]
    have error : (t.reporter.latch .badSlot).flagSet .busError = true := by
      rw [Reporter.latch_flagSet, h.error]
      rfl
    refine ⟨?_, error, fun f other bad => ?_⟩
    · rw [Reporter.latch_only, Reporter.latch_low error]
      simp only
      rw [only]
    · change (t.reporter.latch .badSlot).flagSet f = _
      rw [Reporter.latch_flagSet, h.others f other bad]
      simp [bad]

theorem haltedRefill_goes {k : OwnKind} {f : Refill} (other : k ≠ .refill)
    (issued : f.issuedEntries ≠ 0) :
    haltedRefill k (some f) = some { f with waiting := [] } :=
  if_neg fun k => k.elim other issued

theorem haltedRefill_withdrawn {k : OwnKind} {f : Refill}
    (withdrawn : k = .refill ∨ f.issuedEntries = 0) : haltedRefill k (some f) = none :=
  if_pos withdrawn

theorem haltedRefill_of_refill (refill : Option Refill) : haltedRefill .refill refill = none := by
  cases refill with
  | none => rfl
  | some f => exact haltedRefill_withdrawn (.inl rfl)

/-- A refill with bursts issued, each of them answered, ends with an entry to HALTED that another access
brings about (R111). -/
def State.RefillEnds (s : State) (k : OwnKind) (f : Refill) : Prop :=
  k ≠ .refill ∧ s.supply.refill = some f ∧ f.issuedEntries ≠ 0 ∧ s.ownInFlight .refill .live = 0

theorem State.enterHalted_ends {s : State} {k : OwnKind} {f : Refill} {r : Regions}
    (ends : s.RefillEnds k f) (configured : s.regions = some r) :
    s.enterHalted k = (s.haltAt k).finishRefill r f.data := by
  obtain ⟨other, refill, issued, answered⟩ := ends
  have goes : (s.haltAt k).supply.refill = some { f with waiting := [] } := by
    change haltedRefill k s.supply.refill = _
    rw [refill, haltedRefill_goes other issued]
  have counted : (s.haltAt k).ownInFlight .refill .live = 0 := by
    rw [State.ownInFlight_haltAt (by rw [refill, haltedRefill_goes other issued]; rfl)]
    exact answered
  exact State.refillAnswered_ends (f := { f with waiting := [] }) goes configured rfl counted

theorem State.enterHalted_stays {s : State} {k : OwnKind}
    (stays : ∀ f r, s.RefillEnds k f → s.regions ≠ some r) : s.enterHalted k = s.haltAt k := by
  have refill : (s.haltAt k).supply.refill = haltedRefill k s.supply.refill := rfl
  unfold State.enterHalted State.refillAnswered
  split
  · rename_i g r going configured
    rw [refill] at going
    refine if_neg fun ⟨_, answered⟩ => ?_
    have goes : (haltedRefill k s.supply.refill).isSome = true := by rw [going]; rfl
    rw [State.ownInFlight_haltAt goes] at answered
    cases inFlight : s.supply.refill with
    | none => simp [inFlight, haltedRefill] at going
    | some f =>
      rw [inFlight] at going
      by_cases withdrawn : k = .refill ∨ f.issuedEntries = 0
      · rw [haltedRefill_withdrawn withdrawn] at going
        cases going
      · push Not at withdrawn
        exact stays f r ⟨withdrawn.1, inFlight, withdrawn.2, answered⟩ configured
  · rfl

/-- Slot supply and BAD_SLOT after the entry that a refill ends with (R110, R111). -/
theorem State.enterHalted_supply {s v : State} {k : OwnKind} {f : Refill} {r : Regions}
    (ends : s.RefillEnds k f) (configured : s.regions = some r) (halted : v.device = .halted)
    (strap : s.strap = v.strap) (supply : s.supply = v.supply) :
    (s.enterHalted k).supply = { (v.takeAddrs r f.data).1.supply with
      consumer := (s.supply.consumer + f.data.length) % r.freeSize, refill := none } ∧
    ((s.enterHalted k).reporter.flagSet .badSlot = true ↔
      s.reporter.flagSet .badSlot = true ∨ (v.takeAddrs r f.data).2 ≠ []) := by
  obtain ⟨skipped, placed⟩ := State.takeAddrs_halted_congr r f.data (s := v) (t := s.haltAt k) halted
    rfl strap (by rw [← supply]; rfl)
  refine ⟨?_, ?_⟩
  · rw [State.enterHalted_ends ends configured, State.finishRefill_halted rfl, placed]
    rfl
  · rw [State.enterHalted_ends ends configured, State.finishRefill_halted rfl, ← skipped]
    have entry : (s.haltAt k).reporter.flagSet .badSlot = s.reporter.flagSet .badSlot := by
      change (s.reporter.latch .busError).flagSet .badSlot = _
      rw [Reporter.latch_flagSet]
      simp
    by_cases none : ((s.haltAt k).takeAddrs r f.data).2 = []
    · simp [none, entry]
    · simp [none, entry, Reporter.latch_flagSet]

/-- Slot supply and BAD_SLOT after an entry that no refill ends with. -/
theorem State.enterHalted_kept {s : State} {k : OwnKind}
    (stays : ∀ f r, s.RefillEnds k f → s.regions ≠ some r) :
    (s.enterHalted k).supply = { s.supply with refill := haltedRefill k s.supply.refill } ∧
    (s.enterHalted k).reporter.flagSet .badSlot = s.reporter.flagSet .badSlot := by
  rw [State.enterHalted_stays stays]
  refine ⟨rfl, ?_⟩
  change (s.reporter.latch .busError).flagSet .badSlot = _
  rw [Reporter.latch_flagSet]
  simp

theorem State.enterHalted_haltsAs (s : State) (k : OwnKind) :
    s.HaltsAs (s.enterHalted k) (haltedRefill k s.supply.refill) := by
  by_cases ends : ∃ f r, s.RefillEnds k f ∧ s.regions = some r
  · obtain ⟨f, r, ends, configured⟩ := ends
    rw [State.enterHalted_ends ends configured]
    exact (s.haltAt_haltsAs k).finish r f.data
  · rw [State.enterHalted_stays fun f r refill configured => ends ⟨f, r, refill, configured⟩]
    exact s.haltAt_haltsAs k

/-- The bursts that stay live are those of a refill that goes on (R33). -/
theorem State.enterHalted_refill_iff (s : State) (k : OwnKind) {c : OwnBurst}
    (mem : .own c .live ∈ s.link.inFlight) (tag : c.tag = 17) :
    (haltedRefill k s.supply.refill).isSome = true ↔ (s.enterHalted k).supply.refill ≠ none := by
  have busy : s.ownInFlight .refill .live ≠ 0 := fun zero => State.no_live_refill zero mem tag
  rw [(State.enterHalted_kept fun f r ⟨_, _, _, answered⟩ _ => busy answered).1,
    Option.isSome_iff_ne_none]

/-- Settles O58: the entry to HALTED, and the errors that make none. -/
theorem ownErrorHalts : Obligations.OwnErrorHalts := by
  unfold Obligations.OwnErrorHalts
  refine ⟨fun s k data up live oldest => ?_, fun s k data life up oldest dead => ?_⟩
  · intro ends
    obtain ⟨b, burst⟩ := State.oldestBurst_of_oldestOwn oldest
    let x := s.answerOwn k
    have entered : x.ownError k .live = x.enterHalted k := if_neg live
    have command := exec_ownAccessError_some up data oldest
    rw [entered] at command
    have counted (other : k ≠ .refill) :
        x.ownInFlight .refill .live = s.ownInFlight .refill .live :=
      State.ownInFlight_answerOwn_other other .live
    have halts := x.enterHalted_haltsAs k
    have only := halts.only
    have kept := State.enterHalted_kept (s := x) (k := k)
    have link := haltDiscard_inFlight (l := x.link.inFlight) fun c => x.enterHalted_refill_iff k
    have taken {f : Refill} {r : Regions} (ends : x.RefillEnds k f) (configured : s.regions = some r) :=
      State.enterHalted_supply (v := { s with device := .halted }) ends configured rfl rfl rfl
    generalize x.enterHalted k = t at *
    refine ⟨t, b, command, by rw [only], by rw [only]; rfl, halts.error, by rw [only],
      by rw [only]; rfl, halts.others, fun goes => ?_, by rw [only]; rfl, by rw [only]; rfl,
      by rw [only]; rfl, by rw [only]; rfl, by rw [only]; rfl, by rw [only]; rfl, by rw [only]; rfl,
      fun idle => ?_, fun f other refill => ⟨fun unissued => ?_, fun issued busy => ?_,
        fun issued answered r configured => ?_⟩, x.link, State.answerOwn_answersOldest burst, ?_⟩
    · exact (kept fun f r ⟨other, refill, issued, answered⟩ _ =>
        goes ⟨other, (counted other).symm.trans answered, f, refill, issued⟩).2
    · have withdrawn : haltedRefill k s.supply.refill = none := by
        obtain rfl | absent := idle
        · exact haltedRefill_of_refill _
        · rw [absent]
          rfl
      rw [(kept fun f r ⟨other, refill, _, _⟩ _ =>
        idle.elim other fun absent => nomatch absent.symm.trans refill).1]
      exact congrArg (fun f => ({ s.supply with refill := f } : Supply)) withdrawn
    · rw [(kept fun g r ⟨_, refill', issued, _⟩ _ =>
        issued (Option.some.inj (refill.symm.trans refill') ▸ unissued)).1]
      refine congrArg (fun f => ({ s.supply with refill := f } : Supply)) ?_
      exact (congrArg (haltedRefill k) refill).trans (haltedRefill_withdrawn (.inr unissued))
    · rw [(kept fun g r ⟨_, _, _, answered⟩ _ => busy ((counted other).symm.trans answered)).1]
      refine congrArg (fun f => ({ s.supply with refill := f } : Supply)) ?_
      exact (congrArg (haltedRefill k) refill).trans (haltedRefill_goes other issued)
    · exact ⟨_, _, rfl, taken ⟨other, refill, issued, (counted other).trans answered⟩ configured⟩
    · rw [only]
      exact congrArg (fun l => ({ x.link with inFlight := l } : Link)) link
  · obtain ⟨b, burst⟩ := State.oldestBurst_of_oldestOwn oldest
    let x := s.answerOwn k
    have answers : s.link.AnswersOldest x.link (ownTag k) b := State.answerOwn_answersOldest burst
    have command := exec_ownAccessError_some up data oldest
    cases life with
    | resetDiscarded =>
      exact ⟨x, x.link, b, command, rfl, answers, fun _ => ⟨rfl, rfl⟩, fun _ => rfl, nofun, nofun,
        nofun, nofun⟩
    | haltDiscarded =>
      by_cases fetch : k = .fetch
      · subst fetch
        have count : s.ownInFlight .fetch .haltDiscarded =
          x.ownInFlight .fetch .haltDiscarded + 1 := State.ownInFlight_of_oldest burst
        have resumed : x.ownError .fetch .haltDiscarded = x.resumeFetch := rfl
        rw [resumed] at command
        have only := x.resumeFetch_only
        refine ⟨_, x.link, b, command, by rw [only]; rfl, answers, fun _ => by rw [only]; exact ⟨rfl, rfl⟩,
          fun other => absurd rfl (other.resolve_left nofun), nofun, nofun, nofun,
          fun _ _ => ⟨fun idle => ?_, fun batch fetch one => ?_⟩⟩
        · rw [State.resumeFetch_idle (s := x) fun ⟨batch, fetch⟩ => idle.elim
            (fun idle => nomatch idle.symm.trans batch) fun some => some fetch]
          rfl
        · rw [State.resumeFetch_waits (s := x) ⟨batch, fetch⟩, State.startFetch_directive,
            if_pos (by omega)]
          refine ⟨?_, rfl⟩
          rw [← batch]
          rfl
      · have stays : x.ownError k .haltDiscarded = x := if_neg fetch
        rw [stays] at command
        exact ⟨x, x.link, b, command, rfl, answers, fun _ => ⟨rfl, rfl⟩, fun _ => rfl, nofun, nofun,
          nofun, fun _ fetching => absurd fetching fetch⟩
    | live =>
      have halted : s.device = .halted := dead.resolve_left (not_not.mpr rfl)
      have erred : x.ownError k .live = x.haltedError k := if_pos halted
      rw [erred] at command
      refine ⟨_, x.link, b, command, ?_, answers, fun dead => absurd rfl dead, fun other => ?_,
        fun _ other => ?_, fun _ refill => ?_, fun _ fetch => ?_, nofun⟩
      · cases k <;> rfl
      · have kind := other.resolve_left nofun
        cases k with
        | fetch => exact absurd rfl kind
        | _ => rfl
      · cases k with
        | refill => exact absurd rfl other
        | _ => exact ⟨rfl, rfl⟩
      · subst refill
        refine ⟨rfl, congrArg (fun l => ({ x.link with inFlight := l } : Link)) ?_⟩
        refine List.map_congr_left fun i _ => ?_
        cases i with
        | piece p => rfl
        | own c life =>
          cases life with
          | live =>
            have tag : c.ofRefill = true ↔ c.tag = 17 := beq_iff_eq
            simp only [Issued.haltDiscard, tag]
          | haltDiscarded => rfl
          | resetDiscarded => rfl
      · subst fetch
        rfl

end Sys2Proof.Machine
end

section
/-! SUPPORT. What each operation on one tap leaves that tap as, and that it leaves every other tap
alone (R81, R94 to R98, R116, R120, R127, R145). -/

namespace Sys2Proof.Machine

/-- The tap table is the same, and no queued report has left. -/
structure State.SameTaps (s t : State) : Prop where
  taps : t.taps = s.taps
  reports : s.reporter.queue <+: t.reporter.queue

/-- The tap table differs in one tap at most, whose record is now this one, and no queued report has
left. -/
structure State.SetsTap (s t : State) (u : TapNo) (tp : Tap) : Prop where
  taps : t.taps = (s.setTap u tp).taps
  reports : s.reporter.queue <+: t.reporter.queue

section
variable {s t w : State} {u v : TapNo} {a b : Tap}

theorem State.SameTaps.refl (s : State) : s.SameTaps s := ⟨rfl, List.prefix_rfl⟩

theorem State.SameTaps.trans (h : s.SameTaps t) (k : t.SameTaps w) : s.SameTaps w :=
  ⟨k.taps.trans h.taps, h.reports.trans k.reports⟩

theorem State.SameTaps.tap (h : s.SameTaps t) (u : TapNo) : t.tap u = s.tap u :=
  State.tap_of_taps h.taps u

theorem State.OnlyReporter.taps (h : s.OnlyReporter t) : t.taps = s.taps := by
  rw [show t = _ from h]

theorem State.OnlySupply.taps (h : s.OnlySupply t) : t.taps = s.taps := by
  rw [show t = _ from h]

theorem State.OnlyDirective.sameTaps (h : s.OnlyDirective t) : s.SameTaps t := by
  rw [show t = _ from h]
  exact ⟨rfl, List.prefix_rfl⟩

theorem State.Latches.sameTaps {f : Flag} (h : s.Latches t f) : s.SameTaps t :=
  ⟨h.only.taps, h.queue ▸ List.prefix_rfl⟩

theorem State.TestsReports.sameTaps (h : s.TestsReports t) : s.SameTaps t :=
  ⟨h.only.taps, h.queue ▸ List.prefix_rfl⟩

theorem State.Hands.sameTaps {body : ReportBody} {n : Nat} (h : s.Hands t body n) :
    s.SameTaps t := by
  refine ⟨h.only.taps, ?_⟩
  rw [h.queue]
  split
  · exact List.prefix_rfl
  · exact List.prefix_append _ _

/-- A report handed joins the queue, unless a full one drops it (R141). -/
theorem State.Hands.joined {body : ReportBody} {n : Nat} (h : s.Hands t body n)
    (alive : s.device ≠ .halted) : { body := body, flush := n } ∈ t.reporter.queue ∨
      32 ≤ t.reporter.queue.length := by
  rw [h.queue]
  split
  next full => exact .inr (full.resolve_left alive)
  next => exact .inl (List.mem_append_right _ (List.mem_singleton.mpr rfl))

theorem State.SetsTap.own (h : s.SetsTap t u a) : t.tap u = a :=
  (State.tap_of_taps h.taps u).trans (s.tap_setTap_same u a)

theorem State.SetsTap.other (h : s.SetsTap t u a) (ne : v ≠ u) : t.tap v = s.tap v :=
  (State.tap_of_taps h.taps v).trans (s.tap_setTap_other a ne)

theorem State.SetsTap.trans (h : s.SetsTap t u a) (k : t.SetsTap w u b) : s.SetsTap w u b := by
  refine ⟨?_, h.reports.trans k.reports⟩
  rw [k.taps, State.setTap_taps, State.setTap_taps, h.taps, State.setTap_taps, Vector.set_set]

theorem State.SetsTap.keep (h : s.SameTaps t) (u : TapNo) : s.SetsTap t u (s.tap u) := by
  refine ⟨?_, h.reports⟩
  rw [h.taps, State.setTap_taps]
  exact (Vector.set_getElem_self _).symm

theorem State.SetsTap.then (h : s.SetsTap t u a) (k : t.SameTaps w) : s.SetsTap w u a :=
  ⟨k.taps.trans h.taps, h.reports.trans k.reports⟩

theorem State.SetsTap.after (h : s.SameTaps t) (k : t.SetsTap w u a) : s.SetsTap w u a :=
  (State.SetsTap.keep h u).trans k

theorem State.setsTap_setTap (s : State) (u : TapNo) (a : Tap) : s.SetsTap (s.setTap u a) u a :=
  ⟨rfl, List.prefix_rfl⟩

theorem State.setsTap_updTap (s : State) (u : TapNo) (f : Tap → Tap) :
    s.SetsTap (s.updTap u f) u (f (s.tap u)) := s.setsTap_setTap u _

theorem State.SetsTap.ite {p : Prop} [Decidable p] (h : p → s.SetsTap t u a)
    (k : ¬ p → s.SetsTap w u b) : s.SetsTap (if p then t else w) u (if p then a else b) := by
  split
  · exact h ‹_›
  · exact k ‹_›

end

section
variable (s : State) (u : TapNo)

theorem State.testReports_same : s.SameTaps s.testReports := s.testReports_tests.sameTaps

theorem State.latch_same (f : Flag) : s.SameTaps (s.latch f) := (s.latch_latches f).sameTaps

theorem State.handWith_same (b : ReportBody) (n : Nat) : s.SameTaps (s.handWith b n) :=
  (s.handWith_hands b n).sameTaps

theorem State.hand_same (b : ReportBody) : s.SameTaps (s.hand b) := s.handWith_same b 0

theorem State.updSupply_same (f : Supply → Supply) : s.SameTaps (s.updSupply f) := ⟨rfl, List.prefix_rfl⟩

theorem State.updSlot_same (a : Word) (f : SlotEntry → SlotEntry) : s.SameTaps (s.updSlot a f) :=
  ⟨rfl, List.prefix_rfl⟩

theorem State.push_same (a : Word) : s.SameTaps (s.push a) := by
  unfold State.push
  dsimp only
  split
  · exact s.updSupply_same _
  · exact (s.updSupply_same _).trans (State.testReports_same _)

theorem State.pushRequest_same (a : Word) : s.SameTaps (s.pushRequest a) := by
  have removed : s.SameTaps (s.removeSlot a) := ⟨rfl, List.prefix_rfl⟩
  unfold State.pushRequest
  split
  · exact .refl s
  · split
    · exact .refl s
    · split
      · exact removed.trans (State.push_same _ a)
      · exact s.updSlot_same a _

theorem State.pushFrames_same (frames : List LogicalFrame) (s : State) :
    s.SameTaps (s.pushFrames frames) := by
  induction frames generalizing s with
  | nil => exact .refl s
  | cons l rest ih =>
    have given : s.SameTaps (match l.slot with
        | some a => s.pushRequest a
        | none => s) := by
      cases l.slot with
      | none => exact .refl s
      | some a => exact s.pushRequest_same a
    exact given.trans (ih _)

theorem State.makeDue_sets : s.SetsTap (s.makeDue u) u (s.tap u).allDue := by
  unfold State.makeDue
  split
  · exact (s.setsTap_updTap u Tap.allDue).then (State.testReports_same _)
  · exact s.setsTap_updTap u Tap.allDue

theorem State.handTapState_sets (old new : TapState) (r : TapReason) :
    s.SetsTap (s.handTapState u old new r) u (s.tap u).allDue :=
  (s.setsTap_updTap u Tap.allDue).then (State.handWith_same _ _ _)

/-- A tap after a change of state (R81, R135, R146). -/
def Tap.changed (tp : Tap) (new : TapState) : Tap :=
  if tp.state = new then tp else (tp.enter new).allDue

theorem State.setTapState_sets (new : TapState) (r : TapReason) :
    s.SetsTap (s.setTapState u new r) u ((s.tap u).changed new) := by
  refine .ite (fun _ => .keep (.refl s) u) fun _ => ?_
  have entered := s.setsTap_updTap u (fun tp => tp.enter new)
  have handed := State.handTapState_sets (s.updTap u fun tp => tp.enter new) u (s.tap u).state new r
  rw [entered.own] at handed
  exact entered.trans handed

theorem Tap.changed_same {tp : Tap} {new : TapState} (same : tp.state = new) :
    tp.changed new = tp := if_pos same

theorem Tap.changed_other {tp : Tap} {new : TapState} (other : tp.state ≠ new) :
    tp.changed new = (tp.enter new).allDue := if_neg other

theorem State.holdAfterDiscard_sets : s.SetsTap (s.holdAfterDiscard u) u
    (if (s.tap u).state = .running then (s.tap u).changed .holding else s.tap u) :=
  .ite (fun _ => s.setTapState_sets u _ _) fun _ => .keep (.refl s) u

/-- A tap after a completion is queued with a due mark (R95, R104, R145). -/
def Tap.queued (tp : Tap) (e : QueueEntry) (due : Bool) : Tap :=
  { tp.enqueue e due with counters := tp.counters.count e.outcome e.run }

theorem State.enqueue_sets (e : QueueEntry) :
    s.SetsTap (s.enqueue u e) u ((s.tap u).queued e (s.dueAtOnce u)) := by
  unfold State.enqueue
  have queued := s.setsTap_updTap u (fun tp => tp.queued e (s.dueAtOnce u))
  dsimp only
  split
  · exact queued.then (State.testReports_same _)
  · exact queued

/-- A tap after a completion is discarded (R94, R104). -/
def Tap.discarded (tp : Tap) (run : Nat) : Tap := { tp with counters := tp.counters.discard run }

theorem State.discard_sets (kind : CompletionKind) (run : Nat) :
    s.SetsTap (s.discard u kind run) u ((s.tap u).discarded run) := by
  have pushed {t : State} (h : s.SameTaps t) : s.SetsTap (t.updTap u (Tap.discarded · run)) u
      ((s.tap u).discarded run) := by
    rw [← h.tap u]
    exact .after h (t.setsTap_updTap u _)
  cases kind with
  | slot a => exact pushed (s.pushRequest_same a)
  | starved => exact pushed (.refl s)
  | abandoned => exact pushed (.refl s)

/-- A tap after a completion is discarded from its full queue (R98). -/
def Tap.overflowed (tp : Tap) (run : Nat) : Tap :=
  if tp.state = .running then (tp.discarded run).changed .holding else tp.discarded run

theorem State.discardFull_sets (kind : CompletionKind) (run : Nat) :
    s.SetsTap (s.discardFull u kind run) u ((s.tap u).overflowed run) := by
  have latched := (s.discard_sets u kind run).then (State.latch_same _ .reportsBlocked)
  have held := State.holdAfterDiscard_sets ((s.discard u kind run).latch .reportsBlocked) u
  rw [latched.own] at held
  exact latched.trans held

/-- A tap after its retention ends (R120). -/
def Tap.released (tp : Tap) : Tap :=
  { tp with retained := none, repeatCount := if tp.retained = none then tp.repeatCount else 0 }

theorem State.endRetention_sets : s.SetsTap (s.endRetention u) u (s.tap u).released := by
  unfold State.endRetention
  cases retained : (s.tap u).retained with
  | none =>
    have same : (s.tap u).released = s.tap u := by
      unfold Tap.released
      rw [if_pos retained, ← retained]
    rw [same]
    exact .keep (.refl s) u
  | some a =>
    have cleared := s.setsTap_updTap u fun tp => { tp with retained := none, repeatCount := 0 }
    have same : (s.tap u).released = { s.tap u with retained := none, repeatCount := 0 } := by
      unfold Tap.released
      rw [if_neg (by rw [retained]; exact nofun)]
    rw [same]
    dsimp only
    split
    · split
      · exact cleared.then ((State.updSlot_same _ a _).trans (State.pushRequest_same _ a))
      · exact cleared.then (State.updSlot_same _ a _)
    · exact cleared.then (State.updSlot_same _ a _)

theorem State.retain_sets (a : Word) : s.SetsTap (s.retain u a) u
    { s.tap u with retained := some a, repeatCount := 0 } := by
  have released := s.endRetention_sets u
  have retained := State.setsTap_updTap ((s.endRetention u).updSlot a fun e =>
    { e with retained := true }) u fun tp => { tp with retained := some a, repeatCount := 0 }
  rw [(released.then (State.updSlot_same _ a fun e => { e with retained := true })).own] at retained
  exact (released.then (State.updSlot_same _ a _)).trans retained

/-- A tap after a clean completion of its instance (R127 step 4). -/
def Tap.resumed (tp : Tap) : Tap :=
  if tp.state = .holding then
    Tap.changed { tp with recovery := tp.holdLength.getD 0 } .running
  else tp

theorem State.resume_sets : s.SetsTap (s.resume u) u (s.tap u).resumed := by
  refine .ite (fun _ => ?_) fun _ => .keep (.refl s) u
  have measured := s.setsTap_updTap u fun tp => { tp with recovery := tp.holdLength.getD 0 }
  have running := State.setTapState_sets
    (s.updTap u fun tp => { tp with recovery := tp.holdLength.getD 0 }) u .running .cleanResumed
  rw [measured.own] at running
  exact measured.trans running

theorem State.unbind_sets (new : TapState) (r : TapReason) : s.SetsTap (s.unbind u new r) u
    (Tap.changed { s.tap u with inst := none } new) := by
  have dropped := s.setsTap_updTap u fun tp => { tp with inst := none }
  have changed := State.setTapState_sets (s.dropInstance u) u new r
  rw [show (s.dropInstance u).tap u = _ from dropped.own] at changed
  exact dropped.trans changed

theorem State.beginInstance_sets (f : FrameNo) (e : MapEntry) (r : TapReason) :
    s.SetsTap (s.beginInstance u f e r) u (((s.tap u).begin f e).changed .holding) := by
  have begun := s.setsTap_updTap u fun tp => tp.begin f e
  have changed := State.setTapState_sets (s.updTap u fun tp => tp.begin f e) u .holding r
  rw [begun.own] at changed
  exact begun.trans changed

end

end Sys2Proof.Machine
end

section
/-! SUPPORT. What judging, completing and abandoning logical frames keeps of a tap, and the taps under
a notice (R91 to R96, R98, R127). -/

namespace Sys2Proof.Machine

/-- The stream, the parameters, what is pending and the instance of a tap are kept, and so is whether
it is bound, and the state of one that is not. -/
structure Tap.Stays (old new : Tap) : Prop where
  stream : new.stream = old.stream
  params : new.params = old.params
  pendingOpen : new.pendingOpen = old.pendingOpen
  pendingAdjust : new.pendingAdjust = old.pendingAdjust
  inst : new.inst = old.inst
  lastNumber : new.lastNumber = old.lastNumber
  bound : new.bound = old.bound
  unbound : old.bound = false → new.state = old.state

/-- The open frames are kept too, and the retained slot when the instance has ended (R92, R134). -/
structure Tap.Judged (old new : Tap) : Prop extends Tap.Stays old new where
  openFrames : new.openFrames = old.openFrames
  retained : (∀ i, old.inst = some i → i.ended = true) → new.retained = old.retained

/-- The settling list is kept too. -/
structure Tap.Queued (old new : Tap) : Prop extends Tap.Judged old new where
  settling : new.settling = old.settling

section
variable {a b c : Tap}

theorem Tap.Stays.refl (a : Tap) : a.Stays a := ⟨rfl, rfl, rfl, rfl, rfl, rfl, rfl, fun _ => rfl⟩

theorem Tap.Judged.refl (a : Tap) : a.Judged a := ⟨.refl a, rfl, fun _ => rfl⟩

theorem Tap.Queued.refl (a : Tap) : a.Queued a := ⟨.refl a, rfl⟩

theorem Tap.Stays.trans (h : a.Stays b) (k : b.Stays c) : a.Stays c where
  stream := k.stream.trans h.stream
  params := k.params.trans h.params
  pendingOpen := k.pendingOpen.trans h.pendingOpen
  pendingAdjust := k.pendingAdjust.trans h.pendingAdjust
  inst := k.inst.trans h.inst
  lastNumber := k.lastNumber.trans h.lastNumber
  bound := k.bound.trans h.bound
  unbound free := (k.unbound (h.bound.trans free)).trans (h.unbound free)

theorem Tap.Judged.trans (h : a.Judged b) (k : b.Judged c) : a.Judged c where
  toStays := h.toStays.trans k.toStays
  openFrames := k.openFrames.trans h.openFrames
  retained ended := (k.retained fun i found => ended i (h.inst ▸ found)).trans (h.retained ended)

theorem Tap.Queued.trans (h : a.Queued b) (k : b.Queued c) : a.Queued c :=
  ⟨h.toJudged.trans k.toJudged, k.settling.trans h.settling⟩

theorem Tap.seeking_iff (a : Tap) :
    a.seeking = true ↔ a.state = .waiting ∨ a.state = .orphaned := by
  simp [Tap.seeking]

theorem Tap.bound_eq_false (a : Tap) : a.bound = false ↔
    a.state = .waiting ∨ a.state = .orphaned ∨ a.state = .closed := by
  unfold Tap.bound
  cases a.state <;> decide

theorem Tap.allDue_queued (a : Tap) : a.Queued a.allDue :=
  ⟨⟨⟨rfl, rfl, rfl, rfl, rfl, rfl, rfl, fun _ => rfl⟩, rfl, fun _ => rfl⟩, rfl⟩

/-- A change of state keeps everything but the state and what goes with it. -/
theorem Tap.changed_kept (a : Tap) (new : TapState) :
    (a.changed new).stream = a.stream ∧ (a.changed new).params = a.params ∧
      (a.changed new).pendingOpen = a.pendingOpen ∧
      (a.changed new).pendingAdjust = a.pendingAdjust ∧ (a.changed new).inst = a.inst ∧
      (a.changed new).lastNumber = a.lastNumber ∧ (a.changed new).openFrames = a.openFrames ∧
      (a.changed new).retained = a.retained ∧ (a.changed new).settling = a.settling ∧
      (a.changed new).counters = a.counters ∧ (a.changed new).repeatCount = a.repeatCount ∧
      (a.changed new).recovery = a.recovery := by
  unfold Tap.changed
  split <;> exact ⟨rfl, rfl, rfl, rfl, rfl, rfl, rfl, rfl, rfl, rfl, rfl, rfl⟩

theorem Tap.changed_state (a : Tap) (new : TapState) : (a.changed new).state = new := by
  unfold Tap.changed
  split
  · assumption
  · rfl

theorem Tap.changed_queued {new : TapState} (bound : a.bound = true)
    (stays : new = .running ∨ new = .holding) : a.Queued (a.changed new) := by
  obtain ⟨stream, params, opens, adjust, inst, number, frames, retained, settling, -⟩ :=
    a.changed_kept new
  have changed : (a.changed new).bound = true := by
    rw [Tap.bound_iff, Tap.changed_state]
    exact stays
  exact ⟨⟨⟨stream, params, opens, adjust, inst, number, changed.trans bound.symm,
    fun free => absurd bound (by rw [free]; decide)⟩, frames, fun _ => retained⟩, settling⟩

theorem Tap.queued_queued (a : Tap) (e : QueueEntry) (due : Bool) : a.Queued (a.queued e due) := by
  have kept : (a.queued e due).stream = a.stream ∧ (a.queued e due).params = a.params ∧
      (a.queued e due).pendingOpen = a.pendingOpen ∧
      (a.queued e due).pendingAdjust = a.pendingAdjust ∧ (a.queued e due).inst = a.inst ∧
      (a.queued e due).lastNumber = a.lastNumber ∧ (a.queued e due).state = a.state ∧
      (a.queued e due).openFrames = a.openFrames ∧ (a.queued e due).retained = a.retained ∧
      (a.queued e due).settling = a.settling := by
    unfold Tap.queued Tap.enqueue
    dsimp only
    split
    · exact ⟨rfl, rfl, rfl, rfl, rfl, rfl, rfl, rfl, rfl, rfl⟩
    · split <;> exact ⟨rfl, rfl, rfl, rfl, rfl, rfl, rfl, rfl, rfl, rfl⟩
  obtain ⟨stream, params, opens, adjust, inst, number, state, frames, retained, settling⟩ := kept
  exact ⟨⟨⟨stream, params, opens, adjust, inst, number, by unfold Tap.bound; rw [state],
    fun _ => state⟩, frames, fun _ => retained⟩, settling⟩

theorem Tap.discarded_queued (a : Tap) (run : Nat) : a.Queued (a.discarded run) :=
  ⟨⟨⟨rfl, rfl, rfl, rfl, rfl, rfl, rfl, fun _ => rfl⟩, rfl, fun _ => rfl⟩, rfl⟩

theorem Tap.held_queued (a : Tap) :
    a.Queued (if a.state = .running then a.changed .holding else a) := by
  split
  next running => exact Tap.changed_queued (a.bound_iff.mpr (.inl running)) (.inr rfl)
  next => exact .refl a

theorem Tap.overflowed_queued (a : Tap) (run : Nat) : a.Queued (a.overflowed run) :=
  (a.discarded_queued run).trans (a.discarded run).held_queued

theorem Tap.resumed_queued (a : Tap) : a.Queued a.resumed := by
  unfold Tap.resumed
  split
  next holding =>
    have measured : a.Queued { a with recovery := a.holdLength.getD 0 } :=
      ⟨⟨⟨rfl, rfl, rfl, rfl, rfl, rfl, rfl, fun _ => rfl⟩, rfl, fun _ => rfl⟩, rfl⟩
    exact measured.trans (Tap.changed_queued
      (Tap.bound_iff _ |>.mpr (.inr holding)) (.inl rfl))
  next => exact .refl a

theorem Tap.isCurrent_iff (a : Tap) (number : Counter) : a.isCurrent number = true ↔
    a.bound = true ∧ ∃ n, a.inst = some n ∧ n.ended = false ∧ n.number = number := by
  unfold Tap.isCurrent
  cases a.inst with
  | none => simp
  | some n => simp [and_assoc]

end

/-- Every tap but one is as before, that one is as a relation says, and no queued report has left. -/
structure State.OnTap (s t : State) (u : TapNo) (R : Tap → Tap → Prop) : Prop where
  reports : s.reporter.queue <+: t.reporter.queue
  others : ∀ v, v ≠ u → t.tap v = s.tap v
  own : R (s.tap u) (t.tap u)

section
variable {s t w : State} {u : TapNo} {R S T : Tap → Tap → Prop}

theorem State.SetsTap.onTap {a : Tap} (h : s.SetsTap t u a) (own : R (s.tap u) a) :
    s.OnTap t u R :=
  ⟨h.reports, fun _ ne => h.other ne, by rw [h.own]; exact own⟩

theorem State.OnTap.trans (h : s.OnTap t u R) (k : t.OnTap w u S)
    (join : ∀ {a b c}, R a b → S b c → T a c) : s.OnTap w u T :=
  ⟨h.reports.trans k.reports, fun v ne => (k.others v ne).trans (h.others v ne), join h.own k.own⟩

theorem State.OnTap.imp (h : s.OnTap t u R) (imp : ∀ {a b}, R a b → S a b) : s.OnTap t u S :=
  ⟨h.reports, h.others, imp h.own⟩

theorem State.OnTap.after (same : s.SameTaps t) (h : t.OnTap w u R) : s.OnTap w u R :=
  ⟨same.reports.trans h.reports, fun v ne => (h.others v ne).trans (same.tap v),
    same.tap u ▸ h.own⟩

theorem State.onTap_same {R : Tap → Tap → Prop} (refl : ∀ a, R a a) (s : State) (u : TapNo) :
    s.OnTap s u R :=
  (State.SetsTap.keep (.refl s) u).onTap (refl _)

end

section
variable (s : State) (u : TapNo)

theorem State.enqueue_onTap (e : QueueEntry) : s.OnTap (s.enqueue u e) u Tap.Queued :=
  (s.enqueue_sets u e).onTap (Tap.queued_queued _ _ _)

theorem State.discardFull_onTap (kind : CompletionKind) (run : Nat) :
    s.OnTap (s.discardFull u kind run) u Tap.Queued :=
  (s.discardFull_sets u kind run).onTap (Tap.overflowed_queued _ _)

theorem State.merge_onTap (last : QueueEntry) (c : Completion) :
    s.OnTap (s.merge u last c) u Tap.Queued := by
  have merged : s.OnTap (s.updTap u fun tp =>
      { tp with
        queue := tp.queue.dropLast ++ [{ last with run := min 255 (last.run + c.run) }],
        counters := tp.counters.count .starved (min 255 (last.run + c.run) - last.run) })
      u Tap.Queued :=
    (s.setsTap_updTap u _).onTap
      ⟨⟨⟨rfl, rfl, rfl, rfl, rfl, rfl, rfl, fun _ => rfl⟩, rfl, fun _ => rfl⟩, rfl⟩
  unfold State.merge
  dsimp only
  split
  · exact merged
  · split
    · exact merged.trans (State.enqueue_onTap _ u _) Tap.Queued.trans
    · exact merged.trans (State.discardFull_onTap _ u _ _) Tap.Queued.trans

/-- A slot is retained for the current instance only, which has not ended (R127, R134). -/
theorem State.queueClean_onTap (c : Completion) (a : Word) :
    s.OnTap (s.queueClean u c a) u Tap.Queued := by
  unfold State.queueClean
  split
  next current =>
    obtain ⟨-, i, inst, live, -⟩ := (Tap.isCurrent_iff _ _).mp current
    have retained : s.OnTap (s.retain u a) u Tap.Queued :=
      (s.retain_sets u a).onTap ⟨⟨⟨rfl, rfl, rfl, rfl, rfl, rfl, rfl, fun _ => rfl⟩, rfl,
        fun ended => absurd (ended i inst) (by rw [live]; decide)⟩, rfl⟩
    have queued := retained.trans (State.enqueue_onTap _ u (c.entry .clean (some a) 0)) Tap.Queued.trans
    exact queued.trans ((State.resume_sets _ u).onTap (Tap.resumed_queued _)) Tap.Queued.trans
  next => exact s.enqueue_onTap u _

theorem State.queueSlot_onTap (c : Completion) (a : Word) (erased : ClassSet) :
    s.OnTap (s.queueSlot u c a erased) u Tap.Queued := by
  unfold State.queueSlot
  split
  · exact s.queueClean_onTap u c a
  · exact s.enqueue_onTap u _
  · exact .after (s.updSlot_same a _) (State.enqueue_onTap _ u _)
  next r _ =>
    have repeated : s.OnTap (s.updTap u fun tp => { tp with repeatCount := tp.repeatCount + 1 }) u
        Tap.Queued := (s.setsTap_updTap u _).onTap
      ⟨⟨⟨rfl, rfl, rfl, rfl, rfl, rfl, rfl, fun _ => rfl⟩, rfl, fun _ => rfl⟩, rfl⟩
    have queued := repeated.trans
      (State.enqueue_onTap _ u (c.entry .repeated (some r) erased)) Tap.Queued.trans
    exact queued.trans ((State.SetsTap.keep (State.pushRequest_same _ a) u).onTap (.refl _))
      Tap.Queued.trans

theorem State.judge_onTap (c : Completion) : s.OnTap (s.judge u c) u Tap.Queued := by
  unfold State.judge
  dsimp only
  split
  · exact s.merge_onTap u _ c
  · split
    · exact s.discardFull_onTap u _ _
    · split
      · exact s.enqueue_onTap u _
      · exact s.enqueue_onTap u _
      · split
        · exact s.queueSlot_onTap u c _ _
        · exact State.onTap_same .refl s u

end

/-- The settling list taken shorter, a completion judged (R94). -/
theorem State.judgeFront_onTap (n : Nat) (s : State) (u : TapNo) :
    s.OnTap (s.judgeFront n u) u Tap.Judged := by
  induction n generalizing s with
  | zero => exact State.onTap_same .refl s u
  | succ n ih =>
    unfold State.judgeFront
    split
    · exact State.onTap_same .refl s u
    next c rest front =>
      split
      · have taken : s.OnTap (s.updTap u fun tp => { tp with settling := rest }) u Tap.Judged :=
          (s.setsTap_updTap u _).onTap
            ⟨⟨rfl, rfl, rfl, rfl, rfl, rfl, rfl, fun _ => rfl⟩, rfl, fun _ => rfl⟩
        have judged := taken.trans ((State.judge_onTap _ u c).imp Tap.Queued.toJudged)
          Tap.Judged.trans
        exact judged.trans (ih _) Tap.Judged.trans
      · exact State.onTap_same .refl s u

section
variable (s : State) (u : TapNo)

theorem State.settle_onTap : s.OnTap (s.settle u) u Tap.Judged := State.judgeFront_onTap _ s u

theorem State.append_onTap (c : Completion) : s.OnTap (s.append u c) u Tap.Judged := by
  unfold State.append
  split
  · have appended : s.OnTap (s.updTap u fun tp => { tp with settling := tp.settling ++ [c] }) u
        Tap.Judged := (s.setsTap_updTap u _).onTap
      ⟨⟨rfl, rfl, rfl, rfl, rfl, rfl, rfl, fun _ => rfl⟩, rfl, fun _ => rfl⟩
    exact appended.trans (State.settle_onTap _ u) Tap.Judged.trans
  · have discarded : s.OnTap (s.discard u c.kind c.run) u Tap.Judged :=
      (s.discard_sets u c.kind c.run).onTap (Tap.discarded_queued _ _).toJudged
    exact discarded.trans ((State.holdAfterDiscard_sets _ u).onTap (Tap.held_queued _).toJudged)
      Tap.Judged.trans

theorem State.completeFrame_onTap (more : SlotEntry → ClassSet) (l : LogicalFrame) :
    s.OnTap (s.completeFrame u more l) u Tap.Judged := by
  unfold State.completeFrame
  dsimp only
  split
  · exact .after (s.updSlot_same _ (SlotEntry.finish more)) (State.append_onTap _ u _)
  · exact s.append_onTap u _

end

theorem State.foldl_completeFrame_onTap (more : SlotEntry → ClassSet) (frames : List LogicalFrame)
    (s : State) (u : TapNo) :
    s.OnTap (frames.foldl (fun s l => s.completeFrame u more l) s) u Tap.Judged := by
  induction frames generalizing s with
  | nil => exact State.onTap_same .refl s u
  | cons l rest ih => exact (s.completeFrame_onTap u more l).trans (ih _) Tap.Judged.trans

theorem State.SetsTap.thenOnTap {s t w : State} {u : TapNo} {R : Tap → Tap → Prop} (f : Tap → Tap)
    (h : s.SetsTap t u (f (s.tap u))) (k : t.OnTap w u R) : s.OnTap w u fun old new => R (f old) new :=
  ⟨h.reports.trans k.reports, fun v ne => (k.others v ne).trans (h.other ne), h.own ▸ k.own⟩

/-- A tap whose instance ends, before its open frames are completed (R92). -/
def Tap.ending (tp : Tap) : Tap :=
  Tap.released { tp with inst := tp.inst.map (fun i => { i with ended := true }), openFrames := [] }

section
variable (s : State) (u : TapNo)

theorem State.instanceEnd_onTap :
    s.OnTap (s.instanceEnd u) u fun old new => old.ending.Judged new := by
  have marked := s.setsTap_updTap u fun tp =>
    { tp with inst := tp.inst.map (fun i => { i with ended := true }), openFrames := [] }
  have ended := State.endRetention_sets (s.updTap u fun tp =>
    { tp with inst := tp.inst.map (fun i => { i with ended := true }), openFrames := [] }) u
  rw [marked.own] at ended
  exact (marked.trans ended).thenOnTap Tap.ending (State.foldl_completeFrame_onTap _ _ _ u)

/-- An instance end leaves no retained slot (R92). -/
theorem Tap.ending_retained {old new : Tap} (h : old.ending.Judged new) : new.retained = none :=
  h.retained fun i found => by
    obtain ⟨n, -, same⟩ := Option.map_eq_some_iff.mp found
    rw [← same]

theorem State.abandon_onTap :
    s.OnTap (s.abandon u) u fun old new => Tap.Judged { old with openFrames := [] } new := by
  have emptied := s.setsTap_updTap u fun tp => { tp with openFrames := [] }
  have pushed := emptied.then (State.pushFrames_same (s.tap u).openFrames _)
  unfold State.abandon
  dsimp only
  split
  next frames =>
    rw [frames] at pushed ⊢
    exact pushed.onTap (.refl _)
  · exact pushed.thenOnTap (fun tp => { tp with openFrames := [] }) (State.append_onTap _ u _)

end

end Sys2Proof.Machine
end

section
/-! SUPPORT. The taps under a notice to each in turn, a close notice, and requests of a status block
write (R40, R75, R89, R93, R99 to R102, R145, R171). -/

namespace Sys2Proof.Machine

/-! ## A notice to each tap in turn -/

/-- A notice to one tap changes no other tap, and nothing outside the tap table, slot supply and the
reporter, from which no queued report leaves. -/
structure ServesTap (f : State → TapNo → State) : Prop where
  only : ∀ (s : State) u, s.OnlyTaps (f s u)
  others : ∀ (s : State) u v, v ≠ u → (f s u).tap v = s.tap v
  reports : ∀ (s : State) u, s.reporter.queue <+: (f s u).reporter.queue

section
variable {f : State → TapNo → State}

theorem ServesTap.foldl_only (serves : ServesTap f) (l : List TapNo) (s : State) :
    s.OnlyTaps (l.foldl f s) := by
  induction l generalizing s with
  | nil => exact rfl
  | cons v l ih => exact (serves.only s v).trans (ih _)

theorem ServesTap.foldl_others (serves : ServesTap f) {l : List TapNo} {u : TapNo} (out : u ∉ l)
    (s : State) : (l.foldl f s).tap u = s.tap u := by
  induction l generalizing s with
  | nil => exact rfl
  | cons v l ih =>
    obtain ⟨ne, out⟩ := not_or.mp (mt List.mem_cons.mpr out)
    exact (ih out _).trans (serves.others s v u ne)

theorem ServesTap.foldl_reports (serves : ServesTap f) (l : List TapNo) (s : State) :
    s.reporter.queue <+: (l.foldl f s).reporter.queue := by
  induction l generalizing s with
  | nil => exact List.prefix_rfl
  | cons v l ih => exact (serves.reports s v).trans (ih _)

theorem ServesTap.eachTap_only (serves : ServesTap f) (s : State) : s.OnlyTaps (s.eachTap f) :=
  serves.foldl_only allTaps s

theorem ServesTap.eachTap_reports (serves : ServesTap f) (s : State) :
    s.reporter.queue <+: (s.eachTap f).reporter.queue := serves.foldl_reports allTaps s

theorem allTaps_parted : ∀ u : TapNo, u ∉ allTaps.take u ∧ u ∉ allTaps.drop (u + 1) := by
  decide

/-- A tap is served once, in a state where it is as it was. -/
theorem ServesTap.eachTap_at (serves : ServesTap f) (s : State) (u : TapNo) :
    ∃ t, s.OnlyTaps t ∧ t.tap u = s.tap u ∧ (s.eachTap f).tap u = (f t u).tap u := by
  obtain ⟨before, after⟩ := allTaps_parted u
  refine ⟨(allTaps.take u).foldl f s, serves.foldl_only _ s, serves.foldl_others before s, ?_⟩
  have split : s.eachTap f = (allTaps.drop (u + 1)).foldl f
      (f ((allTaps.take u).foldl f s) u) := by
    rw [State.eachTap, (allTaps_split u).1, List.foldl_append, List.foldl_cons, ← (allTaps_split u).1]
  rw [split, serves.foldl_others after]

theorem ServesTap.of {f : State → TapNo → State} {R : Tap → Tap → Prop}
    (only : ∀ (s : State) u, s.OnlyTaps (f s u)) (at' : ∀ (s : State) u, s.OnTap (f s u) u R) :
    ServesTap f :=
  ⟨only, fun s u v ne => (at' s u).others v ne, fun s u => (at' s u).reports⟩

theorem State.eachTap_onTap {R : Tap → Tap → Prop} (only : ∀ (s : State) u, s.OnlyTaps (f s u))
    (at' : ∀ (s : State) u, s.OnTap (f s u) u R) (s : State) (u : TapNo) :
    R (s.tap u) ((s.eachTap f).tap u) := by
  obtain ⟨t, -, same, served⟩ := (ServesTap.of only at').eachTap_at s u
  rw [served, ← same]
  exact (at' t u).own

end

theorem State.OnlyTaps.onlyLayout {s t : State} {l : Layout}
    (h : State.OnlyTaps { s with layout := l } t) : s.OnlyLayout t := by
  unfold State.OnlyTaps at h
  unfold State.OnlyLayout
  rw [h]

/-! ## Due marks and a close notice -/

theorem Tap.Stays.closed_iff {a b : Tap} (h : a.Stays b) : b.state = .closed ↔ a.state = .closed := by
  have closed {c : Tap} (is : c.state = .closed) : c.bound = false :=
    c.bound_eq_false.mpr (.inr (.inr is))
  exact ⟨fun is => (h.unbound (h.bound.symm.trans (closed is))).symm.trans is,
    fun is => (h.unbound (closed is)).trans is⟩

section
variable (s : State) (u : TapNo)

theorem State.makeAllDue_tap : s.makeAllDue.tap u = (s.tap u).allDue :=
  State.eachTap_onTap (R := fun old new => new = old.allDue) (fun s u => (s.makeDue_keeps u).only)
    (fun s u => (s.makeDue_sets u).onTap rfl) s u

theorem State.timerCheck_onTap : s.OnTap (s.timerCheck u) u Tap.Queued := by
  unfold State.timerCheck
  split
  · split
    · exact (s.makeDue_sets u).onTap (Tap.allDue_queued _)
    · exact State.onTap_same .refl s u
  · exact State.onTap_same .refl s u

theorem State.raiseTimer_onTap : s.OnTap (s.raiseTimer u) u Tap.Queued := by
  have raised : s.OnTap (s.updTap u fun tp => { tp with timer := tp.timer.map (· + 1) }) u
      Tap.Queued := (s.setsTap_updTap u _).onTap
    ⟨⟨⟨rfl, rfl, rfl, rfl, rfl, rfl, rfl, fun _ => rfl⟩, rfl, fun _ => rfl⟩, rfl⟩
  exact raised.trans (State.timerCheck_onTap _ u) Tap.Queued.trans

theorem State.completeDue_onTap (i : TapInstance) : s.OnTap (s.completeDue u i) u Tap.Stays := by
  unfold State.completeDue
  split
  · split
    · exact State.onTap_same .refl s u
    next l rest _ =>
      have taken : s.OnTap (s.updTap u fun tp => { tp with openFrames := rest }) u Tap.Stays :=
        (s.setsTap_updTap u _).onTap ⟨rfl, rfl, rfl, rfl, rfl, rfl, rfl, fun _ => rfl⟩
      exact taken.trans ((State.completeFrame_onTap _ u _ l).imp Tap.Judged.toStays)
        Tap.Stays.trans
  · exact State.onTap_same .refl s u

theorem State.markFrame_same (d : Depth) (f : FrameNo) (arrives : Bool) (l : LogicalFrame) :
    s.SameTaps (s.markFrame d f arrives l) := by
  unfold State.markFrame
  split
  · exact s.updSlot_same _ _
  · exact .refl s

theorem State.foldl_markFrame_same (d : Depth) (f : FrameNo) (arrives : Bool)
    (frames : List LogicalFrame) :
    s.SameTaps (frames.foldl (fun s l => s.markFrame d f arrives l) s) := by
  induction frames generalizing s with
  | nil => exact .refl s
  | cons l rest ih => exact (s.markFrame_same d f arrives l).trans (ih _)

theorem State.tapCloseNotice_onTap (f : FrameNo) (q : BitVec 2) :
    s.OnTap (State.tapCloseNotice f q s u) u Tap.Stays := by
  unfold State.tapCloseNotice
  split
  · split
    · have held : s.OnTap (s.updTap u fun tp =>
          { tp with holdLength := tp.holdLength.map (fun n => min 65535 (n + 1)) }) u Tap.Stays :=
        (s.setsTap_updTap u _).onTap ⟨rfl, rfl, rfl, rfl, rfl, rfl, rfl, fun _ => rfl⟩
      exact held.trans (.after (State.foldl_markFrame_same _ _ _ _ _)
        (State.completeDue_onTap _ u _)) Tap.Stays.trans
    · exact State.onTap_same .refl s u
  · exact State.onTap_same .refl s u

theorem State.requestStatus_same : s.SameTaps s.requestStatus := s.requestStatus_only.sameTaps

theorem State.closeNotice_tap (f : FrameNo) (q : BitVec 2) :
    (s.tap u).Stays ((s.closeNotice f q).tap u) := by
  have raised := State.eachTap_onTap (fun s u => (s.raiseTimer_keeps u).only)
    (fun s u => s.raiseTimer_onTap u) s.layoutClose u
  have closed := State.eachTap_onTap (fun s u => (State.tapCloseNotice_keeps f q s u).only)
    (fun s u => s.tapCloseNotice_onTap u f q) s.layoutClose.reporterClose u
  have requested := (State.requestStatus_same (s.layoutClose.reporterClose.tapsClose f q)).tap u
  unfold State.closeNotice
  rw [requested]
  exact raised.toStays.trans closed

/-- A close notice empties the assembly buffers and requests a status block write; outside the tap
table, slot supply and the reporter nothing else changes (R40). -/
theorem State.closeNotice_before (f : FrameNo) (q : BitVec 2) : ∃ t,
    State.OnlyTaps { s with layout := { s.layout with buffers := clearBuffers } } t ∧
      s.closeNotice f q = t.requestStatus :=
  ⟨_, ((State.reporterClose_keeps s.layoutClose).trans (State.tapsClose_keeps _ f q)).only, rfl⟩

theorem State.closeNotice_fields (f : FrameNo) (q : BitVec 2) :
    (s.closeNotice f q).device = s.device ∧ (s.closeNotice f q).reception = s.reception ∧
      (s.closeNotice f q).layout = { s.layout with buffers := clearBuffers } := by
  obtain ⟨t, only, same⟩ := s.closeNotice_before f q
  have requested := t.requestStatus_only
  unfold State.OnlyTaps at only
  unfold State.OnlyDirective at requested
  rw [same, requested, only]
  exact ⟨rfl, rfl, rfl⟩

/-- A close notice requests one status block write (R40, R171). -/
theorem State.closeNotice_requests (f : FrameNo) (q : BitVec 2) (live : s.device ≠ .halted) :
    s.directive.RequestedOnce (s.closeNotice f q) := by
  obtain ⟨t, only, same⟩ := s.closeNotice_before f q
  unfold State.OnlyTaps at only
  have device : t.device = s.device := by rw [only]
  have directive : t.directive = s.directive := by rw [only]
  rw [same, ← directive]
  exact t.requestStatus_once (device ▸ live)

theorem State.closeFrame_none {s : State} (closed : s.reception.openFrame = none) :
    s.closeFrame = s := by
  unfold State.closeFrame
  rw [closed]

theorem State.closeFrame_some {s : State} {o : OpenRecord} (opened : s.reception.openFrame = some o) :
    s.closeFrame = State.closeNotice
      { s with reception := { s.reception with openFrame := none } } o.num o.quality := by
  unfold State.closeFrame
  rw [opened]
  rfl

theorem State.closeFrame_tap : (s.tap u).Stays (s.closeFrame.tap u) := by
  cases opened : s.reception.openFrame with
  | none =>
    rw [State.closeFrame_none opened]
    exact .refl _
  | some o =>
    rw [State.closeFrame_some opened]
    exact State.closeNotice_tap { s with reception := { s.reception with openFrame := none } } u
      o.num o.quality

theorem State.closeFrame_fields : s.closeFrame.device = s.device ∧
    s.closeFrame.reception = { s.reception with openFrame := none } ∧
    s.closeFrame.layout.cur = s.layout.cur ∧ s.closeFrame.layout.pend = s.layout.pend := by
  cases opened : s.reception.openFrame with
  | none =>
    rw [State.closeFrame_none opened]
    exact ⟨rfl, by rw [← opened], rfl, rfl⟩
  | some o =>
    rw [State.closeFrame_some opened]
    obtain ⟨device, reception, layout⟩ := State.closeNotice_fields
      { s with reception := { s.reception with openFrame := none } } o.num o.quality
    exact ⟨device, reception, by rw [layout], by rw [layout]⟩

end

/-! ## Requests of a status block write -/

/-- One or more status block writes have been requested of a directive unit (R171). -/
structure DirectiveUnit.Asked (old new : DirectiveUnit) : Prop where
  enable : new.statusEnable = old.statusEnable
  ignored : old.statusEnable = false → new = old
  asked : old.statusEnable = true → new.status ≠ none ∧
    (new.statusRequest = true ∨ new.sequence = old.sequence + 1)

section
variable {s t : State} {d e : DirectiveUnit}

theorem DirectiveUnit.RequestedOnce.disabled (h : d.RequestedOnce t)
    (disabled : d.statusEnable = false) : t.directive = d :=
  (if_pos disabled).mp h

theorem DirectiveUnit.RequestedOnce.starts (h : d.RequestedOnce t) (enabled : d.statusEnable = true)
    (idle : d.status = none) :
    ∃ bs, t.directive = { d with
      statusRequest := false, sequence := d.sequence + 1, status := some bs } := by
  unfold DirectiveUnit.RequestedOnce at h
  rw [if_neg (by rw [enabled]; decide), if_pos idle] at h
  obtain ⟨bs, -, same⟩ := h
  exact ⟨bs, same⟩

theorem DirectiveUnit.RequestedOnce.marks (h : d.RequestedOnce t) (enabled : d.statusEnable = true)
    (busy : d.status ≠ none) : t.directive = { d with statusRequest := true } := by
  unfold DirectiveUnit.RequestedOnce at h
  rwa [if_neg (by rw [enabled]; decide), if_neg busy] at h

theorem DirectiveUnit.RequestedOnce.asked (h : d.RequestedOnce t) : d.Asked t.directive := by
  cases enabled : d.statusEnable with
  | false =>
    rw [h.disabled enabled]
    exact ⟨rfl, fun _ => rfl, fun k => absurd enabled (by rw [k]; decide)⟩
  | true =>
    have other (k : d.statusEnable = false) : t.directive = d :=
      absurd enabled (by rw [k]; decide)
    by_cases idle : d.status = none
    · obtain ⟨bs, same⟩ := h.starts enabled idle
      refine ⟨by rw [same], other, fun _ => ?_⟩
      rw [same]
      exact ⟨nofun, .inr rfl⟩
    · have same := h.marks enabled idle
      refine ⟨by rw [same], other, fun _ => ?_⟩
      rw [same]
      exact ⟨idle, .inl rfl⟩

theorem DirectiveUnit.Asked.again (h : d.Asked e) (k : e.RequestedOnce t) :
    d.Asked t.directive := by
  cases enabled : d.statusEnable with
  | false =>
    have same := h.ignored enabled
    rw [same] at k
    exact k.asked
  | true =>
    have same := k.marks (h.enable.trans enabled) (h.asked enabled).1
    refine ⟨by rw [same]; exact h.enable, fun off => absurd enabled (by rw [off]; decide),
      fun _ => ?_⟩
    rw [same]
    exact ⟨(h.asked enabled).1, .inl rfl⟩

theorem DirectiveUnit.Asked.requested (h : s.directive.Asked t.directive) : s.StatusRequested t := by
  unfold State.StatusRequested
  cases enabled : s.directive.statusEnable with
  | false => exact (if_pos rfl).mpr (h.ignored enabled)
  | true =>
    obtain ⟨busy, asked⟩ := h.asked enabled
    rw [if_neg nofun]
    exact asked.imp id fun next => ⟨next, busy⟩

/-- A frame closed requests one status block write, or none was open (R40). -/
theorem State.closeFrame_asks (live : s.device ≠ .halted) :
    s.closeFrame.directive = s.directive ∨ s.directive.Asked s.closeFrame.directive := by
  cases opened : s.reception.openFrame with
  | none => exact .inl (by rw [State.closeFrame_none opened])
  | some o =>
    rw [State.closeFrame_some opened]
    exact .inr (State.closeNotice_requests
      { s with reception := { s.reception with openFrame := none } } o.num o.quality live).asked

theorem DirectiveUnit.Asked.after (h : e = d ∨ d.Asked e) (k : e.RequestedOnce t) :
    d.Asked t.directive := by
  obtain rfl | h := h
  · exact k.asked
  · exact h.again k

end

/-! ## A tap that loses its instance -/

/-- A tap has lost its instance and taken a state, its open frames gone (R75, R101, R102). -/
structure Tap.Unbound (state : TapState) (old new : Tap) : Prop where
  state : new.state = state
  inst : new.inst = none
  openFrames : new.openFrames = []
  stream : new.stream = old.stream
  params : new.params = old.params
  pendingOpen : new.pendingOpen = old.pendingOpen
  pendingAdjust : new.pendingAdjust = old.pendingAdjust
  lastNumber : new.lastNumber = old.lastNumber

theorem Tap.Stays.unbind {a j : Tap} (h : a.Stays j) (frames : j.openFrames = [])
    (new : TapState) : a.Unbound new (Tap.changed { j with inst := none } new) := by
  obtain ⟨stream, params, opens, adjust, inst, number, openFrames, -⟩ :=
    Tap.changed_kept { j with inst := none } new
  exact ⟨Tap.changed_state _ _, inst, openFrames.trans frames, stream.trans h.stream,
    params.trans h.params, opens.trans h.pendingOpen, adjust.trans h.pendingAdjust,
    number.trans h.lastNumber⟩

theorem Tap.unbind_retained (a : Tap) (new : TapState) :
    (Tap.changed { a with inst := none } new).retained = a.retained :=
  (Tap.changed_kept { a with inst := none } new).2.2.2.2.2.2.2.1

/-- What a tap is Unbound from is read in its stream, parameters, pending changes and number. -/
theorem Tap.Unbound.reread {a b tp : Tap} {st : TapState} (h : a.Unbound st tp)
    (same : a.stream = b.stream ∧ a.params = b.params ∧ a.pendingOpen = b.pendingOpen ∧
      a.pendingAdjust = b.pendingAdjust ∧ a.lastNumber = b.lastNumber) : b.Unbound st tp := by
  obtain ⟨stream, params, opens, adjust, number⟩ := same
  exact ⟨h.state, h.inst, h.openFrames, h.stream.trans stream, h.params.trans params,
    h.pendingOpen.trans opens, h.pendingAdjust.trans adjust, h.lastNumber.trans number⟩

theorem Tap.released_stays (a : Tap) : a.Stays a.released :=
  ⟨rfl, rfl, rfl, rfl, rfl, rfl, rfl, fun _ => rfl⟩

section
variable (s : State) (u : TapNo)

theorem State.unbind_onTap (new : TapState) (r : TapReason) : s.OnTap (s.unbind u new r) u
    fun old tp => tp = Tap.changed { old with inst := none } new :=
  (s.unbind_sets u new r).onTap rfl

/-- A bound tap's instance ended and lost, retention with it (R75, R92). -/
theorem State.endInstance_unbind_onTap (new : TapState) (r : TapReason) :
    s.OnTap ((s.instanceEnd u).unbind u new r) u
      fun old tp => old.Unbound new tp ∧ tp.retained = none := by
  refine (s.instanceEnd_onTap u).trans (State.unbind_onTap _ u new r) ?_
  rintro a j tp judged rfl
  exact ⟨(judged.toStays.unbind judged.openFrames new).reread ⟨rfl, rfl, rfl, rfl, rfl⟩,
    (j.unbind_retained new).trans (Tap.ending_retained judged)⟩

theorem State.abandon_unbind_onTap (new : TapState) (r : TapReason) :
    s.OnTap ((s.abandon u).unbind u new r) u (Tap.Unbound new) := by
  refine (s.abandon_onTap u).trans (State.unbind_onTap _ u new r) ?_
  rintro a j tp judged rfl
  exact (judged.toStays.unbind judged.openFrames new).reread ⟨rfl, rfl, rfl, rfl, rfl⟩

theorem State.abandon_release_onTap : s.OnTap ((s.abandon u).endRetention u) u
    fun old tp => ∃ j, Tap.Judged { old with openFrames := [] } j ∧ tp = j.released :=
  (s.abandon_onTap u).trans
    (S := fun old tp => tp = old.released) ((State.endRetention_sets _ u).onTap rfl)
    fun judged same => ⟨_, judged, same⟩

theorem State.forget_unbind_onTap (new : TapState) (r : TapReason) :
    s.OnTap (((s.abandon u).endRetention u).unbind u new r) u
      fun old tp => old.Unbound new tp ∧ tp.retained = none := by
  refine (s.abandon_release_onTap u).trans (State.unbind_onTap _ u new r) ?_
  rintro a _ tp ⟨j, judged, rfl⟩ rfl
  exact ⟨((judged.toStays.trans j.released_stays).unbind judged.openFrames new).reread
    ⟨rfl, rfl, rfl, rfl, rfl⟩, j.released.unbind_retained new⟩

end

/-! ## A notice that frees each tap of its instance -/

/-- A notice leaves a bound tap as a relation says, an ORPHANED one WAITING and any other as it is
(R75, R101, R102). -/
structure Tap.Leaves (R : Tap → Tap → Prop) (old new : Tap) : Prop where
  bound : old.bound = true → R old new
  orphaned : old.state = .orphaned → new = old.changed .waiting
  other : old.state = .waiting ∨ old.state = .closed → new = old

section
variable {s x y : State} {u : TapNo} {R : Tap → Tap → Prop}

theorem State.leave_bound (bound : (s.tap u).bound = true) :
    (if (s.tap u).bound then x else if (s.tap u).state = .orphaned then y else s) = x := if_pos bound

theorem State.leave_orphaned (orphaned : (s.tap u).state = .orphaned) :
    (if (s.tap u).bound then x else if (s.tap u).state = .orphaned then y else s) = y := by
  have free := (s.tap u).bound_eq_false.mpr (.inr (.inl orphaned))
  exact (if_neg (by rw [free]; decide)).trans (if_pos orphaned)

theorem State.leave_other (other : (s.tap u).state = .waiting ∨ (s.tap u).state = .closed) :
    (if (s.tap u).bound then x else if (s.tap u).state = .orphaned then y else s) = s := by
  have free := (s.tap u).bound_eq_false.mpr (by tauto)
  refine (if_neg (by rw [free]; decide)).trans (if_neg ?_)
  obtain waiting | closed := other
  · rw [waiting]; decide
  · rw [closed]; decide

theorem State.leave_enters {r : TapReason} (orphaned : (s.tap u).state = .orphaned) :
    s.Enters (if (s.tap u).bound then x else if (s.tap u).state = .orphaned then
      s.setTapState u .waiting r else s) u .waiting r := by
  rw [State.leave_orphaned orphaned]
  exact s.setTapState_enters u _ _

theorem State.leave_unbinds {v : State} {r : TapReason} (bound : (s.tap u).bound = true) :
    v.Unbinds (if (s.tap u).bound then v.unbind u .waiting r else if (s.tap u).state = .orphaned then
      y else s) u .waiting r := by
  rw [State.leave_bound bound]
  exact v.unbind_unbinds u _ _

theorem State.leave_onTap {r : TapReason}
    (leaves : (s.tap u).bound = true → s.OnTap x u R) :
    s.OnTap (if (s.tap u).bound then x else if (s.tap u).state = .orphaned then
      s.setTapState u .waiting r else s) u (Tap.Leaves R) := by
  by_cases bound : (s.tap u).bound = true
  · rw [State.leave_bound bound]
    obtain ⟨reports, others, own⟩ := leaves bound
    refine ⟨reports, others, fun _ => own, fun k => ?_, fun k => ?_⟩
    · exact absurd bound (by rw [(Tap.bound_eq_false _).mpr (.inr (.inl k))]; decide)
    · exact absurd bound (by rw [(Tap.bound_eq_false _).mpr (by tauto)]; decide)
  · obtain waiting | orphaned | closed := (s.tap u).bound_eq_false.mp ((Bool.not_eq_true _).mp bound)
    · rw [State.leave_other (.inl waiting)]
      exact ⟨List.prefix_rfl, fun _ _ => rfl, fun k => absurd k bound, fun k => absurd (waiting.symm.trans k) (by decide),
        fun _ => rfl⟩
    · rw [State.leave_orphaned orphaned]
      refine (s.setTapState_sets u .waiting r).onTap
        ⟨fun k => absurd k bound, fun _ => rfl, fun k => ?_⟩
      rw [orphaned] at k
      exact absurd k (by decide)
    · rw [State.leave_other (.inr closed)]
      exact ⟨List.prefix_rfl, fun _ _ => rfl, fun k => absurd k bound, fun k => absurd (closed.symm.trans k) (by decide),
        fun _ => rfl⟩

end

section
variable (s : State) (u : TapNo)

theorem State.tapStop_onTap :
    s.OnTap (State.tapStop s u) u (Tap.Leaves (Tap.Unbound .waiting)) :=
  State.leave_onTap fun _ => s.abandon_unbind_onTap u .waiting .stopped

theorem State.tapForget_onTap : s.OnTap (State.tapForget s u) u
    (Tap.Leaves fun old new => old.Unbound .waiting new ∧ new.retained = none) :=
  State.leave_onTap fun _ => s.forget_unbind_onTap u .waiting .streamUnknown

theorem State.tapVersion_onTap : s.OnTap (State.tapVersion s u) u
    (Tap.Leaves fun old new => old.Unbound .waiting new ∧ new.retained = none) :=
  State.leave_onTap fun _ => s.endInstance_unbind_onTap u .waiting .streamUnknown

end

end Sys2Proof.Machine
end

section
/-! CLAIMS. START, STOP, FORCE_RESYNC and FORGET_LAYOUT (R50, R53, R76, R93, R99, R101, R102, R146,
R168, R177, R178). -/

namespace Sys2Proof.Machine

/-! ## A tap at the stop and the forget notice (R93, R101, R102) -/

/-- What a tap has after it has been freed of its instance (R101, R102). -/
structure Tap.Freed (old new : Tap) : Prop where
  state : new.state = if old.state = .closed then .closed else .waiting
  left : old.bound = true → new.inst = none ∧ new.openFrames = []
  stream : new.stream = old.stream
  pendingOpen : new.pendingOpen = old.pendingOpen
  pendingAdjust : new.pendingAdjust = old.pendingAdjust

theorem Tap.Leaves.freed {R : Tap → Tap → Prop} {old new : Tap} (h : old.Leaves R new)
    (unbound : R old new → old.Unbound .waiting new) : old.Freed new := by
  have other (is : old.state = .waiting ∨ old.state = .closed) : old.Freed new := by
    rw [h.other is]
    refine ⟨?_, fun bound => ?_, rfl, rfl, rfl⟩
    · obtain is | is := is <;> rw [is] <;> rfl
    · exact absurd bound (by rw [old.bound_eq_false.mpr (by tauto)]; decide)
  cases state : old.state with
  | waiting => exact other (.inl state)
  | closed => exact other (.inr state)
  | orphaned =>
    obtain ⟨stream, -, opens, adjust, -⟩ := old.changed_kept .waiting
    rw [h.orphaned state]
    refine ⟨by rw [Tap.changed_state, state]; rfl, fun bound => ?_, stream, opens, adjust⟩
    exact absurd bound (by rw [old.bound_eq_false.mpr (.inr (.inl state))]; decide)
  | running =>
    have left := unbound (h.bound (old.bound_iff.mpr (.inl state)))
    exact ⟨by rw [left.state, state]; rfl, fun _ => ⟨left.inst, left.openFrames⟩, left.stream,
      left.pendingOpen, left.pendingAdjust⟩
  | holding =>
    have left := unbound (h.bound (old.bound_iff.mpr (.inr state)))
    exact ⟨by rw [left.state, state]; rfl, fun _ => ⟨left.inst, left.openFrames⟩, left.stream,
      left.pendingOpen, left.pendingAdjust⟩

/-! ## STOP (R53, R102, R178) -/

theorem DeviceState.active_ne {d : DeviceState} (active : d.active = true) :
    d ≠ .stopped ∧ d ≠ .halted := by
  constructor <;> rintro rfl <;> cases active

theorem State.ChangesDevice.taps {s t : State} {d : DeviceState} (h : s.ChangesDevice t d) :
    t.taps = s.taps := by
  rw [h.1]

theorem State.ChangesDevice.reporter {s t : State} {d : DeviceState} (h : s.ChangesDevice t d) :
    t.reporter = s.reporter := by
  rw [h.1]

section
variable {s : State}

theorem State.runStop_active (active : s.device.active = true) : s.runStop = s.stopDevice := by
  obtain ⟨stopped, halted⟩ := DeviceState.active_ne active
  unfold State.runStop
  rw [State.isHalted_of_live halted, if_neg stopped]
  rfl

theorem State.runStop_stopped (stopped : s.device = .stopped) : s.runStop = s := by
  unfold State.runStop
  rw [State.isHalted_of_live (by rw [stopped]; decide), if_pos stopped]
  rfl

/-- The device taken to STOPPED after the stop notice (R178). -/
theorem State.stopDevice_changes (s : State) : ∃ n, n = s.closeFrame.stopNotice ∧
    State.ChangesDevice { n with reception := { n.reception with
      expected := none, coast := 0, sealLate := false, gapTimer := none } } s.stopDevice .stopped :=
  ⟨_, rfl, State.changeDevice_changes _ .stopped (by decide)⟩

/-- A tap after STOP. -/
theorem State.stopDevice_tap (s : State) (u : TapNo) : ∃ tp,
    Tap.Freed (s.closeFrame.tap u) tp ∧ s.stopDevice.tap u = tp.allDue := by
  obtain ⟨n, noticed, changes⟩ := s.stopDevice_changes
  have served := State.eachTap_onTap (fun s u => (s.tapStop_keeps u).only)
    (fun s u => s.tapStop_onTap u) s.closeFrame u
  refine ⟨_, served.freed id, (State.tap_of_taps changes.taps u).trans ?_⟩
  rw [← State.makeAllDue_tap, ← State.stopNotice, ← noticed]
  rfl

/-- What STOP leaves of the device, the record and the directive unit (R178). -/
theorem State.stopDevice_fields (active : s.device.active = true) :
    s.stopDevice.device = .stopped ∧
    s.stopDevice.reception = { s.reception with
      openFrame := none, expected := none, coast := 0, sealLate := false, gapTimer := none } ∧
    s.stopDevice.layout.cur = s.layout.cur ∧ s.stopDevice.layout.pend = s.layout.pend ∧
    s.StatusRequested s.stopDevice := by
  obtain ⟨stopped, live⟩ := DeviceState.active_ne active
  obtain ⟨n, noticed, same, -, requested⟩ := s.stopDevice_changes
  obtain ⟨-, -, device, -, -, reception, layout, directive, -⟩ := s.closeFrame.stopNotice_keeps.same
  obtain ⟨closedDevice, closedReception, cur, pend⟩ := s.closeFrame_fields
  rw [← noticed] at device reception layout directive
  have asked := (s.closeFrame_asks live).imp (directive.trans ·) (directive ▸ ·)
  refine ⟨by rw [same], ?_, ?_, ?_, (DirectiveUnit.Asked.after asked (requested ?_)).requested⟩
  · rw [same, reception, closedReception]
  · rw [same, ← cur, layout]
  · rw [same, ← pend, layout]
  · exact ne_of_eq_of_ne (device.trans closedDevice) stopped

end

/-- Settles O49: a tap is followed through the close notice, the stop notice and the due marks, each
of which serves it once. -/
theorem startAndStop : Obligations.StartAndStop := by
  unfold Obligations.StartAndStop
  refine ⟨fun s up ⟨stopped, configured⟩ => ?_, fun s up stopped => ?_, fun s up active => ?_,
    fun s up active => ?_, ?_⟩
  · have start : s.runStart = s.startDevice := by
      unfold State.runStart
      rw [stopped, Option.isNone_eq_false_iff.mpr (Option.isSome_iff_ne_none.mpr configured)]
      rfl
    obtain ⟨same, -, requested⟩ := State.changeDevice_changes { s with reception := { s.reception with
      openFrame := none, expected := none, coast := 0, sealLate := false, gapTimer := none } }
      .acquiring (by decide)
    refine ⟨s.startDevice, (exec_start up).trans (by rw [start]), same, requested ?_⟩
    exact ne_of_eq_of_ne stopped (by decide)
  · rw [exec_stop up, State.runStop_stopped stopped]
  · obtain ⟨device, reception, cur, pend, requested⟩ := State.stopDevice_fields active
    refine ⟨_, (exec_stop up).trans (by rw [State.runStop_active active]), device, requested,
      s.stopDevice_upkeep.outside, reception, cur, pend, fun u => ?_⟩
    obtain ⟨tp, stop, same⟩ := s.stopDevice_tap u
    have closed := s.closeFrame_tap u
    rw [same]
    refine ⟨?_, fun bound => stop.left (closed.bound.trans bound), stop.stream.trans closed.stream,
      stop.pendingOpen.trans closed.pendingOpen, stop.pendingAdjust.trans closed.pendingAdjust,
      fun e mem => ?_, rfl⟩
    · simp only [← closed.closed_iff]
      exact stop.state
    · obtain ⟨_, -, rfl⟩ := List.mem_map.mp mem
      rfl
  · obtain ⟨n, noticed, changes⟩ := s.stopDevice_changes
    refine ⟨_, _, n, (exec_stop up).trans (by rw [State.runStop_active active]), s.closeFrame_closes,
      ?_, changes⟩
    rw [← State.eachTap_foldl, noticed]
    exact State.makeAllDue_makes _
  · intro s u
    exact ⟨fun bound => ⟨s.abandon u, s.abandon_abandons u, State.leave_unbinds bound⟩,
      State.leave_enters, State.leave_other⟩

/-! ## FORGET_LAYOUT (R76, R101) -/

theorem State.runForgetLayout_live {s : State} (live : s.device ≠ .halted) :
    s.runForgetLayout = s.forgetMaps := by
  unfold State.runForgetLayout
  rw [State.isHalted_of_live live]
  rfl

/-- Settles O55: both maps are emptied, and then each tap takes the forget notice. -/
theorem forgetLayoutTaken : Obligations.ForgetLayoutTaken := by
  unfold Obligations.ForgetLayoutTaken
  have forget {s : State} (up : s.Up) (live : s.device ≠ .halted) :
      exec .forgetLayout s = .next s.forgetMaps :=
    (exec_forgetLayout up).trans (by rw [State.runForgetLayout_live live])
  refine ⟨fun s up live => ⟨_, forget up live, ?_, ?_, fun u => ?_⟩, fun s up live => ?_,
    fun s u => ⟨fun bound => ?_, State.leave_enters, State.leave_other⟩, rfl, rfl⟩
  · exact State.OnlyTaps.onlyLayout (s := s) (State.forgetNotice_keeps _).only
  · exact (State.forgetNotice_keeps _).same.2.2.2.2.2.2.1
  · have left := State.eachTap_onTap (fun s u => (s.tapForget_keeps u).only)
      (fun s u => s.tapForget_onTap u)
      ((s.setCurrent CurrentMap.empty).setPending PendingMap.none) u
    have freed := left.freed And.left
    refine ⟨fun bound => ?_, fun orphaned => ?_, fun other => ?_, freed.stream, freed.pendingOpen,
      freed.pendingAdjust⟩
    · obtain ⟨unbound, retained⟩ := left.bound bound
      exact ⟨unbound.state, unbound.inst, unbound.openFrames, retained⟩
    · exact (congrArg Tap.state (left.orphaned orphaned)).trans (Tap.changed_state _ _)
    · exact congrArg Tap.state (left.other other)
  · rw [forget up live, State.forgetMaps, State.forgetNotice, State.eachTap_foldl]
    rfl
  · exact ⟨_, _, s.abandon_abandons u, State.endRetention_ends _ u, State.leave_unbinds bound⟩

end Sys2Proof.Machine
end

section
/-! CLAIMS. FORCE_RESYNC and the resync notice (R50, R51, R93, R99, R120, R146, R168). -/

namespace Sys2Proof.Machine

/-- A tap after the resync notice (R99). -/
structure Tap.Resynced (old new : Tap) : Prop where
  bound : old.bound = true → new.state = .holding ∧ new.openFrames = [] ∧ new.retained = none ∧
    new.inst = old.inst.map fun i => { i with restart := true }
  unbound : old.bound = false → new = old
  stream : new.stream = old.stream

section
variable {s : State} {u : TapNo}

/-- A tap whose instance awaits restart (R88, R99). -/
def Tap.awaiting (tp : Tap) : Tap :=
  { tp with inst := tp.inst.map fun i => { i with restart := true } }

theorem State.tapResync_bound (bound : (s.tap u).bound = true) : State.tapResync s u =
    (((s.abandon u).endRetention u).updTap u Tap.awaiting).setTapState u .holding .resync :=
  if_pos bound

theorem State.tapResync_unbound (unbound : (s.tap u).bound = false) : State.tapResync s u = s :=
  if_neg (by rw [unbound]; decide)

theorem State.tapResync_onTap (s : State) (u : TapNo) :
    s.OnTap (State.tapResync s u) u Tap.Resynced := by
  cases bound : (s.tap u).bound with
  | false =>
    rw [State.tapResync_unbound bound]
    exact ⟨List.prefix_rfl, fun _ _ => rfl, fun k => absurd k (by rw [bound]; decide), fun _ => rfl,
      rfl⟩
  | true =>
    rw [State.tapResync_bound bound]
    have awaits := (State.setsTap_updTap ((s.abandon u).endRetention u) u Tap.awaiting).onTap
      (R := fun old new => new = old.awaiting) rfl
    have held := (State.setTapState_sets (((s.abandon u).endRetention u).updTap u Tap.awaiting) u
      .holding .resync).onTap (R := fun old new => new = old.changed .holding) rfl
    have marked := (s.abandon_release_onTap u).trans awaits
      (T := fun old new => ∃ j, Tap.Judged { old with openFrames := [] } j ∧
        new = j.released.awaiting) fun ⟨j, judged, same⟩ next => ⟨j, judged, next.trans (by rw [same])⟩
    obtain ⟨reports, others, _, ⟨j, judged, rfl⟩, next⟩ := marked.trans held
      (T := fun old new => ∃ mid, (∃ j, Tap.Judged { old with openFrames := [] } j ∧
        mid = j.released.awaiting) ∧ new = mid.changed .holding) fun h k => ⟨_, h, k⟩
    obtain ⟨stream, -, -, -, inst, -, frames, retained, -⟩ :=
      j.released.awaiting.changed_kept .holding
    refine ⟨reports, others, ?_⟩
    rw [next]
    exact ⟨fun _ => ⟨Tap.changed_state _ _, frames.trans judged.openFrames, retained,
      inst.trans (congrArg (Option.map _) judged.inst)⟩, fun k => absurd bound (by rw [k]; decide),
      stream.trans judged.stream⟩

end

/-! ## The resync -/

section
variable {s : State}

theorem State.runForceResync_active (active : s.device.active = true) :
    s.runForceResync = s.resync := by
  unfold State.runForceResync
  rw [active]
  rfl

/-- The steps of a resync: the open frame closed, the report handed, the notice given, the device
ACQUIRING (R50). -/
theorem State.resync_changes (s : State) : ∃ v n, v = s.closeFrame.handReception .resync
      s.closeFrame.reception.coast ∧ n = v.resyncNotice ∧
    State.ChangesDevice { n with reception := { n.reception with
      expected := none, coast := 0, gapTimer := none } } s.resync .acquiring :=
  ⟨_, _, rfl, rfl, State.changeDevice_changes _ .acquiring (by decide)⟩

/-- A tap after a resync. -/
theorem State.resync_tap (s : State) (u : TapNo) : ∃ tp,
    Tap.Resynced (s.closeFrame.tap u) tp ∧ s.resync.tap u = tp.allDue := by
  obtain ⟨v, n, handed, noticed, changes⟩ := s.resync_changes
  have served := State.eachTap_onTap (fun s u => (s.tapResync_keeps u).only)
    (fun s u => s.tapResync_onTap u) v u
  have same : v.tap u = s.closeFrame.tap u := by
    rw [handed]
    exact (s.closeFrame.hand_same (.reception .resync s.closeFrame.reception.coast)).tap u
  rw [same] at served
  refine ⟨_, served, (State.tap_of_taps changes.taps u).trans ?_⟩
  rw [← State.makeAllDue_tap, ← State.resyncNotice, ← noticed]
  rfl

/-- What a resync leaves of the device, the record and the maps (R50). -/
theorem State.resync_fields (s : State) : s.resync.device = .acquiring ∧
    s.resync.reception = { s.reception with
      openFrame := none, expected := none, coast := 0, gapTimer := none } ∧
    s.resync.layout.cur = s.layout.cur ∧ s.resync.layout.pend = s.layout.pend := by
  obtain ⟨v, n, handed, noticed, same, -⟩ := s.resync_changes
  obtain ⟨-, -, -, -, -, reception, layout, -⟩ :=
    ((s.closeFrame.hand_keeps (.reception .resync s.closeFrame.reception.coast)).trans
      (State.resyncNotice_keeps _)).same
  obtain ⟨-, closed, cur, pend⟩ := s.closeFrame_fields
  rw [← State.handReception, ← handed, ← noticed] at reception layout
  refine ⟨by rw [same], ?_, ?_, ?_⟩
  · rw [same, reception, closed]
  · rw [same, ← cur, layout]
  · rw [same, ← pend, layout]

/-- A resync that leaves another state than ACQUIRING requests a status block write (R171). -/
theorem State.resync_requests (live : s.device ≠ .halted) (other : s.device ≠ .acquiring) :
    s.StatusRequested s.resync := by
  obtain ⟨v, n, handed, noticed, -, -, requested⟩ := s.resync_changes
  obtain ⟨-, -, device, -, -, -, -, directive, -⟩ :=
    ((s.closeFrame.hand_keeps (.reception .resync s.closeFrame.reception.coast)).trans
      (State.resyncNotice_keeps _)).same
  rw [← State.handReception, ← handed, ← noticed] at device directive
  have asked := (s.closeFrame_asks live).imp (directive.trans ·) (directive ▸ ·)
  exact (DirectiveUnit.Asked.after asked (requested
    (ne_of_eq_of_ne (device.trans s.closeFrame_fields.1) other))).requested

/-- The "resync" report stays queued through the notice, unless a full queue dropped it (R141). -/
theorem State.resync_reports (live : s.device ≠ .halted) :
    { body := .reception .resync s.reception.coast, flush := 0 } ∈ s.resync.reporter.queue ∨
      32 ≤ s.resync.reporter.queue.length := by
  obtain ⟨v, n, handed, noticed, changes⟩ := s.resync_changes
  obtain ⟨device, reception, -⟩ := s.closeFrame_fields
  have joined := (s.closeFrame.hand_hands (.reception .resync s.closeFrame.reception.coast)).joined
    (ne_of_eq_of_ne device live)
  rw [← State.handReception, ← handed, reception] at joined
  have notice : v.reporter.queue <+: n.reporter.queue := by
    have resyncs := ServesTap.of (fun s u => (s.tapResync_keeps u).only) fun s u => s.tapResync_onTap u
    have dues := ServesTap.of (R := fun old new => new = old.allDue)
      (fun s u => (s.makeDue_keeps u).only) fun s u => (s.makeDue_sets u).onTap rfl
    rw [noticed, State.resyncNotice, State.makeAllDue]
    exact (resyncs.eachTap_reports v).trans (dues.eachTap_reports (v.eachTap State.tapResync))
  rw [show s.resync.reporter = n.reporter from changes.reporter]
  exact joined.imp (notice.subset ·) (le_trans · notice.length_le)

end

/-- Settles O54: a tap is followed through the close notice, the resync notice and the due marks. -/
theorem forceResyncTaken : Obligations.ForceResyncTaken := by
  unfold Obligations.ForceResyncTaken
  have force {s : State} (up : s.Up) (active : s.device.active = true) :
      exec .forceResync s = .next s.resync :=
    (exec_forceResync up).trans (by rw [State.runForceResync_active active])
  refine ⟨fun s up active => ?_, fun s up active => ⟨_, force up active, s.resync_resyncs⟩,
    fun s u => ⟨fun bound => ?_, State.tapResync_unbound⟩⟩
  · obtain ⟨-, live⟩ := DeviceState.active_ne active
    obtain ⟨device, reception, cur, pend⟩ := s.resync_fields
    refine ⟨_, force up active, device, s.resync_upkeep.outside, reception, cur, pend,
      State.resync_requests live, State.resync_reports live, fun u => ?_⟩
    obtain ⟨tp, resynced, same⟩ := s.resync_tap u
    have closed := s.closeFrame_tap u
    rw [same]
    refine ⟨fun bound => ?_, fun free => ?_, resynced.stream.trans closed.stream, fun e mem => ?_, rfl⟩
    · obtain ⟨state, frames, retained, inst⟩ := resynced.bound (closed.bound.trans bound)
      refine ⟨state, frames, retained, fun n found => ?_⟩
      obtain ⟨_, -, rfl⟩ := Option.map_eq_some_iff.mp (inst.symm.trans found)
      rfl
    · exact (congrArg Tap.state (resynced.unbound (closed.bound.trans free))).trans
        (closed.unbound free)
    · obtain ⟨_, -, rfl⟩ := List.mem_map.mp mem
      rfl
  · refine ⟨_, _, s.abandon_abandons u, State.endRetention_ends _ u, ?_⟩
    rw [State.tapResync_bound bound]
    exact State.setTapState_enters _ u .holding .resync

end Sys2Proof.Machine
end

section
/-! CLAIMS. Ready front completions of a tap judged in turn (R94). -/

namespace Sys2Proof.Machine

section
variable {s : State} {u : TapNo} {c : Completion} {rest : List Completion}

theorem State.ready_iff (s : State) (c : Completion) : s.ready c = true ↔
    ∀ a e, c.kind = .slot a → s.slot a = some e → e.outstanding = 0 := by
  unfold State.ready
  cases c.kind with
  | slot a =>
    dsimp only
    constructor
    · rintro ready _ e ⟨⟩ found
      simpa [found] using ready
    · intro ready
      cases found : s.slot a with
      | none => rfl
      | some e => simpa using ready a e rfl found
  | starved => simp
  | abandoned => simp

theorem State.settle_nil (empty : (s.tap u).settling = []) : s.settle u = s := by
  unfold State.settle
  rw [empty]
  rfl

theorem State.settle_waits (front : (s.tap u).settling = c :: rest) (busy : ¬ s.ready c = true) :
    s.settle u = s := by
  unfold State.settle
  rw [front, List.length_cons, State.judgeFront]
  simp only [front]
  exact if_neg busy

/-- The front completion taken out and judged (R94). -/
def State.judgeNext (s : State) (u : TapNo) (c : Completion) (rest : List Completion) : State :=
  (s.setTap u { s.tap u with settling := rest }).judge u c

theorem State.judgeNext_onTap (s : State) (u : TapNo) (c : Completion) (rest : List Completion) :
    s.OnTap (s.judgeNext u c rest) u fun old new => Tap.Queued { old with settling := rest } new :=
  (s.setsTap_setTap u { s.tap u with settling := rest }).thenOnTap
    (fun tp => { tp with settling := rest }) (State.judge_onTap _ u c)

theorem State.judgeNext_only (s : State) (u : TapNo) (c : Completion) (rest : List Completion) :
    s.OnlyTaps (s.judgeNext u c rest) :=
  (State.setTap_onlyTaps s u _).trans (State.judge_keeps _ u c).only

theorem State.settle_judges (front : (s.tap u).settling = c :: rest) (ready : s.ready c = true) :
    s.settle u = (s.judgeNext u c rest).settle u := by
  have settling := (s.judgeNext_onTap u c rest).own.settling
  unfold State.settle
  rw [settling, front, List.length_cons, State.judgeFront]
  simp only [front]
  exact if_pos ready

theorem State.settle_others (s : State) {u v : TapNo} (ne : v ≠ u) :
    (s.settle u).tap v = s.tap v := (s.settle_onTap u).others v ne

theorem exec_settles (up : s.Up) (live : s.device ≠ .halted) :
    exec (.settledCompletionJudged u) s = .next (s.settle u) := by
  rw [exec_settledCompletionJudged up, if_neg live]

theorem State.OnlyTaps.up {s t : State} (h : s.OnlyTaps t) (up : s.Up) : t.Up := by
  rw [show t = _ from h]
  exact up

theorem State.OnlyTaps.device {s t : State} (h : s.OnlyTaps t) : t.device = s.device := by
  rw [show t = _ from h]

end

/-- Settles O32: the front completion is taken out and judged, and the list is settled on. -/
theorem settledFrontJudged : Obligations.SettledFrontJudged := by
  unfold Obligations.SettledFrontJudged
  intro s u up
  by_cases halted : s.device = .halted
  · exact ⟨s, by rw [exec_settledCompletionJudged up, if_pos halted], rfl, fun _ _ => rfl,
      fun _ => rfl, fun _ _ live => absurd halted live⟩
  · refine ⟨_, exec_settles up halted, (s.settle_keeps u).only, fun v ne => s.settle_others ne,
      fun idle => State.settle_nil (idle.resolve_left halted), fun c rest _ front => ?_⟩
    dsimp only
    rw [← State.ready_iff]
    refine ⟨State.settle_waits front, fun ready => ⟨s.judgeNext u c rest, rfl,
      (s.judgeNext_onTap u c rest).own.settling, s.judgeNext_only u c rest, ?_, ?_⟩⟩
    · exact ne_of_eq_of_ne (s.judgeNext_only u c rest).device halted
    · rw [State.settle_judges front ready]
      exact exec_settles ((s.judgeNext_only u c rest).up up)
        (ne_of_eq_of_ne (s.judgeNext_only u c rest).device halted)

end Sys2Proof.Machine
end

section
/-! SUPPORT. A judged completion merged, discarded or queued (R95 to R98, R126 to R132, R134). -/

namespace Sys2Proof.Machine

/-! ## What an operation on a tap keeps of slot supply and the flags -/

section
variable {s t : State}

theorem State.OnlyReporter.supply (h : s.OnlyReporter t) : t.supply = s.supply := by
  rw [show t = _ from h]

theorem State.Latches.flag {f g : Flag} (h : s.Latches t f) (set : s.reporter.flagSet g = true) :
    t.reporter.flagSet g = true := by
  rw [h.2.1 g, set]
  rfl

theorem State.Latches.set {f : Flag} (h : s.Latches t f) : t.reporter.flagSet f = true := by
  rw [h.2.1 f, beq_self_eq_true, Bool.or_true]

end

section
variable (s : State) (u : TapNo)

theorem State.testReports_supply : s.testReports.supply = s.supply := s.testReports_only.supply

theorem State.latch_supply (f : Flag) : (s.latch f).supply = s.supply :=
  (s.latch_latches f).only.supply

theorem State.handWith_supply (b : ReportBody) (n : Nat) : (s.handWith b n).supply = s.supply :=
  (s.handWith_hands b n).only.supply

theorem State.makeDue_supply : (s.makeDue u).supply = s.supply := by
  unfold State.makeDue
  dsimp only
  split
  · exact State.testReports_supply _
  · rfl

theorem State.setTapState_supply (new : TapState) (r : TapReason) :
    (s.setTapState u new r).supply = s.supply := by
  unfold State.setTapState
  split
  · rfl
  · exact State.handWith_supply _ _ _

theorem State.holdAfterDiscard_supply : (s.holdAfterDiscard u).supply = s.supply := by
  unfold State.holdAfterDiscard
  split
  · exact s.setTapState_supply u _ _
  · rfl

theorem State.enqueue_supply (e : QueueEntry) : (s.enqueue u e).supply = s.supply := by
  unfold State.enqueue
  dsimp only
  split
  · exact State.testReports_supply _
  · rfl

theorem State.resume_supply : (s.resume u).supply = s.supply := by
  unfold State.resume
  split
  · exact State.setTapState_supply _ u _ _
  · rfl

/-- A readiness test latches at most REPORTS_BLOCKED and clears no flag (R142). -/
theorem State.testReports_flag {g : Flag} (set : s.reporter.flagSet g = true) :
    s.testReports.reporter.flagSet g = true := by
  obtain same | ⟨r, c, -, -, same⟩ | ⟨r, -, -, same⟩ := s.testReports_cases
  · rw [same]
    exact set
  · rw [same]
    exact set
  · rw [same]
    exact (s.latch_latches .reportsBlocked).flag set

theorem State.handWith_flag {g : Flag} (b : ReportBody) (n : Nat)
    (set : s.reporter.flagSet g = true) : (s.handWith b n).reporter.flagSet g = true := by
  unfold State.handWith
  split
  · exact set
  · refine State.testReports_flag _ ?_
    unfold State.updReporter Reporter.accept
    dsimp only
    split
    · exact set
    · rw [Reporter.latch_flagSet]
      exact Bool.or_eq_true_iff.mpr (.inl set)

theorem State.holdAfterDiscard_flag {g : Flag} (set : s.reporter.flagSet g = true) :
    (s.holdAfterDiscard u).reporter.flagSet g = true := by
  unfold State.holdAfterDiscard State.setTapState
  split
  · split
    · exact set
    · exact State.handWith_flag _ _ _ set
  · exact set

theorem State.discardFull_blocks (kind : CompletionKind) (run : Nat) :
    (s.discardFull u kind run).reporter.flagSet .reportsBlocked = true :=
  State.holdAfterDiscard_flag _ u (State.latch_latches _ _).set

end

/-! ## Slots given back (R108, R116) -/

/-- An address is in slot supply: on the spare stack or RETURNING (R108, R117). -/
def State.Spares (s : State) (a : Word) : Prop := a ∈ s.supply.stack ∨ a ∈ s.returning

section
variable {s t : State} {a : Word}

theorem State.Spares.of_supply (same : t.supply = s.supply) (h : s.Spares a) : t.Spares a := by
  unfold State.Spares State.returning at *
  rwa [same]

theorem State.mem_returning {s : State} {a : Word} :
    a ∈ s.returning ↔ ∃ e ∈ s.supply.table, e.state = .returning ∧ e.addr = a := by
  simp [State.returning, and_assoc]

theorem State.push_spares (s : State) (a : Word) : (s.push a).Spares a := by
  unfold State.push
  dsimp only
  by_cases room : s.supply.stack.length < Config.stackCapacity
  · rw [if_pos room]
    refine .inl ?_
    rw [State.updSupply, Supply.place, if_pos room]
    exact List.mem_cons_self
  · rw [if_neg room]
    refine .of_supply (State.testReports_supply _) (.inr (State.mem_returning.mpr
      ⟨returningEntry a, ?_, rfl, rfl⟩))
    rw [State.updSupply, Supply.place, if_neg room]
    exact List.mem_append_right _ (List.mem_singleton.mpr rfl)

theorem State.pushRequest_idle {e : SlotEntry} (found : s.slot a = some e) (idle : e.outstanding = 0)
    (kept : e.awaitingPush = false) : s.pushRequest a = s.removeAndPush a := by
  unfold State.pushRequest
  rw [found]
  dsimp only
  rw [kept, if_neg nofun, if_pos idle]

theorem State.pushRequest_spares {e : SlotEntry} (found : s.slot a = some e)
    (idle : e.outstanding = 0) (kept : e.awaitingPush = false) : (s.pushRequest a).Spares a := by
  rw [State.pushRequest_idle found idle kept]
  exact State.push_spares _ a

theorem State.discardFull_spares {u : TapNo} {run : Nat} {e : SlotEntry} (found : s.slot a = some e)
    (idle : e.outstanding = 0) (kept : e.awaitingPush = false) :
    (s.discardFull u (.slot a) run).Spares a := by
  refine .of_supply ((State.holdAfterDiscard_supply _ u).trans (State.latch_supply _ _)) ?_
  exact .of_supply rfl (State.pushRequest_spares found idle kept)

end

/-! ## The judged completion (R95, R96, R98) -/

theorem mergesInto_iff (last : QueueEntry) (c : Completion) : mergesInto last c = true ↔
    c.kind = .starved ∧ last.outcome = .starved ∧ last.number = c.number ∧ last.run < 255 ∧
      last.frame + BitVec.ofNat 12 last.run = c.frame := by
  simp [mergesInto, and_assoc]

section
variable {s : State} {u : TapNo} {c : Completion}

theorem State.judge_merge {last : QueueEntry} (back : (s.tap u).queue.getLast? = some last)
    (merges : mergesInto last c = true) : s.judge u c = s.merge u last c := by
  unfold State.judge
  dsimp only
  rw [back, Option.filter_some, if_pos merges]

theorem State.unmerged
    (apart : ∀ last, (s.tap u).queue.getLast? = some last → ¬ mergesInto last c = true) :
    (s.tap u).queue.getLast?.filter (fun last => mergesInto last c) = none :=
  Option.filter_eq_none_iff.mpr apart

theorem State.judge_full (full : 8 ≤ (s.tap u).queue.length)
    (apart : ∀ last, (s.tap u).queue.getLast? = some last → ¬ mergesInto last c = true) :
    s.judge u c = s.discardFull u c.kind c.run := by
  unfold State.judge
  dsimp only
  rw [State.unmerged apart]
  exact if_pos full

theorem State.judge_starved (room : (s.tap u).queue.length < 8) (kind : c.kind = .starved)
    (apart : ∀ last, (s.tap u).queue.getLast? = some last → ¬ mergesInto last c = true) :
    s.judge u c = s.enqueue u (c.entry .starved none 0) := by
  unfold State.judge
  dsimp only
  rw [State.unmerged apart]
  refine (if_neg (not_le.mpr room)).trans ?_
  rw [kind]

theorem State.apart_of_kind (kind : c.kind ≠ .starved) (last : QueueEntry)
    (_ : (s.tap u).queue.getLast? = some last) : ¬ mergesInto last c = true :=
  fun merges => kind ((mergesInto_iff last c).mp merges).1

theorem State.judge_abandoned (room : (s.tap u).queue.length < 8) (kind : c.kind = .abandoned) :
    s.judge u c = s.enqueue u (c.entry .abandoned none 0) := by
  unfold State.judge
  dsimp only
  rw [State.unmerged (State.apart_of_kind (by rw [kind]; exact nofun))]
  refine (if_neg (not_le.mpr room)).trans ?_
  rw [kind]

theorem State.judge_slot {a : Word} {e : SlotEntry} (room : (s.tap u).queue.length < 8)
    (kind : c.kind = .slot a) (found : s.slot a = some e) :
    s.judge u c = s.queueSlot u c a e.erased := by
  unfold State.judge
  dsimp only
  rw [State.unmerged (State.apart_of_kind (by rw [kind]; exact nofun))]
  refine (if_neg (not_le.mpr room)).trans ?_
  rw [kind]
  dsimp only
  rw [found]

end

/-! ## The hold policy unit (R126 to R134) -/

theorem ite_eq_some {α : Type} {p : Prop} [Decidable p] {x y : α} :
    (if p then some x else none) = some y ↔ p ∧ x = y := by
  simp

section
variable {s : State} {u : TapNo} {erased : ClassSet} {number : Counter}

theorem Tap.accepts_iff (tp : Tap) (erased : ClassSet) : tp.accepts erased = true ↔
    erased = 0 ∨ (tp.state ≠ .holding ∧ classCount erased ≤ tp.params.tolerance) := by
  simp [Tap.accepts]

theorem State.repeatable_iff (s : State) (u : TapNo) (r : Word) : s.repeatable u = some r ↔
    (s.tap u).retained = some r ∧ (s.tap u).repeatCount < (s.tap u).params.repeatLimit ∧
      ∀ x, s.slot r = some x → s.claims x < 16 := by
  unfold State.repeatable
  cases (s.tap u).retained with
  | none => simp
  | some a =>
    cases found : s.slot a with
    | none =>
      simp only [found]
      constructor
      · intro chosen
        obtain ⟨⟨few, -⟩, ⟨⟩⟩ := ite_eq_some.mp chosen
        exact ⟨rfl, few, fun x is => nomatch found.symm.trans is⟩
      · rintro ⟨⟨⟩, few, -⟩
        exact if_pos ⟨few, by decide⟩
    | some e =>
      simp only [found]
      constructor
      · intro chosen
        obtain ⟨⟨few, claims⟩, ⟨⟩⟩ := ite_eq_some.mp chosen
        exact ⟨rfl, few, fun x is => Option.some.inj (found.symm.trans is) ▸ claims⟩
      · rintro ⟨⟨⟩, few, claims⟩
        exact if_pos ⟨few, claims e found⟩

theorem holdDecision_clean (clean : erased = 0) : s.decide u erased number = .clean := by
  unfold State.decide
  rw [if_pos ((Tap.accepts_iff _ _).mpr (.inl clean)), if_pos clean]

theorem holdDecision_partly (damaged : erased ≠ 0)
    (taken : (s.tap u).accepts erased = true ∨ (s.tap u).params.policy = .pass) :
    s.decide u erased number = .partly := by
  unfold State.decide
  dsimp only
  by_cases accepted : (s.tap u).accepts erased = true
  · rw [if_pos accepted, if_neg damaged]
  · rw [if_neg accepted, taken.resolve_left accepted]

theorem holdDecision_silence (refused : ¬ (s.tap u).accepts erased = true)
    (silent : (s.tap u).params.policy = .silent ∨ ((s.tap u).params.policy = .repeating ∧
      ∀ r, ¬ ((s.tap u).isCurrent number = true ∧ s.repeatable u = some r))) :
    s.decide u erased number = .silence := by
  unfold State.decide
  dsimp only
  rw [if_neg refused]
  obtain policy | ⟨policy, impossible⟩ := silent
  · rw [policy]
  · rw [policy]
    dsimp only
    split
    next current =>
      split
      next r repeats => exact absurd ⟨current, repeats⟩ (impossible r)
      · rfl
    · rfl

theorem holdDecision_repeating {r : Word} (refused : ¬ (s.tap u).accepts erased = true)
    (policy : (s.tap u).params.policy = .repeating) (current : (s.tap u).isCurrent number = true)
    (repeats : s.repeatable u = some r) : s.decide u erased number = .repeating r := by
  unfold State.decide
  dsimp only
  rw [if_neg refused, policy]
  dsimp only
  rw [if_pos current, repeats]

end

/-! ## The queue of a tap -/

section
variable (a : Tap) (e : QueueEntry) (due : Bool)

theorem Tap.allDue_facts : a.allDue.queue.map (·.facts) = a.queue.map (·.facts) := by
  unfold Tap.allDue
  rw [List.map_map]
  rfl

theorem Tap.queued_facts : (a.queued e due).queue.map (·.facts) =
    a.queue.map (·.facts) ++ [e.facts] := by
  have appended (tp : Tap) (same : tp.queue = a.queue ++ [{ e with due := due }]) :
      tp.queue.map (·.facts) = a.queue.map (·.facts) ++ [e.facts] := by
    rw [same, List.map_append]
    rfl
  unfold Tap.queued Tap.enqueue
  dsimp only
  split
  · exact appended { a with queue := a.queue ++ [{ e with due := due }] } rfl
  · split
    · exact (Tap.allDue_facts _).trans (appended
        { a with queue := a.queue ++ [{ e with due := due }], timer := some (a.timer.getD 0) } rfl)
    · exact appended { a with queue := a.queue ++ [{ e with due := due }] } rfl

/-- Queueing a completion changes the queue, the timer and the counters. -/
theorem Tap.queued_kept : (a.queued e due).counters = a.counters.count e.outcome e.run ∧
    (a.queued e due).retained = a.retained ∧ (a.queued e due).state = a.state ∧
    (a.queued e due).repeatCount = a.repeatCount ∧
    (a.queued e due).holdLength = a.holdLength ∧ (a.queued e due).recovery = a.recovery := by
  unfold Tap.queued Tap.enqueue
  dsimp only
  split
  · exact ⟨rfl, rfl, rfl, rfl, rfl, rfl⟩
  · split <;> exact ⟨rfl, rfl, rfl, rfl, rfl, rfl⟩

theorem Tap.changed_facts (new : TapState) :
    (a.changed new).queue.map (·.facts) = a.queue.map (·.facts) := by
  unfold Tap.changed
  split
  · rfl
  · exact Tap.allDue_facts _

theorem Tap.overflowed_kept (run : Nat) :
    (a.overflowed run).queue.map (·.facts) = a.queue.map (·.facts) ∧
    (a.overflowed run).counters = a.counters.discard run ∧
    (a.overflowed run).retained = a.retained ∧ (a.overflowed run).repeatCount = a.repeatCount ∧
    (a.overflowed run).state = if a.state = .running then .holding else a.state := by
  obtain ⟨-, -, -, -, -, -, -, retained, -, counters, repeats, -⟩ :=
    (a.discarded run).changed_kept .holding
  unfold Tap.overflowed
  split
  · exact ⟨Tap.changed_facts _ _, counters, retained, repeats, Tap.changed_state _ _⟩
  · exact ⟨rfl, rfl, rfl, rfl, rfl⟩

theorem Tap.resumed_kept :
    a.resumed.queue.map (·.facts) = a.queue.map (·.facts) ∧ a.resumed.counters = a.counters ∧
    a.resumed.retained = a.retained ∧ a.resumed.repeatCount = a.repeatCount ∧
    (a.bound = true → a.resumed.state = .running) ∧
    (a.state = .holding → a.resumed.recovery = a.holdLength.getD 0) := by
  unfold Tap.resumed
  split
  next holding =>
    obtain ⟨-, -, -, -, -, -, -, retained, -, counters, repeats, recovery⟩ :=
      Tap.changed_kept { a with recovery := a.holdLength.getD 0 } .running
    exact ⟨Tap.changed_facts _ _, counters, retained, repeats, fun _ => Tap.changed_state _ _,
      fun _ => recovery⟩
  next other =>
    exact ⟨rfl, rfl, rfl, rfl, fun bound => ((Tap.bound_iff _).mp bound).resolve_right other,
      fun holding => absurd holding other⟩

end

end Sys2Proof.Machine
end

section
/-! CLAIMS. What a judged completion becomes (R94 to R98, R116, R120, R126 to R134, R145). -/

namespace Sys2Proof.Machine

/-! ## The decision carried out -/

section
variable {b : State} {u : TapNo} {c : Completion} {a : Word} {erased : ClassSet}

theorem State.queueSlot_clean (clean : erased = 0) :
    b.queueSlot u c a erased = b.queueClean u c a := by
  unfold State.queueSlot
  rw [holdDecision_clean clean]

theorem State.queueSlot_partly (damaged : erased ≠ 0)
    (taken : (b.tap u).accepts erased = true ∨ (b.tap u).params.policy = .pass) :
    b.queueSlot u c a erased = b.enqueue u (c.entry .partly (some a) erased) := by
  unfold State.queueSlot
  rw [holdDecision_partly damaged taken]

/-- A damaged completion queued SILENT (R130). -/
def State.queueSilent (b : State) (u : TapNo) (c : Completion) (a : Word) (erased : ClassSet) :
    State :=
  (b.updSlot a fun e => { e with silenced := true }).enqueue u (c.entry .silent (some a) erased)

theorem State.queueSlot_silent (refused : ¬ (b.tap u).accepts erased = true)
    (silent : (b.tap u).params.policy = .silent ∨ ((b.tap u).params.policy = .repeating ∧
      ∀ r, ¬ ((b.tap u).isCurrent c.number = true ∧ b.repeatable u = some r))) :
    b.queueSlot u c a erased = b.queueSilent u c a erased := by
  unfold State.queueSlot
  rw [holdDecision_silence refused silent]
  rfl

/-- The retained slot queued once more, before the completion's own slot is given back (R130). -/
def State.queueRepeated (b : State) (u : TapNo) (c : Completion) (r : Word) (erased : ClassSet) :
    State :=
  (b.updTap u fun tp => { tp with repeatCount := tp.repeatCount + 1 }).enqueue u
    (c.entry .repeated (some r) erased)

theorem State.queueSlot_repeated {r : Word} (refused : ¬ (b.tap u).accepts erased = true)
    (policy : (b.tap u).params.policy = .repeating)
    (current : (b.tap u).isCurrent c.number = true) (repeats : b.repeatable u = some r) :
    b.queueSlot u c a erased = (b.queueRepeated u c r erased).pushRequest a := by
  unfold State.queueSlot
  rw [holdDecision_repeating refused policy current repeats]
  rfl

/-- A clean completion of the current instance queued, before the tap resumes (R127 steps 1 to 3). -/
def State.queueRetained (b : State) (u : TapNo) (c : Completion) (a : Word) : State :=
  (b.retain u a).enqueue u (c.entry .clean (some a) 0)

theorem State.queueClean_current (current : (b.tap u).isCurrent c.number = true) :
    b.queueClean u c a = (b.queueRetained u c a).resume u := if_pos current

theorem State.queueClean_past (past : ¬ (b.tap u).isCurrent c.number = true) :
    b.queueClean u c a = b.enqueue u (c.entry .clean (some a) 0) := if_neg past

end

/-! ## The tap after it -/

section
variable {b : State} {u : TapNo} {c : Completion} {a r : Word} {erased : ClassSet} {x : Tap}

theorem State.enqueue_own (at' : b.tap u = x) (e : QueueEntry) :
    (b.enqueue u e).tap u = x.queued e (b.dueAtOnce u) := at' ▸ (b.enqueue_sets u e).own

theorem State.discardFull_own (at' : b.tap u = x) (kind : CompletionKind) (run : Nat) :
    (b.discardFull u kind run).tap u = x.overflowed run := at' ▸ (b.discardFull_sets u kind run).own

theorem State.queueRetained_own (at' : b.tap u = x) : ∃ due, (b.queueRetained u c a).tap u =
    Tap.queued { x with retained := some a, repeatCount := 0 } (c.entry .clean (some a) 0) due :=
  ⟨_, State.enqueue_own (at' ▸ (b.retain_sets u a).own) _⟩

theorem State.queueSilent_own (at' : b.tap u = x) : ∃ due, (b.queueSilent u c a erased).tap u =
    x.queued (c.entry .silent (some a) erased) due :=
  ⟨_, State.enqueue_own (b := b.updSlot a _) at' _⟩

theorem State.queueRepeated_own (at' : b.tap u = x) : ∃ due, (b.queueRepeated u c r erased).tap u =
    Tap.queued { x with repeatCount := x.repeatCount + 1 } (c.entry .repeated (some r) erased) due :=
  ⟨_, State.enqueue_own (at' ▸ b.tap_updTap_same u _) _⟩

/-- A queued entry of a completion, by what it says of the tap (R95, R104). -/
structure Tap.Gains (old new : Tap) (facts : FrameNo × Option Word × FrameOutcome × ClassSet × Nat)
    (counters : TapCounters) : Prop where
  facts : new.queue.map (·.facts) = old.queue.map (·.facts) ++ [facts]
  counters : new.counters = counters
  retained : new.retained = old.retained
  state : new.state = old.state
  repeatCount : new.repeatCount = old.repeatCount

theorem Tap.queued_gains (x : Tap) (e : QueueEntry) (due : Bool) :
    x.Gains (x.queued e due) e.facts (x.counters.count e.outcome e.run) := by
  obtain ⟨counters, retained, state, repeats, -⟩ := x.queued_kept e due
  exact ⟨Tap.queued_facts _ _ _, counters, retained, state, repeats⟩

end

/-! ## Slots after it (R116, R130) -/

section
variable {b : State} {u : TapNo} {c : Completion} {a r : Word} {e : SlotEntry} {erased : ClassSet}

theorem State.queueSilent_silences (found : b.slot a = some e) :
    ∃ y, (b.queueSilent u c a erased).slot a = some y ∧ y.silenced = true := by
  refine ⟨{ e with silenced := true }, ?_, rfl⟩
  rw [State.queueSilent, State.slot_of_supply (State.enqueue_supply _ u _),
    State.slot_updSlot _ _ _ (fun e => { e with silenced := true }) fun _ => rfl, if_pos rfl, found]
  rfl

theorem State.queueRepeated_spares (found : b.slot a = some e) (idle : e.outstanding = 0)
    (kept : e.awaitingPush = false) :
    ((b.queueRepeated u c r erased).pushRequest a).Spares a := by
  refine State.pushRequest_spares (e := e) ?_ idle kept
  rw [State.queueRepeated, State.slot_of_supply (State.enqueue_supply _ u _)]
  exact found

end

/-! ## Merged runs (R96) -/

section
variable {b : State} {u : TapNo} {c : Completion} {x : Tap} {front : List QueueEntry}
  {last : QueueEntry}

/-- A tap whose last entry takes up a completion's run, as far as 255 (R96). -/
def Tap.extended (x : Tap) (front : List QueueEntry) (last : QueueEntry) (c : Completion) : Tap :=
  { x with
    queue := front ++ [{ last with run := min 255 (last.run + c.run) }]
    counters := x.counters.count .starved (min 255 (last.run + c.run) - last.run) }

theorem State.merge_within (at' : b.tap u = x) (queue : x.queue = front ++ [last])
    (within : last.run + c.run ≤ 255) :
    b.merge u last c = b.setTap u (x.extended front last c) := by
  unfold State.merge State.updTap
  dsimp only
  rw [if_pos within, at', queue, List.dropLast_concat]
  rfl

/-- The rest of a run beyond 255, as a completion of its own (R96). -/
def Completion.beyond (c : Completion) (last : QueueEntry) : Completion :=
  { c with frame := last.frame + 255, run := last.run + c.run - 255 }

theorem State.setTap_extended (at' : b.tap u = x) (beyond : 255 < last.run + c.run) :
    b.setTap u (x.extended front last c) = b.setTap u { b.tap u with
      queue := front ++ [{ last with run := 255 }]
      counters := ((b.setTap u (x.extended front last c)).tap u).counters } := by
  rw [State.tap_setTap_same, at', Tap.extended, min_eq_left beyond.le]

theorem State.merge_room (at' : b.tap u = x) (queue : x.queue = front ++ [last])
    (beyond : 255 < last.run + c.run) (room : x.queue.length < 8) :
    b.merge u last c = (b.setTap u (x.extended front last c)).enqueue u
      ((c.beyond last).entry .starved none 0) := by
  have same : (front ++ [{ last with run := min 255 (last.run + c.run) }]).length =
      x.queue.length := by rw [queue, List.length_append, List.length_append]; rfl
  unfold State.merge State.updTap
  dsimp only
  rw [if_neg (not_le.mpr beyond), at', queue, List.dropLast_concat, State.tap_setTap_same]
  exact if_pos (same ▸ room)

theorem State.merge_full (at' : b.tap u = x) (queue : x.queue = front ++ [last])
    (beyond : 255 < last.run + c.run) (full : 8 ≤ x.queue.length) :
    b.merge u last c = (b.setTap u (x.extended front last c)).discardFull u .starved
      (last.run + c.run - 255) := by
  have same : (front ++ [{ last with run := min 255 (last.run + c.run) }]).length =
      x.queue.length := by rw [queue, List.length_append, List.length_append]; rfl
  unfold State.merge State.updTap
  dsimp only
  rw [if_neg (not_le.mpr beyond), at', queue, List.dropLast_concat, State.tap_setTap_same]
  exact if_neg (same ▸ not_lt.mpr full)

end

/-! ## The statement -/

section
variable {s : State} {u : TapNo} {c : Completion} {rest : List Completion}

/-- The state in which the front completion is judged (R94). -/
def State.fronted (s : State) (u : TapNo) (rest : List Completion) : State :=
  s.setTap u { s.tap u with settling := rest }

theorem State.fronted_tap (s : State) (u : TapNo) (rest : List Completion) :
    (s.fronted u rest).tap u = { s.tap u with settling := rest } := s.tap_setTap_same u _

theorem State.fronted_slot (s : State) (u : TapNo) (rest : List Completion) (a : Word) :
    (s.fronted u rest).slot a = s.slot a := rfl

theorem State.fronted_queue (s : State) (u v : TapNo) (rest : List Completion) :
    ((s.fronted u rest).tap v).queue = (s.tap v).queue := by
  by_cases same : v = u
  · rw [same, State.fronted_tap]
  · exact congrArg Tap.queue (s.tap_setTap_other _ same)

theorem State.fronted_claims (s : State) (u : TapNo) (rest : List Completion) (e : SlotEntry) :
    (s.fronted u rest).claims e = s.claims e := by
  unfold State.claims
  rw [State.fronted_queue]

theorem State.fronted_repeatable (s : State) (u : TapNo) (rest : List Completion) (r : Word) :
    (s.fronted u rest).repeatable u = some r ↔ (s.tap u).retained = some r ∧
      (s.tap u).repeatCount < (s.tap u).params.repeatLimit ∧
      ∀ x, s.slot r = some x → s.claims x < 16 := by
  rw [State.repeatable_iff, State.fronted_tap]
  simp only [State.fronted_claims, State.fronted_slot]

theorem exec_settles_next (up : s.Up) (live : s.device ≠ .halted)
    (front : (s.tap u).settling = c :: rest) (ready : s.ready c = true) :
    exec (.settledCompletionJudged u) s =
      exec (.settledCompletionJudged u) ((s.fronted u rest).judge u c) := by
  have only := s.judgeNext_only u c rest
  have judged := exec_settles (u := u) (only.up up) (ne_of_eq_of_ne only.device live)
  rw [exec_settles up live, State.settle_judges front ready]
  exact judged.symm

theorem exec_settles_last (up : s.Up) (live : s.device ≠ .halted)
    (front : (s.tap u).settling = [c]) (ready : s.ready c = true) :
    exec (.settledCompletionJudged u) s = .next ((s.fronted u []).judge u c) := by
  rw [exec_settles up live, State.settle_judges front ready]
  exact congrArg _ (State.settle_nil (s.judgeNext_onTap u c []).own.settling)

end

section
variable {b : State} {u : TapNo} {c : Completion} {a : Word} {e : SlotEntry} {x : Tap}

/-! The outcomes of a slot completion with room in the queue (R126 to R132). -/

theorem State.judge_clean_current (at' : b.tap u = x) (room : x.queue.length < 8)
    (kind : c.kind = .slot a) (found : b.slot a = some e) (clean : e.erased = 0)
    (current : x.isCurrent c.number = true) :
    b.judge u c = (b.queueRetained u c a).resume u := by
  rw [State.judge_slot (at' ▸ room) kind found, State.queueSlot_clean clean,
    State.queueClean_current (at' ▸ current)]

theorem State.judge_clean_past (at' : b.tap u = x) (room : x.queue.length < 8)
    (kind : c.kind = .slot a) (found : b.slot a = some e) (clean : e.erased = 0)
    (past : ¬ x.isCurrent c.number = true) :
    b.judge u c = b.enqueue u (c.entry .clean (some a) 0) := by
  rw [State.judge_slot (at' ▸ room) kind found, State.queueSlot_clean clean,
    State.queueClean_past (at' ▸ past)]

theorem State.judge_partly (at' : b.tap u = x) (room : x.queue.length < 8)
    (kind : c.kind = .slot a) (found : b.slot a = some e) (damaged : e.erased ≠ 0)
    (taken : x.accepts e.erased = true ∨ x.params.policy = .pass) :
    b.judge u c = b.enqueue u (c.entry .partly (some a) e.erased) := by
  rw [State.judge_slot (at' ▸ room) kind found, State.queueSlot_partly damaged (at' ▸ taken)]

theorem State.judge_silent (at' : b.tap u = x) (room : x.queue.length < 8)
    (kind : c.kind = .slot a) (found : b.slot a = some e) (refused : ¬ x.accepts e.erased = true)
    (silent : x.params.policy = .silent ∨ (x.params.policy = .repeating ∧
      ∀ r, ¬ (x.isCurrent c.number = true ∧ b.repeatable u = some r))) :
    b.judge u c = b.queueSilent u c a e.erased := by
  rw [State.judge_slot (at' ▸ room) kind found,
    State.queueSlot_silent (at' ▸ refused) (at'.symm ▸ silent)]

theorem State.judge_repeated {r : Word} (at' : b.tap u = x) (room : x.queue.length < 8)
    (kind : c.kind = .slot a) (found : b.slot a = some e) (refused : ¬ x.accepts e.erased = true)
    (policy : x.params.policy = .repeating) (current : x.isCurrent c.number = true)
    (repeats : b.repeatable u = some r) :
    b.judge u c = (b.queueRepeated u c r e.erased).pushRequest a := by
  rw [State.judge_slot (at' ▸ room) kind found,
    State.queueSlot_repeated (at' ▸ refused) (at' ▸ policy) (at' ▸ current) repeats]

/-- A tap after a clean completion of its instance (R127). -/
theorem State.judge_clean_tap (at' : b.tap u = x) (bound : x.bound = true) :
    let t := (b.queueRetained u c a).resume u
    (t.tap u).queue.map (·.facts) = x.queue.map (·.facts) ++ [(c.frame, some a, .clean, 0, c.run)] ∧
      (t.tap u).counters = { x.counters with clean := x.counters.clean + 1 } ∧
      (t.tap u).retained = some a ∧ (t.tap u).repeatCount = 0 ∧ (t.tap u).state = .running ∧
      (x.state = .holding → (t.tap u).recovery = x.holdLength.getD 0) := by
  intro t
  obtain ⟨due, queued⟩ := State.queueRetained_own (c := c) (a := a) at'
  have own : t.tap u = (Tap.queued { x with retained := some a, repeatCount := 0 }
      (c.entry .clean (some a) 0) due).resumed := queued ▸ (State.resume_sets _ u).own
  obtain ⟨facts, counters, retained, repeats, running, recovery⟩ := Tap.resumed_kept
    (Tap.queued { x with retained := some a, repeatCount := 0 } (c.entry .clean (some a) 0) due)
  obtain ⟨counted, keeps, state, count, hold, -⟩ := Tap.queued_kept
    { x with retained := some a, repeatCount := 0 } (c.entry .clean (some a) 0) due
  rw [own]
  refine ⟨facts.trans (Tap.queued_facts _ _ _), counters.trans counted, retained.trans keeps,
    repeats.trans count, running ?_, fun holding => ?_⟩
  · rw [Tap.bound_iff, state]
    exact (Tap.bound_iff x).mp bound
  · rw [recovery (state.trans holding), hold]

end

section
variable {b : State} {u : TapNo} {c : Completion} {x : Tap}

theorem State.resume_other (other : (b.tap u).state ≠ .holding) : b.resume u = b := if_neg other

theorem State.resume_enters {n : Option Nat} (holding : (b.tap u).state = .holding)
    (hold : (b.tap u).holdLength = n) :
    (b.setTap u { b.tap u with recovery := n.getD 0 }).Enters (b.resume u) u .running
      .cleanResumed := by
  rw [State.resume, if_pos holding, ← hold]
  exact State.setTapState_enters _ u .running .cleanResumed

theorem State.queueRepeated_enqueues {r : Word} {erased : ClassSet} (at' : b.tap u = x) :
    (b.setTap u { b.tap u with repeatCount := x.repeatCount + 1 }).Enqueues
      (b.queueRepeated u c r erased) u (c.entry .repeated (some r) erased) := by
  rw [← at']
  exact State.enqueue_enqueues _ u _

theorem TapCounters.count_starved_add (n : TapCounters) {a b r : Nat} (sum : a + b = r) :
    (n.count .starved a).count .starved b =
      { n with starved := n.starved + BitVec.ofNat 32 r } := by
  rw [← sum, BitVec.ofNat_add, ← BitVec.add_assoc]
  rfl

end

/-- Settles O33: the judged completion merges, is discarded or is queued, and the tap after each is
what the operations on it leave. -/
theorem holdDecisionQueued : Obligations.HoldDecisionQueued := by
  unfold Obligations.HoldDecisionQueued
  refine ⟨fun s u c rest up live front idle => ?_, fun _ => rfl, fun _ _ => rfl⟩
  intro tp merging merges current repeatOf
  have ready := (s.ready_iff c).mpr idle
  have at' := s.fronted_tap u rest
  have queued : ((s.fronted u rest).tap u).queue = tp.queue := s.fronted_queue u u rest
  have unmerged (apart : ¬ merges) (last : QueueEntry)
      (back : ((s.fronted u rest).tap u).queue.getLast? = some last) : ¬ mergesInto last c = true :=
    fun into => apart ⟨last, queued.symm ▸ back, (mergesInto_iff last c).mp into⟩
  have current_iff : Tap.isCurrent { tp with settling := rest } c.number = true ↔ current :=
    Tap.isCurrent_iff _ c.number
  have accepts_iff (erased : ClassSet) : Tap.accepts { tp with settling := rest } erased = true ↔
      (erased = 0 ∨ (tp.state ≠ .holding ∧ classCount erased ≤ tp.params.tolerance)) :=
    Tap.accepts_iff _ erased
  have repeat_iff (r : Word) :
      (Tap.isCurrent { tp with settling := rest } c.number = true ∧
        (s.fronted u rest).repeatable u = some r) ↔ repeatOf r := by
    rw [current_iff, State.fronted_repeatable]
  have merge_of {front : List QueueEntry} {last : QueueEntry} (queue : tp.queue = front ++ [last])
      (into : merging last) : (s.fronted u rest).judge u c = (s.fronted u rest).merge u last c :=
    State.judge_merge (by rw [queued, queue, List.getLast?_concat]) ((mergesInto_iff last c).mpr into)
  have full_of (full : 8 ≤ tp.queue.length) (apart : ¬ merges) : (s.fronted u rest).judge u c =
      (s.fronted u rest).discardFull u c.kind c.run :=
    State.judge_full (queued.symm ▸ full) (unmerged apart)
  have starved_of (room : tp.queue.length < 8) (apart : ¬ merges) (kind : c.kind = .starved) :
      (s.fronted u rest).judge u c = (s.fronted u rest).enqueue u (c.entry .starved none 0) :=
    State.judge_starved (queued.symm ▸ room) kind (unmerged apart)
  have abandoned_of (room : tp.queue.length < 8) (kind : c.kind = .abandoned) :
      (s.fronted u rest).judge u c = (s.fronted u rest).enqueue u (c.entry .abandoned none 0) :=
    State.judge_abandoned (queued.symm ▸ room) kind
  have silent_of {policy : Prop} (silent : policy ∨ (tp.params.policy = .repeating ∧ ∀ r, ¬ repeatOf r)) :
      policy ∨ (tp.params.policy = .repeating ∧
        ∀ r, ¬ (Tap.isCurrent { tp with settling := rest } c.number = true ∧
          (s.fronted u rest).repeatable u = some r)) :=
    silent.imp_right fun ⟨policy, never⟩ => ⟨policy, fun r => mt (repeat_iff r).mp (never r)⟩
  refine ⟨(s.fronted u rest).judge u c, exec_settles_next up live front ready, fun last => ?_,
    (s.judgeNext_onTap u c rest).own.settling, fun full apart => ?_, fun a e room kind found => ?_,
    fun front last queue into => ⟨fun within => ?_, fun beyond room => ?_, fun beyond full => ?_⟩,
    fun room apart kind => ?_, fun room kind => ?_, ?_⟩
  · exact last ▸ exec_settles_last up live (last ▸ front) ready
  · rw [full_of full apart, State.discardFull_own at']
    obtain ⟨facts, counters, retained, repeats, state⟩ :=
      Tap.overflowed_kept { tp with settling := rest } c.run
    refine ⟨facts, counters, State.discardFull_blocks _ u _ _, retained, repeats, state,
      fun a e kind found kept => ?_⟩
    rw [kind]
    exact State.discardFull_spares (s := s.fronted u rest) found (idle a e kind found) kept
  · intro acceptable
    have slot : (s.fronted u rest).slot a = some e := found
    refine ⟨fun clean => ?_, fun damaged taken => ?_, fun refused silent => ?_,
      fun r refused policy repeats => ?_⟩
    · by_cases now : current
      · rw [State.judge_clean_current at' room kind slot clean (current_iff.mpr now)]
        obtain ⟨facts, counters, retained, count, state, recovery⟩ :=
          State.judge_clean_tap (c := c) (a := a) at' now.1
        exact ⟨facts, counters, fun _ => ⟨retained, count, state, recovery⟩,
          fun past => absurd now past⟩
      · have gains := Tap.queued_gains { tp with settling := rest } (c.entry .clean (some a) 0)
          ((s.fronted u rest).dueAtOnce u)
        rw [State.judge_clean_past at' room kind slot clean (mt current_iff.mp now),
          State.enqueue_own at']
        exact ⟨gains.facts, gains.counters, fun k => absurd k now,
          fun _ => ⟨gains.retained, gains.state⟩⟩
    · have gains := Tap.queued_gains { tp with settling := rest }
        (c.entry .partly (some a) e.erased) ((s.fronted u rest).dueAtOnce u)
      rw [State.judge_partly at' room kind slot damaged (taken.imp_left (accepts_iff _).mpr),
        State.enqueue_own at']
      exact ⟨gains.facts, gains.counters, gains.retained, gains.state⟩
    · have silences := State.queueSilent_silences (u := u) (c := c) (erased := e.erased) slot
      obtain ⟨due, own⟩ := State.queueSilent_own (c := c) (a := a) (erased := e.erased) at'
      have gains := Tap.queued_gains { tp with settling := rest }
        (c.entry .silent (some a) e.erased) due
      rw [State.judge_silent at' room kind slot (mt (accepts_iff _).mp refused) (silent_of silent),
        own]
      exact ⟨gains.facts, gains.counters, silences, gains.retained, gains.state⟩
    · obtain ⟨now, repeatable⟩ := (repeat_iff r).mpr repeats
      obtain ⟨due, own⟩ := State.queueRepeated_own (c := c) (r := r) (erased := e.erased) at'
      have gains := Tap.queued_gains
        { ({ tp with settling := rest } : Tap) with repeatCount := tp.repeatCount + 1 }
        (c.entry .repeated (some r) e.erased) due
      rw [State.judge_repeated at' room kind slot (mt (accepts_iff _).mp refused) policy now
        repeatable, (State.pushRequest_same _ a).tap u, own]
      exact ⟨gains.facts, gains.counters, gains.repeatCount, gains.retained, gains.state,
        State.queueRepeated_spares slot (idle a e kind found)⟩
  · rw [merge_of queue into, State.merge_within at' queue within, State.tap_setTap_same]
    have least : min 255 (last.run + c.run) = last.run + c.run := min_eq_right within
    exact ⟨by rw [Tap.extended, least], by rw [Tap.extended, least, Nat.add_sub_cancel_left]; rfl⟩
  · rw [merge_of queue into, State.merge_room at' queue beyond room,
      State.enqueue_own (State.tap_setTap_same _ u _)]
    obtain ⟨-, outcome, -, small, -⟩ := into
    have least : min 255 (last.run + c.run) = 255 := min_eq_left beyond.le
    have gains := Tap.queued_gains (Tap.extended { tp with settling := rest } front last c)
      ((c.beyond last).entry .starved none 0)
      (((s.fronted u rest).setTap u (Tap.extended { tp with settling := rest } front last c)).dueAtOnce u)
    refine ⟨?_, ?_⟩
    · rw [gains.facts, Tap.extended, least]
      simp [QueueEntry.facts, Completion.entry, Completion.beyond, outcome]
    · rw [gains.counters, Tap.extended, least]
      exact TapCounters.count_starved_add tp.counters
        (show (255 - last.run) + (last.run + c.run - 255) = c.run by omega)
  · rw [merge_of queue into, State.merge_full at' queue beyond full,
      State.discardFull_own (State.tap_setTap_same _ u _)]
    obtain ⟨-, outcome, -⟩ := into
    have least : min 255 (last.run + c.run) = 255 := min_eq_left beyond.le
    obtain ⟨facts, counters, -⟩ := Tap.overflowed_kept
      (Tap.extended { tp with settling := rest } front last c) (last.run + c.run - 255)
    refine ⟨?_, ?_, State.discardFull_blocks _ u _ _⟩
    · rw [facts, Tap.extended, least]
      simp [QueueEntry.facts, outcome]
    · rw [counters, Tap.extended, least]
      rfl
  · have gains := Tap.queued_gains { tp with settling := rest } (c.entry .starved none 0)
      ((s.fronted u rest).dueAtOnce u)
    rw [starved_of room apart kind, State.enqueue_own at']
    exact ⟨gains.facts, gains.counters⟩
  · have gains := Tap.queued_gains { tp with settling := rest } (c.entry .abandoned none 0)
      ((s.fronted u rest).dueAtOnce u)
    rw [abandoned_of room kind, State.enqueue_own at']
    exact ⟨gains.facts, gains.counters⟩
  · intro base entry
    refine ⟨fun full apart => ?_, fun a e room kind found => ?_, fun front last queue into =>
      ⟨fun within => ?_, fun beyond => ?_⟩, fun room apart kind => ?_, fun room kind => ?_⟩
    · rw [full_of full apart]
      exact ⟨_, _, State.discard_discards _ u _ _, State.latch_latches _ _,
        State.holdAfterDiscard_holds _ u⟩
    · intro acceptable
      have slot : base.slot a = some e := found
      refine ⟨fun clean now => ?_, fun clean past => ?_, fun damaged taken => ?_,
        fun refused silent => ?_, fun r refused policy repeats => ?_⟩
      · rw [State.judge_clean_current at' room kind slot clean (current_iff.mpr now)]
        obtain ⟨due, own⟩ := State.queueRetained_own (c := c) (a := a) at'
        obtain ⟨-, -, state, -, hold, -⟩ := Tap.queued_kept
          { ({ tp with settling := rest } : Tap) with retained := some a, repeatCount := 0 }
          (c.entry .clean (some a) 0) due
        refine ⟨_, _, base.queueRetained u c a, State.endRetention_ends _ u,
          State.updSlot_changes _ a _, State.enqueue_enqueues _ u _, fun other => ?_,
          fun holding => ?_⟩
        · exact State.resume_other (ne_of_eq_of_ne ((congrArg Tap.state own).trans state) other)
        · exact State.resume_enters ((congrArg Tap.state own).trans (state.trans holding))
            ((congrArg Tap.holdLength own).trans hold)
      · rw [State.judge_clean_past at' room kind slot clean (mt current_iff.mp past)]
        exact State.enqueue_enqueues _ u _
      · rw [State.judge_partly at' room kind slot damaged (taken.imp_left (accepts_iff _).mpr)]
        exact State.enqueue_enqueues _ u _
      · rw [State.judge_silent at' room kind slot (mt (accepts_iff _).mp refused)
          (silent_of silent)]
        exact ⟨_, State.updSlot_changes _ a _, State.enqueue_enqueues _ u _⟩
      · obtain ⟨now, repeatable⟩ := (repeat_iff r).mpr repeats
        rw [State.judge_repeated at' room kind slot (mt (accepts_iff _).mp refused) policy now
          repeatable]
        have enqueues := State.queueRepeated_enqueues (c := c) (r := r) (erased := e.erased) at'
        exact ⟨_, enqueues, State.pushRequest_gives _ a⟩
    · rw [merge_of queue into, State.merge_within at' queue within, State.tap_setTap_same]
      exact ⟨rfl, rfl⟩
    · refine ⟨base.setTap u (Tap.extended { tp with settling := rest } front last c),
        State.setTap_extended at' beyond, fun room => ?_, fun full => ?_⟩
      · rw [merge_of queue into, State.merge_room at' queue beyond room]
        exact State.enqueue_enqueues _ u _
      · rw [merge_of queue into, State.merge_full at' queue beyond full]
        exact ⟨_, _, State.discard_discards _ u _ _, State.latch_latches _ _,
          State.holdAfterDiscard_holds _ u⟩
    · rw [starved_of room apart kind]
      exact State.enqueue_enqueues _ u _
    · rw [abandoned_of room kind]
      exact State.enqueue_enqueues _ u _

end Sys2Proof.Machine
end

section
/-! CLAIMS. TAP_CLOSE (R84, R116, R120, R133, R146). -/

namespace Sys2Proof.Machine

/-! ## Slots gathered by slot supply (R116) -/

/-- An address slot supply has, or takes at the next request (R116). -/
def State.Idle (s : State) (a : Word) : Prop :=
  s.Spares a ∨ ∃ e, s.slot a = some e ∧ e.outstanding = 0 ∧ e.awaitingPush = false

/-- No address leaves slot supply, and none that it can take is held back. -/
structure State.Gathers (s t : State) : Prop where
  spares : ∀ a, s.Spares a → t.Spares a
  idle : ∀ a, s.Idle a → t.Idle a

section
variable {s t w : State} {a b : Word}

theorem State.Gathers.of_supply (same : t.supply = s.supply) : s.Gathers t :=
  ⟨fun _ => .of_supply same, fun a idle => idle.imp (.of_supply same) fun ⟨e, found, is⟩ =>
    ⟨e, (State.slot_of_supply same a).trans found, is⟩⟩

theorem State.Gathers.refl (s : State) : s.Gathers s := .of_supply rfl

theorem State.Gathers.trans (h : s.Gathers t) (k : t.Gathers w) : s.Gathers w :=
  ⟨fun a is => k.spares a (h.spares a is), fun a is => k.idle a (h.idle a is)⟩

theorem State.updSlot_spares (s : State) (b : Word) (f : SlotEntry → SlotEntry)
    (keeps : ∀ e, (f e).addr = e.addr ∧ (f e).state = e.state) (is : s.Spares a) :
    (s.updSlot b f).Spares a := by
  refine is.imp id fun held => ?_
  obtain ⟨e, mem, state, addr⟩ := State.mem_returning.mp held
  refine State.mem_returning.mpr ⟨changeEntry b f e, ?_, ?_⟩
  · rw [(s.updSlot_supply b f).2.2.2.2]
    exact List.mem_map_of_mem mem
  · unfold changeEntry
    split
    · exact ⟨(keeps e).2.trans state, (keeps e).1.trans addr⟩
    · exact ⟨state, addr⟩

theorem State.push_gathers (s : State) (b : Word) : s.Gathers (s.push b) := by
  unfold State.push
  dsimp only
  by_cases room : s.supply.stack.length < Config.stackCapacity
  · rw [if_pos room, State.updSupply, Supply.place, if_pos room]
    have spares (a : Word) (is : s.Spares a) : State.Spares
        { s with supply := { s.supply with stack := b :: s.supply.stack } } a :=
      is.imp (List.mem_cons_of_mem b) id
    exact ⟨spares, fun a idle => idle.imp (spares a) id⟩
  · rw [if_neg room]
    refine .trans ?_ (.of_supply (State.testReports_supply _))
    rw [State.updSupply, Supply.place, if_neg room]
    have spares (a : Word) (is : s.Spares a) : State.Spares
        { s with supply := { s.supply with table := s.supply.table ++ [returningEntry b] } } a := by
      refine is.imp id fun held => ?_
      obtain ⟨e, mem, is⟩ := State.mem_returning.mp held
      exact State.mem_returning.mpr ⟨e, List.mem_append_left _ mem, is⟩
    refine ⟨spares, fun a idle => idle.imp (spares a) fun ⟨e, found, is⟩ => ⟨e, ?_, is⟩⟩
    unfold State.slot at found ⊢
    rw [List.find?_append, found]
    rfl

theorem State.removeAndPush_gathers (s : State) (b : Word) : s.Gathers (s.removeAndPush b) := by
  have pushed := State.push_gathers (s.removeSlot b) b
  have spares (a : Word) (is : s.Spares a) : (s.removeAndPush b).Spares a := by
    by_cases same : a = b
    · subst same
      exact State.push_spares _ a
    · refine pushed.spares a (is.imp id fun held => ?_)
      obtain ⟨e, mem, state, addr⟩ := State.mem_returning.mp held
      refine State.mem_returning.mpr ⟨e, List.mem_filter.mpr ⟨mem, ?_⟩, state, addr⟩
      exact bne_iff_ne.mpr (addr ▸ same)
  refine ⟨spares, fun a idle => ?_⟩
  by_cases same : a = b
  · subst same
    exact .inl (State.push_spares _ a)
  · obtain is | ⟨e, found, is⟩ := idle
    · exact .inl (spares a is)
    · refine pushed.idle a (.inr ⟨e, ?_, is⟩)
      rw [State.slot_removeSlot, if_neg same]
      exact found

theorem State.pushRequest_gathers (s : State) (b : Word) : s.Gathers (s.pushRequest b) := by
  unfold State.pushRequest
  split
  · exact .refl s
  next e found =>
    split
    · exact .refl s
    · split
      · exact s.removeAndPush_gathers b
      next busy =>
        have spares (a : Word) (is : s.Spares a) :
            (s.updSlot b fun e => { e with awaitingPush := true }).Spares a :=
          s.updSlot_spares b _ (fun _ => ⟨rfl, rfl⟩) is
        refine ⟨spares, fun a idle => idle.imp (spares a) fun ⟨x, is, zero, kept⟩ =>
          ⟨x, ?_, zero, kept⟩⟩
        have other : a ≠ b := by
          rintro rfl
          exact busy (Option.some.inj (found.symm.trans is) ▸ zero)
        exact (State.slot_updSlot_other (f := fun e => { e with awaitingPush := true }) other
          fun _ => rfl).trans is

/-- An address that slot supply is asked to take is in it. -/
theorem State.Idle.taken (idle : s.Idle a) : (s.pushRequest a).Spares a := by
  obtain is | ⟨e, found, zero, kept⟩ := idle
  · exact (s.pushRequest_gathers a).spares a is
  · exact State.pushRequest_spares found zero kept

/-! ## The frames and the settling list dropped (R84) -/

theorem State.pushFrames_gathers (frames : List LogicalFrame) (s : State) :
    s.Gathers (s.pushFrames frames) ∧ ∀ a, (∃ l ∈ frames, l.slot = some a) → s.Idle a →
      (s.pushFrames frames).Spares a := by
  induction frames generalizing s with
  | nil => exact ⟨.refl s, fun a ⟨l, mem, _⟩ => nomatch mem⟩
  | cons l rest ih =>
    cases slot : l.slot with
    | none =>
      have step : s.pushFrames (l :: rest) = s.pushFrames rest := by
        rw [State.pushFrames, List.foldl_cons, slot]
        rfl
      rw [step]
      refine ⟨(ih s).1, fun a ⟨m, mem, named⟩ => (ih s).2 a ⟨m, ?_, named⟩⟩
      refine (List.mem_cons.mp mem).resolve_left fun same => ?_
      rw [same, slot] at named
      cases named
    | some b =>
      have step : s.pushFrames (l :: rest) = (s.pushRequest b).pushFrames rest := by
        rw [State.pushFrames, List.foldl_cons, slot]
        rfl
      have given := s.pushRequest_gathers b
      rw [step]
      refine ⟨given.trans (ih _).1, fun a ⟨m, mem, named⟩ idle => ?_⟩
      obtain rfl | mem := List.mem_cons.mp mem
      · obtain rfl := Option.some.inj (slot.symm.trans named)
        exact (ih _).1.spares b idle.taken
      · exact (ih _).2 a ⟨m, mem, named⟩ (given.idle a idle)

theorem State.discard_gathers (s : State) (u : TapNo) (kind : CompletionKind) (run : Nat) :
    s.Gathers (s.discard u kind run) ∧ ∀ a, kind = .slot a → s.Idle a →
      (s.discard u kind run).Spares a := by
  cases kind with
  | slot b =>
    refine ⟨(s.pushRequest_gathers b).trans (.of_supply rfl), ?_⟩
    rintro a ⟨⟩ idle
    exact .of_supply rfl idle.taken
  | starved => exact ⟨.of_supply rfl, nofun⟩
  | abandoned => exact ⟨.of_supply rfl, nofun⟩

theorem State.foldl_discard_gathers (u : TapNo) (cs : List Completion) (s : State) :
    s.Gathers (cs.foldl (fun s c => s.discard u c.kind c.run) s) ∧
      ∀ a, (∃ c ∈ cs, c.kind = .slot a) → s.Idle a →
        (cs.foldl (fun s c => s.discard u c.kind c.run) s).Spares a := by
  induction cs generalizing s with
  | nil => exact ⟨.refl s, fun a ⟨c, mem, _⟩ => nomatch mem⟩
  | cons c rest ih =>
    obtain ⟨given, taken⟩ := s.discard_gathers u c.kind c.run
    refine ⟨given.trans (ih _).1, fun a ⟨d, mem, named⟩ idle => ?_⟩
    obtain rfl | mem := List.mem_cons.mp mem
    · exact (ih _).1.spares a (taken a named idle)
    · exact (ih _).2 a ⟨d, mem, named⟩ (given.idle a idle)

theorem State.endRetention_spares {u : TapNo} (is : s.Spares a) : (s.endRetention u).Spares a := by
  unfold State.endRetention
  split
  · exact is
  next b _ =>
    have cleared (t : State) (same : t.supply = s.supply) :
        (t.updSlot b fun e => { e with retained := false }).Spares a :=
      t.updSlot_spares b _ (fun _ => ⟨rfl, rfl⟩) (.of_supply same is)
    dsimp only
    split
    · split
      · exact (State.pushRequest_gathers _ b).spares a (cleared _ rfl)
      · exact cleared _ rfl
    · exact cleared _ rfl

end

/-! ## The tap after each step -/

section
variable {s : State} {u : TapNo} {x : Tap}

theorem State.foldl_discard_sets (cs : List Completion) (s : State) (u : TapNo) :
    s.SetsTap (cs.foldl (fun s c => s.discard u c.kind c.run) s) u { s.tap u with
      counters := { (s.tap u).counters with
        discarded := (s.tap u).counters.discarded + BitVec.ofNat 32 (cs.map (·.run)).sum } } := by
  induction cs generalizing s with
  | nil =>
    have same : { s.tap u with
        counters := { (s.tap u).counters with
          discarded := (s.tap u).counters.discarded + BitVec.ofNat 32 0 } } = s.tap u := by
      rw [BitVec.add_zero]
    exact same.symm ▸ .keep (.refl s) u
  | cons c rest ih =>
    have step := s.discard_sets u c.kind c.run
    have whole := ih (s.discard u c.kind c.run)
    rw [step.own] at whole
    rw [List.map_cons, List.sum_cons, BitVec.ofNat_add, ← BitVec.add_assoc]
    exact step.trans whole

theorem State.dropFrames_sets (s : State) (u : TapNo) :
    s.SetsTap (s.dropFrames u) u { s.tap u with openFrames := [] } :=
  (s.setsTap_updTap u fun tp => { tp with openFrames := [] }).then (State.pushFrames_same _ _)

/-- A tap whose settling completions are discarded (R84). -/
def Tap.cleared (x : Tap) : Tap :=
  { x with
    settling := []
    counters := { x.counters with
      discarded := x.counters.discarded + BitVec.ofNat 32 (x.settling.map (·.run)).sum } }

theorem State.dropSettling_sets (at' : s.tap u = x) : s.SetsTap (s.dropSettling u) u x.cleared := by
  have emptied := s.setsTap_updTap u fun tp => { tp with settling := [] }
  have dropped := State.foldl_discard_sets (s.tap u).settling
    (s.updTap u fun tp => { tp with settling := [] }) u
  rw [emptied.own] at dropped
  subst at'
  exact emptied.trans dropped

/-- The state in which a closing tap changes to CLOSED (R84). -/
def State.unshut (s : State) (u : TapNo) : State :=
  ((((s.dropFrames u).dropSettling u).makeDue u).endRetention u).updTap u fun tp =>
    { tp with inst := none, pendingAdjust := none, stream := none }

/-- A tap before its change to CLOSED (R84). -/
def Tap.unshut (tp : Tap) : Tap :=
  { (Tap.cleared { tp with openFrames := [] }).allDue.released with
    inst := none, pendingAdjust := none, stream := none }

theorem State.closeTap_open (live : (s.tap u).state ≠ .closed) :
    s.closeTap u = (s.unshut u).setTapState u .closed .closed := if_neg live

theorem State.unshut_sets (s : State) (u : TapNo) : s.SetsTap (s.unshut u) u (s.tap u).unshut := by
  have frames := s.dropFrames_sets u
  have settling := State.dropSettling_sets frames.own
  have due := State.makeDue_sets ((s.dropFrames u).dropSettling u) u
  rw [settling.own] at due
  have retention := State.endRetention_sets (((s.dropFrames u).dropSettling u).makeDue u) u
  rw [due.own] at retention
  have shut := State.setsTap_updTap
    ((((s.dropFrames u).dropSettling u).makeDue u).endRetention u) u fun tp =>
      { tp with inst := none, pendingAdjust := none, stream := none }
  rw [retention.own] at shut
  exact (((frames.trans settling).trans due).trans retention).trans shut

theorem State.closeTap_sets (live : (s.tap u).state ≠ .closed) :
    s.SetsTap (s.closeTap u) u ((s.tap u).unshut.changed .closed) := by
  have unshut := s.unshut_sets u
  have shut := State.setTapState_sets (s.unshut u) u .closed .closed
  rw [unshut.own] at shut
  rw [State.closeTap_open live]
  exact unshut.trans shut

theorem Tap.unshut_queue (x : Tap) :
    x.unshut.queue = x.queue.map (fun e => { e with due := true }) := rfl

theorem Tap.unshut_changed_queue (x : Tap) (new : TapState) : (x.unshut.changed new).queue =
    x.queue.map (fun e => { e with due := true }) := by
  unfold Tap.changed
  split
  · rfl
  · exact (List.map_map).trans rfl

theorem Tap.unshut_timer (x : Tap) (new : TapState) : (x.unshut.changed new).timer = none := by
  unfold Tap.changed
  split <;> rfl

/-- The report of a change of tap state joins the queue, unless a full one drops it (R81, R141). -/
theorem State.setTapState_reports {s : State} {new : TapState} (alive : s.device ≠ .halted)
    (other : (s.tap u).state ≠ new) (r : TapReason) :
    { body := .tapState u (s.tap u).state new r (s.tap u).stream,
      flush := (s.tap u).queue.length } ∈ (s.setTapState u new r).reporter.queue ∨
    32 ≤ (s.setTapState u new r).reporter.queue.length := by
  have enters := s.setTapState_enters u new r
  rw [State.Enters, if_neg other] at enters
  exact enters.joined alive

/-- The steps before a closing tap's change of state change nothing outside slot supply, the reporter
and the tap. -/
theorem State.unshut_keeps (s : State) (u : TapNo) : s.Keeps (s.unshut u) := by
  have frames : s.Keeps (s.dropFrames u) :=
    (s.updTap_keeps u _ le_rfl le_rfl).trans (State.pushFrames_keeps _ _)
  have settling (t : State) : t.Keeps (t.dropSettling u) :=
    (t.updTap_keeps u _ (Nat.zero_le _) le_rfl).trans
      (.foldl _ (fun t (c : Completion) => t.discard_keeps u c.kind c.run) _ _)
  have due := (frames.trans (settling _)).trans (State.makeDue_keeps _ u)
  exact (due.trans (State.endRetention_keeps _ u)).trans (State.updTap_keeps _ u _ le_rfl le_rfl)

theorem State.closeTap_reports (alive : s.device ≠ .halted) (live : (s.tap u).state ≠ .closed) :
    { body := .tapState u (s.tap u).state .closed .closed none,
      flush := (s.tap u).queue.length } ∈ (s.closeTap u).reporter.queue ∨
    32 ≤ (s.closeTap u).reporter.queue.length := by
  have own := (s.unshut_sets u).own
  have reports := State.setTapState_reports (s := s.unshut u) (u := u) (new := .closed)
    (ne_of_eq_of_ne (s.unshut_keeps u).only.device alive)
    (ne_of_eq_of_ne (congrArg Tap.state own) live) .closed
  rw [own, Tap.unshut_queue, List.length_map] at reports
  rw [State.closeTap_open live]
  exact reports

theorem State.dropFrames_settling (s : State) (u : TapNo) :
    ((s.dropFrames u).tap u).settling = (s.tap u).settling := by
  rw [(s.dropFrames_sets u).own]

theorem State.updTap_gathers (s : State) (u : TapNo) (f : Tap → Tap) : s.Gathers (s.updTap u f) :=
  .of_supply rfl

theorem State.dropFrames_gathers (s : State) (u : TapNo) : s.Gathers (s.dropFrames u) ∧
    ∀ a, (∃ l ∈ (s.tap u).openFrames, l.slot = some a) → s.Idle a → (s.dropFrames u).Spares a := by
  have emptied := s.updTap_gathers u fun tp => { tp with openFrames := [] }
  obtain ⟨given, taken⟩ := State.pushFrames_gathers (s.tap u).openFrames
    (s.updTap u fun tp => { tp with openFrames := [] })
  exact ⟨emptied.trans given, fun a named idle => taken a named (emptied.idle a idle)⟩

theorem State.dropSettling_gathers (s : State) (u : TapNo) : s.Gathers (s.dropSettling u) ∧
    ∀ a, (∃ c ∈ (s.tap u).settling, c.kind = .slot a) → s.Idle a → (s.dropSettling u).Spares a := by
  have emptied := s.updTap_gathers u fun tp => { tp with settling := [] }
  obtain ⟨given, taken⟩ := State.foldl_discard_gathers u (s.tap u).settling
    (s.updTap u fun tp => { tp with settling := [] })
  exact ⟨emptied.trans given, fun a named idle => taken a named (emptied.idle a idle)⟩

/-- The later steps of TAP_CLOSE (R84). -/
def State.finishClose (s : State) (u : TapNo) : State := ((s.makeDue u).endRetention u).shutTap u

theorem State.closeTap_finish (live : (s.tap u).state ≠ .closed) :
    s.closeTap u = ((s.dropFrames u).dropSettling u).finishClose u := if_neg live

theorem State.shutTap_spares {a : Word} (is : s.Spares a) : (s.shutTap u).Spares a :=
  .of_supply (State.setTapState_supply _ u .closed .closed) ((s.updTap_gathers u _).spares a is)

theorem State.finishClose_spares {a : Word} (is : s.Spares a) : (s.finishClose u).Spares a :=
  State.shutTap_spares (State.endRetention_spares (.of_supply (s.makeDue_supply u) is))

theorem State.finishClose_steps (s : State) (u : TapNo) : ∃ w x : State, s.MakesDue w u ∧
    w.EndsRetention x u ∧
    (x.setTap u { x.tap u with inst := none, pendingAdjust := none, stream := none }).Enters
      (s.finishClose u) u .closed .closed :=
  ⟨_, _, s.makeDue_makes u, State.endRetention_ends _ u, State.setTapState_enters _ u _ _⟩

/-- The slots of the frames and completions that a closing tap drops (R84, R116). -/
theorem State.closeTap_spares {a : Word} {e : SlotEntry} (live : (s.tap u).state ≠ .closed)
    (named : (∃ l ∈ (s.tap u).openFrames, l.slot = some a) ∨
      ∃ c ∈ (s.tap u).settling, c.kind = .slot a) (found : s.slot a = some e)
    (idle : e.outstanding = 0) (kept : e.awaitingPush = false) : (s.closeTap u).Spares a := by
  have free : s.Idle a := .inr ⟨e, found, idle, kept⟩
  obtain ⟨framed, frames⟩ := s.dropFrames_gathers u
  obtain ⟨settled, completions⟩ := (s.dropFrames u).dropSettling_gathers u
  rw [State.dropFrames_settling] at completions
  rw [State.closeTap_finish live]
  refine State.finishClose_spares ?_
  obtain frame | completion := named
  · exact settled.spares a (frames a frame free)
  · exact completions a completion (framed.idle a free)

end

/-- Settles O52: the tap is followed through the five steps of R84, and an idle slot that it drops
stays with slot supply through the later ones. -/
theorem tapCloseTaken : Obligations.TapCloseTaken := by
  unfold Obligations.TapCloseTaken
  intro s tap up alive
  refine ⟨fun high => ⟨_, exec_tapClose up tap, ?_⟩, fun u named => ?_⟩
  · rw [State.runTapClose, tapOf_eq_none.mpr high]
    exact State.rejectedAs_badParameter alive 0x22
  · have run : exec (.tapClose tap) s = .next (s.closeTap u) := by
      rw [exec_tapClose up, State.runTapClose, tapOf_eq_some.mpr named, State.isHalted_of_live alive]
      rfl
    refine ⟨fun closed => run.trans (congrArg _ (if_pos closed)), fun live => ?_, fun live => ?_⟩
    · have sets := State.closeTap_sets live
      obtain ⟨stream, -, opens, adjust, inst, -, frames, retained, settling, counters, -⟩ :=
        (s.tap u).unshut.changed_kept .closed
      refine ⟨_, run, (s.closeTap_keeps u).only, fun v ne => sets.other ne, ?_⟩
      rw [sets.own]
      exact ⟨Tap.changed_state _ _, stream, inst, adjust, opens, frames, settling, retained,
        Tap.unshut_timer _ _, Tap.unshut_changed_queue _ _, counters,
        State.closeTap_reports alive live, fun a e named found idle kept =>
          State.closeTap_spares live named found idle kept⟩
    · obtain ⟨w, x, due, ends, enters⟩ := State.finishClose_steps ((s.dropFrames u).dropSettling u) u
      rw [State.closeTap_finish live] at run
      refine ⟨_, _, w, x, _, run, State.pushFrames_gives _ _, ?_, due, ends, enters⟩
      rw [State.dropSettling, State.dropFrames_settling]
      exact State.foldl_discardsAll u _ _

end Sys2Proof.Machine
end

section
/-! SUPPORT. One interpreted header beat, and a tap at a close notice (R4, R20, R39, R44, R89 to R91,
R145). -/

namespace Sys2Proof.Machine

/-! ## An interpreted header beat (R4, R20) -/

/-- A beat forwarded unaltered leaves its own piece. -/
theorem exec_oneBeat_forwarded {s u : State} {a : Word} {b : WriteBeat} {area : Area} (up : s.Up)
    (opened : s.linkOpen = true) (aligned : a.toNat % 4 = 0) (tag : Tag) (kind : BurstKind)
    (resolved : s.writeBeat a b = (u, BeatPlan.forward area a)) :
    ∃ t p, exec (.upstreamWriteAccept tag a kind [b]) s = .next t ∧
      t.link.queue = s.link.queue ++ [p] ∧ p.addr = a ∧ p.beats = [b] ∧ p.redirect = none ∧
      u.OnlyLink t := by
  obtain ⟨t, accepted, links, p, queue, -, addr, -, beats, redirect⟩ :=
    exec_oneBeat_shown up opened aligned tag kind resolved nofun
  rw [State.raiseOutstanding_none rfl] at links
  exact ⟨t, p, accepted, queue, addr, beats, redirect, links⟩

section
variable {s : State} {addr : Word} {b : WriteBeat} {off : Nat}

theorem State.HeaderWrite.beat (h : s.HeaderWrite addr off b) :
    s.writeBeat addr b = (s.headerBeat off b, BeatPlan.forward .header addr) := by
  unfold State.writeBeat
  rw [h.area, h.offset]

/-- The header is told apart only while the device is active (R17, R18). -/
theorem State.HeaderWrite.active (h : s.HeaderWrite addr off b) : s.device.active = true := by
  by_contra inactive
  obtain ⟨w, area⟩ | area | area :=
    State.areaOf_of_inactive ((Bool.not_eq_true _).mp inactive) addr
  · exact nomatch h.area.symm.trans area
  · exact nomatch h.area.symm.trans area
  · exact nomatch h.area.symm.trans area

theorem State.HeaderWrite.interpreted (h : s.HeaderWrite addr off b) :
    (allStrobes b && b.data.msb) = true := by
  rw [allStrobes, h.strobes, h.mark]
  rfl

theorem State.HeaderWrite.seals (h : s.HeaderWrite addr 60 b) :
    s.writeBeat addr b = (s.seal, BeatPlan.forward .header addr) := by
  rw [h.beat, State.headerBeat, if_pos h.interpreted]
  rfl

theorem State.HeaderWrite.opens (h : s.HeaderWrite addr 0 b) : s.writeBeat addr b =
    (s.frameOpen (b.data.extractLsb' 0 12) (b.data.extractLsb' 12 2),
      BeatPlan.forward .header addr) := by
  rw [h.beat, State.headerBeat, if_pos h.interpreted]
  rfl

/-- A header write carried out: the piece it leaves, and the state the beat leads to. -/
theorem State.HeaderWrite.runs {u : State} (h : s.HeaderWrite addr off b) (tag : Tag)
    (kind : BurstKind) (resolved : s.writeBeat addr b = (u, BeatPlan.forward .header addr)) :
    ∃ t p, exec (.upstreamWriteAccept tag addr kind [b]) s = .next t ∧
      t.link.queue = s.link.queue ++ [p] ∧ p.addr = addr ∧ p.beats = [b] ∧ p.redirect = none ∧
      u.OnlyLink t :=
  exec_oneBeat_forwarded h.up h.accepts h.aligned tag kind resolved

end

/-! ## A seal (R39) -/

section
variable {s : State} {o : OpenRecord}

theorem State.seal_closed (closed : s.reception.openFrame = none) : s.seal = s := by
  unfold State.seal
  rw [closed]

/-- The close notice of the open frame, after which the seal-late mark is set (R39, R40). -/
theorem State.seal_open (opened : s.reception.openFrame = some o) : s.seal =
    (State.closeNotice { s with reception := { s.reception with openFrame := none } } o.num
      o.quality).updReception fun r => { r with sealLate := true } := by
  unfold State.seal
  rw [opened]
  exact congrArg (State.updReception · _) (State.closeFrame_some opened)

end

/-- A request is told by the strap, the status bytes and the directive unit of the state after it. -/
theorem DirectiveUnit.RequestedOnce.reread {d : DirectiveUnit} {v t : State} (h : d.RequestedOnce v)
    (strap : t.strap = v.strap) (bytes : ∀ q, statusBytes t q = statusBytes v q)
    (directive : t.directive = v.directive) : d.RequestedOnce t := by
  unfold DirectiveUnit.RequestedOnce at *
  rw [strap, directive]
  simp only [bytes]
  exact h

/-! ## The coalescing timer (R145) -/

section
variable {s t : State} {u : TapNo}

theorem State.updTap_same {f : Tap → Tap} (same : f (s.tap u) = s.tap u) : s.updTap u f = s := by
  unfold State.updTap State.setTap
  rw [same, State.tap]
  have kept : s.taps.set u s.taps[u] = s.taps := Vector.set_getElem_self _
  rw [kept]

theorem State.raiseTimer_absent (absent : (s.tap u).timer = none) : s.raiseTimer u = s := by
  have same : s.updTap u (fun tp => { tp with timer := tp.timer.map (· + 1) }) = s :=
    State.updTap_same (by rw [absent, Option.map_none, ← absent])
  rw [State.raiseTimer, same, State.timerCheck_running fun n some => nomatch absent.symm.trans some]

theorem State.raiseTimer_runs {n : Nat} (timer : (s.tap u).timer = some n)
    (below : n + 1 < s.reporter.interval) :
    s.raiseTimer u = s.setTap u { s.tap u with timer := some (n + 1) } := by
  have raised : (s.updTap u fun tp => { tp with timer := tp.timer.map (· + 1) }) =
      s.setTap u { s.tap u with timer := some (n + 1) } := by
    rw [State.updTap, timer]
    rfl
  rw [State.raiseTimer, raised, State.timerCheck_running]
  intro m found
  rw [State.tap_setTap_same] at found
  exact Option.some.inj found ▸ below

theorem State.setTap_setTap (s : State) (u : TapNo) (a b : Tap) :
    (s.setTap u a).setTap u b = s.setTap u b := by
  simp only [State.setTap, Vector.set_set]

/-- Making a tap's entries due does not depend on its timer. -/
theorem State.MakesDue.of_timer {x : Option Nat}
    (h : State.MakesDue (s.setTap u { s.tap u with timer := x }) t u) : s.MakesDue t u := by
  unfold State.MakesDue at *
  rw [State.tap_setTap_same, State.setTap_setTap] at h
  exact h

theorem State.raiseTimer_expires {n : Nat} (timer : (s.tap u).timer = some n)
    (expired : s.reporter.interval ≤ n + 1) : s.MakesDue (s.raiseTimer u) u := by
  have raised : (s.updTap u fun tp => { tp with timer := tp.timer.map (· + 1) }) =
      s.setTap u { s.tap u with timer := some (n + 1) } := by
    rw [State.updTap, timer]
    rfl
  have due := State.timerCheck_expired (n := n + 1)
    (s := s.setTap u { s.tap u with timer := some (n + 1) }) (u := u)
    (congrArg Tap.timer (s.tap_setTap_same u _)) expired
  rw [State.raiseTimer, raised, due]
  exact (State.makeDue_makes _ u).of_timer

end

/-! ## The class a frame brings (R44, R89) -/

theorem classArrives_iff (q : BitVec 2) (floor : Nat) (restart : Bool) :
    classArrives q floor restart = true ↔ q ≠ 0 ∧ floor ≤ q.toNat ∧ restart = false := by
  simp [classArrives, and_assoc]

theorem Depth.lag_lt_frames (d : Depth) (c : Nat) : d.lag c < d.frames := by
  cases d <;> simp only [Depth.lag, Depth.frames] <;> omega

/-- The class of a lag is the one with that lag (R9, R10). -/
theorem Depth.classAt_lag {d : Depth} {c n : Nat} (small : c < d.frames) (lag : d.lag c = n) :
    d.classAt n = some c := by
  have found := find?_unique (p := fun c => d.lag c == n) (List.mem_range.mpr small)
    (beq_iff_eq.mpr lag)
  refine found.2 fun c' mem same => ?_
  obtain ⟨k, -, -, unique⟩ := d.lag_bijective n (lag ▸ d.lag_lt_frames c)
  rw [unique c small lag, unique c' (List.mem_range.mp mem) (beq_iff_eq.mp same)]

/-- One logical frame's mark in the entry it names (R89). -/
def SlotEntry.markBy (d : Depth) (f : FrameNo) (arrives : Bool) (e : SlotEntry) (l : LogicalFrame) :
    SlotEntry :=
  match d.classAt (f - l.frame).toNat with
  | some c => e.markClass c arrives
  | none => e

section
variable (d : Depth) (f : FrameNo) (arrives : Bool)

theorem SlotEntry.markClass_only (c : Nat) (e : SlotEntry) : e.markClass c arrives =
    { e with
      arrived := (e.markClass c arrives).arrived, erased := (e.markClass c arrives).erased } := by
  unfold SlotEntry.markClass
  split
  · split <;> rfl
  · rfl

theorem SlotEntry.markBy_only (e : SlotEntry) (l : LogicalFrame) : e.markBy d f arrives l =
    { e with
      arrived := (e.markBy d f arrives l).arrived, erased := (e.markBy d f arrives l).erased } := by
  unfold SlotEntry.markBy
  split
  · exact SlotEntry.markClass_only arrives _ e
  · rfl

theorem SlotEntry.foldl_markBy_only (frames : List LogicalFrame) (e : SlotEntry) :
    frames.foldl (SlotEntry.markBy d f arrives) e = { e with
      arrived := (frames.foldl (SlotEntry.markBy d f arrives) e).arrived
      erased := (frames.foldl (SlotEntry.markBy d f arrives) e).erased } := by
  induction frames generalizing e with
  | nil => rfl
  | cons l rest ih =>
    rw [List.foldl_cons, ih (e.markBy d f arrives l)]
    rw [SlotEntry.markBy_only d f arrives e l]

/-- A logical frame marks the entry it names and no other. -/
theorem State.slot_markFrame (s : State) (l : LogicalFrame) (a : Word) :
    (s.markFrame d f arrives l).slot a =
      if l.slot = some a then (s.slot a).map (SlotEntry.markBy d f arrives · l) else s.slot a := by
  unfold State.markFrame SlotEntry.markBy
  cases l.slot with
  | none => rfl
  | some b =>
    cases d.classAt (f - l.frame).toNat with
    | none =>
      show s.slot a = if some b = some a then (s.slot a).map (fun e => e) else s.slot a
      rw [Option.map_id_fun', id, ite_self]
    | some c =>
      refine (s.slot_updSlot b a _ fun e => (SlotEntry.markClass_place c arrives e).1).trans ?_
      by_cases same : a = b
      · rw [if_pos same, if_pos (congrArg some same.symm), same]
      · rw [if_neg same, if_neg (by simpa using fun k => same k.symm)]

/-- The marks of several logical frames in one entry: those of the frames that name it, in order. -/
theorem State.slot_foldl_markFrame (a : Word) (frames : List LogicalFrame) (s : State) :
    (frames.foldl (fun s l => s.markFrame d f arrives l) s).slot a =
      (s.slot a).map ((frames.filter fun l => l.slot = some a).foldl
        (SlotEntry.markBy d f arrives)) := by
  induction frames generalizing s with
  | nil => simp
  | cons l rest ih =>
    rw [List.foldl_cons, ih, State.slot_markFrame]
    by_cases named : l.slot = some a
    · rw [if_pos named, List.filter_cons_of_pos (by simpa using named), Option.map_map]
      rfl
    · rw [if_neg named, List.filter_cons_of_neg (by simpa using named)]

theorem State.markFrame_only (s : State) (l : LogicalFrame) : s.markFrame d f arrives l =
    { s with supply := { s.supply with table := (s.markFrame d f arrives l).supply.table } } := by
  unfold State.markFrame
  split <;> rfl

theorem State.foldl_markFrame_only (frames : List LogicalFrame) (s : State) :
    frames.foldl (fun s l => s.markFrame d f arrives l) s = { s with supply := { s.supply with
      table := (frames.foldl (fun s l => s.markFrame d f arrives l) s).supply.table } } := by
  induction frames generalizing s with
  | nil => rfl
  | cons l rest ih =>
    rw [List.foldl_cons, ih]
    rw [State.markFrame_only d f arrives s l]

end

/-- What one mark says of the classes (R44, R89). -/
theorem SlotEntry.markClass_classes {c : Nat} (small : c < 10) (e : SlotEntry) :
    (hasClass e.erased c = true → e.markClass c true = e) ∧
    (hasClass e.erased c = false → (e.markClass c true).erased = e.erased ∧
      ∀ c', hasClass (e.markClass c true).arrived c' = (hasClass e.arrived c' || c' == c)) ∧
    ∀ c', hasClass (e.markClass c false).erased c' = (hasClass e.erased c' || c' == c) ∧
      hasClass (e.markClass c false).arrived c' = (hasClass e.arrived c' && c' != c) := by
  refine ⟨fun gone => ?_, fun kept => ?_, fun c' => ?_⟩
  · exact (if_pos rfl).trans (if_pos gone)
  · have marked : e.markClass c true = { e with arrived := joinClass e.arrived c } :=
      (if_pos rfl).trans (if_neg (by rw [kept]; decide))
    rw [marked]
    exact ⟨rfl, hasClass_joinClass small e.arrived⟩
  · have marked : e.markClass c false =
        { e with arrived := leaveClass e.arrived c, erased := joinClass e.erased c } := if_neg nofun
    rw [marked]
    exact ⟨hasClass_joinClass small e.erased c', hasClass_leaveClass small e.arrived c'⟩

end Sys2Proof.Machine
end

section
/-! CLAIMS. A seal and the close notice (R4, R39, R40, R44, R60, R89, R91, R136, R145, R171). -/

namespace Sys2Proof.Machine

/-! ## A logical frame completed (R91) -/

/-- The kind of completion of a logical frame (R91, R92). -/
def LogicalFrame.kind (l : LogicalFrame) : CompletionKind :=
  match l.slot with
  | some a => .slot a
  | none => .starved

theorem State.completeFrame_finishes {s : State} {u : TapNo} {n : Counter}
    (number : (s.tap u).number = n) (l : LogicalFrame) : ∃ w : State,
    w = { s with supply := { s.supply with table := w.supply.table } } ∧
    (∀ a x, s.slot a = some x → w.slot a =
      some (if l.slot = some a ∧ x.state = .opened then { x with state := .complete } else x)) ∧
    w.Appends (s.completeFrame u (fun _ => 0) l) u
      { frame := l.frame, kind := l.kind, run := 1, number := n } := by
  unfold State.completeFrame LogicalFrame.kind
  rw [number]
  cases slot : l.slot with
  | none =>
    refine ⟨s, rfl, fun a x found => ?_, State.append_appends _ u _⟩
    rw [if_neg fun k => nomatch k.1]
    exact found
  | some b =>
    refine ⟨s.updSlot b (SlotEntry.finish fun _ => 0), rfl, fun a x found => ?_,
      State.append_appends _ u _⟩
    rw [s.slot_updSlot b a _ fun e => (SlotEntry.finish_place _ e).1]
    by_cases same : a = b
    · subst same
      have finished : x.finish (fun _ => 0) =
          if x.state = .opened then { x with state := .complete } else x := by
        unfold SlotEntry.finish
        rw [show x.erased ||| (fun _ => 0) x = x.erased from BitVec.or_zero]
      rw [if_pos rfl, found, Option.map_some, finished]
      simp only [true_and]
    · rw [if_neg same, if_neg fun k => same (Option.some.inj k.1).symm]
      exact found

/-! ## One tap at a close notice (R89, R91, R136) -/

section
variable {s : State} {u : TapNo} {i : TapInstance} (f : FrameNo) (q : BitVec 2)

/-- A tap's hold length raised and the class a frame brings marked (R89, R136). -/
def State.markTap (s : State) (u : TapNo) (i : TapInstance) : State :=
  (s.tap u).openFrames.foldl
    (fun t l => t.markFrame i.depth f (classArrives q (s.tap u).params.floor i.restart) l)
    (s.updTap u fun tp => { tp with holdLength := tp.holdLength.map (fun n => min 65535 (n + 1)) })

theorem State.tapCloseNotice_idle (idle : (s.tap u).bound = false ∨ (s.tap u).inst = none) :
    State.tapCloseNotice f q s u = s := by
  unfold State.tapCloseNotice
  split
  next i found =>
    exact if_neg (by rw [idle.resolve_right (by rw [found]; nofun)]; decide)
  · rfl

theorem State.tapCloseNotice_bound (bound : (s.tap u).bound = true) (found : (s.tap u).inst = some i) :
    State.tapCloseNotice f q s u = (s.markTap f q u i).completeDue u i := by
  unfold State.tapCloseNotice State.markTap
  rw [found]
  dsimp only
  rw [if_pos bound, State.tap_updTap_same]

/-- The marks leave the tap with its hold length raised, and its slot table. -/
theorem State.markTap_only (s : State) (u : TapNo) (i : TapInstance) : s.markTap f q u i =
    { s.setTap u { s.tap u with
        holdLength := (s.tap u).holdLength.map (fun n => min 65535 (n + 1)) } with
      supply := { s.supply with table := (s.markTap f q u i).supply.table } } :=
  State.foldl_markFrame_only _ _ _ _ _

theorem State.markTap_tap (s : State) (u : TapNo) (i : TapInstance) : (s.markTap f q u i).tap u =
    { s.tap u with holdLength := (s.tap u).holdLength.map (fun n => min 65535 (n + 1)) } := by
  rw [State.tap_of_taps (show (s.markTap f q u i).taps = _ by rw [State.markTap_only])]
  exact s.tap_setTap_same u _

/-- An entry after the marks (R44, R89). -/
theorem State.markTap_slot {a : Word} {x : SlotEntry} (found : s.slot a = some x) :
    ∃ y, (s.markTap f q u i).slot a = some y ∧
      y = { x with arrived := y.arrived, erased := y.erased } ∧
      ((∀ l ∈ (s.tap u).openFrames, l.slot ≠ some a) → y = x) ∧
      ∀ l c, (s.tap u).openFrames.filter (fun l => l.slot = some a) = [l] → c < i.depth.frames →
        i.depth.lag c = (f - l.frame).toNat →
        y = x.markClass c (classArrives q (s.tap u).params.floor i.restart) := by
  have marked := State.slot_foldl_markFrame i.depth f
    (classArrives q (s.tap u).params.floor i.restart) a (s.tap u).openFrames
    (s.updTap u fun tp => { tp with holdLength := tp.holdLength.map (fun n => min 65535 (n + 1)) })
  refine ⟨_, marked.trans (congrArg _ found), SlotEntry.foldl_markBy_only _ _ _ _ x, fun none => ?_,
    fun l c one small lag => ?_⟩
  · rw [List.filter_eq_nil_iff.mpr fun l mem => by simpa using none l mem]
    rfl
  · rw [one]
    show SlotEntry.markBy _ _ _ x l = _
    rw [SlotEntry.markBy, Depth.classAt_lag small lag]

theorem State.completeDue_early {l : TapInstance}
    (early : l.age + 1 ≠ l.depth.frames ∨ (s.tap u).openFrames = []) : s.completeDue u l = s := by
  unfold State.completeDue
  split
  next due =>
    rw [early.resolve_left (not_not.mpr due)]
  · rfl

theorem State.completeDue_due {l : LogicalFrame} {rest : List LogicalFrame}
    (due : i.age + 1 = i.depth.frames) (frames : (s.tap u).openFrames = l :: rest) :
    s.completeDue u i =
      (s.setTap u { s.tap u with openFrames := rest }).completeFrame u (fun _ => 0) l := by
  unfold State.completeDue
  rw [if_pos due, frames]
  rfl

end

/-! ## The seal (R39, R40) -/

section
variable {s t : State} {o : OpenRecord}

/-- What a seal leaves, in terms of the close notice (R39, R40). -/
theorem State.seal_notice (opened : s.reception.openFrame = some o) (links : s.seal.OnlyLink t) :
    ∃ v, v = State.closeNotice { s with reception := { s.reception with openFrame := none } } o.num
        o.quality ∧
      t = { v with link := t.link, reception := { v.reception with sealLate := true } } := by
  rw [State.seal_open opened] at links
  refine ⟨_, rfl, ?_⟩
  generalize State.closeNotice { s with reception := { s.reception with openFrame := none } } o.num
    o.quality = v at links ⊢
  exact links

theorem State.seal_fields (opened : s.reception.openFrame = some o) (links : s.seal.OnlyLink t) :
    t.device = s.device ∧
      t.reception = { s.reception with openFrame := none, sealLate := true } ∧
      t.layout = { s.layout with buffers := clearBuffers } ∧
      (s.device ≠ .halted → s.directive.RequestedOnce t) := by
  obtain ⟨v, notice, same⟩ := State.seal_notice opened links
  obtain ⟨device, reception, layout⟩ := State.closeNotice_fields
    { s with reception := { s.reception with openFrame := none } } o.num o.quality
  have requested := State.closeNotice_requests
    { s with reception := { s.reception with openFrame := none } } o.num o.quality
  rw [← notice] at device reception layout requested
  refine ⟨?_, ?_, ?_, fun live => (requested live).reread ?_ (fun n => ?_) ?_⟩
  · rw [same]
    exact device
  · rw [same, reception]
  · rw [same]
    exact layout
  · rw [same]
  · rw [same]
    rfl
  · rw [same]

end

theorem State.closeNotice_taps (s : State) (f : FrameNo) (q : BitVec 2) : s.closeNotice f q =
    (([0, 1, 2, 3, 4, 5, 6, 7] : List TapNo).foldl (State.tapCloseNotice f q)
      (([0, 1, 2, 3, 4, 5, 6, 7] : List TapNo).foldl State.raiseTimer
        { s with layout := { s.layout with buffers := clearBuffers } })).requestStatus := by
  rw [State.closeNotice, State.tapsClose, State.reporterClose, State.eachTap_foldl,
    State.eachTap_foldl]
  rfl

/-- Settles O29: the seal is the close notice of the open frame, and a tap's part of the notice is the
marks in its entries and the completion of its front frame. -/
theorem sealCloses : Obligations.SealCloses := by
  unfold Obligations.SealCloses
  refine ⟨fun s tag addr kind b header => ?_, fun s tag addr kind b o header opened => ?_,
    State.closeNotice_taps, fun s u => ⟨State.raiseTimer_absent, fun n timer =>
      ⟨State.raiseTimer_runs timer, State.raiseTimer_expires timer⟩⟩, fun s f q u => ?_,
    fun s => ⟨s.requestStatus_only, fun halted => if_pos (.inl halted), s.requestStatus_once⟩⟩
  · obtain ⟨t, p, run, queue, at', beats, redirect, links⟩ := header.runs tag kind header.seals
    obtain ⟨-, strap, regions, -⟩ := s.seal_upkeep.outside
    have kept : t.strap = s.strap ∧ t.regions = s.regions := by
      rw [show t = _ from links]
      exact ⟨strap, regions⟩
    refine ⟨t, p, run, queue, at', beats, redirect, ?_⟩
    cases opened : s.reception.openFrame with
    | none =>
      rw [State.seal_closed opened] at links
      refine ⟨?_, kept.2, kept.1, fun _ => links, fun k => absurd rfl k⟩
      rw [show t = _ from links]
    | some o =>
      obtain ⟨device, reception, layout, requested⟩ := State.seal_fields opened links
      exact ⟨device, kept.2, kept.1, nofun, fun _ =>
        ⟨reception, layout, requested (DeviceState.active_ne header.active).2⟩⟩
  · obtain ⟨t, p, run, -, -, -, -, links⟩ := header.runs tag kind header.seals
    obtain ⟨v, notice, same⟩ := State.seal_notice opened links
    exact ⟨t, v, run, notice, same⟩
  · intro t frames
    refine ⟨State.tapCloseNotice_idle f q, fun i bound found => ?_⟩
    intro arrives
    have arrives_iff := classArrives_iff q (s.tap u).params.floor i.restart
    have notice := State.tapCloseNotice_bound f q bound found
    have tap := s.markTap_tap f q u i
    refine ⟨s.markTap f q u i, s.markTap_only f q u i, fun a x entry => ?_, fun early => ?_,
      fun l rest due front => ?_⟩
    · obtain ⟨y, entry', only, unnamed, named⟩ := State.markTap_slot (u := u) (i := i) f q entry
      refine ⟨y, entry', only, unnamed, fun l c one small lag => ?_⟩
      have small' : c < 10 := small.trans_le (by cases i.depth <;> decide)
      obtain ⟨gone, kept, leaves⟩ := SlotEntry.markClass_classes small' x
      have marked := named l c one small lag
      refine ⟨fun come => ?_, fun come => ?_, fun lost => ?_⟩
      · rw [arrives_iff.mpr come] at marked
        exact marked ▸ gone
      · rw [arrives_iff.mpr come] at marked
        exact marked ▸ kept
      · rw [(Bool.not_eq_true _).mp (mt arrives_iff.mp lost)] at marked
        exact marked ▸ leaves
    · exact notice.trans (State.completeDue_early (early.imp_right (by rw [tap]; exact id)))
    · have completed := State.completeDue_due (s := s.markTap f q u i) (u := u) due
        ((congrArg Tap.openFrames tap).trans front)
      generalize s.markTap f q u i = v at tap completed notice ⊢
      have number : ((v.setTap u { v.tap u with openFrames := rest }).tap u).number = i.number := by
        rw [State.tap_setTap_same, Tap.number, tap, found]
      obtain ⟨w, only, finished, appends⟩ := State.completeFrame_finishes number l
      rw [← completed, ← notice] at appends
      exact ⟨w, only, finished, appends⟩

end Sys2Proof.Machine
end

section
/-! SUPPORT. What the layout tables' part of a notice changes, and the notices of a frame (R38, R40,
R63, R73). -/

namespace Sys2Proof.Machine

/-! ## Changes to the layout tables and what they bring -/

section
variable {s t w : State}

theorem State.OnlyLayout.refl (s : State) : s.OnlyLayout s := rfl

theorem State.OnlyLayout.trans (h : s.OnlyLayout t) (k : t.OnlyLayout w) : s.OnlyLayout w := by
  unfold State.OnlyLayout at *
  rw [k, h]

theorem State.OnlyTaps.layout_only (h : s.OnlyTaps t) : s.OnlyLayout t := by
  unfold State.OnlyTaps at h
  unfold State.OnlyLayout
  rw [h]

theorem State.Keeps.layout_only (h : s.Keeps t) : s.OnlyLayout t := h.only.layout_only

theorem State.updLayout_only (s : State) (f : Layout → Layout) : s.OnlyLayout (s.updLayout f) := rfl

theorem State.OnlyLayout.kept (h : s.OnlyLayout t) : t.device = s.device ∧
    t.reception = s.reception ∧ t.directive = s.directive ∧ t.regions = s.regions ∧
    t.strap = s.strap ∧ t.link = s.link := by
  rw [show t = _ from h]
  exact ⟨rfl, rfl, rfl, rfl, rfl, rfl⟩

theorem State.currentMatch_only (s : State) (f : FrameNo) : s.OnlyLayout (s.currentMatch f) := by
  have set := s.updLayout_only fun l => { l with cur := { s.layout.cur with
    state := .verified, entries := keepCollected s.layout.cur.entries } }
  exact (set.trans (State.hand_keeps _ _).layout_only).trans
    (State.verificationNotice_keeps _ (uncollected s.layout.cur.entries)).layout_only

theorem State.currentMismatch_only (s : State) (f : FrameNo) :
    s.OnlyLayout (s.currentMismatch f) := by
  have set := s.updLayout_only fun l => { l with cur := { s.layout.cur with
    state := .suspect, mismatch := true, entries := clearCollected s.layout.cur.entries } }
  have latched := set.trans (State.latch_keeps _ .layoutMismatch).layout_only
  unfold State.currentMismatch
  dsimp only
  split
  · exact latched
  · exact latched.trans (State.hand_keeps _ _).layout_only

theorem State.checkCurrent_only (s : State) (f : FrameNo) : s.OnlyLayout (s.checkCurrent f) := by
  unfold State.checkCurrent
  dsimp only
  split
  · split
    · exact s.currentMatch_only f
    · exact s.currentMismatch_only f
  · exact .refl s

theorem State.OnlyLayout.checked (h : s.OnlyLayout t) (f : FrameNo) {p : Prop} [Decidable p] :
    s.OnlyLayout (if p then t.checkCurrent f else t) := by
  split
  · exact h.trans (t.checkCurrent_only f)
  · exact h

theorem State.OnlyLayout.handed (h : s.OnlyLayout t) (b : ReportBody) : s.OnlyLayout (t.hand b) :=
  h.trans (t.hand_keeps b).layout_only

theorem State.OnlyLayout.switched (h : s.OnlyLayout t) (f : FrameNo) :
    s.OnlyLayout (t.switchNotice f) := h.trans (t.switchNotice_keeps f).layout_only

/-- The event of a switch (R73, R77). -/
def PendingMap.switchEvent (p : PendingMap) : LayoutEvent :=
  if p.state = .ready then .switchedVerified else .switchedUnverified

/-- The pending map made the current one (R73). -/
def State.exchangeMaps (s : State) : State :=
  (s.setCurrent s.layout.pend.becomeCurrent).setPending PendingMap.none

/-- The switch before the check of a map of expected count 0 (R73). -/
def State.switched (s : State) (f : FrameNo) : State :=
  (s.exchangeMaps.hand (.layout s.layout.pend.switchEvent (versionNat s.layout.pend.version)
    s.layout.pend.switchFrame 0)).switchNotice f

theorem State.switchMaps_eq (s : State) (f : FrameNo) : s.switchMaps f =
    if (s.switched f).layout.cur.state = .collecting ∧ (s.switched f).layout.cur.expCount = 0 then
      (s.switched f).checkCurrent f
    else s.switched f := by
  unfold State.switched State.switchMaps State.exchangeMaps PendingMap.switchEvent
  with_reducible rfl

theorem State.switched_only (s : State) (f : FrameNo) : s.OnlyLayout (s.switched f) :=
  (State.OnlyLayout.handed (t := s.exchangeMaps) rfl _).switched f

theorem State.switchMaps_only (s : State) (f : FrameNo) : s.OnlyLayout (s.switchMaps f) := by
  have switched := s.switched_only f
  rw [State.switchMaps_eq]
  generalize s.switched f = t at switched
  exact switched.checked f

theorem State.layoutOpen_only (s : State) (f : FrameNo) : s.OnlyLayout (s.layoutOpen f) := by
  unfold State.layoutOpen
  split
  · exact s.switchMaps_only f
  · exact .refl s

theorem State.openNotice_only (s : State) (f : FrameNo) (first : Bool) :
    s.OnlyLayout (s.openNotice f first) :=
  ((s.layoutOpen_only f).trans (State.reporterOpen_keeps _).layout_only).trans
    (State.tapsOpen_keeps _ f first).layout_only

end

/-- A lost frame: its open and its close notice keep the record and the device, and request one status
block write (R40, R43). -/
theorem State.lostFrame_fields (s : State) (n : FrameNo) : (s.lostFrame n).device = s.device ∧
    (s.lostFrame n).reception = s.reception ∧
    (s.device ≠ .halted → s.directive.RequestedOnce (s.lostFrame n)) := by
  obtain ⟨device, reception, directive, -⟩ := (s.openNotice_only n false).kept
  unfold State.lostFrame
  generalize s.openNotice n false = m at device reception directive
  obtain ⟨closed, record, -⟩ := m.closeNotice_fields n 0
  refine ⟨closed.trans device, record.trans reception, fun live => ?_⟩
  rw [← directive]
  exact m.closeNotice_requests n 0 (ne_of_eq_of_ne device live)

end Sys2Proof.Machine
end

section
/-! CLAIMS. The frame gap timer (R40, R43, R45 to R47, R50, R52). -/

namespace Sys2Proof.Machine

section
variable {s : State}

theorem State.timerExpiry_idle
    (idle : s.reception.gapTimer = none ∨ (s.device ≠ .running ∧ s.device ≠ .coasting)) :
    s.timerExpiry = s := by
  unfold State.timerExpiry
  split
  · rfl
  next set =>
    have other := idle.resolve_left set
    exact if_neg (not_or.mpr other)

theorem State.timerExpiry_synthesizes {e : FrameNo} (set : s.reception.gapTimer ≠ none)
    (tracking : s.device = .running ∨ s.device = .coasting)
    (below : s.reception.adoptTiming.coast < s.reception.adoptTiming.coastLimit)
    (expected : s.reception.adoptTiming.expected = some e) :
    s.timerExpiry = (s.updReception Reception.adoptTiming).synthesize e := by
  unfold State.timerExpiry
  rw [if_neg set, if_pos tracking]
  dsimp only
  refine (if_pos below).trans ?_
  rw [show (s.updReception Reception.adoptTiming).reception.expected = some e from expected]

theorem State.timerExpiry_resyncs (set : s.reception.gapTimer ≠ none)
    (tracking : s.device = .running ∨ s.device = .coasting)
    (limit : s.reception.adoptTiming.coastLimit ≤ s.reception.adoptTiming.coast) :
    s.timerExpiry = (s.updReception Reception.adoptTiming).resync := by
  unfold State.timerExpiry
  rw [if_neg set, if_pos tracking]
  exact if_neg (Nat.not_lt.mpr limit)

/-- The record of a synthesized frame (R46). -/
def Reception.synthesizeFrame (r : Reception) (e : FrameNo) : Reception :=
  { r with
    openFrame := none
    current := e
    expected := some (e + 1)
    coast := r.coast + 1
    sealLate := false
    gapTimer := some 32
    lost := r.lost + 1
    synthesized := r.synthesized + 1 }

/-- The state in which a synthesized frame takes its notices (R46). -/
def State.synthesizing (s : State) (e : FrameNo) : State :=
  { s.closeFrame with reception := s.reception.synthesizeFrame e }

theorem State.synthesize_eq (s : State) (e : FrameNo) : s.synthesize e =
    if s.device = .running then
      (((s.synthesizing e).lostFrame e).changeDevice .coasting).handReception .coastEntered 1
    else (s.synthesizing e).lostFrame e := by
  have record : (s.closeFrame.updReception fun r =>
      { r.passFrame e with
        coast := r.coast + 1, synthesized := r.synthesized + 1,
        gapTimer := some Config.expiryInterval }) = s.synthesizing e := by
    rw [State.updReception, State.synthesizing, s.closeFrame_fields.2.1]
    rfl
  unfold State.synthesize
  rw [record]

theorem State.synthesizing_directive (live : s.device ≠ .halted) (e : FrameNo) :
    s.directive.Asked ((s.synthesizing e).lostFrame e).directive := by
  have device : (s.synthesizing e).device = s.device := s.closeFrame_fields.1
  obtain ⟨-, -, requested⟩ := (s.synthesizing e).lostFrame_fields e
  exact DirectiveUnit.Asked.after (s.closeFrame_asks live)
    (requested (ne_of_eq_of_ne device live))

/-- A synthesized frame, by the device state before it (R46). -/
theorem State.synthesize_fields (tracking : s.device = .running ∨ s.device = .coasting) (e : FrameNo) :
    (s.synthesize e).device = .coasting ∧
    (s.synthesize e).reception = s.reception.synthesizeFrame e ∧
    s.StatusRequested (s.synthesize e) ∧
    (s.synthesize e).layout = ((s.synthesizing e).lostFrame e).layout ∧
    (s.synthesize e).taps = ((s.synthesizing e).lostFrame e).taps ∧
    (s.synthesize e).supply = ((s.synthesizing e).lostFrame e).supply ∧
    ∃ v, (s.device = .coasting → s.synthesize e = (s.synthesizing e).lostFrame e) ∧
      (s.device = .running → ((s.synthesizing e).lostFrame e).ChangesDevice v .coasting ∧
        v.Hands (s.synthesize e) (.reception .coastEntered 1) 0) := by
  have live : s.device ≠ .halted := by
    obtain is | is := tracking <;> rw [is] <;> decide
  have asked := State.synthesizing_directive live e
  obtain ⟨device, reception, -⟩ := (s.synthesizing e).lostFrame_fields e
  have device : ((s.synthesizing e).lostFrame e).device = s.device :=
    device.trans s.closeFrame_fields.1
  have reception : ((s.synthesizing e).lostFrame e).reception = s.reception.synthesizeFrame e :=
    reception
  rw [State.synthesize_eq]
  generalize (s.synthesizing e).lostFrame e = m at asked device reception
  obtain running | coasting := tracking
  · rw [if_pos running]
    have changes := m.changeDevice_changes .coasting (by decide)
    have handed := (m.changeDevice .coasting).hand_hands (.reception .coastEntered 1)
    rw [State.handReception]
    generalize m.changeDevice .coasting = v at changes handed
    generalize v.hand (.reception .coastEntered 1) = t at handed
    obtain ⟨same, -, requested⟩ := changes
    have only : t = { v with reporter := t.reporter } := handed.only
    have again : s.directive.Asked v.directive :=
      asked.again (requested (by rw [device, running]; decide))
    rw [show v.directive = t.directive by rw [only]] at again
    refine ⟨?_, ?_, again.requested, ?_, ?_, ?_, v,
      fun coasting => absurd (running.symm.trans coasting) (by decide),
      fun _ => ⟨⟨same, fun k => ?_, requested⟩, handed⟩⟩
    · rw [only, same]
    · rw [only, same]
      exact reception
    · rw [only, same]
    · rw [only, same]
    · rw [only, same]
    · exact absurd (device.symm.trans k) (by rw [running]; decide)
  · rw [if_neg (by rw [coasting]; decide)]
    exact ⟨device.trans coasting, reception, asked.requested, rfl, rfl, rfl, m, fun _ => rfl,
      fun running => absurd (running.symm.trans coasting) (by decide)⟩

end

/-- Settles O30: an expiry is the close notice, the notices of the lost frame and the change to
COASTING, or a resync. -/
theorem timerExpirySynthesizesOrResyncs : Obligations.TimerExpirySynthesizesOrResyncs := by
  unfold Obligations.TimerExpirySynthesizesOrResyncs
  intro s up r
  refine ⟨fun idle => ?_, fun set tracking => ⟨fun e below expected => ?_, fun limit => ?_⟩⟩
  · rw [exec_frameGapTimerExpiry up, State.timerExpiry_idle idle]
  · have run : exec .frameGapTimerExpiry s =
        .next (State.synthesize (s.updReception Reception.adoptTiming) e) := by
      rw [exec_frameGapTimerExpiry up, State.timerExpiry_synthesizes set tracking below expected]
    obtain ⟨device, reception, requested, layout, taps, supply, v, coasting, running⟩ :=
      State.synthesize_fields (s := s.updReception Reception.adoptTiming) tracking e
    refine ⟨_, run, device, reception, requested,
      ((s.updReception_upkeep _).trans (State.synthesize_upkeep _ e)).outside, _, _, v,
      State.closeFrame_closes _, ?_, layout, taps, supply, coasting, running⟩
    rw [reception]
    rfl
  · have run : exec .frameGapTimerExpiry s =
        .next (State.resync (s.updReception Reception.adoptTiming)) := by
      rw [exec_frameGapTimerExpiry up, State.timerExpiry_resyncs set tracking limit]
    have live : s.device ≠ .halted ∧ s.device ≠ .acquiring := by
      obtain is | is := tracking <;> rw [is] <;> decide
    obtain ⟨device, reception, cur, pend⟩ := (s.updReception Reception.adoptTiming).resync_fields
    exact ⟨_, run, device, reception, cur, pend,
      State.resync_requests (s := s.updReception Reception.adoptTiming) live.1 live.2,
      ((s.updReception_upkeep _).trans (State.resync_upkeep _)).outside, State.resync_resyncs _⟩

end Sys2Proof.Machine
end

section
/-! SUPPORT. A frame open by the rows of R35 (R35 to R38, R43, R49, R50, R52). -/

namespace Sys2Proof.Machine

/-! ## The record (R37, R38, R52) -/

theorem Reception.adoptTiming_none {r : Reception} (absent : r.pendingTiming = none) :
    r.adoptTiming = r := by
  unfold Reception.adoptTiming
  rw [absent]

theorem Reception.adoptTiming_some {r : Reception} {gap coast : Nat}
    (pending : r.pendingTiming = some (gap, coast)) :
    r.adoptTiming = { r with gapLimit := gap, coastLimit := coast, pendingTiming := none } := by
  unfold Reception.adoptTiming
  rw [pending]

theorem Reception.adoptTiming_openFrame (r : Reception) : r.adoptTiming.openFrame = r.openFrame := by
  cases pending : r.pendingTiming with
  | none => rw [Reception.adoptTiming_none pending]
  | some v => rw [Reception.adoptTiming_some (show _ = some (v.1, v.2) from pending)]

/-- Two records that differ in what an accepted open sets anew. -/
def Reception.AcceptsAs (a b : Reception) : Prop :=
  b = { a with
    openFrame := b.openFrame, current := b.current, expected := b.expected, coast := b.coast
    sealLate := b.sealLate, gapTimer := b.gapTimer }

theorem Reception.AcceptsAs.accept {a b : Reception} (h : a.AcceptsAs b) (f : FrameNo)
    (q : BitVec 2) : b.accept f q = a.accept f q := by
  rw [show b = _ from h]
  rfl

theorem Reception.accept_eq (r : Reception) (f : FrameNo) (q : BitVec 2) : r.accept f q = { r with
    openFrame := some { num := f, quality := q, cursor := 0 }
    current := f
    expected := some (f + 1)
    coast := 0
    sealLate := false
    gapTimer := some r.gapLimit
    received := r.received + 1
    lost := r.lost + (if q = 0 then 1 else 0) } := by
  unfold Reception.accept
  split
  · rfl
  · rw [show r.lost + 0 = r.lost from BitVec.add_zero _]

/-! ## What the steps of an open keep -/

section
variable (s : State) (f : FrameNo) (q : BitVec 2)

theorem State.handReception_fields (e : ReceptionEvent) (n : Nat) :
    (s.handReception e n).device = s.device ∧ (s.handReception e n).reception = s.reception := by
  obtain ⟨-, -, device, -, -, reception, -⟩ := (s.hand_keeps (.reception e n)).same
  exact ⟨device, reception⟩

theorem State.changeDevice_fields {d : DeviceState} (other : d ≠ .halted) :
    (s.changeDevice d).device = d ∧ (s.changeDevice d).reception = s.reception := by
  obtain ⟨same, -⟩ := s.changeDevice_changes d other
  exact ⟨by rw [same], by rw [same]⟩

theorem State.acceptOpen_fields (first : Bool) (resumed : Option Nat) :
    (s.acceptOpen f q first resumed).device = .running ∧
      (s.acceptOpen f q first resumed).reception = s.reception.accept f q := by
  obtain ⟨device, reception⟩ :=
    (s.closeFrame.updReception fun r => r.accept f q).changeDevice_fields (d := .running) (by decide)
  have record : (s.closeFrame.updReception fun r => r.accept f q).reception =
      s.reception.accept f q := by
    show s.closeFrame.reception.accept f q = _
    rw [s.closeFrame_fields.2.1]
    rfl
  unfold State.acceptOpen
  generalize (s.closeFrame.updReception fun r => r.accept f q).changeDevice .running = v
    at device reception
  cases resumed with
  | none =>
    obtain ⟨kept, noticed, -⟩ := (v.openNotice_only f first).kept
    exact ⟨kept.trans device, (noticed.trans reception).trans record⟩
  | some n =>
    obtain ⟨handedDevice, handedRecord⟩ := v.handReception_fields .resumed n
    obtain ⟨kept, noticed, -⟩ := ((v.handReception .resumed n).openNotice_only f first).kept
    exact ⟨kept.trans (handedDevice.trans device),
      noticed.trans (handedRecord.trans (reception.trans record))⟩

end

/-- The record after missed frames: one more lost for each (R37). -/
theorem State.missFrames_record (d : Nat) (s : State) (e : FrameNo) :
    Reception.AcceptsAs { s.reception with lost := s.reception.lost + BitVec.ofNat 32 d }
      (s.missFrames d e).reception := by
  induction d generalizing s e with
  | zero =>
    rw [State.missFrames, show s.reception.lost + BitVec.ofNat 32 0 = s.reception.lost from
      BitVec.add_zero _]
    rfl
  | succ d ih =>
    have missed : (s.missFrame e).reception = s.reception.passFrame e :=
      ((s.updReception fun r => r.passFrame e).lostFrame_fields e).2.1
    have rest := ih (s.missFrame e) (e + 1)
    have count : s.reception.lost + 1 + BitVec.ofNat 32 d =
        s.reception.lost + BitVec.ofNat 32 (d + 1) := by
      rw [Nat.add_comm d 1, BitVec.ofNat_add, ← BitVec.add_assoc]
      rfl
    rw [missed, Reception.passFrame] at rest
    dsimp only at rest
    rw [count] at rest
    exact rest

theorem State.jump_fields (s : State) (e : FrameNo) (d : Nat) (f : FrameNo) (q : BitVec 2) :
    (s.jump e d f q).device = .running ∧ (s.jump e d f q).reception =
      Reception.accept { s.reception with lost := s.reception.lost + BitVec.ofNat 32 d } f q := by
  have missed := State.missFrames_record d s.closeFrame e
  rw [s.closeFrame_fields.2.1] at missed
  unfold State.jump
  dsimp only
  generalize s.closeFrame.missFrames d e = m at missed
  have handed : (if s.device = .coasting then m.handReception .resumed (s.reception.coast + d)
      else m).reception = m.reception := by
    split
    · exact (m.handReception_fields _ _).2
    · rfl
  obtain ⟨device, reception⟩ := State.acceptOpen_fields
    (if s.device = .coasting then m.handReception .resumed (s.reception.coast + d) else m) f q false
    none
  refine ⟨device, reception.trans ?_⟩
  rw [handed]
  exact missed.accept f q

theorem State.resync_record (s : State) : s.reception.AcceptsAs s.resync.reception := by
  rw [s.resync_fields.2.1]
  rfl

/-! ## The rows of R35 -/

section
variable {s : State} {f : FrameNo} {e : FrameNo}

theorem State.judgeOpen_rewrite {o : OpenRecord} (opened : s.reception.openFrame = some o)
    (same : o.num = f) : s.judgeOpen f = .rewrite := by
  unfold State.judgeOpen
  dsimp only
  rw [opened]
  exact if_pos (by simpa using same)

theorem State.openFrame_other (other : ∀ o, s.reception.openFrame = some o → o.num ≠ f) :
    ¬ s.reception.openFrame.any (fun o => o.num == f) = true := by
  cases opened : s.reception.openFrame with
  | none => exact nofun
  | some o => simpa using other o opened

theorem State.judgeOpen_first (other : ∀ o, s.reception.openFrame = some o → o.num ≠ f)
    (acquiring : s.device = .acquiring) : s.judgeOpen f = .first :=
  (if_neg (State.openFrame_other other)).trans (if_pos acquiring)

theorem State.judgeOpen_tracked (other : ∀ o, s.reception.openFrame = some o → o.num ≠ f)
    (tracking : s.device ≠ .acquiring) (expected : s.reception.expected = some e) : s.judgeOpen f =
      if (f - e).toNat = 0 then .expected
      else if (f - e).toNat ≤ s.reception.coastLimit - s.reception.coast then
        .jump e (f - e).toNat
      else .discontinuity := by
  unfold State.judgeOpen
  dsimp only
  rw [if_neg (State.openFrame_other other), if_neg tracking, expected]

theorem State.judgeOpen_lost (other : ∀ o, s.reception.openFrame = some o → o.num ≠ f)
    (tracking : s.device ≠ .acquiring) (expected : s.reception.expected = none) :
    s.judgeOpen f = .discontinuity := by
  unfold State.judgeOpen
  dsimp only
  rw [if_neg (State.openFrame_other other), if_neg tracking, expected]

/-- What an open of each kind does (R36 to R38, R49, R50), the pending timing adopted. -/
def State.openAs (s : State) (f : FrameNo) (q : BitVec 2) : OpenKind → State
  | .rewrite => s
  | .first => s.acceptOpen f q true none
  | .expected =>
    s.acceptOpen f q false (if s.device = .coasting then some s.reception.coast else none)
  | .jump e d => s.jump e d f q
  | .discontinuity => s.resync.acceptOpen f q true none

theorem State.frameOpen_eq (s : State) (f : FrameNo) (q : BitVec 2) : s.frameOpen f q =
    (s.updReception Reception.adoptTiming).openAs f q
      ((s.updReception Reception.adoptTiming).judgeOpen f) := by
  unfold State.frameOpen
  dsimp only
  unfold State.openAs
  cases (s.updReception Reception.adoptTiming).judgeOpen f <;> rfl

end

end Sys2Proof.Machine
end

section
/-! SUPPORT. One tap at the switch and in the steps of R85 (R73, R74, R85 to R88, R113, R133). -/

namespace Sys2Proof.Machine

/-! ## A new instance and a lost stream -/

theorem Tap.begin_changed (x : Tap) (f : FrameNo) (e : MapEntry) :
    x.BeganAt ((x.begin f e).changed .holding) f e ∧
      ((x.begin f e).changed .holding).retained = x.retained ∧
      ((x.begin f e).changed .holding).settling = x.settling := by
  obtain ⟨stream, params, -, -, inst, number, frames, retained, settling, -, repeats, -⟩ :=
    (x.begin f e).changed_kept .holding
  exact ⟨⟨inst, number, Tap.changed_state _ _, frames, repeats, stream, params⟩, retained, settling⟩

/-- What a new instance is begun from is read in the tap's number, stream and parameters. -/
theorem Tap.BeganAt.reread {a b x : Tap} {f : FrameNo} {e : MapEntry} (h : a.BeganAt x f e)
    (number : a.lastNumber = b.lastNumber) (stream : a.stream = b.stream)
    (params : a.params = b.params) : b.BeganAt x f e := by
  unfold Tap.BeganAt at *
  rwa [number, stream, params] at h

section
variable {s t : State} {u : TapNo} (f : FrameNo) {e : MapEntry}

theorem State.restartInstance_onTap (s : State) (u : TapNo) (e : MapEntry) (r : TapReason) :
    s.OnTap ((s.instanceEnd u).beginInstance u f e r) u fun old new =>
      old.BeganAt new f e ∧ new.retained = none := by
  refine (s.instanceEnd_onTap u).trans
    (((s.instanceEnd u).beginInstance_sets u f e r).onTap
      (R := fun old new => new = (old.begin f e).changed .holding) rfl) ?_
  rintro a j _ judged rfl
  obtain ⟨began, retained, -⟩ := j.begin_changed f e
  exact ⟨began.reread judged.lastNumber judged.stream judged.params,
    retained.trans (Tap.ending_retained judged)⟩

theorem State.restartInstance_restarts (s : State) (u : TapNo) (e : MapEntry) :
    s.Restarts ((s.instanceEnd u).beginInstance u f e .instanceRestart) u f e :=
  ⟨_, s.instanceEnd_ends u, State.beginInstance_begins _ u f e _⟩

theorem State.instanceEnd_layout (s : State) (u : TapNo) : (s.instanceEnd u).layout = s.layout :=
  (s.instanceEnd_keeps u).same.2.2.2.2.2.2.1

/-- An instance ended for want of its stream (R74, R88). -/
theorem State.endStream_onTap (s : State) (u : TapNo) :
    s.OnTap ((s.instanceEnd u).loseStream u) u fun _ new => s.LostStream new := by
  have lost (new : TapState) (r : TapReason)
      (is : new = if s.layout.cur.state = .verified then .orphaned else .waiting) :
      s.OnTap ((s.instanceEnd u).unbind u new r) u fun _ tp => s.LostStream tp := by
    obtain ⟨reports, others, unbound, retained⟩ := s.endInstance_unbind_onTap u new r
    exact ⟨reports, others, unbound.inst, unbound.openFrames, retained, unbound.state.trans is⟩
  unfold State.loseStream
  rw [s.instanceEnd_layout u]
  split
  next verified => exact lost _ _ (by rw [if_pos verified])
  next other => exact lost _ _ (by rw [if_neg other])

theorem State.endStream_ends (s : State) (u : TapNo) :
    s.EndsWithoutStream ((s.instanceEnd u).loseStream u) u := by
  refine ⟨_, s.instanceEnd_ends u, ?_⟩
  unfold State.loseStream
  rw [s.instanceEnd_layout u]
  split
  · exact State.unbind_unbinds _ u _ _
  · exact State.unbind_unbinds _ u _ _

/-! ## The switch (R74) -/

theorem State.tapSwitch_bound {i : TapInstance} (bound : (s.tap u).bound = true)
    (found : (s.tap u).inst = some i) : State.tapSwitch f s u = s.switchBound u f i := by
  unfold State.tapSwitch
  obtain state | state := (Tap.bound_iff _).mp bound <;> rw [state, found]

theorem State.switchBound_same {i : TapInstance} (entry : s.streamEntry u = some e)
    (same : i.restart = false ∧ e.count = i.count ∧ e.depth = i.depth) : s.switchBound u f i =
      s.setTap u { s.tap u with inst := some { i with startCell := e.start } } := by
  unfold State.switchBound
  rw [entry]
  exact if_pos same

theorem State.switchBound_restarts {i : TapInstance} (entry : s.streamEntry u = some e)
    (other : ¬ (i.restart = false ∧ e.count = i.count ∧ e.depth = i.depth)) :
    s.switchBound u f i = (s.instanceEnd u).beginInstance u f e .instanceRestart := by
  unfold State.switchBound
  rw [entry]
  exact if_neg other

theorem State.switchBound_lost {i : TapInstance} (entry : s.streamEntry u = none) :
    s.switchBound u f i = (s.instanceEnd u).loseStream u := by
  unfold State.switchBound
  rw [entry]

theorem State.tapSwitch_waiting (waiting : (s.tap u).state = .waiting) : State.tapSwitch f s u =
    if s.streamEntry u = none ∧ s.layout.cur.state = .verified then
      s.setTapState u .orphaned .streamRemoved
    else s := by
  unfold State.tapSwitch
  rw [waiting]

theorem State.tapSwitch_orphaned (orphaned : (s.tap u).state = .orphaned) : State.tapSwitch f s u =
    if s.streamEntry u = none ∧ s.layout.cur.state ≠ .verified then
      s.setTapState u .waiting .streamUnknown
    else s := by
  unfold State.tapSwitch
  rw [orphaned]

theorem State.tapSwitch_closed (closed : (s.tap u).state = .closed) : State.tapSwitch f s u = s := by
  unfold State.tapSwitch
  rw [closed]

theorem State.tapSwitch_unborn (bound : (s.tap u).bound = true) (unborn : (s.tap u).inst = none) :
    State.tapSwitch f s u = s := by
  unfold State.tapSwitch
  obtain state | state := (Tap.bound_iff _).mp bound <;> rw [state, unborn]

theorem State.switchBound_others (s : State) {u v : TapNo} (i : TapInstance) (ne : v ≠ u) :
    (s.switchBound u f i).tap v = s.tap v := by
  cases entry : s.streamEntry u with
  | none =>
    rw [State.switchBound_lost f entry]
    exact (s.endStream_onTap u).others v ne
  | some e =>
    by_cases same : i.restart = false ∧ e.count = i.count ∧ e.depth = i.depth
    · rw [State.switchBound_same f entry same]
      exact s.tap_setTap_other _ ne
    · rw [State.switchBound_restarts f entry same]
      exact (s.restartInstance_onTap f u e _).others v ne

theorem State.tapSwitch_others (s : State) {u v : TapNo} (ne : v ≠ u) :
    (State.tapSwitch f s u).tap v = s.tap v := by
  have changed (p : Prop) [Decidable p] (new : TapState) (r : TapReason) :
      (if p then s.setTapState u new r else s).tap v = s.tap v := by
    split
    · exact (s.setTapState_sets u new r).other ne
    · rfl
  by_cases bound : (s.tap u).bound = true
  · cases found : (s.tap u).inst with
    | none => rw [State.tapSwitch_unborn f bound found]
    | some i =>
      rw [State.tapSwitch_bound f bound found]
      exact s.switchBound_others f i ne
  · obtain waiting | orphaned | closed := (s.tap u).bound_eq_false.mp ((Bool.not_eq_true _).mp bound)
    · rw [State.tapSwitch_waiting f waiting]
      exact changed _ _ _
    · rw [State.tapSwitch_orphaned f orphaned]
      exact changed _ _ _
    · rw [State.tapSwitch_closed f closed]

/-! ## A change of state, by the state before it -/

theorem State.setTapState_state (s : State) (u : TapNo) (new : TapState) (r : TapReason) :
    ((s.setTapState u new r).tap u).state = new := by
  rw [(s.setTapState_sets u new r).own]
  exact Tap.changed_state _ _

/-! ## Adoption (R85) -/

theorem State.adopt_idle (adjust : (s.tap u).pendingAdjust = none)
    (opens : (s.tap u).pendingOpen = none) : s.adopt u = s := by
  unfold State.adopt State.adoptOpen State.adoptAdjust
  rw [adjust]
  dsimp only
  rw [opens]

theorem State.adoptAdjust_some {p : TapParams} (adjust : (s.tap u).pendingAdjust = some p) :
    s.adoptAdjust u = s.setTap u { s.tap u with params := p, pendingAdjust := none } := by
  unfold State.adoptAdjust
  rw [adjust]
  rfl

theorem State.adoptOpen_none (opens : (s.tap u).pendingOpen = none) : s.adoptOpen u = s := by
  unfold State.adoptOpen
  rw [opens]

theorem State.adopt_adjust {p : TapParams} (adjust : (s.tap u).pendingAdjust = some p)
    (opens : (s.tap u).pendingOpen = none) :
    s.adopt u = s.setTap u { s.tap u with params := p, pendingAdjust := none } := by
  rw [State.adopt, State.adoptAdjust_some adjust, State.adoptOpen_none]
  rw [State.tap_setTap_same]
  exact opens

/-- A tap's record at the adoption of a pending open, WAITING not yet entered (R85). -/
def Tap.adopted (x : Tap) (i : StreamId) (p : TapParams) : Tap :=
  { x with
    stream := some i, params := p, pendingOpen := none, pendingAdjust := none
    counters := TapCounters.zero, retained := none, repeatCount := 0, recovery := 0 }

/-- The state in which an adopted tap has entered WAITING (R85). -/
def State.adopting (s : State) (u : TapNo) (i : StreamId) (p : TapParams) : State :=
  (s.setTap u ((s.tap u).adopted i p)).setTapState u .waiting .opened

theorem State.adopting_layout (s : State) (u : TapNo) (i : StreamId) (p : TapParams) :
    (s.adopting u i p).layout = s.layout :=
  (State.setTapState_keeps (s.setTap u ((s.tap u).adopted i p)) u .waiting .opened).same.2.2.2.2.2.2.1

theorem State.streamEntry_some {i : StreamId} (stream : (s.tap u).stream = some i) :
    s.streamEntry u = s.curEntry i := by
  unfold State.streamEntry
  rw [stream]

theorem State.streamEntry_none (stream : (s.tap u).stream = none) : s.streamEntry u = none := by
  unfold State.streamEntry
  rw [stream]

theorem State.adopting_entry (s : State) (u : TapNo) (i : StreamId) (p : TapParams) :
    (s.adopting u i p).streamEntry u = s.curEntry i := by
  have own : ((s.adopting u i p).tap u).stream = some i := by
    have sets := State.setTapState_sets (s.setTap u ((s.tap u).adopted i p)) u .waiting .opened
    rw [State.adopting, sets.own, State.tap_setTap_same]
    exact (Tap.changed_kept _ _).1
  rw [State.streamEntry_some own, State.curEntry, State.adopting_layout]
  rfl

theorem State.adopt_open {i : StreamId} {p : TapParams}
    (opens : (s.tap u).pendingOpen = some (i, p)) : s.adopt u =
      if s.layout.cur.state = .verified ∧ s.curEntry i = none then
        (s.adopting u i p).setTapState u .orphaned .streamRemoved
      else s.adopting u i p := by
  have adjusted : ((s.adoptAdjust u).updTap u fun tp => tp.opened i p) =
        s.setTap u ((s.tap u).adopted i p) ∧ ((s.adoptAdjust u).tap u).pendingOpen = some (i, p) := by
    cases adjust : (s.tap u).pendingAdjust with
    | none =>
      have same : s.adoptAdjust u = s := by
        unfold State.adoptAdjust
        rw [adjust]
      rw [same, State.updTap, Tap.adopted, ← adjust]
      exact ⟨rfl, opens⟩
    | some p =>
      rw [State.adoptAdjust_some adjust, State.updTap, State.setTap_setTap, State.tap_setTap_same]
      exact ⟨rfl, opens⟩
  rw [State.adopt, State.adoptOpen, adjusted.2]
  dsimp only
  rw [adjusted.1, ← State.adopting, State.adopting_layout, State.adopting_entry]

/-- A tap's record has taken up a pending open (R85). -/
def Tap.AdoptedAs (y : Tap) (i : StreamId) (p : TapParams) : Prop :=
  y.stream = some i ∧ y.params = p ∧ y.pendingOpen = none ∧ y.pendingAdjust = none ∧
    y.counters = TapCounters.zero ∧ y.retained = none ∧ y.repeatCount = 0 ∧ y.recovery = 0

theorem Tap.AdoptedAs.changed {y : Tap} {i : StreamId} {p : TapParams} (h : y.AdoptedAs i p)
    (new : TapState) : (y.changed new).AdoptedAs i p := by
  obtain ⟨stream, params, opens, adjust, -, -, -, retained, -, counters, repeats, recovery⟩ :=
    y.changed_kept new
  unfold Tap.AdoptedAs
  rw [stream, params, opens, adjust, counters, retained, repeats, recovery]
  exact h

theorem State.adopting_own (s : State) (u : TapNo) (i : StreamId) (p : TapParams) :
    (s.adopting u i p).tap u = ((s.tap u).adopted i p).changed .waiting := by
  rw [State.adopting, (State.setTapState_sets _ u .waiting .opened).own, State.tap_setTap_same]

theorem State.adopt_adopted {i : StreamId} {p : TapParams}
    (opens : (s.tap u).pendingOpen = some (i, p)) : ((s.adopt u).tap u).AdoptedAs i p := by
  have adopting : ((s.adopting u i p).tap u).AdoptedAs i p := by
    rw [State.adopting_own]
    exact Tap.AdoptedAs.changed (y := (s.tap u).adopted i p)
      ⟨rfl, rfl, rfl, rfl, rfl, rfl, rfl, rfl⟩ .waiting
  rw [State.adopt_open opens]
  split
  · rw [(State.setTapState_sets _ u .orphaned .streamRemoved).own]
    exact adopting.changed .orphaned
  · exact adopting

theorem State.adopt_state {i : StreamId} {p : TapParams}
    (opens : (s.tap u).pendingOpen = some (i, p)) : ((s.adopt u).tap u).state =
      if s.layout.cur.state = .verified ∧ s.curEntry i = none then .orphaned else .waiting := by
  rw [State.adopt_open opens]
  split
  · exact State.setTapState_state _ u _ _
  · rw [State.adopting_own]
    exact Tap.changed_state _ _

end

end Sys2Proof.Machine
end

section
/-! SUPPORT. The steps of R85 after adoption, and what an open notice does before them (R73, R85 to
R88, R113, R133, R145, R148). -/

namespace Sys2Proof.Machine

section
variable {s t : State} {u : TapNo} {f : FrameNo} {e : MapEntry} {i : TapInstance}

/-! ## Step 2: restart (R88) -/

theorem State.instanceEnd_entry (s : State) (u : TapNo) :
    (s.instanceEnd u).streamEntry u = s.streamEntry u := by
  have stream : ((s.instanceEnd u).tap u).stream = (s.tap u).stream :=
    (s.instanceEnd_onTap u).own.stream
  unfold State.streamEntry State.curEntry
  rw [stream, s.instanceEnd_layout u]

theorem State.restartStep_restarts {first : Bool} (bound : (s.tap u).bound = true)
    (found : (s.tap u).inst = some i) (old : i.fresh = false) (due : i.restart = true ∨ first = true) :
    s.restartStep u f first = s.restart u f := by
  unfold State.restartStep
  rw [found]
  refine if_pos ?_
  rw [bound, old]
  simpa using due

theorem State.restart_some (entry : s.streamEntry u = some e) :
    s.restart u f = (s.instanceEnd u).beginInstance u f e .instanceRestart := by
  unfold State.restart
  dsimp only
  rw [s.instanceEnd_entry u, entry]

theorem State.restart_none (entry : s.streamEntry u = none) :
    s.restart u f = (s.instanceEnd u).loseStream u := by
  unfold State.restart
  dsimp only
  rw [s.instanceEnd_entry u, entry]

theorem State.restartStep_idle {first : Bool} (idle : (s.tap u).bound = false ∨ (s.tap u).inst = none ∨
    ∃ i, (s.tap u).inst = some i ∧ (i.fresh = true ∨ (i.restart = false ∧ first = false))) :
    s.restartStep u f first = s := by
  unfold State.restartStep
  obtain unbound | unborn | ⟨i, found, idle⟩ := idle
  · rw [unbound]
    split <;> rfl
  · rw [unborn]
  · rw [found]
    refine if_neg ?_
    obtain fresh | ⟨kept, later⟩ := idle
    · simp [fresh]
    · simp [kept, later]

/-! ## Step 3: binding (R86, R133) -/

theorem State.bindStep_idle (idle : (s.tap u).seeking = false ∨ s.streamEntry u = none) :
    s.bindStep u f = s := by
  unfold State.bindStep
  obtain settled | absent := idle
  · rw [settled]
    rfl
  · rw [absent]
    exact ite_self s

theorem State.bindStep_binds (seeking : (s.tap u).seeking = true) (entry : s.streamEntry u = some e) :
    s.bindStep u f =
      (if s.retainedDiffers u e then s.endRetention u else s).beginInstance u f e .bound := by
  unfold State.bindStep
  rw [if_pos seeking, entry]

theorem State.retainedDiffers_none (unretained : (s.tap u).retained = none) :
    s.retainedDiffers u e = false := by
  unfold State.retainedDiffers
  rw [unretained]

theorem State.retainedDiffers_iff {a : Word} {x : SlotEntry} (retained : (s.tap u).retained = some a)
    (found : s.slot a = some x) :
    s.retainedDiffers u e = true ↔ ¬ (x.depth = e.depth ∧ x.count = e.count) := by
  unfold State.retainedDiffers
  rw [retained]
  dsimp only
  rw [found]
  dsimp only
  rw [Bool.or_eq_true, bne_iff_ne, bne_iff_ne, ne_eq, ne_eq, not_and_or]

theorem State.beginInstance_own (s : State) (u : TapNo) (f : FrameNo) (e : MapEntry) (r : TapReason) :
    (s.tap u).BeganAt ((s.beginInstance u f e r).tap u) f e ∧
      ((s.beginInstance u f e r).tap u).retained = (s.tap u).retained ∧
      ((s.beginInstance u f e r).tap u).settling = (s.tap u).settling := by
  rw [(s.beginInstance_sets u f e r).own]
  exact (s.tap u).begin_changed f e

theorem State.bindStep_own (seeking : (s.tap u).seeking = true) (entry : s.streamEntry u = some e) :
    (s.tap u).BeganAt ((s.bindStep u f).tap u) f e ∧
      ((s.bindStep u f).tap u).settling = (s.tap u).settling ∧
      ((s.bindStep u f).tap u).retained =
        if s.retainedDiffers u e then none else (s.tap u).retained := by
  rw [State.bindStep_binds seeking entry]
  split
  · obtain ⟨began, retained, settling⟩ := (s.endRetention u).beginInstance_own u f e .bound
    rw [(s.endRetention_sets u).own] at began retained settling
    exact ⟨began.reread rfl rfl rfl, settling, retained⟩
  · obtain ⟨began, retained, settling⟩ := s.beginInstance_own u f e .bound
    exact ⟨began, settling, retained⟩

/-! ## Step 4: allocation or starvation (R87, R113) -/

theorem TapInstance.advance_eq (i : TapInstance) : i.advance = { i with
    age := if i.fresh = false ∧ i.age + 1 < i.depth.frames then i.age + 1 else i.age
    fresh := false } := by
  unfold TapInstance.advance
  cases fresh : i.fresh with
  | true => rfl
  | false =>
    by_cases grows : i.age + 1 < i.depth.frames
    · simp [grows, ← fresh]
    · simp [grows, ← fresh]

theorem State.allocateStep_idle (idle : (s.tap u).bound = false ∨ (s.tap u).inst = none) :
    s.allocateStep u f = s := by
  unfold State.allocateStep
  obtain unbound | unborn := idle
  · rw [unbound]
    split <;> rfl
  · rw [unborn]

/-- The state that a grant leaves before its test for a refill (R87, R113). -/
def State.granted (s : State) (u : TapNo) (f : FrameNo) (i : TapInstance) (a : Word)
    (rest : List Word) : State :=
  (s.setTap u { s.tap u with inst := some i.advance }).updSupply fun p =>
    { p with stack := rest, table := p.table ++ [openEntry a u f i] }

/-- The open frame of a grant or a starvation put into the tap (R87). -/
def State.openInto (s : State) (u : TapNo) (f : FrameNo) (slot : Option Word) : State :=
  s.updTap u fun tp => { tp with openFrames := tp.openFrames ++ [{ frame := f, slot := slot }] }

theorem State.allocateStep_grants {a : Word} {rest : List Word} (bound : (s.tap u).bound = true)
    (found : (s.tap u).inst = some i) (stack : s.supply.stack = a :: rest)
    (room : s.workingSlots < 96) :
    s.allocateStep u f = (s.granted u f i a rest).testRefill.openInto u f (some a) := by
  have allocated : (s.updTap u fun tp => { tp with inst := some i.advance }).allocate u f i =
      ((s.granted u f i a rest).testRefill, some a) := by
    unfold State.allocate
    rw [show (s.updTap u fun tp => { tp with inst := some i.advance }).supply.stack = a :: rest
      from stack]
    exact if_pos room
  unfold State.allocateStep
  rw [found]
  dsimp only
  rw [if_pos bound, allocated]
  rfl

theorem State.allocateStep_starves (bound : (s.tap u).bound = true)
    (found : (s.tap u).inst = some i) (short : s.supply.stack = [] ∨ 96 ≤ s.workingSlots) :
    s.allocateStep u f =
      (((s.setTap u { s.tap u with inst := some i.advance }).openInto u f none).latch
        .starvation).setTapState u .holding .starvation := by
  have refused : (s.updTap u fun tp => { tp with inst := some i.advance }).allocate u f i =
      (s.setTap u { s.tap u with inst := some i.advance }, none) := by
    unfold State.allocate
    split
    · rfl
    next a rest stack =>
      refine if_neg (Nat.not_lt.mpr (short.resolve_left fun none => ?_))
      exact nomatch none.symm.trans stack
  unfold State.allocateStep
  rw [found]
  dsimp only
  rw [if_pos bound, refused]
  rfl

theorem State.openInto_set (s : State) (u : TapNo) (f : FrameNo) (j : TapInstance)
    (slot : Option Word) :
    (s.setTap u { s.tap u with inst := some j }).openInto u f slot = s.setTap u { s.tap u with
      inst := some j
      openFrames := (s.tap u).openFrames ++ [{ frame := f, slot := slot }] } := by
  unfold State.openInto State.updTap
  rw [State.tap_setTap_same, State.setTap_setTap]

/-- A test for a refill, and then a change of a tap (R109). -/
theorem State.testRefill_openInto (s : State) (u : TapNo) (f : FrameNo) (slot : Option Word) :
    s.testRefill.openInto u f slot = { s.openInto u f slot with supply := { s.supply with
      refill := s.testRefill.supply.refill } } := by
  rw [s.testRefill_only.1]
  rfl

theorem State.testRefill_idle (idle : s.regions = none ∨ s.supply.refill ≠ none) :
    s.testRefill = s := by
  obtain absent | busy := idle
  · unfold State.testRefill
    rw [absent]
  · obtain ⟨g, inFlight⟩ := Option.ne_none_iff_exists'.mp busy
    exact s.testRefill_only.2 g inFlight

theorem State.granted_openInto (s : State) (u : TapNo) (f : FrameNo) (i : TapInstance) (a : Word)
    (rest : List Word) (slot : Option Word) : (s.granted u f i a rest).openInto u f slot =
      ((s.setTap u { s.tap u with inst := some i.advance }).openInto u f slot).updSupply fun p =>
        { p with stack := rest, table := p.table ++ [openEntry a u f i] } := rfl

/-- A grant, but for the refill that its test may start (R87, R113). -/
theorem State.allocateStep_granted {a : Word} {rest : List Word} (bound : (s.tap u).bound = true)
    (found : (s.tap u).inst = some i) (stack : s.supply.stack = a :: rest)
    (room : s.workingSlots < 96) : s.allocateStep u f = { s.setTap u { s.tap u with
        inst := some i.advance
        openFrames := (s.tap u).openFrames ++ [{ frame := f, slot := some a }] } with
      supply := { s.supply with
        stack := rest
        table := s.supply.table ++ [openEntry a u f i]
        refill := (s.granted u f i a rest).testRefill.supply.refill } } := by
  rw [State.allocateStep_grants bound found stack room, State.testRefill_openInto,
    State.granted_openInto, State.openInto_set]
  rfl

/-! ## Before the taps: the maps' switch and the summary interval (R73, R148) -/

theorem PendingMap.switchesAt_iff (p : PendingMap) : p.switchesAt f = true ↔ p.state ≠ .none ∧
    ((p.switchFrame - f).toNat = 0 ∨ 1024 < (p.switchFrame - f).toNat) := by
  unfold PendingMap.switchesAt leadOf
  simp

theorem State.layoutOpen_stays (early : s.layout.pend.switchesAt f = false) :
    s.layoutOpen f = s := by
  unfold State.layoutOpen
  rw [early]
  rfl

theorem State.switched_layout (s : State) (f : FrameNo) :
    (s.switched f).layout = s.exchangeMaps.layout := by
  have handed := (s.exchangeMaps.hand_keeps (.layout s.layout.pend.switchEvent
    (versionNat s.layout.pend.version) s.layout.pend.switchFrame 0))
  exact (handed.trans (State.switchNotice_keeps _ f)).same.2.2.2.2.2.2.1

theorem State.layoutOpen_switches (reached : s.layout.pend.switchesAt f = true) :
    s.layoutOpen f =
      if s.layout.pend.becomeCurrent.state = .collecting ∧ s.layout.pend.expCount = 0 then
        (s.switched f).checkCurrent f
      else s.switched f := by
  unfold State.layoutOpen
  rw [if_pos reached, State.switchMaps_eq, s.switched_layout f,
    show s.exchangeMaps.layout.cur = s.layout.pend.becomeCurrent from rfl,
    show s.layout.pend.becomeCurrent.expCount = s.layout.pend.expCount from rfl]

theorem State.reporterOpen_keeps_all (kept : s.reporter.pendingInterval = none) :
    s.reporterOpen = s := by
  unfold State.reporterOpen
  rw [kept]

theorem State.reporterOpen_adopts {n : Nat} (pending : s.reporter.pendingInterval = some n) :
    s.reporterOpen = ([0, 1, 2, 3, 4, 5, 6, 7] : List TapNo).foldl State.timerCheck
      { s with reporter := { s.reporter with interval := n, pendingInterval := none } } := by
  unfold State.reporterOpen
  rw [pending]
  exact State.eachTap_foldl _ _

end

theorem workingSlots_filter (s : State) : s.workingSlots =
    (s.supply.table.filter (fun e => decide (e.state ≠ .returning))).length := by
  unfold State.workingSlots
  congr 2
  funext e
  cases e.state <;> rfl

end Sys2Proof.Machine
end

section
/-! CLAIMS. A frame open (R35 to R38, R49, R50, R52, R73, R74, R85 to R88, R113, R133). -/

namespace Sys2Proof.Machine

/-! ## The record and the device after an open (R37, R38) -/

/-- The frames that an open of a kind finds missed (R37). -/
def OpenKind.missed : OpenKind → Nat
  | .jump _ d => d
  | .rewrite | .first | .expected | .discontinuity => 0

section
variable {s : State} {f : FrameNo} {e : FrameNo}

theorem State.openAs_fields (s : State) (f : FrameNo) (q : BitVec 2) {k : OpenKind}
    (accepted : k ≠ .rewrite) : (s.openAs f q k).device = .running ∧
      (s.openAs f q k).reception = Reception.accept
        { s.reception with lost := s.reception.lost + BitVec.ofNat 32 k.missed } f q := by
  have none_missed : { s.reception with lost := s.reception.lost + BitVec.ofNat 32 0 } =
      s.reception := by
    rw [show s.reception.lost + BitVec.ofNat 32 0 = s.reception.lost from BitVec.add_zero _]
  cases k with
  | rewrite => exact absurd rfl accepted
  | first =>
    rw [OpenKind.missed, none_missed]
    exact s.acceptOpen_fields f q true none
  | expected =>
    rw [OpenKind.missed, none_missed]
    exact s.acceptOpen_fields f q false _
  | jump e d => exact s.jump_fields e d f q
  | discontinuity =>
    obtain ⟨device, reception⟩ := s.resync.acceptOpen_fields f q true none
    rw [OpenKind.missed, none_missed]
    exact ⟨device, reception.trans (s.resync_record.accept f q)⟩

theorem State.judgeOpen_accepted (other : ∀ o, s.reception.openFrame = some o → o.num ≠ f) :
    s.judgeOpen f ≠ .rewrite := by
  unfold State.judgeOpen
  dsimp only
  rw [if_neg (State.openFrame_other other)]
  split
  · exact nofun
  · split
    · exact nofun
    · split
      · exact nofun
      · split <;> exact nofun

theorem State.judgeOpen_missed_none (other : ∀ o, s.reception.openFrame = some o → o.num ≠ f)
    (unexpected : s.reception.expected = none) : (s.judgeOpen f).missed = 0 := by
  by_cases acquiring : s.device = .acquiring
  · rw [State.judgeOpen_first other acquiring, OpenKind.missed]
  · rw [State.judgeOpen_lost other acquiring unexpected, OpenKind.missed]

theorem State.judgeOpen_missed_some (other : ∀ o, s.reception.openFrame = some o → o.num ≠ f)
    (expected : s.reception.expected = some e) : (s.judgeOpen f).missed =
      if s.device ≠ .acquiring ∧
          (f - e).toNat ≤ s.reception.coastLimit - s.reception.coast then (f - e).toNat
      else 0 := by
  by_cases acquiring : s.device = .acquiring
  · rw [State.judgeOpen_first other acquiring, if_neg fun k => k.1 acquiring]
    rfl
  · rw [State.judgeOpen_tracked other acquiring expected]
    by_cases near : (f - e).toNat ≤ s.reception.coastLimit - s.reception.coast
    · rw [if_pos (show _ ∧ _ from ⟨acquiring, near⟩)]
      by_cases same : (f - e).toNat = 0
      · rw [if_pos same, same]
        rfl
      · rw [if_neg same, if_pos near]
        rfl
    · have later : (f - e).toNat ≠ 0 := fun same => near (same ▸ Nat.zero_le _)
      rw [if_neg fun k : _ ∧ _ => near k.2, if_neg later, if_neg near]
      rfl

end

/-! ## The notices of an open, by its row (R35) -/

section
variable {s : State} {f : FrameNo} (q : BitVec 2) {e : FrameNo}

theorem State.openAs_first (other : ∀ o, s.reception.openFrame = some o → o.num ≠ f)
    (acquiring : s.device = .acquiring) : s.Accepts (s.openAs f q (s.judgeOpen f)) f q true none := by
  rw [State.judgeOpen_first other acquiring]
  exact s.acceptOpen_accepts f q true none

theorem State.openAs_lost (other : ∀ o, s.reception.openFrame = some o → o.num ≠ f)
    (tracking : s.device ≠ .acquiring) (unexpected : s.reception.expected = none) :
    ∃ v : State, s.Resyncs v ∧ v.Accepts (s.openAs f q (s.judgeOpen f)) f q true none := by
  rw [State.judgeOpen_lost other tracking unexpected]
  exact ⟨_, s.resync_resyncs, State.acceptOpen_accepts _ f q true none⟩

theorem State.openAs_expected (other : ∀ o, s.reception.openFrame = some o → o.num ≠ f)
    (tracking : s.device ≠ .acquiring) (expected : s.reception.expected = some e)
    (same : (f - e).toNat = 0) : s.Accepts (s.openAs f q (s.judgeOpen f)) f q false
      (if s.device = .coasting then some s.reception.coast else none) := by
  rw [State.judgeOpen_tracked other tracking expected, if_pos same]
  exact s.acceptOpen_accepts f q false _

theorem State.openAs_jumps (other : ∀ o, s.reception.openFrame = some o → o.num ≠ f)
    (tracking : s.device ≠ .acquiring) (expected : s.reception.expected = some e)
    (later : (f - e).toNat ≠ 0)
    (near : (f - e).toNat ≤ s.reception.coastLimit - s.reception.coast) :
    s.Jumps (s.openAs f q (s.judgeOpen f)) e (f - e).toNat f q := by
  rw [State.judgeOpen_tracked other tracking expected, if_neg later, if_pos near]
  exact s.jump_jumps e _ f q

theorem State.openAs_far (other : ∀ o, s.reception.openFrame = some o → o.num ≠ f)
    (tracking : s.device ≠ .acquiring) (expected : s.reception.expected = some e)
    (far : s.reception.coastLimit - s.reception.coast < (f - e).toNat) (later : (f - e).toNat ≠ 0) :
    ∃ v : State, s.Resyncs v ∧ v.Accepts (s.openAs f q (s.judgeOpen f)) f q true none := by
  rw [State.judgeOpen_tracked other tracking expected, if_neg later, if_neg (Nat.not_le.mpr far)]
  exact ⟨_, s.resync_resyncs, State.acceptOpen_accepts _ f q true none⟩

end

/-- An open carried out, its row judged on the record with the pending timing adopted (R35, R52). -/
theorem State.HeaderWrite.takes {s : State} {addr : Word} {b : WriteBeat} (h : s.HeaderWrite addr 0 b)
    (tag : Tag) (kind : BurstKind) :
    ∃ t n, exec (.upstreamWriteAccept tag addr kind [b]) s = .next t ∧
      n = (s.updReception Reception.adoptTiming).openAs (b.data.extractLsb' 0 12)
        (b.data.extractLsb' 12 2) ((s.updReception Reception.adoptTiming).judgeOpen
          (b.data.extractLsb' 0 12)) ∧ n.OnlyLink t := by
  obtain ⟨t, -, run, -, -, -, -, links⟩ := h.runs tag kind h.opens
  exact ⟨t, _, run, State.frameOpen_eq _ _ _, links⟩

/-- Settles O28: the open by its row of R35, and then each step of the open notice. -/
theorem frameOpenTaken : Obligations.FrameOpenTaken := by
  unfold Obligations.FrameOpenTaken
  refine ⟨fun s tag addr kind b header => ?_, fun r => ⟨Reception.adoptTiming_none, fun gap coast =>
      Reception.adoptTiming_some⟩, fun s tag addr kind b header other => ?_, fun s f first u =>
      ⟨?_, rfl, State.reporterOpen_keeps_all, fun n => State.reporterOpen_adopts,
        fun m timer expired => ?_, State.timerCheck_running⟩, fun s f => ?_, fun s f u => ?_,
      fun s u => ?_, fun s u f first => ?_, fun s u f => ?_, fun s u f => ?_, fun s u =>
      ⟨Tap.bound_iff _, Tap.seeking_iff _, State.streamEntry_none, fun i => State.streamEntry_some⟩,
      fun s u tp => ⟨rfl, rfl, State.tap_setTap_same s u tp, fun v => State.tap_setTap_other s tp⟩,
      workingSlots_filter⟩
  · -- The record (R37, R38)
    intro f q r missed
    obtain ⟨t, p, run, queue, at', beats, redirect, links⟩ := header.runs tag kind header.opens
    obtain ⟨-, strap, regions, -⟩ := (s.frameOpen_upkeep f q).outside
    have judged := s.frameOpen_eq f q
    have record : (s.updReception Reception.adoptTiming).reception.openFrame =
      s.reception.openFrame := Reception.adoptTiming_openFrame _
    refine ⟨t, p, run, queue, at', beats, redirect, ?_, ?_, fun o opened same => ?_, fun other => ?_⟩
    · rw [show t = _ from links]
      exact regions
    · rw [show t = _ from links]
      exact strap
    · rw [State.judgeOpen_rewrite (record.trans opened) same, State.openAs] at judged
      rw [show t = _ from links, show s.frameOpen _ _ = _ from judged]
      exact ⟨rfl, rfl, rfl, rfl, rfl, rfl, rfl⟩
    · rw [← record] at other
      obtain ⟨device, reception⟩ := (s.updReception Reception.adoptTiming).openAs_fields f q
        (State.judgeOpen_accepted other)
      have count : (State.judgeOpen (s.updReception Reception.adoptTiming) f).missed = missed := by
        dsimp only [missed]
        split
        next e expected => exact State.judgeOpen_missed_some other expected
        next unexpected => exact State.judgeOpen_missed_none other unexpected
      rw [← judged, count, Reception.accept_eq] at reception
      rw [← judged] at device
      rw [show t = _ from links]
      exact ⟨device, reception⟩
  · -- The notices, by the row of R35
    obtain ⟨t, n, run, opened, links⟩ := header.takes tag kind
    have other : ∀ o, (s.updReception Reception.adoptTiming).reception.openFrame = some o →
        o.num ≠ b.data.extractLsb' 0 12 := by
      rw [show (s.updReception Reception.adoptTiming).reception.openFrame = s.reception.openFrame
        from Reception.adoptTiming_openFrame _]
      exact other
    refine ⟨t, n, run, links, ?_⟩
    rw [opened]
    exact ⟨State.openAs_first _ other, fun tracking => ⟨State.openAs_lost _ other tracking, fun e expected =>
        ⟨State.openAs_expected _ other tracking expected, State.openAs_jumps _ other tracking expected,
          State.openAs_far _ other tracking expected⟩⟩⟩
  · rw [State.openNotice, State.tapsOpen, State.eachTap_foldl]
  · rw [State.timerCheck_expired timer expired]
    exact s.makeDue_makes u
  · -- The switch (R73)
    intro p lead reached
    refine ⟨fun early => State.layoutOpen_stays ((Bool.not_eq_true _).mp
      (mt (PendingMap.switchesAt_iff _).mp early)), fun due => ?_⟩
    have opened := State.layoutOpen_switches ((PendingMap.switchesAt_iff _).mpr due)
    refine ⟨_, s.exchangeMaps.hand_hands _, fun full => opened.trans (if_neg fun empty => ?_),
      fun collecting empty => opened.trans (if_pos ⟨?_, empty⟩)⟩
    · obtain ⟨state, none⟩ := empty
      obtain ready | some := full
      · rw [PendingMap.becomeCurrent, if_pos ready] at state
        exact nomatch state
      · exact some none
    · rw [PendingMap.becomeCurrent, if_neg (by rw [collecting]; exact nofun)]
  · -- The switch notice (R74)
    intro t
    refine ⟨(State.tapSwitch_keeps f s u).only, fun v => State.tapSwitch_others f s,
      fun i e bound found entry => ?_, fun i bound found entry => ?_, fun waiting entry verified => ?_,
      fun orphaned entry other => ?_, fun idle => ?_⟩
    · have switched := State.tapSwitch_bound f bound found
      refine ⟨fun same => switched.trans (State.switchBound_same f entry same), fun other => ?_⟩
      obtain ⟨began, retained⟩ := (s.restartInstance_onTap f u e .instanceRestart).own
      rw [← State.switchBound_restarts f entry other, ← switched] at began retained
      have restarts := s.restartInstance_restarts f u e
      rw [← State.switchBound_restarts f entry other, ← switched] at restarts
      exact ⟨began, retained, restarts⟩
    · have lost := (s.endStream_onTap u).own
      have ends := s.endStream_ends u
      rw [← State.switchBound_lost f (i := i) entry, ← State.tapSwitch_bound f bound found] at lost ends
      exact ⟨lost, ends⟩
    · have left := (State.tapSwitch_waiting f waiting).trans (if_pos ⟨entry, verified⟩)
      dsimp only [t]
      rw [left]
      exact ⟨s.setTapState_state u _ _, s.setTapState_enters u _ _⟩
    · have left := (State.tapSwitch_orphaned f orphaned).trans (if_pos ⟨entry, other⟩)
      dsimp only [t]
      rw [left]
      exact ⟨s.setTapState_state u _ _, s.setTapState_enters u _ _⟩
    · obtain closed | ⟨seeking, present⟩ | ⟨waiting, other⟩ | ⟨orphaned, verified⟩ := idle
      · exact State.tapSwitch_closed f closed
      · obtain waiting | orphaned := (Tap.seeking_iff _).mp seeking
        · exact (State.tapSwitch_waiting f waiting).trans (if_neg fun k => present k.1)
        · exact (State.tapSwitch_orphaned f orphaned).trans (if_neg fun k => present k.1)
      · exact (State.tapSwitch_waiting f waiting).trans (if_neg fun k => other k.2)
      · exact (State.tapSwitch_orphaned f orphaned).trans (if_neg fun k => k.2 verified)
  · -- Adoption (R85)
    intro t
    refine ⟨State.adopt_idle, fun p => State.adopt_adjust, fun i p opens => ?_⟩
    obtain ⟨stream, params, open', adjust, counters, retained, repeats, recovery⟩ :=
      State.adopt_adopted opens
    have adopts := State.adopt_open opens
    have enters := State.setTapState_enters (s.setTap u ((s.tap u).adopted i p)) u .waiting .opened
    refine ⟨stream, params, open', adjust, counters, retained, repeats, recovery, ?_,
      s.adopting u i p, enters, fun verified absent => ?_, fun other => adopts.trans (if_neg ?_)⟩
    · exact State.adopt_state opens
    · dsimp only [t]
      rw [adopts, if_pos ⟨verified, absent⟩]
      exact State.setTapState_enters _ u _ _
    · rwa [not_and_or]
  · -- Restart (R88)
    intro t
    refine ⟨fun i bound found old due => ?_, State.restartStep_idle⟩
    have restarts := State.restartStep_restarts (f := f) bound found old due
    refine ⟨fun e entry => ?_, fun entry => ?_⟩
    · dsimp only [t]
      rw [restarts, State.restart_some entry]
      exact ⟨(s.restartInstance_onTap f u e _).own.1, s.restartInstance_restarts f u e⟩
    · dsimp only [t]
      rw [restarts, State.restart_none entry]
      exact ⟨(s.endStream_onTap u).own, s.endStream_ends u⟩
  · -- Binding (R86, R133)
    intro t
    refine ⟨fun e seeking entry => ?_, fun e seeking entry unretained => ?_, State.bindStep_idle⟩
    · obtain ⟨began, settling, kept⟩ := State.bindStep_own (f := f) seeking entry
      refine ⟨began, settling, fun a x retained found => ?_⟩
      have differs := State.retainedDiffers_iff (e := e) retained found
      have binds := State.bindStep_binds (f := f) seeking entry
      by_cases same : x.depth = e.depth ∧ x.count = e.count
      · rw [if_neg fun k => differs.mp k same] at kept binds
        refine ⟨kept.trans (retained.trans (if_pos same).symm), s, ?_, fun _ => rfl,
          fun k => absurd same k⟩
        dsimp only [t]
        rw [binds]
        exact s.beginInstance_begins u f e _
      · rw [if_pos (differs.mpr same)] at kept binds
        refine ⟨kept.trans (if_neg same).symm, s.endRetention u, ?_, fun k => absurd k same,
          fun _ => s.endRetention_ends u⟩
        dsimp only [t]
        rw [binds]
        exact State.beginInstance_begins _ u f e _
    · have binds := State.bindStep_binds (f := f) seeking entry
      rw [State.retainedDiffers_none unretained, if_neg Bool.false_ne_true] at binds
      dsimp only [t]
      rw [binds]
      exact s.beginInstance_begins u f e _
  · -- Allocation or starvation (R87, R113)
    intro t
    refine ⟨State.allocateStep_idle, fun i bound found => ?_⟩
    intro age i'
    refine ⟨fun a rest stack room => ?_, fun short => ?_⟩
    · have granted := State.allocateStep_granted (f := f) bound found stack room
      have refill : t.supply.refill = (s.granted u f i a rest).testRefill.supply.refill := by
        dsimp only [t]
        rw [granted]
      refine ⟨?_, fun idle => ?_, fun r configured idle => ?_⟩
      · rw [refill]
        rw [TapInstance.advance_eq] at granted
        exact granted
      · rw [refill, State.testRefill_idle (s := s.granted u f i a rest) idle]
        rfl
      · have tested := State.testRefill_tested (s.granted u f i a rest) r configured idle
        dsimp only [t]
        rw [State.allocateStep_grants bound found stack room]
        generalize (s.granted u f i a rest).testRefill = m at tested ⊢
        exact tested
    · have starves := State.allocateStep_starves (f := f) bound found short
      rw [State.openInto_set, TapInstance.advance_eq] at starves
      dsimp only [t]
      rw [starves]
      exact ⟨_, State.latch_latches _ _, State.setTapState_enters _ u _ _⟩

end Sys2Proof.Machine
end

section
/-! SUPPORT. The records of the layout block, the checks of R12 and R13, and the entries of a map (R11
to R13, R58, R61, R65). -/

namespace Sys2Proof.Machine

/-! ## Fields of a record (R11) -/

section
variable {b : Byte}

theorem versionOf_eq_some {v : Fin 16} : versionOf b = some v ↔ v.val = b.toNat := by
  unfold versionOf
  split
  next small => rw [Option.some.injEq, Fin.ext_iff, eq_comm]
  next large => exact iff_of_false nofun fun same => large (same ▸ v.isLt)

theorem flagOf_eq_some {n : Bool} : flagOf b = some n ↔ n.toNat = b.toNat := by
  unfold flagOf
  by_cases zero : b = 0
  · rw [if_pos zero, zero]
    cases n <;> simp
  · rw [if_neg zero]
    by_cases one : b = 1
    · rw [if_pos one, one]
      cases n <;> simp
    · rw [if_neg one]
      refine iff_of_false nofun fun same => ?_
      cases n with
      | false => exact zero (BitVec.eq_of_toNat_eq same.symm)
      | true => exact one (BitVec.eq_of_toNat_eq same.symm)

theorem Depth.ofCode_eq_some {n : Nat} {d : Depth} : Depth.ofCode n = some d ↔ d.frames = n := by
  constructor
  · unfold Depth.ofCode
    split
    next one =>
      rintro ⟨⟩
      exact one.symm
    · split
      next five =>
        rintro ⟨⟩
        exact five.symm
      · split
        next ten =>
          rintro ⟨⟩
          exact ten.symm
        · exact nofun
  · rintro rfl
    cases d <;> rfl

end

theorem runInRange_iff (a n : Nat) : runInRange a n = true ↔ 1 ≤ n ∧ n ≤ 128 ∧ a + n ≤ 960 := by
  simp [runInRange, and_assoc]

theorem runsMeet_iff (a n b k : Nat) : runsMeet a n b k = true ↔ a < b + k ∧ b < a + n := by
  simp [runsMeet, rangesMeet]

section
variable {bs : List Byte}

theorem readStream_eq_some {r : StreamRecord} : readStream bs = some r ↔
    r.version.val = (byteAt bs 1).toNat ∧ r.next.toNat = (byteAt bs 2).toNat ∧
      r.id.val = (byteAt bs 3).toNat ∧ r.depth.frames = (byteAt bs 7).toNat ∧
      r.start = (halfAt bs 4).toNat ∧ r.count = (byteAt bs 6).toNat ∧
      runInRange r.start r.count = true := by
  rw [← versionOf_eq_some, ← flagOf_eq_some, ← streamOf_eq_some, ← Depth.ofCode_eq_some]
  unfold readStream
  constructor
  · intro h
    split at h
    next v n i d version next id depth =>
      dsimp only at h
      split at h
      next inRange =>
        cases h
        exact ⟨version, next, id, depth, rfl, rfl, inRange⟩
      · exact nomatch h
    · exact nomatch h
  · rintro ⟨version, next, id, depth, start, count, inRange⟩
    rw [version, next, id, depth]
    dsimp only
    rw [← start, ← count, if_pos inRange]

theorem readNext_eq_some {n : NextPart} : readNext bs = some n ↔
    n.version.val = (byteAt bs 6).toNat ∧ (byteAt bs 9).toNat ≤ 48 ∧
      n.switchFrame = (halfAt bs 7).extractLsb' 0 12 ∧ n.count = (byteAt bs 9).toNat ∧
      n.checksum = halfAt bs 10 := by
  rw [← versionOf_eq_some]
  unfold readNext
  constructor
  · intro h
    split at h
    next v version =>
      split at h
      next small =>
        cases h
        exact ⟨version, small, rfl, rfl, rfl⟩
      · exact nomatch h
    · exact nomatch h
  · rintro ⟨version, small, switch, count, checksum⟩
    rw [version]
    dsimp only
    rw [if_pos small, ← switch, ← count, ← checksum]

theorem readSummary_eq_some {r : SummaryRecord} : readSummary bs = some r ↔
    r.version.val = (byteAt bs 1).toNat ∧ (byteAt bs 2).toNat ≤ 48 ∧
      r.count = (byteAt bs 2).toNat ∧ r.checksum = halfAt bs 3 ∧
      ((flagOf (byteAt bs 5) = some false ∧ r.next = none) ∨
        (flagOf (byteAt bs 5) = some true ∧ r.next = readNext bs ∧ r.next ≠ none)) := by
  rw [← versionOf_eq_some]
  unfold readSummary
  constructor
  · intro h
    split at h
    next v present version flag =>
      split at h
      next small =>
        dsimp only at h
        cases present with
        | false =>
          cases h
          exact ⟨version, small, rfl, rfl, .inl ⟨flag, rfl⟩⟩
        | true =>
          obtain ⟨n, found, rfl⟩ := Option.map_eq_some_iff.mp h
          exact ⟨version, small, rfl, rfl, .inr ⟨flag, found.symm, nofun⟩⟩
      · exact nomatch h
    · exact nomatch h
  · rintro ⟨version, small, count, checksum, ⟨flag, next⟩ | ⟨flag, next, present⟩⟩
    · rw [version, flag]
      dsimp only
      rw [if_pos small, ← count, ← checksum, ← next]
      rfl
    · rw [version, flag]
      dsimp only
      obtain ⟨n, found⟩ := Option.ne_none_iff_exists'.mp present
      rw [if_pos small, ← next, found, ← count, ← checksum]
      exact congrArg some (by dsimp only; rw [← found])

/-! ## The class of a record (R11) -/

theorem classify_empty (zero : byteAt bs 0 = 0) : classify bs = .empty := if_pos zero

theorem classify_badCheck (used : byteAt bs 0 ≠ 0) (bad : ¬ crc16 (bs.take 30) = halfAt bs 30) :
    classify bs = .badCheck := (if_neg used).trans (if_pos bad)

theorem classify_good (used : byteAt bs 0 ≠ 0) (good : crc16 (bs.take 30) = halfAt bs 30) :
    classify bs = if byteAt bs 0 = 0x31 then
        (readStream bs).elim .outOfRangeStream RecordClass.stream
      else if byteAt bs 0 = 0x32 then
        (readSummary bs).elim .outOfRangeSummary RecordClass.summary
      else .unknownKind := by
  refine (if_neg used).trans ((if_neg (not_not.mpr good)).trans ?_)
  cases readStream bs <;> cases readSummary bs <;> rfl

theorem classify_unknown (used : byteAt bs 0 ≠ 0) (other : byteAt bs 0 ≠ 0x31 ∧ byteAt bs 0 ≠ 0x32)
    (good : crc16 (bs.take 30) = halfAt bs 30) : classify bs = .unknownKind := by
  rw [classify_good used good, if_neg other.1, if_neg other.2]

theorem classify_stream (kind : byteAt bs 0 = 0x31) (good : crc16 (bs.take 30) = halfAt bs 30) :
    classify bs = (readStream bs).elim .outOfRangeStream RecordClass.stream := by
  rw [classify_good (by rw [kind]; decide) good, if_pos kind]

theorem classify_summary (kind : byteAt bs 0 = 0x32) (good : crc16 (bs.take 30) = halfAt bs 30) :
    classify bs = (readSummary bs).elim .outOfRangeSummary RecordClass.summary := by
  rw [classify_good (by rw [kind]; decide) good, if_neg (by rw [kind]; decide), if_pos kind]

end

/-! ## The check values (R12, R13) -/

theorem highByte_eq (b : Byte) : b ++ (0 : BitVec 8) = b.setWidth 16 <<< 8 := by
  apply BitVec.eq_of_getLsbD_eq
  intro i small
  rw [BitVec.getLsbD_append, BitVec.getLsbD_shiftLeft, BitVec.getLsbD_setWidth]
  by_cases low : i < 8
  · simp [low]
  · have inside : i < 16 := small
    have rest : i - 8 < 16 := by omega
    simp [low, inside, rest]

theorem crc16_concat_steps (bs : List Byte) (b : Byte) : crc16 (bs ++ [b]) =
    crc16Step (crc16Step (crc16Step (crc16Step (crc16Step (crc16Step (crc16Step (crc16Step
      (crc16 bs ^^^ (b.setWidth 16 <<< 8))))))))) := by
  rw [crc16, List.foldl_append, ← highByte_eq]
  rfl

theorem checksumBytes_eq (version : Nat) (i : StreamId) (e : MapEntry) :
    checksumBytes version i e = [BitVec.ofNat 8 i.val, BitVec.ofNat 8 e.start,
      BitVec.ofNat 8 (e.start / 256), BitVec.ofNat 8 e.count, BitVec.ofNat 8 e.depth.frames,
      BitVec.ofNat 8 version] := by
  have low : (BitVec.ofNat 16 e.start).extractLsb' 0 8 = BitVec.ofNat 8 e.start := by
    apply BitVec.eq_of_toNat_eq
    simp
  have high : (BitVec.ofNat 16 e.start).extractLsb' 8 8 = BitVec.ofNat 8 (e.start / 256) := by
    apply BitVec.eq_of_toNat_eq
    simp [Nat.shiftRight_eq_div_pow]
    omega
  unfold checksumBytes half halfBytes
  rw [low, high]
  rfl

theorem mapChecksum_eq (version : Nat) (m : MapEntries) (p : MapEntry → Bool) :
    mapChecksum version m p = crc16 ((List.finRange 48).flatMap fun i =>
      ((entryOf m i).filter p).elim [] (checksumBytes version i)) := by
  unfold mapChecksum allStreams
  congr 2
  funext i
  cases entryOf m i with
  | none => rfl
  | some e => by_cases holds : p e = true <;> simp [holds, Option.filter]

/-! ## Entries in a record's way (R65, R67, R71) -/

theorem meetsRun_iff {m : MapEntries} {p : MapEntry → Bool} {i j : StreamId} {start count : Nat} :
    meetsRun m p i start count j = true ↔ j ≠ i ∧ ∃ e, entryOf m j = some e ∧ p e = true ∧
      start < e.start + e.count ∧ e.start < start + count := by
  unfold meetsRun
  rw [Bool.and_eq_true, decide_eq_true_iff, Option.any_eq_true]
  simp only [Bool.and_eq_true, runsMeet_iff]

theorem overlaps_iff {m : MapEntries} {p : MapEntry → Bool} {r : StreamRecord} :
    overlaps m p r = true ↔ r.Meets m (fun e => p e = true) := by
  unfold overlaps StreamRecord.Meets
  rw [List.any_eq_true]
  simp only [meetsRun_iff, allStreams, List.mem_finRange, true_and, exists_and_left]

theorem sameDescriptor_iff {e : MapEntry} {r : StreamRecord} :
    sameDescriptor e r = true ↔ r.Describes e := by
  unfold sameDescriptor StreamRecord.Describes
  simp [and_assoc]

theorem mem_uncollected {m : MapEntries} {i : StreamId} :
    i ∈ uncollected m ↔ ∃ e, entryOf m i = some e ∧ e.collected = false := by
  unfold uncollected
  rw [List.mem_filter, Option.any_eq_true]
  simp [allStreams]

theorem newlyCollected_iff {o : Option MapEntry} :
    newlyCollected o = true ↔ ∀ e, o = some e → e.collected = false := by
  cases o <;> simp [newlyCollected]

end Sys2Proof.Machine
end

section
/-! SUPPORT. The checks of both maps, the notices of R75 and the parts of a SUMMARY (R62 to R64, R69,
R70, R72, R75, R92). -/

namespace Sys2Proof.Machine

/-! ## The notices to one tap (R75) -/

theorem Tap.streamIn_iff {tp : Tap} {ids : List StreamId} :
    tp.streamIn ids = true ↔ ∃ j ∈ ids, tp.stream = some j := by
  unfold Tap.streamIn
  cases tp.stream <;> simp

section
variable {s : State} {u : TapNo} {removed : List StreamId} {i : StreamId}

theorem State.tapVerified_ends (bound : (s.tap u).bound = true)
    (gone : ∃ j ∈ removed, (s.tap u).stream = some j) : State.tapVerified removed s u =
      (s.instanceEnd u).unbind u .orphaned .streamRemoved :=
  (if_pos bound).trans (if_pos (Tap.streamIn_iff.mpr gone))

theorem State.tapVerified_orphans (waiting : (s.tap u).state = .waiting)
    (absent : s.streamEntry u = none) : State.tapVerified removed s u =
      s.setTapState u .orphaned .streamRemoved := by
  have free := (s.tap u).bound_eq_false.mpr (.inl waiting)
  exact (if_neg (by rw [free]; decide)).trans (if_pos ⟨waiting, absent⟩)

theorem State.tapVerified_idle
    (idle : ((s.tap u).bound = true ∧ ¬ ∃ j ∈ removed, (s.tap u).stream = some j) ∨
      ((s.tap u).state = .waiting ∧ s.streamEntry u ≠ none) ∨
      (s.tap u).state = .orphaned ∨ (s.tap u).state = .closed) :
    State.tapVerified removed s u = s := by
  unfold State.tapVerified
  by_cases bound : (s.tap u).bound = true
  · obtain ⟨-, kept⟩ | free := idle
    · rw [if_pos bound, if_neg (mt Tap.streamIn_iff.mp kept)]
    · rw [(s.tap u).bound_eq_false.mpr (by tauto)] at bound
      exact nomatch bound
  · rw [if_neg bound]
    refine if_neg fun waits => ?_
    obtain held | present | orphaned | closed := idle
    · exact bound held.1
    · exact present.2 waits.2
    · exact nomatch waits.1.symm.trans orphaned
    · exact nomatch waits.1.symm.trans closed

theorem State.tapRemoved_ends (of : (s.tap u).bound = true ∧ (s.tap u).stream = some i) :
    State.tapRemoved i s u = (s.instanceEnd u).unbind u .waiting .streamUnknown := if_pos of

theorem State.tapRemoved_idle (other : ¬ ((s.tap u).bound = true ∧ (s.tap u).stream = some i)) :
    State.tapRemoved i s u = s := if_neg other

theorem State.tapReplaced_marks (of : (s.tap u).bound = true ∧ (s.tap u).stream = some i) :
    State.tapReplaced i s u = s.setTap u { s.tap u with
      inst := (s.tap u).inst.map (fun n => { n with restart := true }) } := if_pos of

theorem State.tapReplaced_idle (other : ¬ ((s.tap u).bound = true ∧ (s.tap u).stream = some i)) :
    State.tapReplaced i s u = s := if_neg other

end

section
variable (s : State) (u : TapNo) (removed : List StreamId) (i : StreamId)

theorem State.tapVerified_onTap :
    s.OnTap (State.tapVerified removed s u) u fun _ _ => True := by
  have same : s.OnTap s u fun _ _ => True := State.onTap_same (fun _ => trivial) s u
  unfold State.tapVerified
  split
  · split
    · exact (s.endInstance_unbind_onTap u _ _).imp fun _ => trivial
    · exact same
  · split
    · exact (s.setTapState_sets u _ _).onTap trivial
    · exact same

/-- A removal notice frees a bound tap of the stream and leaves any other (R67, R75). -/
theorem State.tapRemoved_onTap : s.OnTap (State.tapRemoved i s u) u fun old new =>
    (old.bound = true ∧ old.stream = some i → old.Unbound .waiting new ∧ new.retained = none) ∧
      (¬ (old.bound = true ∧ old.stream = some i) → new = old) := by
  by_cases of : (s.tap u).bound = true ∧ (s.tap u).stream = some i
  · rw [State.tapRemoved_ends of]
    obtain ⟨reports, others, own⟩ := s.endInstance_unbind_onTap u .waiting .streamUnknown
    exact ⟨reports, others, fun _ => own, fun k => absurd of k⟩
  · rw [State.tapRemoved_idle of]
    exact ⟨List.prefix_rfl, fun _ _ => rfl, fun k => absurd k of, fun _ => rfl⟩

/-- A replacement notice marks the instance of a bound tap of the stream (R66, R75). -/
theorem State.tapReplaced_onTap : s.OnTap (State.tapReplaced i s u) u fun old new =>
    (old.bound = true ∧ old.stream = some i → new = { old with
      inst := old.inst.map (fun n => { n with restart := true }) }) ∧
      (¬ (old.bound = true ∧ old.stream = some i) → new = old) := by
  by_cases of : (s.tap u).bound = true ∧ (s.tap u).stream = some i
  · rw [State.tapReplaced_marks of]
    exact (s.setsTap_setTap u _).onTap ⟨fun _ => rfl, fun k => absurd of k⟩
  · rw [State.tapReplaced_idle of]
    exact ⟨List.prefix_rfl, fun _ _ => rfl, fun k => absurd k of, fun _ => rfl⟩

theorem State.verified_serves : ServesTap (State.tapVerified removed) :=
  .of (fun s u => (State.tapVerified_keeps removed s u).only) fun s u => s.tapVerified_onTap u removed

end

/-! ## The check of the current map (R63) -/

/-- The current map made VERIFIED, its uncollected entries gone (R63). -/
def State.verifyCurrent (s : State) : State :=
  s.setCurrent { s.layout.cur with
    state := .verified, entries := keepCollected s.layout.cur.entries }

/-- The current map made SUSPECT, its collected flags cleared (R63). -/
def State.suspectCurrent (s : State) : State :=
  s.setCurrent { s.layout.cur with
    state := .suspect, mismatch := true, entries := clearCollected s.layout.cur.entries }

/-- The state in which the taps take the verification notice (R63, R75). -/
def State.reportVerified (s : State) (f : FrameNo) : State :=
  s.verifyCurrent.hand (.layout .verified (versionNat s.layout.cur.version) f 0)

theorem State.hand_layout (s : State) (b : ReportBody) : (s.hand b).layout = s.layout :=
  (s.hand_keeps b).same.2.2.2.2.2.2.1

theorem State.latch_layout (s : State) (g : Flag) : (s.latch g).layout = s.layout :=
  (s.latch_keeps g).same.2.2.2.2.2.2.1

section
variable {s : State} {f : FrameNo}

theorem State.checkCurrent_waits (short : collectedCount s.layout.cur.entries ≠ s.layout.cur.expCount) :
    s.checkCurrent f = s := if_neg short

theorem State.checkCurrent_matches
    (full : collectedCount s.layout.cur.entries = s.layout.cur.expCount)
    (sum : mapChecksum (versionNat s.layout.cur.version) s.layout.cur.entries (fun e => e.collected) =
      s.layout.cur.expSum) : s.checkCurrent f =
        (s.reportVerified f).eachTap (State.tapVerified (uncollected s.layout.cur.entries)) :=
  (if_pos full).trans (if_pos sum)

theorem State.checkCurrent_mismatches
    (full : collectedCount s.layout.cur.entries = s.layout.cur.expCount)
    (sum : mapChecksum (versionNat s.layout.cur.version) s.layout.cur.entries (fun e => e.collected) ≠
      s.layout.cur.expSum) : s.checkCurrent f =
        if s.layout.cur.mismatch = true then s.suspectCurrent.latch .layoutMismatch
        else (s.suspectCurrent.latch .layoutMismatch).hand
          (.layout .mismatch (versionNat s.layout.cur.version) f 0) := by
  refine (if_pos full).trans ((if_neg sum).trans ?_)
  unfold State.currentMismatch State.handCurrent
  dsimp only
  rw [State.latch_layout]
  rfl

theorem State.reportVerified_layout (s : State) (f : FrameNo) :
    (s.reportVerified f).layout = s.verifyCurrent.layout := State.hand_layout _ _

theorem State.reportVerified_tap (s : State) (f : FrameNo) (u : TapNo) :
    (s.reportVerified f).tap u = s.tap u := (State.hand_same s.verifyCurrent _).tap u

/-- A tap under the verification notice: its outcome is judged on its record before the notice and
the map after it (R75). -/
theorem State.verification_tap (s : State) (f : FrameNo) (removed : List StreamId) (u : TapNo) :
    ∃ v, v.layout = s.verifyCurrent.layout ∧ v.tap u = s.tap u ∧
      ((s.reportVerified f).eachTap (State.tapVerified removed)).tap u =
        (State.tapVerified removed v u).tap u := by
  obtain ⟨v, only, same, served⟩ := (State.verified_serves removed).eachTap_at (s.reportVerified f) u
  refine ⟨v, ?_, same.trans (s.reportVerified_tap f u), served⟩
  rw [show v = _ from only]
  exact s.reportVerified_layout f

theorem State.verification_layout (s : State) (f : FrameNo) (removed : List StreamId) :
    ((s.reportVerified f).eachTap (State.tapVerified removed)).layout = s.verifyCurrent.layout := by
  have only := (State.verified_serves removed).eachTap_only (s.reportVerified f)
  rw [show State.eachTap _ _ = _ from only]
  exact s.reportVerified_layout f

theorem State.verifyCurrent_entry (s : State) (i : StreamId) :
    s.verifyCurrent.curEntry i = (s.curEntry i).filter (fun e => e.collected) :=
  entryOf_mapPlaces _ _ i

theorem State.suspectCurrent_entry (s : State) (i : StreamId) :
    s.suspectCurrent.curEntry i = (s.curEntry i).map (fun e => { e with collected := false }) :=
  entryOf_mapPlaces _ _ i

end

/-! ## The check of the pending map (R72) -/

section
variable {s : State} {f : FrameNo}

theorem State.checkPending_waits
    (short : collectedCount s.layout.pend.entries ≠ s.layout.pend.expCount) :
    s.checkPending f = s := if_neg short

theorem State.checkPending_matches
    (full : collectedCount s.layout.pend.entries = s.layout.pend.expCount)
    (sum : mapChecksum (versionNat s.layout.pend.version) s.layout.pend.entries (fun _ => true) =
      s.layout.pend.expSum) : s.checkPending f =
        (s.setPending { s.layout.pend with state := .ready }).hand (.layout .verified
          (versionNat s.layout.pend.version) s.layout.pend.switchFrame
          (s.layout.pend.switchFrame - f).toNat) :=
  (if_pos full).trans (if_pos sum)

/-- The pending map emptied for a new collection (R72). -/
def State.recollectPending (s : State) : State :=
  s.setPending { s.layout.pend with
    state := .collecting, mismatch := true, entries := MapEntries.absent }

theorem State.checkPending_mismatches
    (full : collectedCount s.layout.pend.entries = s.layout.pend.expCount)
    (sum : mapChecksum (versionNat s.layout.pend.version) s.layout.pend.entries (fun _ => true) ≠
      s.layout.pend.expSum) : s.checkPending f =
        if s.layout.pend.mismatch = true then s.recollectPending.latch .layoutMismatch
        else (s.recollectPending.latch .layoutMismatch).hand (.layout .mismatch
          (versionNat s.layout.pend.version) s.layout.pend.switchFrame
          (s.layout.pend.switchFrame - f).toNat) := by
  refine (if_pos full).trans ((if_neg sum).trans ?_)
  unfold State.handPending
  dsimp only
  rw [State.latch_layout]
  rfl

end

/-! ## The parts of a SUMMARY (R62, R64, R69, R70) -/

section
variable {s : State} {r : SummaryRecord} {f : FrameNo}

theorem State.takeCurrentPart_first (empty : s.layout.cur.state = .empty) : s.takeCurrentPart r f =
    if r.count = 0 then
      (s.setCurrent (CurrentMap.fresh r.version r.count r.checksum)).checkCurrent f
    else s.setCurrent (CurrentMap.fresh r.version r.count r.checksum) := if_pos empty

theorem State.takeCurrentPart_same (used : s.layout.cur.state ≠ .empty)
    (version : s.layout.cur.version = some r.version) : s.takeCurrentPart r f =
      if s.layout.cur.expCount = r.count ∧ s.layout.cur.expSum = r.checksum then s
      else s.countConflict := (if_neg used).trans (if_pos version)

/-- The state in which the taps take the version notice (R64, R75). -/
def State.reportVersion (s : State) (r : SummaryRecord) (f : FrameNo) : State :=
  (s.setCurrent (CurrentMap.fresh r.version r.count r.checksum)).hand
    (.layout .versionChanged r.version.val f 0)

theorem State.takeCurrentPart_change (used : s.layout.cur.state ≠ .empty)
    (version : s.layout.cur.version ≠ some r.version) : s.takeCurrentPart r f =
      if r.count = 0 then ((s.reportVersion r f).eachTap State.tapVersion).checkCurrent f
      else (s.reportVersion r f).eachTap State.tapVersion :=
  (if_neg used).trans (if_neg version)

/-- A tap under the version notice (R75). -/
theorem State.versionNotice_tap (s : State) (r : SummaryRecord) (f : FrameNo) (u : TapNo) :
    Tap.Leaves (fun old new => old.Unbound .waiting new ∧ new.retained = none) (s.tap u)
      (((s.reportVersion r f).eachTap State.tapVersion).tap u) := by
  have served := State.eachTap_onTap (fun s u => (State.tapVersion_keeps s u).only)
    State.tapVersion_onTap (s.reportVersion r f) u
  have same : (s.reportVersion r f).tap u = s.tap u := (State.hand_same _ _).tap u
  rwa [same] at served

theorem PendingMap.announces_iff {p : PendingMap} {n : NextPart} : p.announces n = true ↔
    p.state ≠ .none ∧ p.version = some n.version ∧ p.switchFrame = n.switchFrame ∧
      p.expCount = n.count ∧ p.expSum = n.checksum := by
  unfold PendingMap.announces
  simp [and_assoc]

theorem State.takeNextPart_announce {n : NextPart} (next : r.next = some n) :
    s.takeNextPart r f = s.announce n f := by
  unfold State.takeNextPart
  rw [next]

theorem State.takeNextPart_withdraw (next : r.next = none) : s.takeNextPart r f = s.withdraw f := by
  unfold State.takeNextPart
  rw [next]

end

/-! ## The assembly buffers under a record taken (R58, R59) -/

/-- The assembly buffers are as they were. -/
def State.SameBuffers (s t : State) : Prop := t.layout.buffers = s.layout.buffers

section
variable {s t w : State}

theorem State.SameBuffers.refl (s : State) : s.SameBuffers s := rfl

theorem State.SameBuffers.trans (h : s.SameBuffers t) (k : t.SameBuffers w) : s.SameBuffers w :=
  Eq.trans k h

theorem State.Keeps.sameBuffers (h : s.Keeps t) : s.SameBuffers t :=
  congrArg Layout.buffers h.same.2.2.2.2.2.2.1

theorem State.hand_buffers (s : State) (b : ReportBody) : s.SameBuffers (s.hand b) :=
  (s.hand_keeps b).sameBuffers

theorem State.SameBuffers.ite {p : Prop} [Decidable p] (h : s.SameBuffers t) (k : s.SameBuffers w) :
    s.SameBuffers (if p then t else w) := by
  split
  · exact h
  · exact k

theorem State.checkCurrent_buffers (s : State) (f : FrameNo) : s.SameBuffers (s.checkCurrent f) := by
  by_cases full : collectedCount s.layout.cur.entries = s.layout.cur.expCount
  · by_cases sum : mapChecksum (versionNat s.layout.cur.version) s.layout.cur.entries
        (fun e => e.collected) = s.layout.cur.expSum
    · rw [State.checkCurrent_matches full sum]
      exact (congrArg Layout.buffers (s.verification_layout f _)).trans rfl
    · have latched := (State.latch_keeps s.suspectCurrent .layoutMismatch).sameBuffers
      rw [State.checkCurrent_mismatches full sum]
      exact .ite latched (.trans latched (State.hand_buffers _ _))
  · rw [State.checkCurrent_waits full]
    exact .refl s

theorem State.checkPending_buffers (s : State) (f : FrameNo) : s.SameBuffers (s.checkPending f) := by
  by_cases full : collectedCount s.layout.pend.entries = s.layout.pend.expCount
  · by_cases sum : mapChecksum (versionNat s.layout.pend.version) s.layout.pend.entries
        (fun _ => true) = s.layout.pend.expSum
    · rw [State.checkPending_matches full sum]
      exact State.hand_buffers _ _
    · have latched := (State.latch_keeps s.recollectPending .layoutMismatch).sameBuffers
      rw [State.checkPending_mismatches full sum]
      exact .ite latched (.trans latched (State.hand_buffers _ _))
  · rw [State.checkPending_waits full]
    exact .refl s

theorem State.takeCurrentPart_buffers (s : State) (r : SummaryRecord) (f : FrameNo) :
    s.SameBuffers (s.takeCurrentPart r f) := by
  by_cases empty : s.layout.cur.state = .empty
  · rw [State.takeCurrentPart_first empty]
    exact .ite (State.checkCurrent_buffers _ f) rfl
  · by_cases version : s.layout.cur.version = some r.version
    · rw [State.takeCurrentPart_same empty version]
      exact .ite rfl rfl
    · have reported : s.SameBuffers (s.reportVersion r f) :=
        State.hand_buffers (s.setCurrent (CurrentMap.fresh r.version r.count r.checksum)) _
      have noticed := reported.trans
        (State.Keeps.eachTap State.tapVersion_keeps (s.reportVersion r f)).sameBuffers
      rw [State.takeCurrentPart_change empty version]
      exact .ite (noticed.trans (State.checkCurrent_buffers _ f)) noticed

theorem State.takeNextPart_buffers (s : State) (r : SummaryRecord) (f : FrameNo) :
    s.SameBuffers (s.takeNextPart r f) := by
  cases next : r.next with
  | none =>
    rw [State.takeNextPart_withdraw next]
    exact .ite rfl (State.hand_buffers _ _)
  | some n =>
    rw [State.takeNextPart_announce next]
    have announced : s.SameBuffers ((s.setPending (PendingMap.fresh n)).handPending .announced f) :=
      State.hand_buffers _ _
    exact .ite rfl (.ite rfl (.ite (announced.trans (State.checkPending_buffers _ f)) announced))

end

end Sys2Proof.Machine
end

section
/-! SUPPORT. A STREAM record taken by the current map (R63, R65 to R68, R75). -/

namespace Sys2Proof.Machine

/-! ## The uncollected entries in a record's way (R67) -/

/-- Stream j's entry is uncollected and in the way of a record (R67). -/
def State.InWay (s : State) (r : StreamRecord) (j : StreamId) : Prop :=
  meetsRun s.layout.cur.entries (fun e => !e.collected) r.id r.start r.count j = true

/-- The state in which the taps take the removal notice of a stream (R67, R75). -/
def State.removeEntry (s : State) (j : StreamId) : State :=
  s.setEntries (setEntry s.layout.cur.entries j none)

section
variable {s t : State} {r : StreamRecord} {j : StreamId}

theorem State.inWay_iff : s.InWay r j ↔ j ≠ r.id ∧ ∃ e, s.curEntry j = some e ∧
    e.collected = false ∧ r.start < e.start + e.count ∧ e.start < r.start + r.count := by
  unfold State.InWay
  rw [meetsRun_iff]
  simp only [Bool.not_eq_true']
  rfl

/-- What is in the way of a record is read in the stream's entry. -/
theorem State.inWay_congr (same : t.curEntry j = s.curEntry j) : t.InWay r j ↔ s.InWay r j := by
  rw [State.inWay_iff, State.inWay_iff, same]

theorem State.dropUncollected_free (free : ¬ s.InWay r j) : State.dropUncollected r s j = s :=
  if_neg free

theorem State.dropUncollected_removes (way : s.InWay r j) :
    State.dropUncollected r s j = (s.removeEntry j).eachTap (State.tapRemoved j) := if_pos way

theorem State.removeEntry_entry (s : State) (j : StreamId) : (s.removeEntry j).curEntry j = none :=
  entryOf_setEntry_same _ _ _

theorem State.removeEntry_other (s : State) {i j : StreamId} (ne : i ≠ j) :
    (s.removeEntry j).curEntry i = s.curEntry i := entryOf_setEntry_other _ _ ne

theorem State.tapRemoved_each (s : State) (j : StreamId) :
    s.Keeps (s.eachTap (State.tapRemoved j)) := .eachTap (State.tapRemoved_keeps j) s

/-- Only the layout tables, the taps, slot supply and the reporter, and of the layout tables only the
current map's entries. -/
def State.OnlyEntries (s t : State) : Prop :=
  s.OnlyLayout t ∧ t.layout = { s.layout with cur := { s.layout.cur with
    entries := t.layout.cur.entries } }

theorem State.OnlyEntries.refl (s : State) : s.OnlyEntries s := ⟨rfl, rfl⟩

theorem State.OnlyEntries.trans {w : State} (h : s.OnlyEntries t) (k : t.OnlyEntries w) :
    s.OnlyEntries w := by
  obtain ⟨only, layout⟩ := h
  obtain ⟨only', layout'⟩ := k
  refine ⟨only.trans only', ?_⟩
  rw [layout] at layout'
  exact layout'

theorem State.setEntries_only (s : State) (m : MapEntries) : s.OnlyEntries (s.setEntries m) :=
  ⟨rfl, rfl⟩

theorem State.Keeps.onlyEntries (h : s.Keeps t) : s.OnlyEntries t := by
  have layout : t.layout = s.layout := h.same.2.2.2.2.2.2.1
  exact ⟨h.layout_only, by rw [layout]⟩

theorem State.dropUncollected_only (s : State) (r : StreamRecord) (j : StreamId) :
    s.OnlyEntries (State.dropUncollected r s j) := by
  by_cases way : s.InWay r j
  · rw [State.dropUncollected_removes way]
    exact (s.setEntries_only _).trans (State.tapRemoved_each (s.removeEntry j) j).onlyEntries
  · rw [State.dropUncollected_free way]
    exact .refl s

theorem State.dropUncollected_entry (s : State) (r : StreamRecord) {i j : StreamId} (ne : i ≠ j) :
    (State.dropUncollected r s j).curEntry i = s.curEntry i := by
  by_cases way : s.InWay r j
  · have layout : (State.dropUncollected r s j).layout = (s.removeEntry j).layout := by
      rw [State.dropUncollected_removes way]
      exact (State.tapRemoved_each (s.removeEntry j) j).same.2.2.2.2.2.2.1
    rw [State.curEntry, layout]
    exact s.removeEntry_other ne
  · rw [State.dropUncollected_free way]

theorem State.removedTap (s : State) (j : StreamId) (u : TapNo) :
    ((s.tap u).bound = true ∧ (s.tap u).stream = some j →
      (s.tap u).Unbound .waiting (((s.removeEntry j).eachTap (State.tapRemoved j)).tap u) ∧
        (((s.removeEntry j).eachTap (State.tapRemoved j)).tap u).retained = none) ∧
      (¬ ((s.tap u).bound = true ∧ (s.tap u).stream = some j) →
        ((s.removeEntry j).eachTap (State.tapRemoved j)).tap u = s.tap u) :=
  State.eachTap_onTap (fun s u => (State.tapRemoved_keeps j s u).only)
    (fun s u => s.tapRemoved_onTap u j) (s.removeEntry j) u

/-- A tap that is not bound to a stream in the way stays as it is. -/
theorem State.dropUncollected_keepsTap {u : TapNo}
    (free : (s.tap u).bound = true → (s.tap u).stream = some j → ¬ s.InWay r j) :
    (State.dropUncollected r s j).tap u = s.tap u := by
  by_cases way : s.InWay r j
  · rw [State.dropUncollected_removes way]
    exact (s.removedTap j u).2 fun of => free of.1 of.2 way
  · rw [State.dropUncollected_free way]

/-! ## The way cleared -/

theorem State.foldl_drop_only (l : List StreamId) (s : State) (r : StreamRecord) :
    s.OnlyEntries (l.foldl (State.dropUncollected r) s) := by
  induction l generalizing s with
  | nil => exact .refl s
  | cons j l ih => exact (s.dropUncollected_only r j).trans (ih _)

theorem State.foldl_drop_keepsTap {l : List StreamId} {u : TapNo}
    (free : ∀ j ∈ l, (s.tap u).bound = true → (s.tap u).stream = some j → ¬ s.InWay r j)
    (apart : l.Nodup) : (l.foldl (State.dropUncollected r) s).tap u = s.tap u := by
  induction l generalizing s with
  | nil => exact rfl
  | cons j l ih =>
    obtain ⟨out, apart⟩ := List.nodup_cons.mp apart
    have head : (State.dropUncollected r s j).tap u = s.tap u :=
      State.dropUncollected_keepsTap (free j List.mem_cons_self)
    refine (ih (fun i mem bound stream => ?_) apart).trans head
    have ne : i ≠ j := fun k => out (k ▸ mem)
    rw [head] at bound stream
    exact (State.inWay_congr (s.dropUncollected_entry r ne)).not.mpr
      (free i (List.mem_cons_of_mem _ mem) bound stream)

theorem State.foldl_drop_freesTap {l : List StreamId} {u : TapNo} (mem : j ∈ l) (apart : l.Nodup)
    (way : s.InWay r j) (bound : (s.tap u).bound = true) (stream : (s.tap u).stream = some j) :
    (s.tap u).Unbound .waiting ((l.foldl (State.dropUncollected r) s).tap u) := by
  induction l generalizing s with
  | nil => exact nomatch mem
  | cons i l ih =>
    obtain ⟨-, tail⟩ := List.nodup_cons.mp apart
    by_cases head : j = i
    · subst head
      have freed := ((s.removedTap j u).1 ⟨bound, stream⟩).1
      rw [← State.dropUncollected_removes way] at freed
      have rest := State.foldl_drop_keepsTap (r := r) (s := State.dropUncollected r s j) (u := u)
        (l := l) (fun k _ bound => absurd bound ?_) tail
      · rw [List.foldl_cons, rest]
        exact freed
      · rw [Tap.bound, freed.state]
        decide
    · have same : (State.dropUncollected r s i).tap u = s.tap u :=
        State.dropUncollected_keepsTap fun _ k =>
          absurd (Option.some.inj (stream.symm.trans k)) head
      have rest := ih (s := State.dropUncollected r s i)
        ((List.mem_cons.mp mem).resolve_left head) tail
        ((State.inWay_congr (s.dropUncollected_entry r head)).mpr way)
        (same.symm ▸ bound) (same.symm ▸ stream)
      rwa [same] at rest

end

section
variable {s : State} {r : StreamRecord} {j : StreamId} {u : TapNo}

theorem State.clearWay_suspect (suspect : s.layout.cur.state = .suspect) :
    s.clearWay r = (List.finRange 48).foldl (State.dropUncollected r) s := if_pos suspect

theorem State.clearWay_other (other : s.layout.cur.state ≠ .suspect) : s.clearWay r = s :=
  if_neg other

theorem State.clearWay_only (s : State) (r : StreamRecord) : s.OnlyEntries (s.clearWay r) := by
  by_cases suspect : s.layout.cur.state = .suspect
  · rw [State.clearWay_suspect suspect]
    exact State.foldl_drop_only _ s r
  · rw [State.clearWay_other suspect]
    exact .refl s

theorem State.clearWay_entry (s : State) (r : StreamRecord) (j : StreamId) :
    (s.layout.cur.state = .suspect ∧ s.InWay r j → (s.clearWay r).curEntry j = none) ∧
      (¬ (s.layout.cur.state = .suspect ∧ s.InWay r j) →
        (s.clearWay r).curEntry j = s.curEntry j) := by
  by_cases suspect : s.layout.cur.state = .suspect
  · have entry := (s.clearWay_entries r suspect j).1
    refine ⟨fun way => ?_, fun free => ?_⟩
    · exact entry.trans (if_pos way.2)
    · exact entry.trans (if_neg fun way => free ⟨suspect, way⟩)
  · rw [State.clearWay_other suspect]
    exact ⟨fun way => absurd way.1 suspect, fun _ => rfl⟩

theorem State.clearWay_keepsTap (free : ∀ j, (s.tap u).bound = true →
    (s.tap u).stream = some j → ¬ s.InWay r j) : (s.clearWay r).tap u = s.tap u := by
  by_cases suspect : s.layout.cur.state = .suspect
  · rw [State.clearWay_suspect suspect]
    exact State.foldl_drop_keepsTap (fun j _ => free j) (List.nodup_finRange 48)
  · rw [State.clearWay_other suspect]

theorem State.clearWay_freesTap (suspect : s.layout.cur.state = .suspect) (way : s.InWay r j)
    (bound : (s.tap u).bound = true) (stream : (s.tap u).stream = some j) :
    (s.tap u).Unbound .waiting ((s.clearWay r).tap u) := by
  rw [State.clearWay_suspect suspect]
  exact State.foldl_drop_freesTap (List.mem_finRange j) (List.nodup_finRange 48) way bound stream

/-- The record's own entry is never in its way. -/
theorem State.not_inWay_id (s : State) (r : StreamRecord) : ¬ s.InWay r r.id :=
  fun way => (State.inWay_iff.mp way).1 rfl

/-! ## The entry filled (R65, R66) -/

/-- The state in which the taps take the replacement notice, if there is one (R65, R66). -/
def State.putEntry (s : State) (r : StreamRecord) : State :=
  s.setEntries (setEntry s.layout.cur.entries r.id (some r.entry))

theorem State.fillEntry_replaces (other : ∃ e, s.curEntry r.id = some e ∧ ¬ r.Describes e) :
    s.fillEntry r = (s.putEntry r).eachTap (State.tapReplaced r.id) := by
  obtain ⟨e, found, other⟩ := other
  unfold State.fillEntry
  dsimp only
  rw [found]
  exact if_neg (mt sameDescriptor_iff.mp other)

theorem State.fillEntry_same (same : ¬ ∃ e, s.curEntry r.id = some e ∧ ¬ r.Describes e) :
    s.fillEntry r = s.putEntry r := by
  unfold State.fillEntry
  dsimp only
  cases found : s.curEntry r.id with
  | none => rfl
  | some e =>
    exact if_pos (sameDescriptor_iff.mpr (not_not.mp fun other => same ⟨e, found, other⟩))

theorem State.replaced_each (s : State) (i : StreamId) :
    s.Keeps (s.eachTap (State.tapReplaced i)) := .eachTap (State.tapReplaced_keeps i) s

theorem State.fillEntry_only (s : State) (r : StreamRecord) : s.OnlyEntries (s.fillEntry r) := by
  by_cases other : ∃ e, s.curEntry r.id = some e ∧ ¬ r.Describes e
  · rw [State.fillEntry_replaces other]
    exact (s.setEntries_only _).trans (State.replaced_each (s.putEntry r) r.id).onlyEntries
  · rw [State.fillEntry_same other]
    exact s.setEntries_only _

theorem State.fillEntry_layout (s : State) (r : StreamRecord) :
    (s.fillEntry r).layout = (s.putEntry r).layout := by
  by_cases other : ∃ e, s.curEntry r.id = some e ∧ ¬ r.Describes e
  · rw [State.fillEntry_replaces other]
    exact (State.replaced_each (s.putEntry r) r.id).same.2.2.2.2.2.2.1
  · rw [State.fillEntry_same other]

theorem State.fillEntry_own (s : State) (r : StreamRecord) :
    (s.fillEntry r).curEntry r.id = some r.entry := by
  rw [State.curEntry, s.fillEntry_layout r]
  exact entryOf_setEntry_same _ _ _

theorem State.fillEntry_other (s : State) (r : StreamRecord) (ne : j ≠ r.id) :
    (s.fillEntry r).curEntry j = s.curEntry j := by
  rw [State.curEntry, s.fillEntry_layout r]
  exact entryOf_setEntry_other _ _ ne

theorem State.replacedTap (s : State) (r : StreamRecord) (u : TapNo) :
    ((s.tap u).bound = true ∧ (s.tap u).stream = some r.id →
      ((s.putEntry r).eachTap (State.tapReplaced r.id)).tap u = { s.tap u with
        inst := (s.tap u).inst.map (fun n => { n with restart := true }) }) ∧
      (¬ ((s.tap u).bound = true ∧ (s.tap u).stream = some r.id) →
        ((s.putEntry r).eachTap (State.tapReplaced r.id)).tap u = s.tap u) :=
  State.eachTap_onTap (fun s u => (State.tapReplaced_keeps r.id s u).only)
    (fun s u => s.tapReplaced_onTap u r.id) (s.putEntry r) u

theorem State.fillEntry_keepsTap
    (free : ¬ ((s.tap u).bound = true ∧ (s.tap u).stream = some r.id)) :
    (s.fillEntry r).tap u = s.tap u := by
  by_cases other : ∃ e, s.curEntry r.id = some e ∧ ¬ r.Describes e
  · rw [State.fillEntry_replaces other]
    exact (s.replacedTap r u).2 free
  · rw [State.fillEntry_same other]
    rfl

/-! ## A record offered (R65 to R68) -/

variable {f : FrameNo}

theorem State.offerCurrent_other
    (other : s.layout.cur.state = .empty ∨ s.layout.cur.version ≠ some r.version) :
    s.offerCurrent r f = s := by
  unfold State.offerCurrent
  obtain empty | version := other
  · rw [empty]
    exact ite_self s
  · exact if_neg version

theorem State.offerCurrent_collects (version : s.layout.cur.version = some r.version)
    (open' : s.layout.cur.state = .collecting ∨ s.layout.cur.state = .suspect) :
    s.offerCurrent r f = s.collect r f := by
  unfold State.offerCurrent
  rw [if_pos version]
  obtain collecting | suspect := open'
  · rw [collecting]
  · rw [suspect]

theorem State.offerCurrent_confirms (version : s.layout.cur.version = some r.version)
    (verified : s.layout.cur.state = .verified) : s.offerCurrent r f = s.confirm r := by
  unfold State.offerCurrent
  rw [if_pos version, verified]

theorem State.confirm_same {e : MapEntry} (found : s.curEntry r.id = some e)
    (same : r.Describes e) : s.confirm r = s := by
  unfold State.confirm
  rw [found]
  exact if_pos (sameDescriptor_iff.mpr same)

theorem State.confirm_conflicts (other : ∀ e, s.curEntry r.id = some e → ¬ r.Describes e) :
    s.confirm r = s.countConflict := by
  unfold State.confirm
  cases found : s.curEntry r.id with
  | none => rfl
  | some e => exact if_neg (mt sameDescriptor_iff.mp (other e found))

theorem State.collect_unexpected (zero : s.layout.cur.expCount = 0) : s.collect r f = s :=
  if_pos zero

theorem State.collect_conflicts (expects : s.layout.cur.expCount ≠ 0)
    (meets : r.Meets s.layout.cur.entries (fun e => e.collected = true)) :
    s.collect r f = s.countConflict := (if_neg expects).trans (if_pos (overlaps_iff.mpr meets))

theorem State.collect_fills (expects : s.layout.cur.expCount ≠ 0)
    (apart : ¬ r.Meets s.layout.cur.entries (fun e => e.collected = true)) :
    s.collect r f = if newlyCollected (s.curEntry r.id) = true then
      ((s.clearWay r).fillEntry r).checkCurrent f else (s.clearWay r).fillEntry r :=
  (if_neg expects).trans (if_neg (mt overlaps_iff.mp apart))

end

end Sys2Proof.Machine
end

section
/-! SUPPORT. A STREAM record for the pending map, a word of the layout block, and which records are in
range (R11, R58, R59, R71, R75). -/

namespace Sys2Proof.Machine

/-! ## Records in range (R11) -/

section
variable {bs : List Byte}

theorem readStream_some_iff : (∃ r, readStream bs = some r) ↔ (byteAt bs 1).toNat ≤ 15 ∧
    (byteAt bs 2).toNat ≤ 1 ∧ (byteAt bs 3).toNat ≤ 47 ∧ 1 ≤ (byteAt bs 6).toNat ∧
    (byteAt bs 6).toNat ≤ 128 ∧ (halfAt bs 4).toNat + (byteAt bs 6).toNat ≤ 960 ∧
    ((byteAt bs 7).toNat = 1 ∨ (byteAt bs 7).toNat = 5 ∨ (byteAt bs 7).toNat = 10) := by
  simp only [readStream_eq_some]
  constructor
  · rintro ⟨r, version, next, id, depth, start, count, inRange⟩
    rw [runInRange_iff, start, count] at inRange
    refine ⟨version ▸ Nat.le_of_lt_succ r.version.isLt, next ▸ Bool.toNat_le r.next,
      id ▸ Nat.le_of_lt_succ r.id.isLt, inRange.1, inRange.2.1, inRange.2.2, ?_⟩
    rw [← depth]
    cases r.depth <;> decide
  · rintro ⟨version, next, id, low, high, fits, depth⟩
    obtain ⟨d, depth⟩ : ∃ d : Depth, d.frames = (byteAt bs 7).toNat := by
      obtain one | five | ten := depth
      · exact ⟨.d1, one.symm⟩
      · exact ⟨.d5, five.symm⟩
      · exact ⟨.d10, ten.symm⟩
    obtain ⟨n, next⟩ : ∃ n : Bool, n.toNat = (byteAt bs 2).toNat := by
      obtain zero | one := Nat.le_one_iff_eq_zero_or_eq_one.mp next
      · exact ⟨false, zero.symm⟩
      · exact ⟨true, one.symm⟩
    exact ⟨{ version := ⟨_, Nat.lt_succ_of_le version⟩, next := n, id := ⟨_, Nat.lt_succ_of_le id⟩,
             start := (halfAt bs 4).toNat, count := (byteAt bs 6).toNat, depth := d },
      rfl, next, rfl, depth, rfl, rfl, (runInRange_iff _ _).mpr ⟨low, high, fits⟩⟩

theorem readNext_some_iff : (∃ n, readNext bs = some n) ↔
    (byteAt bs 6).toNat ≤ 15 ∧ (byteAt bs 9).toNat ≤ 48 := by
  simp only [readNext_eq_some]
  constructor
  · rintro ⟨n, version, small, -⟩
    exact ⟨version ▸ Nat.le_of_lt_succ n.version.isLt, small⟩
  · rintro ⟨version, small⟩
    exact ⟨{ version := ⟨_, Nat.lt_succ_of_le version⟩
             switchFrame := (halfAt bs 7).extractLsb' 0 12
             count := (byteAt bs 9).toNat, checksum := halfAt bs 10 }, rfl, small, rfl, rfl, rfl⟩

theorem readSummary_some_iff : (∃ r, readSummary bs = some r) ↔ (byteAt bs 1).toNat ≤ 15 ∧
    (byteAt bs 2).toNat ≤ 48 ∧ (byteAt bs 5).toNat ≤ 1 ∧
    ((byteAt bs 5).toNat = 1 → (byteAt bs 6).toNat ≤ 15 ∧ (byteAt bs 9).toNat ≤ 48) := by
  rw [← readNext_some_iff]
  simp only [readSummary_eq_some, flagOf_eq_some]
  constructor
  · rintro ⟨r, version, small, -, -, ⟨flag, -⟩ | ⟨flag, next, present⟩⟩
    · refine ⟨version ▸ Nat.le_of_lt_succ r.version.isLt, small, flag ▸ Nat.zero_le 1, fun one => ?_⟩
      exact nomatch flag.trans one
    · refine ⟨version ▸ Nat.le_of_lt_succ r.version.isLt, small, flag ▸ Nat.le_refl 1, fun _ => ?_⟩
      rw [next] at present
      exact Option.ne_none_iff_exists'.mp present
  · rintro ⟨version, small, flag, next⟩
    obtain zero | one := Nat.le_one_iff_eq_zero_or_eq_one.mp flag
    · exact ⟨{ version := ⟨_, Nat.lt_succ_of_le version⟩, count := (byteAt bs 2).toNat
               checksum := halfAt bs 3, next := none }, rfl, small, rfl, rfl, .inl ⟨zero.symm, rfl⟩⟩
    · exact ⟨{ version := ⟨_, Nat.lt_succ_of_le version⟩, count := (byteAt bs 2).toNat
               checksum := halfAt bs 3, next := readNext bs }, rfl, small, rfl, rfl,
        .inr ⟨one.symm, rfl, Option.ne_none_iff_exists'.mpr (next one)⟩⟩

end

/-! ## The taps under the verification notice (R75) -/

section
variable {s : State} {u : TapNo} {i : StreamId} {e : MapEntry}

theorem State.verified_bound (s : State) (f : FrameNo) (bound : (s.tap u).bound = true)
    (stream : (s.tap u).stream = some i) (found : s.curEntry i = some e) :
    (e.collected = false → (s.tap u).Unbound .orphaned (((s.reportVerified f).eachTap
      (State.tapVerified (uncollected s.layout.cur.entries))).tap u)) ∧
    (e.collected = true → ((s.reportVerified f).eachTap
      (State.tapVerified (uncollected s.layout.cur.entries))).tap u = s.tap u) := by
  obtain ⟨v, -, same, served⟩ := s.verification_tap f (uncollected s.layout.cur.entries) u
  rw [served]
  rw [← same] at bound stream ⊢
  refine ⟨fun gone => ?_, fun kept => ?_⟩
  · rw [State.tapVerified_ends bound ⟨i, mem_uncollected.mpr ⟨e, found, gone⟩, stream⟩]
    exact (v.endInstance_unbind_onTap u _ _).own.1
  · rw [State.tapVerified_idle (.inl ⟨bound, ?_⟩)]
    rintro ⟨j, uncollected, of⟩
    obtain rfl := Option.some.inj (stream.symm.trans of)
    obtain ⟨e', found', gone⟩ := mem_uncollected.mp uncollected
    obtain rfl := Option.some.inj (Eq.trans (Eq.symm found) found')
    exact nomatch kept.symm.trans gone

theorem State.verified_waiting (s : State) (f : FrameNo) (removed : List StreamId)
    (waiting : (s.tap u).state = .waiting)
    (absent : ((s.reportVerified f).eachTap (State.tapVerified removed)).streamEntry u = none) :
    (((s.reportVerified f).eachTap (State.tapVerified removed)).tap u).state = .orphaned := by
  obtain ⟨v, layout, same, served⟩ := s.verification_tap f removed u
  rw [← same] at waiting
  rw [served]
  by_cases gone : v.streamEntry u = none
  · rw [State.tapVerified_orphans waiting gone]
    exact State.setTapState_state _ _ _ _
  · rw [State.tapVerified_idle (.inr (.inl ⟨waiting, gone⟩))] at served
    have entry : v.streamEntry u = none := by
      rw [← absent]
      unfold State.streamEntry State.curEntry
      rw [served, s.verification_layout f removed, layout]
    exact absurd entry gone

end

/-! ## A STREAM record for the pending map (R71) -/

section
variable {s : State} {r : StreamRecord} {f : FrameNo}

theorem State.offerPending_other
    (other : s.layout.pend.state = .none ∨ s.layout.pend.version ≠ some r.version) :
    s.offerPending r f = s := by
  unfold State.offerPending
  obtain none | version := other
  · rw [none]
    exact ite_self s
  · exact if_neg version

theorem State.offerPending_collects (version : s.layout.pend.version = some r.version)
    (collecting : s.layout.pend.state = .collecting) :
    s.offerPending r f = s.collectPending r f := by
  unfold State.offerPending
  rw [if_pos version, collecting]

theorem State.offerPending_confirms (version : s.layout.pend.version = some r.version)
    (ready : s.layout.pend.state = .ready) : s.offerPending r f = s.confirmPending r := by
  unfold State.offerPending
  rw [if_pos version, ready]

theorem State.confirmPending_same {e : MapEntry} (found : entryOf s.layout.pend.entries r.id = some e)
    (same : r.Describes e) : s.confirmPending r = s := by
  unfold State.confirmPending
  rw [found]
  exact if_pos (sameDescriptor_iff.mpr same)

theorem State.confirmPending_conflicts
    (other : ∀ e, entryOf s.layout.pend.entries r.id = some e → ¬ r.Describes e) :
    s.confirmPending r = s.countConflict := by
  unfold State.confirmPending
  cases found : entryOf s.layout.pend.entries r.id with
  | none => rfl
  | some e => exact if_neg (mt sameDescriptor_iff.mp (other e found))

theorem State.collectPending_unexpected (zero : s.layout.pend.expCount = 0) :
    s.collectPending r f = s := if_pos zero

theorem State.collectPending_conflicts (expects : s.layout.pend.expCount ≠ 0)
    (meets : r.Meets s.layout.pend.entries (fun _ => True)) :
    s.collectPending r f = s.countConflict := by
  refine (if_neg expects).trans (if_pos (overlaps_iff.mpr ?_))
  simpa only [eq_self] using meets

/-- The record's entry put into the pending map (R71). -/
def State.putPending (s : State) (r : StreamRecord) : State :=
  s.setPending { s.layout.pend with
    entries := setEntry s.layout.pend.entries r.id (some r.entry) }

theorem State.collectPending_fills (expects : s.layout.pend.expCount ≠ 0)
    (apart : ¬ r.Meets s.layout.pend.entries (fun _ => True)) :
    (entryOf s.layout.pend.entries r.id = none →
      s.collectPending r f = (s.putPending r).checkPending f) ∧
    (entryOf s.layout.pend.entries r.id ≠ none → s.collectPending r f = s.putPending r) := by
  have free : ¬ overlaps s.layout.pend.entries (fun _ => true) r = true := fun meets => by
    refine apart ?_
    simpa only [eq_self] using overlaps_iff.mp meets
  unfold State.collectPending
  dsimp only
  rw [if_neg expects, if_neg free]
  cases found : entryOf s.layout.pend.entries r.id with
  | none => exact ⟨fun _ => rfl, fun k => absurd rfl k⟩
  | some e => exact ⟨nofun, fun _ => rfl⟩

theorem State.offerPending_buffers (s : State) (r : StreamRecord) (f : FrameNo) :
    s.SameBuffers (s.offerPending r f) := by
  have collected : s.SameBuffers (s.collectPending r f) := by
    by_cases zero : s.layout.pend.expCount = 0
    · rw [State.collectPending_unexpected zero]
      exact .refl s
    · by_cases meets : r.Meets s.layout.pend.entries (fun _ => True)
      · rw [State.collectPending_conflicts zero meets]
        rfl
      · obtain ⟨new, old⟩ := State.collectPending_fills (f := f) zero meets
        by_cases found : entryOf s.layout.pend.entries r.id = none
        · rw [new found]
          exact State.checkPending_buffers (s.putPending r) f
        · rw [old found]
          rfl
  have confirmed : s.SameBuffers (s.confirmPending r) := by
    by_cases same : ∃ e, entryOf s.layout.pend.entries r.id = some e ∧ r.Describes e
    · obtain ⟨e, found, same⟩ := same
      rw [State.confirmPending_same found same]
      exact .refl s
    · rw [State.confirmPending_conflicts fun e found k => same ⟨e, found, k⟩]
      rfl
  by_cases version : s.layout.pend.version = some r.version
  · cases state : s.layout.pend.state with
    | none =>
      rw [State.offerPending_other (.inl state)]
      exact .refl s
    | collecting =>
      rw [State.offerPending_collects version state]
      exact collected
    | ready =>
      rw [State.offerPending_confirms version state]
      exact confirmed
  · rw [State.offerPending_other (.inr version)]
    exact .refl s

theorem State.offerCurrent_buffers (s : State) (r : StreamRecord) (f : FrameNo) :
    s.SameBuffers (s.offerCurrent r f) := by
  have collected : s.SameBuffers (s.collect r f) := by
    by_cases zero : s.layout.cur.expCount = 0
    · rw [State.collect_unexpected zero]
      exact .refl s
    · by_cases meets : r.Meets s.layout.cur.entries (fun e => e.collected = true)
      · rw [State.collect_conflicts zero meets]
        rfl
      · obtain ⟨-, layout⟩ := (s.clearWay_only r).trans ((s.clearWay r).fillEntry_only r)
        have filled : s.SameBuffers ((s.clearWay r).fillEntry r) := by
          unfold State.SameBuffers
          rw [layout]
        rw [State.collect_fills zero meets]
        generalize (s.clearWay r).fillEntry r = v at filled
        exact .ite (filled.trans (v.checkCurrent_buffers f)) filled
  have confirmed : s.SameBuffers (s.confirm r) := by
    by_cases same : ∃ e, s.curEntry r.id = some e ∧ r.Describes e
    · obtain ⟨e, found, same⟩ := same
      rw [State.confirm_same found same]
      exact .refl s
    · rw [State.confirm_conflicts fun e found k => same ⟨e, found, k⟩]
      rfl
  by_cases version : s.layout.cur.version = some r.version
  · cases state : s.layout.cur.state with
    | empty =>
      rw [State.offerCurrent_other (.inl state)]
      exact .refl s
    | collecting =>
      rw [State.offerCurrent_collects version (.inl state)]
      exact collected
    | suspect =>
      rw [State.offerCurrent_collects version (.inr state)]
      exact collected
    | verified =>
      rw [State.offerCurrent_confirms version state]
      exact confirmed
  · rw [State.offerCurrent_other (.inr version)]
    exact .refl s

theorem State.takeRecord_buffers (s : State) (c : RecordClass) (f : FrameNo) :
    s.SameBuffers (s.takeRecord c f) := by
  cases c with
  | empty | badCheck | unknownKind | outOfRangeStream | outOfRangeSummary => exact rfl
  | stream r => exact .ite (s.offerPending_buffers r f) (s.offerCurrent_buffers r f)
  | summary r =>
    exact (s.takeCurrentPart_buffers r f).trans (State.takeNextPart_buffers _ r f)

end

/-! ## A word of the layout block (R58, R59) -/

section
variable {s : State} {b : WriteBeat} {off : Nat} {p i : Fin 8}

theorem State.layoutBeat_idle (idle : s.reception.openFrame = none ∨ b.strobes ≠ 0xF) :
    s.layoutBeat off b = s := by
  unfold State.layoutBeat
  cases opened : s.reception.openFrame with
  | none => rfl
  | some o =>
    refine if_neg fun full => ?_
    exact (idle.resolve_left (by rw [opened]; exact nofun)) (by simpa [allStrobes] using full)

theorem State.layoutBeat_offers {o : OpenRecord} (opened : s.reception.openFrame = some o)
    (strobes : b.strobes = 0xF) (at' : off = 64 + 32 * p.val + 4 * i.val) :
    s.layoutBeat off b = s.offerWord p i b.data o.num := by
  have position : Fin.ofNat 8 ((off - 64) / 32) = p := by
    apply Fin.ext
    simp only [Fin.val_ofNat]
    omega
  have word : Fin.ofNat 8 ((off - 64) % 32 / 4) = i := by
    apply Fin.ext
    simp only [Fin.val_ofNat]
    omega
  unfold State.layoutBeat
  rw [opened]
  dsimp only
  rw [if_pos (by rw [allStrobes, strobes]; rfl), position, word]

theorem State.offerWord_stores {data : Word} {f : FrameNo}
    (more : (s.layout.buffers[p].write i data).mask ≠ 0xFF) :
    s.offerWord p i data f = s.setBuffer p (s.layout.buffers[p].write i data) := if_neg more

theorem State.offerWord_takes {data : Word} {f : FrameNo}
    (full : (s.layout.buffers[p].write i data).mask = 0xFF) : s.offerWord p i data f =
      (s.setBuffer p AsmBuffer.clear).takeRecord
        (classify (s.layout.buffers[p].write i data).bytes) f := if_pos full

theorem State.setBuffer_clear_kept {t : State} (same : (s.setBuffer p AsmBuffer.clear).SameBuffers t) :
    t.layout.buffers[p] = AsmBuffer.clear := by
  rw [show t.layout.buffers = s.layout.buffers.set p AsmBuffer.clear from same]
  exact Vector.getElem_set_self p.isLt

end

end Sys2Proof.Machine
end

section
/-! CLAIMS. A word of the layout block, the records it completes and the maps they fill (R11 to R13,
R58, R59, R61 to R72, R75, R78, R92). -/

namespace Sys2Proof.Machine

section
variable {s : State} {r : StreamRecord} {u : TapNo} {j : StreamId}

/-- The current map keeps an entry for the record's stream while the way is cleared (R67). -/
theorem State.clearWay_own (s : State) (r : StreamRecord) :
    (s.clearWay r).curEntry r.id = s.curEntry r.id :=
  (s.clearWay_entry r r.id).2 fun way => s.not_inWay_id r way.2

theorem State.filled_own (s : State) (r : StreamRecord) :
    ((s.clearWay r).fillEntry r).curEntry r.id = some r.entry := State.fillEntry_own _ r

theorem State.filled_cleared (ne : j ≠ r.id) (suspect : s.layout.cur.state = .suspect)
    (way : s.InWay r j) : ((s.clearWay r).fillEntry r).curEntry j = none ∧
      ((s.tap u).bound = true → (s.tap u).stream = some j →
        (((s.clearWay r).fillEntry r).tap u).state = .waiting ∧
          (((s.clearWay r).fillEntry r).tap u).inst = none) := by
  refine ⟨(State.fillEntry_other _ r ne).trans ((s.clearWay_entry r j).1 ⟨suspect, way⟩),
    fun bound stream => ?_⟩
  have freed := State.clearWay_freesTap suspect way bound stream
  have kept : ((s.clearWay r).fillEntry r).tap u = (s.clearWay r).tap u := by
    refine State.fillEntry_keepsTap fun k => ?_
    rw [Tap.bound, freed.state] at k
    exact nomatch k.1
  rw [kept]
  exact ⟨freed.state, freed.inst⟩

theorem State.filled_kept (ne : j ≠ r.id)
    (free : ¬ (s.layout.cur.state = .suspect ∧ s.InWay r j)) :
    ((s.clearWay r).fillEntry r).curEntry j = s.curEntry j :=
  (State.fillEntry_other _ r ne).trans ((s.clearWay_entry r j).2 free)

/-- A bound tap of the stream whose descriptor changes awaits restart (R66, R75). -/
theorem State.filled_restarts {e : MapEntry} {i : TapInstance} (found : s.curEntry r.id = some e)
    (other : ¬ r.Describes e) (bound : (s.tap u).bound = true)
    (stream : (s.tap u).stream = some r.id) (inst : (s.tap u).inst = some i) :
    ((s.clearWay r).fillEntry r).tap u =
      { s.tap u with inst := some { i with restart := true } } := by
  have kept : (s.clearWay r).tap u = s.tap u := by
    refine State.clearWay_keepsTap fun j _ of => ?_
    obtain rfl := Option.some.inj (stream.symm.trans of)
    exact s.not_inWay_id r
  have replaced := ((s.clearWay r).replacedTap r u).1
  rw [kept] at replaced
  rw [State.fillEntry_replaces ⟨e, (s.clearWay_own r).trans found, other⟩,
    replaced ⟨bound, stream⟩, inst]
  rfl

end

/-- Settles O31: a word is stored or completes a record, a record is taken by its class, and each map
by its state. -/
theorem layoutWordOffered : Obligations.LayoutWordOffered := by
  unfold Obligations.LayoutWordOffered
  refine ⟨fun s tag addr kind b p i up opens aligned area at' => ?_, fun bs => ?_, fun s f =>
      ⟨rfl, rfl, rfl, rfl, rfl, fun r => rfl, fun r => rfl⟩, fun s r f => ?_, fun s f => ?_,
    fun s r f => ?_, fun s r j => ?_, fun s u removed i => ?_, fun s r f => ?_, fun s r f => ?_,
    fun s f => ?_, ⟨rfl, crc16_concat_steps⟩, fun version m p => ?_, collectedCount_eq,
    fun s m i => ⟨rfl, rfl, entryOf_absent i⟩, fun v => rfl,
    fun a n b k => ⟨runsMeet_iff a n b k, runInRange_iff a n⟩, fun b =>
      ⟨b.bytes_lane.1, b.bytes_lane.2, (AsmBuffer.clear_words 0).1, fun i =>
        (AsmBuffer.clear_words i).2⟩⟩
  · -- The word (R58, R59)
    have beat : s.writeBeat addr b =
        (s.layoutBeat (addr - s.landingBase).toNat b, BeatPlan.forward .layoutBlock addr) := by
      unfold State.writeBeat
      rw [area]
    obtain ⟨t, -, run, -, -, -, -, links⟩ := exec_oneBeat_forwarded up opens aligned tag kind beat
    refine ⟨t, run, fun idle => ?_, fun opened strobes => ?_⟩
    · rwa [State.layoutBeat_idle idle] at links
    · intro w
      obtain ⟨o, opened⟩ := Option.ne_none_iff_exists'.mp opened
      rw [State.layoutBeat_offers opened strobes at'] at links
      refine ⟨⟨rfl, rfl⟩, fun more => ?_, fun full => ?_, fun o' full opened' => ?_,
        fun full used bad => ?_⟩
      · rw [State.offerWord_stores more] at links
        rw [show t = _ from links]
        exact ⟨rfl, rfl, rfl, rfl, rfl⟩
      · rw [State.offerWord_takes full] at links
        refine State.setBuffer_clear_kept (s := s) ?_
        rw [show t = _ from links]
        exact State.takeRecord_buffers (s.setBuffer p AsmBuffer.clear) _ o.num
      · obtain rfl := Option.some.inj (opened.symm.trans opened')
        rw [State.offerWord_takes full] at links
        exact links
      · rw [State.offerWord_takes full, classify_badCheck used bad] at links
        rw [show t = _ from links]
        exact ⟨rfl, rfl, rfl, rfl, rfl⟩
  · -- The classes of a completed record (R11)
    intro kind good b start streamGood summaryGood
    refine ⟨classify_empty, classify_badCheck, fun used other other' ok =>
      classify_unknown used ⟨other, other'⟩ ok, fun stream ok bad => ?_, fun stream ok inRange => ?_,
      fun summary ok bad => ?_, fun summary ok inRange => ?_⟩
    · have none : readStream bs = none := Option.eq_none_iff_forall_ne_some.mpr fun r found =>
        bad (readStream_some_iff.mp ⟨r, found⟩)
      rw [classify_stream stream ok, none]
      rfl
    · obtain ⟨r, found⟩ := readStream_some_iff.mpr inRange
      obtain ⟨version, next, id, depth, starts, count, -⟩ := readStream_eq_some.mp found
      refine ⟨r, ?_, version, ?_, id, starts, count, depth⟩
      · rw [classify_stream stream ok, found]
        rfl
      · dsimp only [b]
        rw [← next]
        cases r.next <;> decide
    · have none : readSummary bs = none := Option.eq_none_iff_forall_ne_some.mpr fun r found =>
        bad (readSummary_some_iff.mp ⟨r, found⟩)
      rw [classify_summary summary ok, none]
      rfl
    · obtain ⟨r, found⟩ := readSummary_some_iff.mpr inRange
      obtain ⟨version, -, count, checksum, next⟩ := readSummary_eq_some.mp found
      simp only [flagOf_eq_some] at next
      refine ⟨r, ?_, version, count, checksum, fun zero => ?_, fun one => ?_⟩
      · rw [classify_summary summary ok, found]
        rfl
      · obtain ⟨-, next⟩ | ⟨flag, -⟩ := next
        · exact next
        · exact nomatch flag.trans zero
      · obtain ⟨flag, -⟩ | ⟨-, next, present⟩ := next
        · exact nomatch flag.trans one
        · obtain ⟨n, found⟩ := Option.ne_none_iff_exists'.mp present
          obtain ⟨version, -, switch, count, checksum⟩ := readNext_eq_some.mp (next.symm.trans found)
          exact ⟨n, found, version, switch.trans (BitVec.setWidth_eq_extractLsb' (by decide)).symm,
            count, checksum⟩
  · -- The current part of a SUMMARY (R62, R64)
    intro m t set fresh
    refine ⟨State.takeCurrentPart_first, fun used version => ?_, fun used version => ?_⟩
    · have taken := State.takeCurrentPart_same (f := f) used version
      exact ⟨fun same => taken.trans (if_pos same), fun other => taken.trans (if_neg other)⟩
    · refine ⟨s.reportVersion r f, (s.reportVersion r f).eachTap State.tapVersion, ?_,
        State.hand_hands _ _, State.eachTap_foldl _ _, fun u => ?_,
        State.takeCurrentPart_change used version⟩
      · exact ((State.hand_keeps (s.setCurrent _) _).trans
          (State.Keeps.eachTap State.tapVersion_keeps (s.reportVersion r f))).only
      · have leaves := s.versionNotice_tap r f u
        refine ⟨fun bound => ?_, fun orphaned => ?_, leaves.other⟩
        · obtain ⟨unbound, retained⟩ := leaves.bound bound
          exact ⟨unbound.state, unbound.inst, unbound.openFrames, retained⟩
        · rw [leaves.orphaned orphaned]
          exact Tap.changed_state _ _
  · -- The check of the current map (R63)
    intro m t sum
    refine ⟨State.checkCurrent_waits, fun full same => ⟨s.checkCurrent_only f, ?_⟩,
      fun full same => ?_, fun full other => ?_⟩
    · have checked := State.checkCurrent_matches (f := f) full same
      have layout := s.verification_layout f (uncollected s.layout.cur.entries)
      rw [← checked] at layout
      refine ⟨?_, fun i => ?_, fun u => ⟨fun i e bound stream found => ?_, fun waiting absent => ?_⟩⟩
      · dsimp only [t]
        rw [layout]
        rfl
      · dsimp only [t]
        rw [State.curEntry, layout]
        exact s.verifyCurrent_entry i
      · obtain ⟨gone, kept⟩ := s.verified_bound f bound stream found
        rw [← checked] at gone kept
        exact ⟨fun uncollected => ⟨(gone uncollected).state, (gone uncollected).inst,
          (gone uncollected).openFrames⟩, kept⟩
      · have orphans := s.verified_waiting f (uncollected s.layout.cur.entries) waiting
        rw [← checked] at orphans
        exact orphans absent
    · have checked := State.checkCurrent_matches (f := f) full same
      have layout := s.verification_layout f (uncollected s.layout.cur.entries)
      rw [← checked] at layout
      refine ⟨s.reportVerified f, uncollected s.layout.cur.entries, ?_, fun i => mem_uncollected,
        checked.trans (State.eachTap_foldl _ _)⟩
      dsimp only [t]
      rw [layout]
      exact s.verifyCurrent.hand_hands _
    · have checked := State.checkCurrent_mismatches (f := f) full other
      have latches := s.suspectCurrent.latch_latches .layoutMismatch
      have layout : t.layout = s.suspectCurrent.layout := by
        dsimp only [t]
        rw [checked]
        split
        · exact s.suspectCurrent.latch_layout _
        · exact (State.hand_layout _ _).trans (s.suspectCurrent.latch_layout _)
      have only : s.suspectCurrent.OnlyReporter t := by
        dsimp only [t]
        rw [checked]
        split
        · exact latches.only
        · exact latches.only.trans (State.hand_hands _ _).only
      refine ⟨?_, fun i => ?_, s.suspectCurrent.latch .layoutMismatch, ?_, fun marked =>
        checked.trans (if_pos marked), fun fresh => ?_⟩
      · rw [layout]
        exact only
      · rw [State.curEntry, layout]
        exact s.suspectCurrent_entry i
      · rw [layout]
        exact latches
      · dsimp only [t]
        rw [checked, if_neg (by rw [fresh]; decide)]
        exact State.hand_hands _ _
  · -- A STREAM record for the current map (R63, R65 to R68)
    intro m t conflict
    refine ⟨State.offerCurrent_other, fun version verified => ?_, fun version open' => ?_⟩
    · have confirms := State.offerCurrent_confirms (f := f) version verified
      exact ⟨fun ⟨e, found, same⟩ => confirms.trans (State.confirm_same found same), fun other =>
        confirms.trans (State.confirm_conflicts other)⟩
    · have collects := State.offerCurrent_collects (f := f) version open'
      refine ⟨fun zero => collects.trans (State.collect_unexpected zero), fun expects meets =>
        collects.trans (State.collect_conflicts expects meets), fun expects apart => ?_⟩
      have fills := collects.trans (State.collect_fills expects apart)
      obtain ⟨only, layout⟩ := (s.clearWay_only r).trans ((s.clearWay r).fillEntry_only r)
      refine ⟨s.clearWay r, (s.clearWay r).putEntry r, (s.clearWay r).fillEntry r,
        State.clearWay_other, State.clearWay_suspect, ?_, fun other => ?_, fun same => ?_, only, layout,
        s.filled_own r, fun j ne => ⟨fun way => ?_, fun free => ?_⟩,
        fun e found other u i bound stream inst =>
          State.filled_restarts found other bound stream inst, fun new => ?_, fun old => ?_⟩
      · rw [State.fillEntry_layout]
        rfl
      · rw [← s.clearWay_own r] at other
        exact (State.fillEntry_replaces other).trans (State.eachTap_foldl _ _)
      · rw [← s.clearWay_own r] at same
        exact State.fillEntry_same same
      · obtain ⟨suspect, way⟩ := way
        have way := State.inWay_iff.mpr ⟨ne, way⟩
        exact ⟨(State.filled_cleared (u := 0) ne suspect way).1, fun u =>
          (State.filled_cleared ne suspect way).2⟩
      · exact State.filled_kept ne fun way => free ⟨way.1, (State.inWay_iff.mp way.2).2⟩
      · exact fills.trans (if_pos (newlyCollected_iff.mpr new))
      · obtain ⟨e, found, collected⟩ := old
        refine fills.trans (if_neg fun new => ?_)
        exact nomatch (newlyCollected_iff.mp new e found).symm.trans collected
  · -- The removal of one entry (R67)
    intro t meets
    refine ⟨fun free => State.dropUncollected_free (mt State.inWay_iff.mp free), fun way =>
      ⟨s.removeEntry j, rfl, s.removeEntry_entry j, fun i => s.removeEntry_other, ?_⟩⟩
    exact (State.dropUncollected_removes (State.inWay_iff.mpr way)).trans (State.eachTap_foldl _ _)
  · -- The notices to one tap (R75, R92)
    refine ⟨fun bound => ⟨_, s.instanceEnd_ends u, State.leave_unbinds bound⟩, State.leave_enters,
      State.leave_other, fun bound gone => ⟨_, s.instanceEnd_ends u, ?_⟩, fun waiting absent => ?_,
      State.tapVerified_idle, fun of => ⟨_, s.instanceEnd_ends u, ?_⟩, State.tapReplaced_marks,
      fun other => ⟨State.tapRemoved_idle other, State.tapReplaced_idle other⟩⟩
    · rw [State.tapVerified_ends bound gone]
      exact State.unbind_unbinds _ u _ _
    · rw [State.tapVerified_orphans waiting absent]
      exact s.setTapState_enters u _ _
    · rw [State.tapRemoved_ends of]
      exact State.unbind_unbinds _ u _ _
  · -- The next part of a SUMMARY (R69, R70)
    intro p t lead
    refine ⟨fun next idle => ?_, fun next used => ⟨_, State.hand_hands _ _, ?_⟩, fun n next => ?_⟩
    · exact (State.takeNextPart_withdraw next).trans (if_pos idle)
    · exact (State.takeNextPart_withdraw next).trans (if_neg used)
    · intro same
      have announces := State.takeNextPart_announce (s := s) (f := f) next
      refine ⟨fun far => announces.trans (if_pos far), fun near inTime again => ?_,
        fun near inTime other => ⟨_, State.hand_hands _ _, ?_⟩⟩
      · exact (announces.trans (if_neg (not_or.mpr ⟨Nat.not_lt.mpr near, Nat.not_lt.mpr inTime⟩))).trans
          (if_pos (PendingMap.announces_iff.mpr again))
      · exact (announces.trans (if_neg (not_or.mpr ⟨Nat.not_lt.mpr near, Nat.not_lt.mpr inTime⟩))).trans
          (if_neg (mt PendingMap.announces_iff.mp other))
  · -- A STREAM record for the pending map (R71)
    intro p t conflict
    refine ⟨State.offerPending_other, fun version ready => ?_, fun version collecting => ?_⟩
    · have confirms := State.offerPending_confirms (f := f) version ready
      exact ⟨fun ⟨e, found, same⟩ => confirms.trans (State.confirmPending_same found same),
        fun other => confirms.trans (State.confirmPending_conflicts other)⟩
    · have collects := State.offerPending_collects (f := f) version collecting
      refine ⟨fun zero => collects.trans (State.collectPending_unexpected zero), fun expects meets =>
        collects.trans (State.collectPending_conflicts expects meets), fun expects apart => ?_⟩
      obtain ⟨new, old⟩ := State.collectPending_fills (f := f) expects apart
      exact ⟨s.putPending r, rfl, entryOf_setEntry_same _ _ _, fun j ne => entryOf_setEntry_other _ _ ne,
        fun absent => collects.trans (new absent), fun present => collects.trans (old present)⟩
  · -- The check of the pending map (R72)
    intro p t sum lead set
    refine ⟨State.checkPending_waits, fun full same => ?_, fun full other =>
      ⟨s.recollectPending.latch .layoutMismatch, State.latch_latches _ _, ?_, fun fresh => ?_⟩⟩
    · dsimp only [t]
      rw [State.checkPending_matches full same]
      exact State.hand_hands _ _
    · exact fun marked => (State.checkPending_mismatches full other).trans (if_pos marked)
    · dsimp only [t]
      rw [State.checkPending_mismatches full other, if_neg (by rw [fresh]; decide)]
      exact State.hand_hands _ _
  · -- The six bytes of each stream (R13)
    intro six
    rw [mapChecksum_eq]
    congr 2
    funext i
    dsimp only [six]
    cases (entryOf m i).filter p with
    | none => rfl
    | some e =>
      refine (checksumBytes_eq version i e).trans ?_
      obtain ⟨start, count, depth, collected⟩ := e
      cases depth <;> rfl

end Sys2Proof.Machine
end
